-- ==== Sys2Proof/Word.lean ====
section
/-! DEFINITION. The word types of the HDCP transmitter controller (00_scope.md R10, 20_memory.md R80). -/

namespace Sys2Proof

/-- One byte: a receiver location, a byte of a key-selection vector or of a local buffer. -/
abbrev Byte := BitVec 8

/-- One 32-bit word: a command word, a cipher register, the port register (20_memory.md R80). -/
abbrev Word := BitVec 32

end Sys2Proof
end

