-- ==== Sys2Proof/Syntax.lean ====
section
/-! DEFINITION. The operations of the block, one constructor per row of spec/opcode_table.json (30_encoding.md R100),
with the command word's fields as their only syntactic operands (R102). -/

namespace Sys2Proof

/-- The block's operations (30_encoding.md R100). `on`, `sub` and `size` are fields of the command word (R101); every
other operand comes with the argument record. -/
inductive Instr where
  /-- HDCP_QUERY (41_controller.md R141). -/
  | hdcpQuery
  /-- HDCP_IS_ENABLED (41_controller.md R142). -/
  | hdcpIsEnabled
  /-- HDCP_ENABLE (41_controller.md R143). -/
  | hdcpEnable (on : Bool)
  /-- HDCP_GET_CP_DATA (46_cp_params.md R240). -/
  | hdcpGetCpData
  /-- HDCP_SET_CP_DATA (46_cp_params.md R241). -/
  | hdcpSetCpData
  /-- HDCP_IS_VALID_BKSV (43_validator.md R180). -/
  | hdcpIsValidBksv
  /-- SET_ENCRYPTION_LEVEL (41_controller.md R153). -/
  | setEncryptionLevel (on : Bool)
  /-- ACTIVATE_REPEATER (44_repeater.md R190). -/
  | activateRepeater
  /-- BUILD_SHA1_BUFFER (44_repeater.md R196). -/
  | buildSha1Buffer
  /-- COMPUTE_TRANSMITTER_V (44_repeater.md R200). -/
  | computeTransmitterV
  /-- COMPARE_V_PRIME (44_repeater.md R209). -/
  | compareVPrime
  /-- GET_LINK_STATUS (45_link_monitor.md R230). -/
  | getLinkStatus
  /-- IS_REVOKED (43_validator.md R181). -/
  | isRevoked
  /-- RX_READ (42_receiver_io.md R170). -/
  | rxRead (sub : Byte) (size : BitVec 10)
  /-- RX_WRITE (42_receiver_io.md R171). -/
  | rxWrite (sub : Byte) (size : BitVec 10)
  /-- RX_READ_VPRIME (42_receiver_io.md R173). -/
  | rxReadVPrime
  /-- SET_REPEATER_PRESENT (41_controller.md R154). -/
  | setRepeaterPresent (on : Bool)
  /-- REPEATER_TEARDOWN (44_repeater.md R210). -/
  | repeaterTeardown
  deriving DecidableEq, Repr

/-! The pseudo-commands of 30_encoding.md R106, each exactly its expansion. -/

/-- HDCP_DISABLE. -/
abbrev Instr.hdcpDisable : Instr := .hdcpEnable false
/-- HDCP_AUTHENTICATE. -/
abbrev Instr.hdcpAuthenticate : Instr := .hdcpEnable true
/-- RX_READ_BCAPS. -/
abbrev Instr.rxReadBcaps : Instr := .rxRead 0x40 1
/-- RX_READ_BSTATUS. -/
abbrev Instr.rxReadBstatus : Instr := .rxRead 0x41 2
/-- RX_READ_RI. -/
abbrev Instr.rxReadRi : Instr := .rxRead 0x08 2

end Sys2Proof
end

