-- ==== Sys2Proof/WellFormed.lean ====
section
/-! DEFINITION. Which operations a command word can name (30_encoding.md R101, R104). -/

namespace Sys2Proof

/-- An operation a legal command word names: a transaction size is 1 to 1023 bytes (30_encoding.md R101; a size of 0
is illegal by R104). The field widths are in the types. -/
def Instr.wf : Instr → Bool
  | .rxRead _ size => decide (size ≠ 0)
  | .rxWrite _ size => decide (size ≠ 0)
  | .hdcpQuery | .hdcpIsEnabled | .hdcpEnable _ | .hdcpGetCpData | .hdcpSetCpData | .hdcpIsValidBksv
  | .setEncryptionLevel _ | .activateRepeater | .buildSha1Buffer | .computeTransmitterV | .compareVPrime
  | .getLinkStatus | .isRevoked | .rxReadVPrime | .setRepeaterPresent _ | .repeaterTeardown => true

end Sys2Proof
end

