-- ==== Sys2Proof/Decode.lean ====
section
/-! DEFINITION. Command words: decoding, total on every 32-bit word and rejecting by name, and encoding
(30_encoding.md R100, R101, R104, R107). -/

namespace Sys2Proof

/-- Why a command word is illegal (30_encoding.md R104). -/
inductive Illegal where
  /-- `word[7:0]` is no opcode of R100. -/
  | unknownOpcode
  /-- A bit that R101 says must be 0 is 1. -/
  | reservedBits
  /-- Format C2 with `size` 0. -/
  | zeroSize
  deriving DecidableEq, Repr

/-- `opcode = word[7:0]` (30_encoding.md R107). -/
def opcodeField (w : Word) : Byte := w.extractLsb' 0 8
/-- `on`, bit 8 of format C1. -/
def onField (w : Word) : Bool := w.getLsbD 8
/-- `sub`, bits 15:8 of format C2. -/
def subField (w : Word) : Byte := w.extractLsb' 8 8
/-- `size`, bits 25:16 of format C2. -/
def sizeField (w : Word) : BitVec 10 := w.extractLsb' 16 10

/-- Format C0: bits 31:8 must be 0. -/
def decodeC0 (w : Word) (i : Instr) : Except Illegal Instr :=
  if w.extractLsb' 8 24 = 0 then .ok i else .error .reservedBits

/-- Format C1: `on` in bit 8; bits 31:9 must be 0. -/
def decodeC1 (w : Word) (i : Bool → Instr) : Except Illegal Instr :=
  if w.extractLsb' 9 23 = 0 then .ok (i (onField w)) else .error .reservedBits

/-- Format C2: `sub` in bits 15:8, `size` in bits 25:16, not 0; bits 31:26 must be 0. -/
def decodeC2 (w : Word) (i : Byte → BitVec 10 → Instr) : Except Illegal Instr :=
  if w.extractLsb' 26 6 = 0 then
    if sizeField w = 0 then .error .zeroSize else .ok (i (subField w) (sizeField w))
  else .error .reservedBits

/-- Decoding a command word (30_encoding.md R100, R107). -/
def decode (w : Word) : Except Illegal Instr :=
  match (opcodeField w).toNat with
  | 0x01 => decodeC0 w .hdcpQuery
  | 0x02 => decodeC0 w .hdcpIsEnabled
  | 0x03 => decodeC1 w .hdcpEnable
  | 0x04 => decodeC0 w .hdcpGetCpData
  | 0x05 => decodeC0 w .hdcpSetCpData
  | 0x06 => decodeC0 w .hdcpIsValidBksv
  | 0x10 => decodeC1 w .setEncryptionLevel
  | 0x11 => decodeC0 w .activateRepeater
  | 0x12 => decodeC0 w .buildSha1Buffer
  | 0x13 => decodeC0 w .computeTransmitterV
  | 0x14 => decodeC0 w .compareVPrime
  | 0x15 => decodeC0 w .getLinkStatus
  | 0x16 => decodeC0 w .isRevoked
  | 0x17 => decodeC2 w .rxRead
  | 0x18 => decodeC2 w .rxWrite
  | 0x19 => decodeC0 w .rxReadVPrime
  | 0x1A => decodeC1 w .setRepeaterPresent
  | 0x1B => decodeC0 w .repeaterTeardown
  | _ => .error .unknownOpcode

/-- The opcode of each operation (30_encoding.md R100). -/
def Instr.opcode : Instr → Byte
  | .hdcpQuery => 0x01
  | .hdcpIsEnabled => 0x02
  | .hdcpEnable _ => 0x03
  | .hdcpGetCpData => 0x04
  | .hdcpSetCpData => 0x05
  | .hdcpIsValidBksv => 0x06
  | .setEncryptionLevel _ => 0x10
  | .activateRepeater => 0x11
  | .buildSha1Buffer => 0x12
  | .computeTransmitterV => 0x13
  | .compareVPrime => 0x14
  | .getLinkStatus => 0x15
  | .isRevoked => 0x16
  | .rxRead _ _ => 0x17
  | .rxWrite _ _ => 0x18
  | .rxReadVPrime => 0x19
  | .setRepeaterPresent _ => 0x1A
  | .repeaterTeardown => 0x1B

/-- The fields above the opcode, bits 31:8 of the word (30_encoding.md R101). -/
def Instr.operandBits : Instr → BitVec 24
  | .hdcpEnable on | .setEncryptionLevel on | .setRepeaterPresent on => 0#23 ++ BitVec.ofBool on
  | .rxRead sub size | .rxWrite sub size => 0#6 ++ size ++ sub
  | .hdcpQuery | .hdcpIsEnabled | .hdcpGetCpData | .hdcpSetCpData | .hdcpIsValidBksv | .activateRepeater
  | .buildSha1Buffer | .computeTransmitterV | .compareVPrime | .getLinkStatus | .isRevoked | .rxReadVPrime
  | .repeaterTeardown => 0

/-- The command word of an operation (30_encoding.md R100, R101). -/
def encode (i : Instr) : Word := i.operandBits ++ i.opcode

/-- The instruction the decoder reads from a table row's word of `nbits` bits; every bit above them is 0. Every row of
this hardware's table is one 32-bit word (30_encoding.md R101), so a longer word is no command. -/
def decodeTableWord (nbits w : Nat) : Option Instr :=
  let v := w % 2 ^ nbits
  if v < 2 ^ 32 then (decode (BitVec.ofNat 32 v)).toOption else none

end Sys2Proof
end

