-- ==== Sys2Proof/Config.lean ====
section
/-! DEFINITION. What an implementation fixes: the fixed parameters of 00_scope.md R7, the open parameters of R8 as
one record of plain data, and the free values, which are constants without a body. -/

namespace Sys2Proof

/-! ## Fixed parameters (00_scope.md R7) -/

/-- `POLL_MAX`: bound of every hardware-status poll loop. -/
abbrev pollMax : Nat := 1500
/-- `DISABLE_CHECKS`: status checks of the disable wait. -/
abbrev disableChecksMax : Nat := 2
/-- `LINK_ATTEMPTS`: Ri comparison attempts of the link monitor. -/
abbrev linkAttempts : Nat := 4
/-- `RI_FRAME_PERIOD`: frames between Ri updates. -/
abbrev riFramePeriod : Nat := 128
/-- `AN_SETTLE_US`: settle delay after the two An-seed writes, in microseconds. -/
abbrev anSettleUs : Nat := 10
/-- `KSV_BYTES`: bytes of a key-selection vector. -/
abbrev ksvBytes : Nat := 5
/-- `KSV_WEIGHT`: the number of 1 bits of a valid key-selection vector. -/
abbrev ksvWeight : Nat := 20
/-- `DEVICE_COUNT_MAX`: the largest accepted device count (90_conflicts.md C2). -/
abbrev deviceCountMax : Nat := 127
/-- `TOPO_BYTES`: bytes of the topology value in the SHA-1 input. -/
abbrev topoBytes : Nat := 2
/-- `MO_BYTES`: bytes of the Mo placeholder. -/
abbrev moBytes : Nat := 8
/-- `LEN_BYTES`: bytes of the SHA-1 bit-length field. -/
abbrev lenBytes : Nat := 8
/-- `SHA_BLOCK`: alignment of the SHA-1 input buffer. -/
abbrev shaBlock : Nat := 64
/-- `VPRIME_BLOCKS`: 4-byte blocks of V′. -/
abbrev vprimeBlocks : Nat := 5
/-- The size of the buffer `s.ksvbuf` (00_scope.md R9, 20_memory.md R72). -/
abbrev ksvBufBytes : Nat := 635
/-- The size of the buffer `s.shabuf` (00_scope.md R9, 20_memory.md R72). -/
abbrev shaBufBytes : Nat := 704

/-! ## Open parameters (00_scope.md R8) -/

/-- A bit field of a register: its lowest bit and its width. -/
structure Field where
  lo : Nat
  width : Nat
  deriving DecidableEq, Repr, Inhabited

/-- The field lies inside a register of `n` bits. -/
def Field.fits (f : Field) (n : Nat) : Bool := decide (0 < f.width) && decide (f.lo + f.width ≤ n)

/-- Two fields of one register share no bit. -/
def Field.apart (f g : Field) : Bool :=
  decide (f.lo + f.width ≤ g.lo) || decide (g.lo + g.width ≤ f.lo)

/-- Where partial text bytes sit in a merged SHA-1 word (44_repeater.md R203, decision D39). -/
inductive MergePosition where
  | low
  | high
  deriving DecidableEq, Repr, Inhabited

/-- The implementation parameters of 00_scope.md R8. One-bit fields are given by their bit number. -/
structure Params where
  /-- `REG_OFFSET(r)`, in the order of the register list of 10_state.md R51 (`CipherReg.index`). -/
  regOffset : List Nat
  /-- `PORT_REG`. -/
  portReg : Nat
  /-- `PORT_ENC_BIT`. -/
  portEncBit : Nat
  /-- `RX_SERIAL_ADDR`. -/
  rxSerialAddr : Nat
  /-- HDCP_CONFIG `mode` (30_encoding.md R120). -/
  cfgMode : Field
  /-- HDCP_STATUS `frame_count`, `FRAME_COUNT_BITS` wide. -/
  frameCount : Field
  /-- HDCP_STATUS `hdcp_on`. -/
  stHdcpOn : Nat
  /-- HDCP_STATUS `an_ready`. -/
  stAnReady : Nat
  /-- HDCP_STATUS `ri_ready`. -/
  stRiReady : Nat
  /-- HDCP_STATUS `ri_match`. -/
  stRiMatch : Nat
  /-- HDCP_STATUS `encrypting`. -/
  stEncrypting : Nat
  /-- HDCP_REP `present`, one bit. -/
  repPresent : Nat
  /-- HDCP_REP `control`, lowest of three bits. -/
  repControl : Nat
  /-- HDCP_REP `status`, lowest of four bits. -/
  repStatus : Nat
  /-- `CFG_MODE_OFF`, `CFG_MODE_CAPTURE_AN`, `CFG_MODE_AUTH_ENC` (30_encoding.md R121). -/
  modeOff : Nat
  modeCaptureAn : Nat
  modeAuthEnc : Nat
  /-- The repeater-control codes of 30_encoding.md R122. -/
  ctrlIdle : BitVec 3
  ctrlText32 : BitVec 3
  ctrlCompleteSha1 : BitVec 3
  ctrlText24Mo8 : BitVec 3
  ctrlText16Mo16 : BitVec 3
  ctrlText8Mo24 : BitVec 3
  ctrlMo32 : BitVec 3
  /-- `REP_ST_IDLE`, `REP_ST_BUSY`, `REP_ST_READY` (30_encoding.md R123). -/
  repStIdle : BitVec 4
  repStBusy : BitVec 4
  repStReady : BitVec 4
  /-- `FRAME_WAIT_MAX` (45_link_monitor.md R231). -/
  frameWaitMax : Nat
  /-- `BCAPS_READY_BIT`, `BCAPS_REPEATER_BIT` (30_encoding.md R112). -/
  bcapsReadyBit : Nat
  bcapsRepeaterBit : Nat
  /-- `BSTATUS_LAYOUT` (30_encoding.md R113). -/
  bstDeviceCount : Field
  bstMaxDevices : Nat
  bstDepth : Field
  bstMaxCascade : Nat
  /-- `MERGE_TEXT_POSITION`. -/
  mergeText : MergePosition
  /-- The open `Status` codes of 30_encoding.md R124. -/
  codeNotSupported : Word
  codeInvalidDeviceRequest : Word
  codeRevoked : Word
  codeDataError : Word
  codePending : Word
  codeInvalidParameter : Word
  /-- `CP_TYPE_HDCP`, `CP_LEVEL_OFF`, `CP_LEVEL_ON` (30_encoding.md R125). -/
  cpTypeHdcp : Nat
  cpLevelOff : Word
  cpLevelOn : Word
  deriving DecidableEq, Repr, Inhabited

/-- The register map is one the block can use: an offset for each of the 20 registers of 10_state.md R51, each
register access one aligned 32-bit access (20_memory.md R71, R80). -/
def Params.addressesValid (p : Params) : Bool :=
  decide (p.regOffset.length = 20) && p.regOffset.all (fun a => a % 4 == 0)
    && decide (p.portReg % 4 = 0) && decide (p.portEncBit < 32)

/-- HDCP_CONFIG and HDCP_STATUS: fields inside the word, mode codes distinct and inside the field, a frame counter of at
least 8 bits (30_encoding.md R120, R121; 00_scope.md R8). DESIGN CHOICE (log 5): the fields share no bit. -/
def Params.statusLayoutValid (p : Params) : Bool :=
  let flags : List Nat := [p.stHdcpOn, p.stAnReady, p.stRiReady, p.stRiMatch, p.stEncrypting]
  p.cfgMode.fits 32 && decide [p.modeOff, p.modeCaptureAn, p.modeAuthEnc].Nodup
    && [p.modeOff, p.modeCaptureAn, p.modeAuthEnc].all (fun m => decide (m < 2 ^ p.cfgMode.width))
    && p.frameCount.fits 32 && decide (8 ≤ p.frameCount.width)
    && decide flags.Nodup && flags.all (fun b => decide (b < 32) && (Field.mk b 1).apart p.frameCount)

/-- The six control codes the block writes (30_encoding.md R122, R126). -/
def Params.writtenControls (p : Params) : List (BitVec 3) :=
  [p.ctrlText32, p.ctrlCompleteSha1, p.ctrlText24Mo8, p.ctrlText16Mo16, p.ctrlText8Mo24, p.ctrlMo32]

/-- HDCP_REP: fields inside the word (30_encoding.md R120), no status code 4 or 12 (R123). The rest is the model's
(log 5). DESIGN CHOICE: the fields share no bit; the seven control codes differ from one another, and so do the three
status codes; the spec says neither. DEDUCED from "never `REP_CTRL_IDLE`, never code 3" (R126): a mode the block writes
has neither code. -/
def Params.repLayoutValid (p : Params) : Bool :=
  let present : Field := ⟨p.repPresent, 1⟩
  let control : Field := ⟨p.repControl, 3⟩
  let status : Field := ⟨p.repStatus, 4⟩
  present.fits 32 && control.fits 32 && status.fits 32
    && present.apart control && present.apart status && control.apart status
    && decide (p.ctrlIdle :: p.writtenControls).Nodup && p.writtenControls.all (fun m => decide (m ≠ 3))
    && decide [p.repStIdle, p.repStBusy, p.repStReady, 4#4, 12#4].Nodup

/-- BCAPS and BSTATUS: fields inside the byte and the 16-bit value, a device count of 0 to 127 (30_encoding.md R112,
R113). DESIGN CHOICE (log 5): the fields share no bit. DESIGN CHOICE (log 32): the depth field may have any width that
fits, where R113 gives a depth of 0 to 7. -/
def Params.receiverLayoutValid (p : Params) : Bool :=
  decide (p.bcapsReadyBit < 8) && decide (p.bcapsRepeaterBit < 8)
    && decide (p.bcapsReadyBit ≠ p.bcapsRepeaterBit)
    && p.bstDeviceCount.fits 16 && p.bstDepth.fits 16 && decide (p.bstMaxDevices < 16)
    && decide (p.bstMaxCascade < 16) && decide (p.bstMaxDevices ≠ p.bstMaxCascade)
    && decide (7 ≤ p.bstDeviceCount.width)
    && p.bstDeviceCount.apart p.bstDepth
    && p.bstDeviceCount.apart ⟨p.bstMaxDevices, 1⟩ && p.bstDeviceCount.apart ⟨p.bstMaxCascade, 1⟩
    && p.bstDepth.apart ⟨p.bstMaxDevices, 1⟩ && p.bstDepth.apart ⟨p.bstMaxCascade, 1⟩

/-- `Status` codes pairwise distinct and distinct from 0 and 0x80000000 (30_encoding.md R124). The rest is the model's
(log 5). DESIGN CHOICE: `CP_LEVEL_OFF` and `CP_LEVEL_ON` differ, and the HDCP bit lies inside the 32-bit mask; R125
leaves these codes open. -/
def Params.codesValid (p : Params) : Bool :=
  decide [(0 : Word), 0x80000000, p.codeNotSupported, p.codeInvalidDeviceRequest, p.codeRevoked,
      p.codeDataError, p.codePending, p.codeInvalidParameter].Nodup
    && decide (p.cpTypeHdcp < 32) && decide (p.cpLevelOff ≠ p.cpLevelOn)

/-- `FRAME_WAIT_MAX` is a positive integer (00_scope.md R8). The meaning of the wait is defined at 0 as well
(45_link_monitor.md R231; log 24). -/
def Params.frameWaitValid (p : Params) : Bool := decide (0 < p.frameWaitMax)

/-- The constraints 00_scope.md R8 and the rules it names put on the parameters, with those the model adds (log 5). -/
def Params.valid (p : Params) : Bool :=
  p.addressesValid && p.statusLayoutValid && p.repLayoutValid && p.receiverLayoutValid && p.codesValid
    && p.frameWaitValid

/-- The defaults the spec proposes in 00_scope.md R8. PRESUMED: the spec marks the layouts and codes "from general
knowledge, not in source" (log 6). DESIGN CHOICE: the parameters it leaves OPEN hold placeholders (log 6). Tests run
on this record; claims hold for every valid record. -/
def Params.proposed : Params where
  regOffset := (List.range 20).map (4 * ·)
  portReg := 0
  portEncBit := 0
  rxSerialAddr := 0
  cfgMode := ⟨0, 3⟩
  frameCount := ⟨8, 8⟩
  stHdcpOn := 16
  stAnReady := 17
  stRiReady := 18
  stRiMatch := 19
  stEncrypting := 20
  repPresent := 0
  repControl := 1
  repStatus := 16
  modeOff := 0
  modeCaptureAn := 1
  modeAuthEnc := 3
  ctrlIdle := 0
  ctrlText32 := 1
  ctrlCompleteSha1 := 2
  ctrlText24Mo8 := 4
  ctrlText16Mo16 := 5
  ctrlText8Mo24 := 6
  ctrlMo32 := 7
  repStIdle := 0
  repStBusy := 1
  repStReady := 2
  frameWaitMax := 3
  bcapsReadyBit := 5
  bcapsRepeaterBit := 6
  bstDeviceCount := ⟨0, 7⟩
  bstMaxDevices := 7
  bstDepth := ⟨8, 3⟩
  bstMaxCascade := 11
  mergeText := .low
  codeNotSupported := 1
  codeInvalidDeviceRequest := 2
  codeRevoked := 3
  codeDataError := 4
  codePending := 5
  codeInvalidParameter := 6
  cpTypeHdcp := 0
  cpLevelOff := 0
  cpLevelOn := 1

/-! ## Free values: constants without a body -/

/-- The platform's parameter record, whatever it is (00_scope.md R8, log 5). -/
opaque Config.platformRecord : Params
/-- The capability input HDCP_SUPPORTED at reset (70_reset_and_hazards.md R292, log 8). -/
opaque Config.capability : Bool
/-- The `n`-th draw, where it is a cipher register read (00_scope.md R6, log 4). -/
opaque Config.freeCipherWord : Nat → Word
/-- The `n`-th draw, where it is a port register read (10_state.md R59, log 4). -/
opaque Config.freePortWord : Nat → Word
/-- The `n`-th draw, where it is a random number (41_controller.md R146, log 4). -/
opaque Config.freeRandom : Nat → Word
/-- The `n`-th draw, where it is whether a serial transaction succeeds (00_scope.md R6, log 4). -/
opaque Config.freeSerialOk : Nat → Bool
/-- Byte `i` of the `n`-th draw, where it is a serial read answer (00_scope.md R6, logs 4 and 14). -/
opaque Config.freeSerialByte : Nat → Nat → Byte
/-- Byte `i` past the end of a caller's sequence, for the command that started at draw `n` (log 13). -/
opaque Config.freeCallerByte : Nat → Nat → Byte

/-- The parameters after reset: the platform's record, which meets 00_scope.md R8's constraints. A record that does
not meet them is no implementation of the block, and the proposed record stands for it (log 5). -/
def Config.platform : Params :=
  bif Config.platformRecord.valid then Config.platformRecord else Params.proposed

end Sys2Proof
end

