-- ==== Sys2Proof/Machine/State.lean ====
section
/-! DEFINITION. The state of the machine as plain data: the block's registers (10_state.md R30 to R49), its local
buffers (20_memory.md R72), what it last wrote to its collaborators (R50 to R60), the host interface (30_encoding.md
R102, R103; 60_exceptions.md R277) and the collaborators' answers as inputs (00_scope.md R6). -/

namespace Sys2Proof.Machine

open Sys2Proof

/-- The progress of an authentication, `s.ctl_state` (10_state.md R33). -/
inductive CtlState where
  | off
  | anCaptured
  | authenticated
  | encrypting
  | disabling
  deriving DecidableEq, Repr

/-- A key-selection vector: five bytes in serial order (30_encoding.md R111). -/
structure Ksv where
  b0 : Byte
  b1 : Byte
  b2 : Byte
  b3 : Byte
  b4 : Byte
  deriving DecidableEq, Repr

/-- Five 32-bit V′ words H0..H4 (30_encoding.md R111). -/
structure VWords where
  h0 : Word
  h1 : Word
  h2 : Word
  h3 : Word
  h4 : Word
  deriving DecidableEq, Repr

/-- A local byte buffer: the bytes that differ from 0, by rising address. An unlisted byte reads 0 (DESIGN CHOICE,
log 12). -/
abbrev Memory := List Host.Cell

/-- The cipher registers (10_state.md R51). -/
inductive CipherReg where
  | config
  | status
  | ri
  | bksvLo
  | bksvHi
  | akeyLo
  | akeyMed
  | akeyHi
  | rep
  | aksvLo
  | aksvHi
  /-- HDCP_VPRIME_H0 to HDCP_VPRIME_H4. -/
  | vprime (i : Fin 5)
  | sha1In
  | init
  | anLow
  | anHi
  deriving DecidableEq, Repr

/-- `Status` results (30_encoding.md R124). -/
inductive Status where
  | success
  | unsuccessful
  | notSupported
  | invalidDeviceRequest
  | revokedHdcpDeviceAttached
  | dataError
  | pending
  | invalidParameter
  deriving DecidableEq, Repr

/-- The result of an operation (10_state.md R47, 30_encoding.md R100). -/
inductive Result where
  /-- A Boolean result. -/
  | bool (b : Bool)
  /-- A Status result. -/
  | status (st : Status)
  /-- `Ok` (true) or `Fail` (false). -/
  | io (ok : Bool)
  /-- The result is the argument record's buffer and length (BUILD_SHA1_BUFFER). -/
  | record
  /-- No result; the operation always completes (REPEATER_TEARDOWN). -/
  | nothing
  deriving DecidableEq, Repr

/-- The poll point of a HardwareTimeout (60_exceptions.md R261). -/
inductive PollPoint where
  | anCapture
  | riReady
  | disable
  | sha1Ready
  | repeaterReady
  | repeaterComplete
  deriving DecidableEq, Repr

/-- The cause of a ProtocolViolation (60_exceptions.md R261). -/
inductive Violation where
  | badBksv
  | maxDevices
  | maxCascade
  | count
  | revoked
  deriving DecidableEq, Repr

/-- The failure kinds with the information recorded at the raise (60_exceptions.md R261). -/
inductive Failure where
  | hardwareTimeout (point : PollPoint)
  | serialIOFailure (sub : Byte)
  | protocolViolation (cause : Violation)
  deriving DecidableEq, Repr

/-- One collaborator access of 00_scope.md R12, or a raise, as recorded in the trace (60_exceptions.md R276). -/
inductive Event where
  | cipherRead (r : CipherReg) (v : Word)
  | cipherWrite (r : CipherReg) (v : Word)
  | portRead (v : Word)
  | portWrite (v : Word)
  /-- A serial read of `size` bytes at `sub`, with the bytes or `Fail`. -/
  | serialRead (sub : Byte) (size : Nat) (answer : Option (List Byte))
  /-- A serial write of `payload` at `sub`, and whether it succeeded. -/
  | serialWrite (sub : Byte) (payload : List Byte) (ok : Bool)
  | random (v : Word)
  | delayUs (n : Nat)
  | vblank
  | raised (f : Failure)
  deriving DecidableEq, Repr

/-- The policy layer's `CPParameters` record (10_state.md R45). The widths of the fields are DESIGN CHOICE
(log 23). -/
structure CpParams where
  /-- `protection_type_mask`. -/
  typeMask : Word
  /-- `level`, the requested level. -/
  level : Word
  /-- `repeater_data.ksv_list`. -/
  ksvList : List Ksv
  /-- `repeater_data.ksv_list_length`. -/
  ksvListLength : Nat
  /-- `repeater_data.perform_second_step`; non-zero is set (46_cp_params.md R241). -/
  performSecondStep : Word
  /-- `repeater_data.is_repeater`. -/
  isRepeater : Bool
  deriving DecidableEq, Repr

/-- The argument record of a command: the operands of 30_encoding.md R100 that are not in the command word, and the
outputs that R103 returns in it. -/
structure Args where
  params : CpParams
  /-- `buffer`: in for HDCP_IS_VALID_BKSV and RX_WRITE, out for RX_READ. -/
  buffer : List Byte
  /-- `size` of HDCP_IS_VALID_BKSV. -/
  size : Nat
  /-- `revocation_set` of ACTIVATE_REPEATER and IS_REVOKED (10_state.md R46). -/
  revocationSet : List Ksv
  /-- `candidate` of IS_REVOKED. -/
  candidate : Ksv
  /-- `ksv_list` of BUILD_SHA1_BUFFER and COMPUTE_TRANSMITTER_V. -/
  ksvList : List Byte
  /-- `count`, 0 to 127. -/
  count : BitVec 7
  /-- `topology`, 16 bits. -/
  topology : BitVec 16
  /-- `v_prime`: in for COMPARE_V_PRIME, out for RX_READ_VPRIME. -/
  vPrime : VWords
  /-- The buffer BUILD_SHA1_BUFFER returns. -/
  shaBuffer : List Byte
  /-- The length BUILD_SHA1_BUFFER returns. -/
  shaLength : Nat
  deriving DecidableEq, Repr

/-- What the world outside does to the block: a command presented with its argument record (30_encoding.md R100),
the initialisation or reset with the capability input (70_reset_and_hazards.md R290, R292), the loss of the
display-power reference (R296, log 20). -/
inductive HostInput where
  | command (word : Word) (args : Args)
  | initialise (supported : Bool)
  | powerLoss
  deriving DecidableEq, Repr

/-- What the collaborators and the host do during the coming accesses (00_scope.md R6; log 4). The head of each list
comes first; where a list of answers is empty, the answer is a free value of Config. -/
structure Env where
  /-- What the coming cipher reads find, before the read-back law of 10_state.md R58. -/
  cipher : List Word
  /-- What the coming port reads find. -/
  port : List Word
  /-- The coming serial transactions' outcomes: `none` is `Fail`; `some bytes` is `Ok`, with the bytes of a read. -/
  serial : List (Option (List Byte))
  /-- The coming random numbers. -/
  rng : List Word
  /-- The host inputs that land in each of the coming moments: before each access, and at the end, of an operation
  (log 3). -/
  arrivals : List (List HostInput)
  deriving DecidableEq, Repr

/-- The transient working registers of 10_state.md R36 to R39. -/
structure Session where
  an : BitVec 64
  aksv : BitVec 40
  bksv : Ksv
  bcaps : Byte
  ri : BitVec 16
  seed0 : Word
  seed1 : Word
  bstatus : BitVec 16
  count : BitVec 7
  revoked : Bool
  vprime : VWords
  blen : BitVec 11
  pos : BitVec 11
  moLeft : BitVec 4
  attempt : BitVec 3
  /-- The frame count captured at a mismatch, zero-extended from FRAME_COUNT_BITS. -/
  fc0 : Word
  deriving DecidableEq, Repr

/-- The cipher's registers as the block last wrote them (10_state.md R51 to R58), and the hidden state of its SHA-1
engine that the block's writes make (R64). -/
structure Cipher where
  config : Word
  /-- The block has written HDCP_CONFIG, so that `mode` reads back (R58). -/
  configWritten : Bool
  rep : Word
  /-- The block has written HDCP_REP, so that `present` and `control` read back (R58). -/
  repWritten : Bool
  ri : Word
  bksvLo : Word
  bksvHi : Word
  vprime : VWords
  sha1In : Word
  /-- The older of the two most recent HDCP_INIT writes (R57). -/
  initOld : Word
  /-- The most recent HDCP_INIT write. -/
  initNew : Word
  akeyLo : Word
  akeyMed : Word
  akeyHi : Word
  /-- The words pushed through HDCP_SHA1_IN since the last complete-SHA-1 control write (R64), oldest first. -/
  sha1Words : List Word
  deriving DecidableEq, Repr

/-- The state of one instance of the block with its interfaces. -/
structure State where
  /-- The implementation parameters, fixed for the machine (00_scope.md R8). -/
  prm : Params
  /-- The boot order has reached step 3 (70_reset_and_hazards.md R295). -/
  initialised : Bool
  /-- `s.busy` (10_state.md R32). -/
  busy : Bool
  /-- `s.op`, none while idle (10_state.md R32, R62). -/
  op : Option Instr
  /-- `s.step`: how many accesses of the operation have been made (10_state.md R31, log 2). -/
  stepPos : Nat
  /-- `s.ctl_state` (10_state.md R33). -/
  ctlState : CtlState
  /-- `s.hdcp_supported` (10_state.md R35). -/
  hdcpSupported : Bool
  ses : Session
  /-- `s.ksvbuf` (20_memory.md R72). -/
  ksvbuf : Memory
  /-- `s.shabuf` (20_memory.md R72). -/
  shabuf : Memory
  cipher : Cipher
  /-- PORT_REG as the block last wrote it (10_state.md R59). -/
  port : Word
  /-- The argument record of the command being executed, or of the last one. -/
  args : Args
  /-- The result of the last operation (10_state.md R47); none before the first. -/
  result : Option Result
  /-- The command words refused while busy, with the answer each presenter got (60_exceptions.md R277), newest
  first. -/
  refusals : List (Word × Status)
  /-- Commands and platform inputs waiting to be taken, oldest first (log 1). -/
  inbox : List HostInput
  env : Env
  /-- The MODEL's counter that the free values of Config are applied to (log 4). -/
  draws : Nat
  /-- Every access and raise, newest first (60_exceptions.md R276). -/
  trace : List Event
  deriving DecidableEq, Repr

/-- The machine has no fault: "Fatal conditions: none — the engine never aborts the process" (60_exceptions.md
R264). -/
inductive Fault
  deriving DecidableEq, Repr

/-- Why the machine has no meaning for what it was given. -/
inductive Refusal where
  /-- Raised by an arm of `exec` whose operation has no meaning yet. Safe: the machine stops. -/
  | notModelled (mnemonic : String)
  deriving DecidableEq, Repr

/-- A key-selection vector of zeros. -/
def Ksv.zero : Ksv := ⟨0, 0, 0, 0, 0⟩

/-- Five words of zero. -/
def VWords.zero : VWords := ⟨0, 0, 0, 0, 0⟩

/-- The session registers after reset. DESIGN CHOICE: the spec leaves them unspecified (10_state.md R62); the model
names 0 (log 7). -/
def Session.zero : Session where
  an := 0
  aksv := 0
  bksv := .zero
  bcaps := 0
  ri := 0
  seed0 := 0
  seed1 := 0
  bstatus := 0
  count := 0
  revoked := false
  vprime := .zero
  blen := 0
  pos := 0
  moLeft := 0
  attempt := 0
  fc0 := 0

/-- The cipher's registers after reset. DESIGN CHOICE: the spec leaves them unspecified (10_state.md R62); the model
names 0 (log 8), and no read shows it, because nothing has been written yet. -/
def Cipher.zero : Cipher where
  config := 0
  configWritten := false
  rep := 0
  repWritten := false
  ri := 0
  bksvLo := 0
  bksvHi := 0
  vprime := .zero
  sha1In := 0
  initOld := 0
  initNew := 0
  akeyLo := 0
  akeyMed := 0
  akeyHi := 0
  sha1Words := []

/-- A CPParameters record of zeros. -/
def CpParams.zero : CpParams where
  typeMask := 0
  level := 0
  ksvList := []
  ksvListLength := 0
  performSecondStep := 0
  isRepeater := false

/-- An argument record that holds nothing (DESIGN CHOICE, log 31). -/
def Args.empty : Args where
  params := .zero
  buffer := []
  size := 0
  revocationSet := []
  candidate := .zero
  ksvList := []
  count := 0
  topology := 0
  vPrime := .zero
  shaBuffer := []
  shaLength := 0

/-- No answer scripted, no host input on its way: every draw is a free value (log 4). -/
def Env.silent : Env where
  cipher := []
  port := []
  serial := []
  rng := []
  arrivals := []

/-- The machine right after reset (10_state.md R62, 70_reset_and_hazards.md R290): idle, `Off`, the capability read.
The values the spec leaves unspecified are named in logs 7, 8, 12 and 31. -/
def State.reset : State where
  prm := Config.platform
  initialised := true
  busy := false
  op := none
  stepPos := 0
  ctlState := .off
  hdcpSupported := Config.capability
  ses := .zero
  ksvbuf := []
  shabuf := []
  cipher := .zero
  port := 0
  args := .empty
  result := none
  refusals := []
  inbox := []
  env := .silent
  draws := 0
  trace := []

end Sys2Proof.Machine
end

