-- ==== Sys2Proof/Machine/Bits.lean ====
section
/-! DEFINITION. Bit fields, byte orders and bit populations (00_scope.md R10, R11; 20_memory.md R74 to R76). -/

namespace Sys2Proof.Machine

open Sys2Proof

/-- A word whose low `n` bits are 1. -/
def ones (n : Nat) : Word := BitVec.ofNat 32 (2 ^ n - 1)

/-- The field `f` of `w`, as an unsigned value (00_scope.md R10). -/
def getField (f : Field) (w : Word) : Word := (w >>> f.lo) &&& ones f.width

/-- `w` with field `f` replaced by `v`; bits outside `f` as in `w` (20_memory.md R78). -/
def setField (f : Field) (w v : Word) : Word :=
  (w &&& ~~~(ones f.width <<< f.lo)) ||| ((v &&& ones f.width) <<< f.lo)

/-- One bit as a word. -/
def bitWord (b : Bool) : Word := if b then 1 else 0

/-- `LE(b0..bk)`: the first byte is the least significant (00_scope.md R11). -/
def leNat : List Byte → Nat
  | [] => 0
  | b :: bs => b.toNat + 256 * leNat bs

/-- `BEPACK(b0..bk)`: the first byte is the most significant (00_scope.md R11). -/
def beNat (bs : List Byte) : Nat := leNat bs.reverse

/-- `LE` as a 32-bit word. -/
def leWord (bs : List Byte) : Word := BitVec.ofNat 32 (leNat bs)

/-- `BEPACK` as a 32-bit word; of four bytes it is `BE32` (00_scope.md R11). -/
def beWord (bs : List Byte) : Word := BitVec.ofNat 32 (beNat bs)

/-- The `n`-byte sequence of `v`, least significant byte first (`LEBYTES` of 41_controller.md R145). -/
def leBytes : Nat → Nat → List Byte
  | 0, _ => []
  | n + 1, v => BitVec.ofNat 8 v :: leBytes n (v / 256)

/-- `BE64BYTES(v)`: eight bytes, most significant first (00_scope.md R11). -/
def be64Bytes (v : Nat) : List Byte := (leBytes 8 v).reverse

/-- `LE` of two bytes as a 16-bit value (20_memory.md R75). -/
def le16 (bs : List Byte) : BitVec 16 := BitVec.ofNat 16 (leNat bs)

/-- Five bytes in serial order as a key-selection vector (30_encoding.md R111). -/
def Ksv.ofBytes (bs : List Byte) : Ksv :=
  ⟨bs.getD 0 0, bs.getD 1 0, bs.getD 2 0, bs.getD 3 0, bs.getD 4 0⟩

/-- The bytes of a key-selection vector in serial order. -/
def Ksv.bytes (k : Ksv) : List Byte := [k.b0, k.b1, k.b2, k.b3, k.b4]

/-- Five words in the order H0 to H4. -/
def VWords.ofList (ws : List Word) : VWords :=
  ⟨ws.getD 0 0, ws.getD 1 0, ws.getD 2 0, ws.getD 3 0, ws.getD 4 0⟩

/-- Word `i` of V′. -/
def VWords.get (v : VWords) : Fin 5 → Word
  | 0 => v.h0
  | 1 => v.h1
  | 2 => v.h2
  | 3 => v.h3
  | 4 => v.h4

/-- V′ with word `i` replaced. -/
def VWords.set (v : VWords) (i : Fin 5) (w : Word) : VWords :=
  match i with
  | 0 => { v with h0 := w }
  | 1 => { v with h1 := w }
  | 2 => { v with h2 := w }
  | 3 => { v with h3 := w }
  | 4 => { v with h4 := w }

/-- The number of 1 bits of a byte (43_validator.md R184). -/
def popcount (b : Byte) : Nat := (List.range 8).countP fun i => b.getLsbD i

/-- The number of 1 bits of a key-selection vector (43_validator.md R184). -/
def Ksv.weight (k : Ksv) : Nat :=
  popcount k.b0 + popcount k.b1 + popcount k.b2 + popcount k.b3 + popcount k.b4

end Sys2Proof.Machine
end

