-- ==== Sys2Proof/Machine/Buffer.lean ====
section
/-! DEFINITION. Local byte buffers in canonical form and their reads and writes (20_memory.md R72). -/

namespace Sys2Proof.Machine

open Sys2Proof

/-- What a byte that is not listed reads as (DESIGN CHOICE, log 12). -/
def blankByte : Byte := 0

/-- One byte of a buffer. -/
def Memory.read : Memory → Nat → Byte
  | [], _ => blankByte
  | (x, c) :: m, a => if a = x then c else Memory.read m a

/-- A buffer with one byte replaced, in canonical form. -/
def Memory.write : Memory → Nat → Byte → Memory
  | [], a, b => if b = blankByte then [] else [(a, b)]
  | (x, c) :: m, a, b =>
    if a < x then if b = blankByte then (x, c) :: m else (a, b) :: (x, c) :: m
    else if a = x then if b = blankByte then m else (a, b) :: m
    else (x, c) :: Memory.write m a b

/-- `MemRead(buf, a, n)`: bytes `a` to `a + n - 1` (20_memory.md R72). -/
def Memory.readBytes (m : Memory) (a n : Nat) : List Byte := (List.range n).map fun i => m.read (a + i)

/-- `MemWrite(buf, a, n, v)`: the bytes of `v` from `a` on (20_memory.md R72). -/
def Memory.writeBytes (m : Memory) (a : Nat) : List Byte → Memory
  | [] => m
  | b :: bs => Memory.writeBytes (m.write a b) (a + 1) bs

/-- Every listed address is above `lo` and they rise strictly; no entry equals what an unlisted byte reads as. -/
def Memory.wfFrom (lo : Nat) : Memory → Bool
  | [] => true
  | (x, c) :: m => decide (lo ≤ x) && decide (c ≠ blankByte) && Memory.wfFrom (x + 1) m

/-- The canonical form of a buffer. -/
def Memory.wf (m : Memory) : Bool := Memory.wfFrom 0 m

/-- Every listed address is inside a buffer of `size` bytes (20_memory.md R72). -/
def Memory.within (size : Nat) (m : Memory) : Bool := m.all fun c => decide (c.1 < size)

end Sys2Proof.Machine
end

