-- ==== Sys2Proof/Machine/Flags.lean ====
section
/-! DEFINITION. The flags and fields the block reads from its collaborators: HDCP_STATUS and HDCP_REP (10_state.md
R43, R44, R53, R56), BCAPS and BSTATUS (R41, R42; 30_encoding.md R112, R113). The block computes no condition
code. -/

namespace Sys2Proof.Machine

open Sys2Proof

/-! ## HDCP_STATUS (10_state.md R53) -/

/-- `hdcp_on`. -/
def hdcpOn (p : Params) (v : Word) : Bool := v.getLsbD p.stHdcpOn
/-- `an_ready`. -/
def anReady (p : Params) (v : Word) : Bool := v.getLsbD p.stAnReady
/-- `ri_ready`. -/
def riReady (p : Params) (v : Word) : Bool := v.getLsbD p.stRiReady
/-- `ri_match`. -/
def riMatch (p : Params) (v : Word) : Bool := v.getLsbD p.stRiMatch
/-- `encrypting`. -/
def encrypting (p : Params) (v : Word) : Bool := v.getLsbD p.stEncrypting
/-- `frame_count`. -/
def frameCount (p : Params) (v : Word) : Word := getField p.frameCount v
/-- The 128-frame period a frame count lies in, `floor(frame_count / RI_FRAME_PERIOD)` (45_link_monitor.md R231). -/
def framePeriod (fc : Word) : Nat := fc.toNat / riFramePeriod

/-! ## HDCP_CONFIG and HDCP_REP (10_state.md R52, R56) -/

/-- `HDCP_REP.present`. -/
def presentField (p : Params) : Field := ⟨p.repPresent, 1⟩
/-- `HDCP_REP.control`. -/
def controlField (p : Params) : Field := ⟨p.repControl, 3⟩
/-- `HDCP_REP.status`. -/
def statusField (p : Params) : Field := ⟨p.repStatus, 4⟩

/-- `HDCP_REP.present` as a flag. -/
def repPresent (p : Params) (v : Word) : Bool := v.getLsbD p.repPresent

/-- `RepeaterHardwareState` (10_state.md R44). -/
inductive RepState where
  | idle
  | busy
  | readyForNextData
  | completeNoMatch
  | completeMatch
  /-- Any other code (30_encoding.md R123). -/
  | other
  deriving DecidableEq, Repr

/-- The repeater status a read of HDCP_REP shows (30_encoding.md R123). -/
def repState (p : Params) (v : Word) : RepState :=
  let code : BitVec 4 := (getField (statusField p) v).setWidth 4
  if code = 12 then .completeMatch
  else if code = 4 then .completeNoMatch
  else if code = p.repStIdle then .idle
  else if code = p.repStReady then .readyForNextData
  else if code = p.repStBusy then .busy
  else .other

/-! ## BCAPS (10_state.md R41) -/

/-- The five flags of the receiver's capability byte. -/
structure BCaps where
  fastReauth : Bool
  supports11 : Bool
  fastTransfer : Bool
  ksvFifoReady : Bool
  isRepeater : Bool
  deriving DecidableEq, Repr

/-- The flags of a BCAPS byte (30_encoding.md R112). The block uses only `ksvFifoReady` and `isRepeater`. -/
def bcaps (p : Params) (b : Byte) : BCaps where
  fastReauth := b.getLsbD 0
  supports11 := b.getLsbD 1
  fastTransfer := b.getLsbD 4
  ksvFifoReady := b.getLsbD p.bcapsReadyBit
  isRepeater := b.getLsbD p.bcapsRepeaterBit

/-! ## BSTATUS (10_state.md R42) -/

/-- The four fields of the repeater topology value. -/
structure BStatus where
  deviceCount : Nat
  maxDevicesExceeded : Bool
  repeaterDepth : Nat
  maxCascadeExceeded : Bool
  deriving DecidableEq, Repr

/-- The fields of a BSTATUS value (30_encoding.md R113). The block never uses `repeaterDepth`. -/
def bstatus (p : Params) (v : BitVec 16) : BStatus where
  deviceCount := (getField p.bstDeviceCount (v.setWidth 32)).toNat
  maxDevicesExceeded := v.getLsbD p.bstMaxDevices
  repeaterDepth := (getField p.bstDepth (v.setWidth 32)).toNat
  maxCascadeExceeded := v.getLsbD p.bstMaxCascade

end Sys2Proof.Machine
end

