-- ==== Sys2Proof/Machine/Operands.lean ====
section
/-! DEFINITION. Operands from the argument record and the encoding of results (30_encoding.md R100, R102, R103, R122,
R124, R125; 60_exceptions.md R261; 20_memory.md R84). -/

namespace Sys2Proof.Machine

open Sys2Proof

/-- The first `n` bytes of a caller's sequence, for the command that started at draw `d`. A sequence the host made too
short reads as free bytes past its end (DESIGN CHOICE, log 13). -/
def callerBytes (d : Nat) (bs : List Byte) (n : Nat) : List Byte :=
  (List.range n).map fun i => bs.getD i (Config.freeCallerByte d i)

/-- `ksv_list[0 .. n-1]` of a caller's CPParameters (46_cp_params.md R241); free vectors past its end (log 13). -/
def callerKsvs (d : Nat) (ks : List Ksv) (n : Nat) : List Ksv :=
  (List.range n).map fun j =>
    ks.getD j (Ksv.ofBytes ((List.range 5).map fun i => Config.freeCallerByte d (5 * j + i)))

/-- `bytes` written over the start of the caller's buffer; what lies beyond them stays (42_receiver_io.md R170). -/
def overwrite (buffer bytes : List Byte) : List Byte := bytes ++ buffer.drop bytes.length

/-- A serial answer of exactly `size` bytes (20_memory.md R81): bytes the script leaves out are free values, for the
transaction at draw `d` (log 14). -/
def sizedAnswer (d size : Nat) (bytes : List Byte) : List Byte :=
  (List.range size).map fun i => bytes.getD i (Config.freeSerialByte d i)

/-- `HDCP_REQUESTED(params)` (46_cp_params.md, 30_encoding.md R125). -/
def hdcpRequested (p : Params) (c : CpParams) : Bool := c.typeMask.getLsbD p.cpTypeHdcp

/-- `TEXTMODE(t)`: the control code of a word with `t` text bytes (30_encoding.md R122). -/
def textMode (p : Params) : Nat → BitVec 3
  | 4 => p.ctrlText32
  | 3 => p.ctrlText24Mo8
  | 2 => p.ctrlText16Mo16
  | 1 => p.ctrlText8Mo24
  | _ => p.ctrlMo32

/-- The code of a Status (30_encoding.md R124). -/
def Status.code (p : Params) : Status → Word
  | .success => 0
  | .unsuccessful => 0x80000000
  | .notSupported => p.codeNotSupported
  | .invalidDeviceRequest => p.codeInvalidDeviceRequest
  | .revokedHdcpDeviceAttached => p.codeRevoked
  | .dataError => p.codeDataError
  | .pending => p.codePending
  | .invalidParameter => p.codeInvalidParameter

/-- The word the host gets for a result (30_encoding.md R103); the last two kinds return none. -/
def Result.word (p : Params) : Result → Option Word
  | .bool b => some (bitWord b)
  | .status st => some (st.code p)
  | .io ok => some (bitWord ok)
  | .record => none
  | .nothing => none

/-- The result word the host reads after an operation (30_encoding.md R103). -/
def State.resultWord (s : State) : Option Word := s.result.bind (Result.word s.prm)

/-- The code of a failure kind, for traces (60_exceptions.md R261). -/
def Failure.code : Failure → Nat
  | .hardwareTimeout _ => 1
  | .serialIOFailure _ => 2
  | .protocolViolation _ => 3

/-- The place of a register in the list of 10_state.md R51. -/
def CipherReg.index : CipherReg → Nat
  | .config => 0
  | .status => 1
  | .ri => 2
  | .bksvLo => 3
  | .bksvHi => 4
  | .akeyLo => 5
  | .akeyMed => 6
  | .akeyHi => 7
  | .rep => 8
  | .aksvLo => 9
  | .aksvHi => 10
  | .vprime i => 11 + i.val
  | .sha1In => 16
  | .init => 17
  | .anLow => 18
  | .anHi => 19

/-- `REG_OFFSET(r)` (20_memory.md R71). -/
def CipherReg.offset (p : Params) (r : CipherReg) : Nat := p.regOffset.getD r.index 0

/-- The platform address an access goes to: a register's offset, the port register, or the receiver's serial-bus
address (20_memory.md R84, 42_receiver_io.md R175). -/
def Event.address (p : Params) : Event → Option Nat
  | .cipherRead r _ => some (r.offset p)
  | .cipherWrite r _ => some (r.offset p)
  | .portRead _ => some p.portReg
  | .portWrite _ => some p.portReg
  | .serialRead _ _ _ => some p.rxSerialAddr
  | .serialWrite _ _ _ => some p.rxSerialAddr
  | .random _ => none
  | .delayUs _ => none
  | .vblank => none
  | .raised _ => none

end Sys2Proof.Machine
end

