-- ==== Sys2Proof/Machine/Ops.lean ====
section
/-! DEFINITION. The operations every micro-program is made of: the collaborator accesses of 00_scope.md R12, the
bounded poll of R13, the writes of working registers, the raise of a failure (60_exceptions.md R260, R267), and the
start and end of an operation (41_controller.md R140, 60_exceptions.md R277, 70_reset_and_hazards.md R293). -/

namespace Sys2Proof.Machine

open Sys2Proof

/-- A reset that arrived while an operation ran, with the capability input it reads (70_reset_and_hazards.md R292,
R293). -/
structure Abandoned where
  supported : Bool
  deriving DecidableEq, Repr

/-- A piece of a micro-program: it reads and writes the state and answers a value, or is abandoned by a reset. -/
abbrev Op := EStateM Abandoned State

/-! ## Host inputs during an operation -/

/-- A command presented while the block is busy: nothing changes, and its presenter gets `InvalidDeviceRequest`
(60_exceptions.md R277). -/
def State.refuseBusy (w : Word) (s : State) : State :=
  { s with refusals := (w, .invalidDeviceRequest) :: s.refusals }

/-- The host inputs that land in one moment, in order. A command is refused (60_exceptions.md R277). The loss of the
power reference changes nothing: the block "neither takes nor checks the reference" (70_reset_and_hazards.md R296, log
20). A reset abandons the operation (70_reset_and_hazards.md R293); inputs after it wait for the idle block. -/
def land : List HostInput → Op Unit
  | [] => pure ()
  | .command w _ :: rest => do modify (State.refuseBusy w); land rest
  | .powerLoss :: rest => land rest
  | .initialise supported :: rest => do
    modify fun s => { s with inbox := rest ++ s.inbox }
    throw ⟨supported⟩

/-- A moment of a running operation in which host inputs can land: there is one just before each access and one at the
end (log 3). -/
def moment : Op Unit := do
  let s ← get
  set { s with env := { s.env with arrivals := s.env.arrivals.tail } }
  land (s.env.arrivals.headD [])

/-- What comes before an access: the position of the micro-program advances (10_state.md R31), and the host inputs due
land. -/
def access : Op Unit := do
  modify fun s => { s with stepPos := s.stepPos + 1 }
  moment

/-- One collaborator access: its moment, then its effect. Every access of every operation is one `perform`, so they
happen one at a time in program order (20_memory.md R86). -/
def perform {α : Type} (effect : State → α × State) : Op α := do
  access
  modifyGet effect

/-! ## Collaborator accesses (00_scope.md R12) -/

/-- The trace with one more event (60_exceptions.md R276). -/
def State.log (e : Event) (s : State) : State := { s with trace := e :: s.trace }

/-- The draw for a cipher read (00_scope.md R6, log 4). -/
def State.drawCipher (s : State) : Word × State :=
  match s.env.cipher with
  | [] => (Config.freeCipherWord s.draws, { s with draws := s.draws + 1 })
  | v :: vs => (v, { s with draws := s.draws + 1, env := { s.env with cipher := vs } })

/-- The draw for a port read (10_state.md R59, log 10). -/
def State.drawPort (s : State) : Word × State :=
  match s.env.port with
  | [] => (Config.freePortWord s.draws, { s with draws := s.draws + 1 })
  | v :: vs => (v, { s with draws := s.draws + 1, env := { s.env with port := vs } })

/-- The draw for a random number (41_controller.md R146). -/
def State.drawRandom (s : State) : Word × State :=
  match s.env.rng with
  | [] => (Config.freeRandom s.draws, { s with draws := s.draws + 1 })
  | v :: vs => (v, { s with draws := s.draws + 1, env := { s.env with rng := vs } })

/-- The draw for a serial transaction's outcome: `none` is `Fail` (10_state.md R61). -/
def State.drawSerial (s : State) : Option (List Byte) × State :=
  match s.env.serial with
  | [] => (if Config.freeSerialOk s.draws then some [] else none, { s with draws := s.draws + 1 })
  | a :: as => (a, { s with draws := s.draws + 1, env := { s.env with serial := as } })

/-- What a cipher read finds, given the draw `d`: `mode`, `present` and `control` read back what the block last wrote
to them, everything else is the draw (10_state.md R58, log 9). -/
def readBack (p : Params) (c : Cipher) (r : CipherReg) (d : Word) : Word :=
  match r with
  | .config => if c.configWritten then setField p.cfgMode d (getField p.cfgMode c.config) else d
  | .rep =>
    if c.repWritten then
      setField (controlField p)
        (setField (presentField p) d (getField (presentField p) c.rep)) (getField (controlField p) c.rep)
    else d
  | _ => d

/-- What a write does to the cipher's registers (10_state.md R51 to R57). The registers the block only reads or never
accesses take no write. A complete-SHA-1 control write starts a new count of pushed words (R64, log 15). -/
def Cipher.write (p : Params) (c : Cipher) (r : CipherReg) (v : Word) : Cipher :=
  match r with
  | .config => { c with config := v, configWritten := true }
  | .rep =>
    { c with
      rep := v
      repWritten := true
      sha1Words :=
        if getField (controlField p) v = p.ctrlCompleteSha1.setWidth 32 then [] else c.sha1Words }
  | .ri => { c with ri := v }
  | .bksvLo => { c with bksvLo := v }
  | .bksvHi => { c with bksvHi := v }
  | .vprime i => { c with vprime := c.vprime.set i v }
  | .sha1In => { c with sha1In := v, sha1Words := c.sha1Words ++ [v] }
  | .init => { c with initOld := c.initNew, initNew := v }
  | .status | .akeyLo | .akeyMed | .akeyHi | .aksvLo | .aksvHi | .anLow | .anHi => c

/-- The effect of `CipherRead(r)`. -/
def State.readCipher (r : CipherReg) (s : State) : Word × State :=
  let v := readBack s.prm s.cipher r s.drawCipher.1
  (v, s.drawCipher.2.log (.cipherRead r v))

/-- The effect of `CipherWrite(r, v)`. -/
def State.writeCipher (r : CipherReg) (v : Word) (s : State) : Unit × State :=
  ((), { s with cipher := s.cipher.write s.prm r v }.log (.cipherWrite r v))

/-- The effect of a read of PORT_REG. -/
def State.readPort (s : State) : Word × State :=
  (s.drawPort.1, s.drawPort.2.log (.portRead s.drawPort.1))

/-- The effect of a write of PORT_REG. -/
def State.writePort (v : Word) (s : State) : Unit × State :=
  ((), { s with port := v }.log (.portWrite v))

/-- The effect of a serial read transaction: all `size` bytes or `Fail` (20_memory.md R81). -/
def State.readSerial (sub : Byte) (size : Nat) (s : State) : Option (List Byte) × State :=
  let answer := s.drawSerial.1.map (sizedAnswer s.draws size)
  (answer, s.drawSerial.2.log (.serialRead sub size answer))

/-- The effect of a serial write transaction. -/
def State.writeSerial (sub : Byte) (payload : List Byte) (s : State) : Bool × State :=
  (s.drawSerial.1.isSome, s.drawSerial.2.log (.serialWrite sub payload s.drawSerial.1.isSome))

/-- The effect of `Rng32()`. -/
def State.readRandom (s : State) : Word × State :=
  (s.drawRandom.1, s.drawRandom.2.log (.random s.drawRandom.1))

/-- `CipherRead(r)`. -/
def cipherRead (r : CipherReg) : Op Word := perform (State.readCipher r)

/-- `CipherWrite(r, v)`. -/
def cipherWrite (r : CipherReg) (v : Word) : Op Unit := perform (State.writeCipher r v)

/-- `CipherWriteField(r, f, v)`: one read, then one write of the same register (20_memory.md R78). -/
def cipherWriteField (r : CipherReg) (f : Field) (v : Word) : Op Unit := do
  let t ← cipherRead r
  cipherWrite r (setField f t v)

/-- `PortSetEnc(b)`: one read, then one write of PORT_REG (20_memory.md R79). -/
def portSetEnc (b : Bool) : Op Unit := do
  let p := (← get).prm
  let t ← perform State.readPort
  perform (State.writePort (setField ⟨p.portEncBit, 1⟩ t (bitWord b)))

/-- `RxRead(sub, n)`: the bytes, or `none` for `Fail` (42_receiver_io.md R170). -/
def serialRead (sub : Byte) (size : Nat) : Op (Option (List Byte)) := perform (State.readSerial sub size)

/-- `RxWrite(sub, bytes)`: true for `Ok`, false for `Fail` (42_receiver_io.md R171). -/
def serialWrite (sub : Byte) (payload : List Byte) : Op Bool := perform (State.writeSerial sub payload)

/-- `Rng32()`. -/
def rng32 : Op Word := perform State.readRandom

/-- `DelayUs(n)`: no state change (00_scope.md R12, log 26). -/
def delayUs (n : Nat) : Op Unit := perform fun s => ((), s.log (.delayUs n))

/-- `WaitVblank()`: no state change, always returns (70_reset_and_hazards.md R297, log 26). -/
def waitVblank : Op Unit := perform fun s => ((), s.log .vblank)

/-- `PollUntil(r, pred, max)` (00_scope.md R13): the first read that satisfies `pred` ends it; `last` is the value of
the read before. -/
def pollUntil (r : CipherReg) (pred : Word → Bool) : Nat → Word → Op (Bool × Word)
  | 0, last => pure (false, last)
  | max + 1, _ => do
    let v ← cipherRead r
    if pred v then pure (true, v) else pollUntil r pred max v

/-! ## Working registers and the argument record -/

/-- Writes session registers (10_state.md R36 to R39). -/
def setSes (f : Session → Session) : Op Unit := modify fun s => { s with ses := f s.ses }

/-- Writes `s.ctl_state` (10_state.md R34). -/
def setCtl (c : CtlState) : Op Unit := modify fun s => { s with ctlState := c }

/-- `MemWrite(s.ksvbuf, …)` (20_memory.md R72). -/
def setKsvbuf (f : Memory → Memory) : Op Unit := modify fun s => { s with ksvbuf := f s.ksvbuf }

/-- `MemWrite(s.shabuf, …)` (20_memory.md R72). -/
def setShabuf (f : Memory → Memory) : Op Unit := modify fun s => { s with shabuf := f s.shabuf }

/-- Writes outputs of the argument record (30_encoding.md R103). -/
def setArgs (f : Args → Args) : Op Unit := modify fun s => { s with args := f s.args }

/-- Writes fields of the caller's CPParameters (10_state.md R45). -/
def setParams (f : CpParams → CpParams) : Op Unit := setArgs fun a => { a with params := f a.params }

/-! ## Failures -/

/-- Raising a failure (60_exceptions.md R260, R267): no state is saved, no mode changes, no vector is taken and no
handler runs; only the trace records it (R276). The operation that raises ends at once by returning the result its
rule names, so every raise stands right before a return, but for the BCaps read of 46_cp_params.md R240 and R241, whose
failure ends neither operation (log 16). -/
def raiseFailure (f : Failure) : Op Unit := modify (State.log (.raised f))

/-! ## The start and the end of an operation -/

/-- The start of an operation (41_controller.md R140): busy, the operation recorded, the position at the first
statement (10_state.md R31, R32). The draw counter moves on, so that two commands have different free bytes past the
end of a caller's sequence (log 13). -/
def State.start (i : Instr) (s : State) : State :=
  { s with busy := true, op := some i, stepPos := 0, draws := s.draws + 1 }

/-- Reset, or initialisation (70_reset_and_hazards.md R290, R292, R293): the block's registers are those after reset,
the capability is read, and no collaborator is accessed; the collaborators keep what was written (log 25). DESIGN CHOICE
(log 25): the result of the last operation, also one that had completed, is discarded; R62 and R290 do not say. -/
def State.initialise (supported : Bool) (s : State) : State :=
  { s with
    initialised := true
    busy := false
    op := none
    stepPos := 0
    ctlState := .off
    hdcpSupported := supported
    ses := .zero
    ksvbuf := []
    shabuf := []
    result := none }

/-- A micro-program with its last moment: a reset that arrives after the last access, or in an operation that makes
none, still finds the operation running and abandons it (70_reset_and_hazards.md R293). -/
def completed (body : Op Result) : Op Result := do
  let r ← body
  moment
  return r

/-- The end of an operation (41_controller.md R140, 60_exceptions.md R260): idle, the position discarded (10_state.md
R31), the result returned (R47). A reset that abandoned it leaves the block as after reset. -/
def endOperation : EStateM.Result Abandoned State Result → State
  | .ok r s => { s with busy := false, op := none, stepPos := 0, result := some r }
  | .error a s => s.initialise a.supported

/-- A command that is not executed: no collaborator access, no state change, the answer `InvalidDeviceRequest`
(30_encoding.md R104). -/
def State.rejectCommand (s : State) : State := { s with result := some (.status .invalidDeviceRequest) }

/-- Running one command from start to end (41_controller.md R140). While busy it is refused and nothing else changes
(60_exceptions.md R277); before initialisation it is refused, with no effect (70_reset_and_hazards.md R295,
93_implementation_defined.md item 5; log 21). `w` is its command word. -/
def runOperation (i : Instr) (w : Word) (body : Op Result) (s : State) : Host.Outcome State Fault Refusal :=
  if s.busy then .next (s.refuseBusy w)
  else if s.initialised then .next (endOperation (completed body (s.start i)))
  else .next s.rejectCommand

end Sys2Proof.Machine
end

