-- ==== Sys2Proof/Machine/Controller.lean ====
section
/-! DEFINITION. HDCP Controller operations (41_controller.md R140 to R157). -/

namespace Sys2Proof.Machine

open Sys2Proof

/-! ## Queries -/

/-- The body of HDCP_IS_ENABLED (R142). -/
def isEnabled : Op Bool := do
  let s ← get
  if s.hdcpSupported then
    let v ← cipherRead .status
    return hdcpOn s.prm v
  else
    return false

/-- HDCP_QUERY (R141). -/
def execHdcpQuery (s : State) : Host.Outcome State Fault Refusal :=
  runOperation .hdcpQuery (encode .hdcpQuery) (do return .bool (← get).hdcpSupported) s

/-- HDCP_IS_ENABLED (R142). -/
def execHdcpIsEnabled (s : State) : Host.Outcome State Fault Refusal :=
  runOperation .hdcpIsEnabled (encode .hdcpIsEnabled) (do return .bool (← isEnabled)) s

/-! ## Cipher control -/

/-- `CipherWriteField(HDCP_CONFIG, mode, m)`. -/
def writeMode (m : Nat) : Op Unit := do
  let p := (← get).prm
  cipherWriteField .config p.cfgMode (BitVec.ofNat 32 m)

/-- SET_REPEATER_PRESENT's body (R154): write `present`, read it back. -/
def writeRepeaterPresent (on : Bool) : Op Bool := do
  let p := (← get).prm
  cipherWriteField .rep (presentField p) (bitWord on)
  let v ← cipherRead .rep
  return repPresent p v == on

/-- SET_REPEATER_PRESENT (R154). -/
def execSetRepeaterPresent (on : Bool) (s : State) : Host.Outcome State Fault Refusal :=
  runOperation (.setRepeaterPresent on) (encode (.setRepeaterPresent on))
    (do return .bool (← writeRepeaterPresent on)) s

/-! ## Disable (R144) -/

/-- The disable wait with `n` checks left, each gated by a vertical blank (R144, R308). -/
def disableWait : Nat → Op Bool
  | 0 => do
    raiseFailure (.hardwareTimeout .disable)
    return false
  | n + 1 => do
    let p := (← get).prm
    waitVblank
    let v ← cipherRead .status
    if !hdcpOn p v && !encrypting p v then
      cipherWrite .ri 0
      portSetEnc false
      setCtl .off
      return true
    else
      disableWait n

/-- DISABLE_SEQUENCE (R144). -/
def disableSequence : Op Bool := do
  setCtl .disabling
  writeMode (← get).prm.modeOff
  disableWait disableChecksMax

/-! ## Enable (R145) -/

/-- `FAIL_ENABLE(kind)` (R145): `Off`, the failure, `false`, and no further access. -/
def failEnable (f : Failure) : Op Bool := do
  setCtl .off
  raiseFailure f
  return false

/-- An generation and capture (R146): two seeds, the settle delay, the capture mode, the An poll. Only its timeout
falls back to `CFG_MODE_OFF`. -/
def captureAn : Op Bool := do
  let p := (← get).prm
  let seed0 ← rng32
  setSes fun r => { r with seed0 := seed0 }
  cipherWrite .init seed0
  let seed1 ← rng32
  setSes fun r => { r with seed1 := seed1 }
  cipherWrite .init seed1
  delayUs anSettleUs
  writeMode p.modeCaptureAn
  let (ok, _) ← pollUntil .status (anReady p) pollMax 0
  if ok then
    setCtl .anCaptured
    return true
  else
    writeMode p.modeOff
    failEnable (.hardwareTimeout .anCapture)

/-- An and Aksv read-back (R147). -/
def readAnAksv : Op (BitVec 64 × BitVec 40) := do
  let lo ← cipherRead .anLow
  let hi ← cipherRead .anHi
  setSes fun r => { r with an := hi ++ lo }
  let alo ← cipherRead .aksvLo
  let ahi ← cipherRead .aksvHi
  setSes fun r => { r with aksv := ahi.setWidth 8 ++ alo }
  return (hi ++ lo, ahi.setWidth 8 ++ alo)

/-- An, then Aksv, to the receiver (R148). -/
def sendAnAksv (an : BitVec 64) (aksv : BitVec 40) : Op Bool := do
  if ← serialWrite 0x18 (leBytes 8 an.toNat) then
    if ← serialWrite 0x10 (leBytes 5 aksv.toNat) then return true
    else failEnable (.serialIOFailure 0x10)
  else failEnable (.serialIOFailure 0x18)

/-- Bksv from the receiver, accepted only with the right bit population (R149, 43_validator.md R180). -/
def readBksv : Op (Option Ksv) := do
  match ← serialRead 0x00 ksvBytes with
  | none =>
    let _ ← failEnable (.serialIOFailure 0x00)
    return none
  | some bytes =>
    let k := Ksv.ofBytes bytes
    setSes fun r => { r with bksv := k }
    if k.weight = ksvWeight then
      return some k
    else
      let _ ← failEnable (.protocolViolation .badBksv)
      return none

/-- BCaps, and the repeater-present bit if the receiver is a repeater (R150); its result is ignored. -/
def readBcapsEnable : Op Bool := do
  let p := (← get).prm
  match ← serialRead 0x40 1 with
  | none => failEnable (.serialIOFailure 0x40)
  | some bytes =>
    let b := bytes.getD 0 0
    setSes fun r => { r with bcaps := b }
    if (bcaps p b).isRepeater then
      let _ ← writeRepeaterPresent true
      return true
    else
      return true

/-- Bksv into the cipher (R151). -/
def loadBksv (k : Ksv) : Op Unit := do
  cipherWrite .bksvLo (leWord [k.b0, k.b1, k.b2, k.b3])
  cipherWrite .bksvHi (k.b4.setWidth 32)
  setCtl .authenticated

/-- Encryption on, then the Ri-ready poll (R152). -/
def startEncryption : Op Bool := do
  let p := (← get).prm
  portSetEnc true
  writeMode p.modeAuthEnc
  let (ok, _) ← pollUntil .status (riReady p) pollMax 0
  if ok then return true else failEnable (.hardwareTimeout .riReady)

/-- The receiver's Ri′ read, kept and written to the Ri mirror, then one status read (R155; 45_link_monitor.md R230).
Answers the status value, or `none` where the serial read fails. -/
def compareRi : Op (Option Word) := do
  match ← serialRead 0x08 2 with
  | none => return none
  | some bytes =>
    let ri := le16 bytes
    setSes fun r => { r with ri := ri }
    cipherWrite .ri (ri.setWidth 32)
    let v ← cipherRead .status
    return some v

/-- The final Ri check of enable(true): one comparison, no retry (R155). -/
def checkRi : Op Bool := do
  let p := (← get).prm
  match ← compareRi with
  | none => failEnable (.serialIOFailure 0x08)
  | some v =>
    if riMatch p v then
      setCtl .encrypting
      return true
    else
      setCtl .off
      return false

/-- The enable sequence from the point where Bksv is accepted. -/
def enableWithBksv (k : Ksv) : Op Bool := do
  if ← readBcapsEnable then
    loadBksv k
    if ← startEncryption then checkRi else return false
  else return false

/-- ENABLE_SEQUENCE (R145). -/
def enableSequence : Op Bool := do
  if ← captureAn then
    let (an, aksv) ← readAnAksv
    if ← sendAnAksv an aksv then
      match ← readBksv with
      | none => return false
      | some k => enableWithBksv k
    else return false
  else return false

/-- HDCP_ENABLE's body (R143): the capability gate, then one of the two sequences. -/
def enableHdcp (on : Bool) : Op Bool := do
  if (← get).hdcpSupported then
    if on then enableSequence else disableSequence
  else
    return false

/-- HDCP_ENABLE (R143). -/
def execHdcpEnable (on : Bool) (s : State) : Host.Outcome State Fault Refusal :=
  runOperation (.hdcpEnable on) (encode (.hdcpEnable on)) (do return .bool (← enableHdcp on)) s

/-- SET_ENCRYPTION_LEVEL's body (R153). -/
def encryptionLevel (on : Bool) : Op Status := do
  if ← enableHdcp on then return .success else return .unsuccessful

/-- SET_ENCRYPTION_LEVEL (R153). -/
def execSetEncryptionLevel (on : Bool) (s : State) : Host.Outcome State Fault Refusal :=
  runOperation (.setEncryptionLevel on) (encode (.setEncryptionLevel on))
    (do return .status (← encryptionLevel on)) s

end Sys2Proof.Machine
end

