-- ==== Sys2Proof/Machine/LinkMonitor.lean ====
section
/-! DEFINITION. The link integrity monitor (45_link_monitor.md R230 to R234). -/

namespace Sys2Proof.Machine

open Sys2Proof

/-- The reads of WAIT_FRAME_BOUNDARY (R231), `n` of them left: the first whose frame count lies in another 128-frame
period ends the wait; an exhausted wait is no failure (R232). -/
def awaitFrameBoundary (f0 : Word) : Nat → Op Unit
  | 0 => return ()
  | n + 1 => do
    let p := (← get).prm
    let v ← cipherRead .status
    if framePeriod (frameCount p v) = framePeriod f0 then awaitFrameBoundary f0 n else return ()

/-- WAIT_FRAME_BOUNDARY(f0) (R231). -/
def waitFrameBoundary (f0 : Word) : Op Unit := do
  let p := (← get).prm
  setSes fun r => { r with fc0 := f0 }
  awaitFrameBoundary f0 p.frameWaitMax

/-- The attempts of GET_LINK_STATUS with `n` left (R230). -/
def linkAttempt : Nat → Op Bool
  | 0 => return false
  | n + 1 => do
    let p := (← get).prm
    setSes fun r => { r with attempt := BitVec.ofNat 3 (linkAttempts - n) }
    match ← compareRi with
    | none =>
      raiseFailure (.serialIOFailure 0x08)
      return false
    | some v =>
      if riMatch p v then
        return true
      else
        waitFrameBoundary (frameCount p v)
        linkAttempt n

/-- GET_LINK_STATUS's body (R230). -/
def linkStatus : Op Bool := linkAttempt linkAttempts

/-- GET_LINK_STATUS (R230). -/
def execGetLinkStatus (s : State) : Host.Outcome State Fault Refusal :=
  runOperation .getLinkStatus (encode .getLinkStatus) (do return .bool (← linkStatus)) s

end Sys2Proof.Machine
end

