-- ==== Sys2Proof/Machine/ReceiverIo.lean ====
section
/-! DEFINITION. The receiver I/O sequencer (42_receiver_io.md R170 to R175). -/

namespace Sys2Proof.Machine

open Sys2Proof

/-- RX_READ's body on a buffer of its own (R170): the bytes, or `none` after raising SerialIOFailure. No retry
(R172). -/
def rxRead (sub : Byte) (size : Nat) : Op (Option (List Byte)) := do
  match ← serialRead sub size with
  | none =>
    raiseFailure (.serialIOFailure sub)
    return none
  | some bytes => return some bytes

/-- The regions of the receiver's map, each with its first and its last sub-address (30_encoding.md R110): BKSV, RI,
AKSV, AINFO, AN, V′, BCAPS, BSTATUS, KSV FIFO. -/
def receiverRegions : List (Nat × Nat) :=
  [(0x00, 0x04), (0x08, 0x09), (0x10, 0x14), (0x15, 0x15), (0x18, 0x1F), (0x20, 0x33), (0x40, 0x40), (0x41, 0x42),
    (0x43, 0x43)]

/-- The sub-addresses of AINFO and of the KSV FIFO (R110). -/
def ainfoSub : Byte := 0x15
def ksvFifoSub : Byte := 0x43

/-- One of the `size` bytes from `sub` on lies in the region: byte `i` has sub-address `sub + i` (R170; for a write log
33). -/
def touches (sub : Byte) (size : Nat) (region : Nat × Nat) : Bool :=
  decide (sub.toNat ≤ region.2) && decide (region.1 < sub.toNat + size)

/-- A read that goes across two regions, which the block never makes (R170). A read of the KSV FIFO stays there. -/
def crossesRegions (sub : Byte) (size : Nat) : Bool :=
  sub != ksvFifoSub && receiverRegions.any fun r => receiverRegions.any fun r' =>
    r != r' && touches sub size r && touches sub size r'

/-- RX_READ as a command: on `Ok` all bytes go to the caller's buffer, on `Fail` none (R170, R172). A size of 0 is
illegal (R174, 30_encoding.md R104). A read across two regions is never made (R170); DESIGN CHOICE (log 33): its result
is `Fail`. Every other read is made, also one outside the map (20_memory.md R85, log 33). -/
def rxReadCommand (sub : Byte) (size : BitVec 10) : Op Result := do
  if size = 0 then
    return .status .invalidDeviceRequest
  else if crossesRegions sub size.toNat then
    return .io false
  else
    match ← rxRead sub size.toNat with
    | none => return .io false
    | some bytes =>
      setArgs fun a => { a with buffer := overwrite a.buffer bytes }
      return .io true

/-- RX_READ (R170). -/
def execRxRead (sub : Byte) (size : BitVec 10) (s : State) : Host.Outcome State Fault Refusal :=
  runOperation (.rxRead sub size) (encode (.rxRead sub size)) (rxReadCommand sub size) s

/-- RX_WRITE as a command: the sub-address, then the first `size` bytes of the caller's buffer (R171). The block never
writes AINFO (10_state.md R60); DESIGN CHOICE (log 33): a write one of whose bytes would go there is not made, and its
result is `Fail`, the answer for a write "not done" (R171). Every other write is made, also one outside the map
(20_memory.md R85, log 33). -/
def rxWriteCommand (sub : Byte) (size : BitVec 10) : Op Result := do
  if size = 0 then
    return .status .invalidDeviceRequest
  else if touches sub size.toNat (ainfoSub.toNat, ainfoSub.toNat) then
    return .io false
  else
    let s ← get
    if ← serialWrite sub (callerBytes s.draws s.args.buffer size.toNat) then
      return .io true
    else
      raiseFailure (.serialIOFailure sub)
      return .io false

/-- RX_WRITE (R171). -/
def execRxWrite (sub : Byte) (size : BitVec 10) (s : State) : Host.Outcome State Fault Refusal :=
  runOperation (.rxWrite sub size) (encode (.rxWrite sub size)) (rxWriteCommand sub size) s

/-- The 4-byte V′ blocks at `subs`, each assembled little-endian; the first that fails ends the operation (R173). -/
def readVBlocks : List Byte → Op (Option (List Word))
  | [] => return some []
  | sub :: subs => do
    match ← rxRead sub 4 with
    | none =>
      raiseFailure (.serialIOFailure sub)
      return none
    | some bytes =>
      match ← readVBlocks subs with
      | none => return none
      | some ws => return some (leWord bytes :: ws)

/-- The sub-addresses of the five V′ blocks (30_encoding.md R110). -/
def vprimeSubs : List Byte := [0x20, 0x24, 0x28, 0x2C, 0x30]

/-- RX_READ_VPRIME's body (R173): all five words, or `none`. -/
def readVPrime : Op (Option VWords) := do
  match ← readVBlocks vprimeSubs with
  | none => return none
  | some ws => return some (VWords.ofList ws)

/-- RX_READ_VPRIME as a command: the caller's `v_prime` is written only when all five blocks succeeded (R173). -/
def rxReadVPrimeCommand : Op Result := do
  match ← readVPrime with
  | none => return .io false
  | some v =>
    setArgs fun a => { a with vPrime := v }
    return .io true

/-- RX_READ_VPRIME (R173). -/
def execRxReadVPrime (s : State) : Host.Outcome State Fault Refusal :=
  runOperation .rxReadVPrime (encode .rxReadVPrime) rxReadVPrimeCommand s

end Sys2Proof.Machine
end

