-- ==== Sys2Proof/Machine/Validator.lean ====
section
/-! DEFINITION. The key-selection-vector check and the revocation test (43_validator.md R180 to R184). Neither makes a
collaborator access. -/

namespace Sys2Proof.Machine

open Sys2Proof

/-- `VALID_KSV(buffer, size)` (R180): a size other than 5 is false whatever the bytes. -/
def validBksv (k : Ksv) (size : Nat) : Bool := decide (size = ksvBytes) && decide (k.weight = ksvWeight)

/-- HDCP_IS_VALID_BKSV (R180). -/
def execHdcpIsValidBksv (s : State) : Host.Outcome State Fault Refusal :=
  runOperation .hdcpIsValidBksv (encode .hdcpIsValidBksv)
    (do
      let s ← get
      return .bool (validBksv (Ksv.ofBytes (callerBytes s.draws s.args.buffer ksvBytes)) s.args.size)) s

/-- IS_REVOKED's body (R181): the entries in sequence order, ending at the first that matches. -/
def revokedBy (candidate : Ksv) : List Ksv → Bool
  | [] => false
  | e :: es => if e = candidate then true else revokedBy candidate es

/-- IS_REVOKED (R181). -/
def execIsRevoked (s : State) : Host.Outcome State Fault Refusal :=
  runOperation .isRevoked (encode .isRevoked)
    (do
      let s ← get
      return .bool (revokedBy s.args.candidate s.args.revocationSet)) s

/-- The revocation scan of a KSV list (R182): the vectors in list order, ending at the first revoked one. -/
def anyRevoked (revocationSet : List Ksv) : List Ksv → Bool
  | [] => false
  | k :: ks => if revokedBy k revocationSet then true else anyRevoked revocationSet ks

end Sys2Proof.Machine
end

