-- ==== Sys2Proof/Machine/Repeater.lean ====
section
/-! DEFINITION. The repeater verifier (44_repeater.md R190 to R214). -/

namespace Sys2Proof.Machine

open Sys2Proof

/-! ## The SHA-1 input buffer (R196 to R199) -/

/-- `s.blen = ceil((5 * count + 18) / 64) * 64` (R196). -/
def shaLength (count : Nat) : Nat :=
  (ksvBytes * count + (topoBytes + moBytes + lenBytes) + (shaBlock - 1)) / shaBlock * shaBlock

/-- `T = 5 * count + 2`: the bytes of text, KSV list and topology (R197). -/
def textBytes (count : Nat) : Nat := ksvBytes * count + topoBytes

/-- The bit length of KSV list, topology and Mo (R198). -/
def shaBitLength (count : Nat) : Nat := (ksvBytes * count + topoBytes + moBytes) * 8

/-- The writes of BUILD_SHA1_BUFFER (R196), in its order: zeros, the KSV list, the topology little-endian, the length
most significant byte first. -/
def fillShaBuffer (ksvs : List Byte) (count : Nat) (topology : BitVec 16) (m : Memory) : Memory :=
  let zeroed := m.writeBytes 0 (List.replicate (shaLength count) 0)
  let listed := zeroed.writeBytes 0 ksvs
  let topo := (listed.write (ksvBytes * count) (topology.extractLsb' 0 8)).write (ksvBytes * count + 1)
    (topology.extractLsb' 8 8)
  topo.writeBytes (shaLength count - lenBytes) (be64Bytes (shaBitLength count))

/-- BUILD_SHA1_BUFFER's body (R196); `ksvs` has `5 * count` bytes. -/
def buildShaBuffer (ksvs : List Byte) (count : Nat) (topology : BitVec 16) : Op Unit := do
  setSes fun r => { r with blen := BitVec.ofNat 11 (shaLength count) }
  setShabuf (fillShaBuffer ksvs count topology)

/-- BUILD_SHA1_BUFFER as a command: the buffer and its length go to the argument record (30_encoding.md R103). -/
def buildShaCommand : Op Result := do
  let s ← get
  let count := s.args.count.toNat
  buildShaBuffer (callerBytes s.draws s.args.ksvList (ksvBytes * count)) count s.args.topology
  let m := (← get).shabuf
  setArgs fun a => { a with shaBuffer := m.readBytes 0 (shaLength count), shaLength := shaLength count }
  return .record

/-- BUILD_SHA1_BUFFER (R196). -/
def execBuildSha1Buffer (s : State) : Host.Outcome State Fault Refusal :=
  runOperation .buildSha1Buffer (encode .buildSha1Buffer) buildShaCommand s

/-! ## Feeding the SHA-1 engine (R200 to R208) -/

/-- The engine is ready for a word: `status == REP_ST_READY` (R201). -/
def shaReady (p : Params) (v : Word) : Bool := repState p v == .readyForNextData

/-- `CipherWriteField(HDCP_REP, control, mode)`. -/
def writeControl (mode : BitVec 3) : Op Unit := do
  let p := (← get).prm
  cipherWriteField .rep (controlField p) (mode.setWidth 32)

/-- FEED(mode, w) (R201): the mode, the ready poll, the word. A timeout writes no word and answers false (R208). -/
def feed (mode : BitVec 3) (w : Word) : Op Bool := do
  let p := (← get).prm
  writeControl mode
  let (ok, _) ← pollUntil .rep (shaReady p) pollMax 0
  if ok then
    cipherWrite .sha1In w
    return true
  else
    raiseFailure (.hardwareTimeout .sha1Ready)
    return false

/-- Feeds a word and moves `s.pos` from `pos` to the next chunk. -/
def feedAt (pos : Nat) (mode : BitVec 3) (w : Word) : Op Bool := do
  if ← feed mode w then
    setSes fun r => { r with pos := BitVec.ofNat 11 (pos + 4) }
    return true
  else return false

/-- `BE32(s.shabuf[pos .. pos+3])`. -/
def shaChunk (pos : Nat) : Op Word := do return beWord ((← get).shabuf.readBytes pos 4)

/-- `n` whole text words from `pos` on: phase 1 (R202) and phase 5 (R206). -/
def feedText : Nat → Nat → Op Bool
  | 0, _ => return true
  | n + 1, pos => do
    let p := (← get).prm
    if ← feedAt pos p.ctrlText32 (← shaChunk pos) then feedText n (pos + 4) else return false

/-- `MERGE(t0 .. t(r-1))` (R203): the text bytes packed big-endian in the low bytes of the word, or, for the position
HIGH, `BE32` of the four buffer bytes. `bytes` is the 4-byte chunk, of which the first `r` are text. -/
def mergeWord (p : Params) (r : Nat) (bytes : List Byte) : Word :=
  match p.mergeText with
  | .low => beWord (bytes.take r)
  | .high => beWord bytes

/-- Phase 2 (R203), only for a remainder `r` of 1 to 3: the last text bytes with the first Mo bytes. -/
def feedPartial (r pos : Nat) : Op Bool := do
  if r = 0 then
    return true
  else
    let s ← get
    if ← feedAt pos (textMode s.prm r) (mergeWord s.prm r (s.shabuf.readBytes pos 4)) then
      setSes fun x => { x with moLeft := BitVec.ofNat 4 (moBytes - (4 - r)) }
      return true
    else return false

/-- Phase 3 (R204): one word of Mo. `left` is what remains of Mo after it. -/
def feedMo (pos left : Nat) : Op Bool := do
  let p := (← get).prm
  if ← feedAt pos p.ctrlMo32 0 then
    setSes fun r => { r with moLeft := BitVec.ofNat 4 left }
    return true
  else return false

/-- Phase 4 (R205): the last `left` Mo bytes with the start of the padding. -/
def feedMoRest (pos left : Nat) : Op Bool := do
  let p := (← get).prm
  if left = 0 then
    return true
  else if ← feedAt pos (textMode p (4 - left)) (← shaChunk pos) then
    setSes fun r => { r with moLeft := 0 }
    return true
  else return false

/-- COMPUTE_TRANSMITTER_V's phases after the buffer is built (R200); `T = 5 * count + 2`, `r = T mod 4`, `q = T - r`.
Each phase starts where the one before ended: after phase 2 at `q`, or `q + 4` where `r` is not 0. -/
def feedPhases (count : Nat) : Op Bool := do
  let r := textBytes count % 4
  let q := textBytes count - r
  let pos3 := if r = 0 then q else q + 4
  let left4 := if r = 0 then moBytes - 4 else moBytes - (4 - r) - 4
  let pos5 := if left4 = 0 then pos3 + 4 else pos3 + 8
  if ← feedText (q / 4) 0 then
    if ← feedPartial r q then
      if ← feedMo pos3 left4 then
        if ← feedMoRest (pos3 + 4) left4 then
          feedText ((shaLength count - pos5) / 4) pos5
        else return false
      else return false
    else return false
  else return false

/-- COMPUTE_TRANSMITTER_V's body (R200). -/
def computeV (ksvs : List Byte) (count : Nat) (topology : BitVec 16) : Op Bool := do
  buildShaBuffer ksvs count topology
  setSes fun r => { r with pos := 0, moLeft := BitVec.ofNat 4 moBytes }
  feedPhases count

/-- COMPUTE_TRANSMITTER_V (R200). -/
def execComputeTransmitterV (s : State) : Host.Outcome State Fault Refusal :=
  runOperation .computeTransmitterV (encode .computeTransmitterV)
    (do
      let s ← get
      let count := s.args.count.toNat
      return .bool (← computeV (callerBytes s.draws s.args.ksvList (ksvBytes * count)) count s.args.topology)) s

/-! ## The V′ comparison (R209) -/

/-- The completion poll of R209 with `n` reads left: 12 is true, 4 or Idle false, any other value continues. -/
def awaitCompletion : Nat → Op Bool
  | 0 => do
    raiseFailure (.hardwareTimeout .repeaterComplete)
    return false
  | n + 1 => do
    let p := (← get).prm
    let v ← cipherRead .rep
    match repState p v with
    | .completeMatch => return true
    | .completeNoMatch | .idle => return false
    | .busy | .readyForNextData | .other => awaitCompletion n

/-- The five V′ words into the cipher, H0 first (R209). -/
def loadVPrime (v : VWords) : Op Unit := do
  cipherWrite (.vprime 0) v.h0
  cipherWrite (.vprime 1) v.h1
  cipherWrite (.vprime 2) v.h2
  cipherWrite (.vprime 3) v.h3
  cipherWrite (.vprime 4) v.h4

/-- COMPARE_V_PRIME's body (R209). -/
def compareV (v : VWords) : Op Bool := do
  let p := (← get).prm
  loadVPrime v
  let (ok, _) ← pollUntil .rep (shaReady p) pollMax 0
  if ok then
    writeControl p.ctrlCompleteSha1
    awaitCompletion pollMax
  else
    raiseFailure (.hardwareTimeout .repeaterReady)
    return false

/-- COMPARE_V_PRIME (R209). -/
def execCompareVPrime (s : State) : Host.Outcome State Fault Refusal :=
  runOperation .compareVPrime (encode .compareVPrime) (do return .bool (← compareV (← get).args.vPrime)) s

/-! ## Teardown (R210) -/

/-- REPEATER_TEARDOWN's body (R210). -/
def teardown : Op Unit := do
  let p := (← get).prm
  cipherWriteField .rep (presentField p) (bitWord false)
  writeMode p.modeOff
  setCtl .off

/-- REPEATER_TEARDOWN (R210). -/
def execRepeaterTeardown (s : State) : Host.Outcome State Fault Refusal :=
  runOperation .repeaterTeardown (encode .repeaterTeardown) (do teardown; return .nothing) s

/-! ## Activation (R190) -/

/-- The first reason of step 3 to refuse a topology, in the order the rule tests them (R190, R193). -/
def topologyViolation (b : BStatus) : Option Violation :=
  if b.maxDevicesExceeded then some .maxDevices
  else if b.maxCascadeExceeded then some .maxCascade
  else if deviceCountMax < b.deviceCount then some .count
  else none

/-- The entries of `s.ksvbuf` (R195). -/
def ksvEntries (m : Memory) (count : Nat) : List Ksv :=
  (List.range count).map fun i => Ksv.ofBytes (m.readBytes (ksvBytes * i) ksvBytes)

/-- The end of a run on which a revoked KSV was found: teardown, and `RevokedHdcpDeviceAttached` whatever came before
(R211). The ProtocolViolation is recorded here (60_exceptions.md R261, log 17). -/
def endRevoked : Op Status := do
  teardown
  raiseFailure (.protocolViolation .revoked)
  return .revokedHdcpDeviceAttached

/-- The end of a run that failed after step 5: teardown, and `Unsuccessful` unless a revoked KSV was found (R190 steps
8 to 10). -/
def endFailed (revoked : Bool) : Op Status := do
  if revoked then endRevoked
  else
    teardown
    return .unsuccessful

/-- Steps 8 to 10 (R190). -/
def verifyV (count : Nat) (topology : BitVec 16) (revoked : Bool) : Op Status := do
  if ← computeV ((← get).ksvbuf.readBytes 0 (ksvBytes * count)) count topology then
    match ← readVPrime with
    | none => endFailed revoked
    | some v =>
      setSes fun r => { r with vprime := v }
      let m ← compareV v
      if revoked then endRevoked
      else if m then return .success
      else endFailed false
  else endFailed revoked

/-- Steps 6 and 7, then the rest (R190, R195; 43_validator.md R182). -/
def verifyTopology (count : Nat) (topology : BitVec 16) (revocationSet : List Ksv) : Op Status := do
  match ← serialRead 0x43 (ksvBytes * count) with
  | none =>
    teardown
    raiseFailure (.serialIOFailure 0x43)
    return .unsuccessful
  | some bytes =>
    setKsvbuf fun m => m.writeBytes 0 bytes
    let revoked := anyRevoked revocationSet (ksvEntries (← get).ksvbuf count)
    setSes fun r => { r with revoked := revoked }
    verifyV count topology revoked

/-- Steps 3 to 5, then the rest (R190, R193, R194). -/
def checkTopology (revocationSet : List Ksv) : Op Status := do
  let p := (← get).prm
  match ← serialRead 0x41 2 with
  | none =>
    raiseFailure (.serialIOFailure 0x41)
    return .unsuccessful
  | some bytes =>
    let topology := le16 bytes
    setSes fun r => { r with bstatus := topology }
    match topologyViolation (bstatus p topology) with
    | some v =>
      raiseFailure (.protocolViolation v)
      return .invalidParameter
    | none =>
      let count := (bstatus p topology).deviceCount
      setSes fun r => { r with count := BitVec.ofNat 7 count }
      if count = 0 then return .success
      else if ← writeRepeaterPresent true then verifyTopology count topology revocationSet
      else return .unsuccessful

/-- ACTIVATE_REPEATER's body (R190): steps 1 and 2, then the rest (R191, R192). -/
def activate (revocationSet : List Ksv) : Op Status := do
  let p := (← get).prm
  match ← serialRead 0x40 1 with
  | none =>
    raiseFailure (.serialIOFailure 0x40)
    return .unsuccessful
  | some bytes =>
    let b := bytes.getD 0 0
    setSes fun r => { r with bcaps := b }
    if (bcaps p b).isRepeater then
      if (bcaps p b).ksvFifoReady then checkTopology revocationSet else return .pending
    else return .invalidParameter

/-- ACTIVATE_REPEATER (R190). -/
def execActivateRepeater (s : State) : Host.Outcome State Fault Refusal :=
  runOperation .activateRepeater (encode .activateRepeater)
    (do return .status (← activate (← get).args.revocationSet)) s

end Sys2Proof.Machine
end

