-- ==== Sys2Proof/Machine/CpExchange.lean ====
section
/-! DEFINITION. The exchange of content-protection parameters with the policy layer (46_cp_params.md R240 to R245). -/

namespace Sys2Proof.Machine

open Sys2Proof

/-- The gate of both operations (R244): HDCP is supported and requested. -/
def cpGate (s : State) : Bool := s.hdcpSupported && hdcpRequested s.prm s.args.params

/-- The repeater query of both operations (R243): one BCaps read, reported in `is_repeater`, false where it fails. A
failed read is a SerialIOFailure (60_exceptions.md R261, R265) that ends neither operation (R240, R241; log 16). Answers
whether the read succeeded. -/
def reportRepeater : Op Bool := do
  let p := (← get).prm
  match ← serialRead 0x40 1 with
  | none =>
    raiseFailure (.serialIOFailure 0x40)
    setParams fun c => { c with isRepeater := false }
    return false
  | some bytes =>
    let b := bytes.getD 0 0
    setSes fun r => { r with bcaps := b }
    setParams fun c => { c with isRepeater := (bcaps p b).isRepeater }
    return true

/-- The level and the link check of HDCP_GET_CP_DATA (R240). -/
def reportLevel : Op Status := do
  let p := (← get).prm
  if ← isEnabled then
    setParams fun c => { c with level := p.cpLevelOn }
    if ← linkStatus then
      return .success
    else
      setParams fun c => { c with level := p.cpLevelOff }
      let _ ← encryptionLevel false
      return .unsuccessful
  else
    setParams fun c => { c with level := p.cpLevelOff }
    return .success

/-- HDCP_GET_CP_DATA's body (R240). -/
def getCpData : Op Status := do
  if cpGate (← get) then
    let st ← reportLevel
    if ← reportRepeater then return st
    else if st = .success then return .dataError
    else return st
  else return .notSupported

/-- HDCP_GET_CP_DATA (R240). -/
def execHdcpGetCpData (s : State) : Host.Outcome State Fault Refusal :=
  runOperation .hdcpGetCpData (encode .hdcpGetCpData) (do return .status (← getCpData)) s

/-- The action of HDCP_SET_CP_DATA (R241): repeater verification with the caller's KSV list as the revocation set, or
the requested level; a level that is not `CP_LEVEL_ON` requests Off. -/
def applyCpData : Op Status := do
  let s ← get
  let c := s.args.params
  if c.performSecondStep ≠ 0 then
    activate (callerKsvs s.draws c.ksvList c.ksvListLength)
  else
    encryptionLevel (c.level == s.prm.cpLevelOn)

/-- The safety net (R242): after any result but `Success`, level Off and the full disable; its result is discarded. -/
def safetyNet (st : Status) : Op Unit := do
  if st = .success then
    return ()
  else
    let p := (← get).prm
    setParams fun c => { c with level := p.cpLevelOff }
    let _ ← encryptionLevel false
    return ()

/-- HDCP_SET_CP_DATA's body (R241). -/
def setCpData : Op Status := do
  if cpGate (← get) then
    let _ ← reportRepeater
    let st ← applyCpData
    safetyNet st
    return st
  else return .notSupported

/-- HDCP_SET_CP_DATA (R241). -/
def execHdcpSetCpData (s : State) : Host.Outcome State Fault Refusal :=
  runOperation .hdcpSetCpData (encode .hdcpSetCpData) (do return .status (← setCpData)) s

end Sys2Proof.Machine
end

