-- ==== Sys2Proof/Machine/Dispatch.lean ====
section
/-! DEFINITION. One arm per operation of 30_encoding.md R100. -/

namespace Sys2Proof.Machine

open Sys2Proof

/-- What an operation does when it is started in a state (30_encoding.md R100). -/
def exec (i : Instr) (s : State) : Host.Outcome State Fault Refusal :=
  match i with
  | .hdcpQuery => Sys2Proof.Machine.execHdcpQuery s
  | .hdcpIsEnabled => Sys2Proof.Machine.execHdcpIsEnabled s
  | .hdcpEnable on => Sys2Proof.Machine.execHdcpEnable on s
  | .hdcpGetCpData => Sys2Proof.Machine.execHdcpGetCpData s
  | .hdcpSetCpData => Sys2Proof.Machine.execHdcpSetCpData s
  | .hdcpIsValidBksv => Sys2Proof.Machine.execHdcpIsValidBksv s
  | .setEncryptionLevel on => Sys2Proof.Machine.execSetEncryptionLevel on s
  | .activateRepeater => Sys2Proof.Machine.execActivateRepeater s
  | .buildSha1Buffer => Sys2Proof.Machine.execBuildSha1Buffer s
  | .computeTransmitterV => Sys2Proof.Machine.execComputeTransmitterV s
  | .compareVPrime => Sys2Proof.Machine.execCompareVPrime s
  | .getLinkStatus => Sys2Proof.Machine.execGetLinkStatus s
  | .isRevoked => Sys2Proof.Machine.execIsRevoked s
  | .rxRead sub size => Sys2Proof.Machine.execRxRead sub size s
  | .rxWrite sub size => Sys2Proof.Machine.execRxWrite sub size s
  | .rxReadVPrime => Sys2Proof.Machine.execRxReadVPrime s
  | .setRepeaterPresent on => Sys2Proof.Machine.execSetRepeaterPresent on s
  | .repeaterTeardown => Sys2Proof.Machine.execRepeaterTeardown s

end Sys2Proof.Machine
end

