-- ==== Sys2Proof/Machine/Fetch.lean ====
section
/-! DEFINITION. What an idle block does with the next input of the host (70_reset_and_hazards.md R290, R295;
30_encoding.md R104, R107; 60_exceptions.md R277). -/

namespace Sys2Proof.Machine

open Sys2Proof

/-- The state with an argument record supplied for the command that starts now (30_encoding.md R102). -/
def State.withArgs (a : Args) (s : State) : State := { s with args := a }

/-- A command word presented with its argument record. Refused while busy (60_exceptions.md R277) and before
initialisation (70_reset_and_hazards.md R295; log 21); an illegal word is not executed (30_encoding.md R104); every
other word runs its operation. -/
def presentCommand (w : Word) (a : Args) (s : State) : Host.Outcome State Fault Refusal :=
  if s.busy then .next (s.refuseBusy w)
  else if s.initialised then
    match decode w with
    | .ok i => exec i (s.withArgs a)
    | .error _ => .next s.rejectCommand
  else .next s.rejectCommand

/-- One input of the host, taken from the inbox (log 1). The loss of the power reference changes nothing in the block
(70_reset_and_hazards.md R296, log 20). -/
def takeInput (h : HostInput) (s : State) : Host.Outcome State Fault Refusal :=
  match h with
  | .command w a => presentCommand w a s
  | .initialise supported => .next (s.initialise supported)
  | .powerLoss => .next s

/-- `s` with a command word as the next input, the block ready to take it, and the argument record the host holds
now. -/
def State.withCommandWord (w : Word) (s : State) : State :=
  { s with initialised := true, busy := false, op := none, inbox := .command w s.args :: s.inbox }

end Sys2Proof.Machine
end

