-- ==== Sys2Proof/Machine/Step.lean ====
section
/-! DEFINITION. One step of the machine: the next input of the host, from start to end. -/

namespace Sys2Proof.Machine

open Sys2Proof

/-- The block takes its next input. With none waiting "it waits, idle, for the first command" (70_reset_and_hazards.md
R290; log 22). -/
def step (s : State) : Host.Outcome State Fault Refusal :=
  match s.inbox with
  | [] => .next s
  | h :: rest => takeInput h { s with inbox := rest }

/-- `s` with a table word of `nbits` bits as the next command, so that `step` runs it (log 1). -/
def State.withFetchWord (s : State) (nbits w : Nat) : State :=
  s.withCommandWord (BitVec.ofNat 32 (w % 2 ^ nbits))

end Sys2Proof.Machine
end

