-- ==== Sys2Proof/Safety.lean ====
section
/-! DEFINITION. The terms claims are stated in: when a command may start, what a run of an operation is, what it
leaves unchanged, the shapes its accesses take, and the invariant of the machine. -/

namespace Sys2Proof.Machine

open Sys2Proof

/-! ## Where an operation may start, and what a run of one is -/

/-- The block takes commands: initialised and idle (70_reset_and_hazards.md R295, 10_state.md R32). -/
def State.ready (s : State) : Bool := s.initialised && !s.busy

/-- The input is no reset. -/
def HostInput.isNoReset : HostInput → Bool
  | .command _ _ => true
  | .initialise _ => false
  | .powerLoss => true

/-- No reset lands in the coming moments (70_reset_and_hazards.md R293; log 3). -/
def State.undisturbed (s : State) : Bool := s.env.arrivals.all fun l => l.all HostInput.isNoReset

/-- What an operation can change, apart from its result, its trace and the interfaces' own bookkeeping: the block's
registers and buffers, what it has written to the collaborators, the argument record and the waiting inputs. -/
structure Visible where
  prm : Params
  ctlState : CtlState
  hdcpSupported : Bool
  ses : Session
  ksvbuf : Memory
  shabuf : Memory
  cipher : Cipher
  port : Word
  args : Args
  inbox : List HostInput
  deriving DecidableEq, Repr

/-- The visible part of a state. -/
def State.visible (s : State) : Visible where
  prm := s.prm
  ctlState := s.ctlState
  hdcpSupported := s.hdcpSupported
  ses := s.ses
  ksvbuf := s.ksvbuf
  shabuf := s.shabuf
  cipher := s.cipher
  port := s.port
  args := s.args
  inbox := s.inbox

/-- The block writes the register (10_state.md R51). -/
def CipherReg.isWritten : CipherReg → Bool
  | .config | .rep | .ri | .bksvLo | .bksvHi | .vprime _ | .sha1In | .init => true
  | .status | .akeyLo | .akeyMed | .akeyHi | .aksvLo | .aksvHi | .anLow | .anHi => false

/-- The value a register of the cipher keeps; none where every read is a draw (10_state.md R51 to R58, log 27). Of
HDCP_INIT it is the most recent one. -/
def Cipher.holds (c : Cipher) : CipherReg → Option Word
  | .config => some c.config
  | .rep => some c.rep
  | .ri => some c.ri
  | .bksvLo => some c.bksvLo
  | .bksvHi => some c.bksvHi
  | .akeyLo => some c.akeyLo
  | .akeyMed => some c.akeyMed
  | .akeyHi => some c.akeyHi
  | .vprime i => [c.vprime.h0, c.vprime.h1, c.vprime.h2, c.vprime.h3, c.vprime.h4][i.val]?
  | .sha1In => some c.sha1In
  | .init => some c.initNew
  | .status | .aksvLo | .aksvHi | .anLow | .anHi => none

/-- What one event does to the cipher's registers and the port register. -/
def Event.applyTo (p : Params) (c : Cipher × Word) : Event → Cipher × Word
  | .cipherWrite r v => (c.1.write p r v, c.2)
  | .portWrite v => (c.1, v)
  | .cipherRead _ _ | .portRead _ | .serialRead _ _ _ | .serialWrite _ _ _ | .random _ | .delayUs _ | .vblank
  | .raised _ => c

/-- The event is an access, no raise: a collaborator access, a random number or a wait of 00_scope.md R12. -/
def Event.isAccess : Event → Bool
  | .raised _ => false
  | .cipherRead _ _ | .cipherWrite _ _ | .portRead _ | .portWrite _ | .serialRead _ _ _ | .serialWrite _ _ _
  | .random _ | .delayUs _ | .vblank => true

/-- The number of accesses among the events. -/
def accesses (es : List Event) : Nat := es.countP Event.isAccess

/-- The visible part after the writes among the events `es`, in order, and nothing else. -/
def Visible.replay (es : List Event) (v : Visible) : Visible :=
  let c := es.foldl (Event.applyTo v.prm) (v.cipher, v.port)
  { v with cipher := c.1, port := c.2 }

/-- The scripted answers still to come. -/
def State.scripts (s : State) : Env := { s.env with arrivals := [] }

/-- The scripted answers still to come after an event: an event that answers takes the next answer of its script
(log 4). -/
def Env.taken (env : Env) : Event → Env
  | .cipherRead _ _ => { env with cipher := env.cipher.tail }
  | .portRead _ => { env with port := env.port.tail }
  | .serialRead _ _ _ | .serialWrite _ _ _ => { env with serial := env.serial.tail }
  | .random _ => { env with rng := env.rng.tail }
  | .cipherWrite _ _ | .portWrite _ | .delayUs _ | .vblank | .raised _ => env

/-- The answer an event shows is the next scripted one, and any answer at all where nothing is scripted (00_scope.md
R6): a cipher read shows the draw as the read-back law leaves it (10_state.md R58), a serial read has the size asked
for (20_memory.md R81). -/
def Event.answeredBy (p : Params) (c : Cipher) (env : Env) : Event → Prop
  | .cipherRead r v => ∃ d, (∀ x, env.cipher.head? = some x → d = x) ∧ v = readBack p c r d
  | .portRead v => ∀ x, env.port.head? = some x → v = x
  | .serialRead _ size a => (∀ bs, a = some bs → bs.length = size) ∧ (∀ x, env.serial.head? = some x →
      a.isSome = x.isSome ∧ ∀ bs, x = some bs → bs.length = size → a = some bs)
  | .serialWrite _ _ ok => ∀ x, env.serial.head? = some x → ok = x.isSome
  | .random v => ∀ x, env.rng.head? = some x → v = x
  | .cipherWrite _ _ | .portWrite _ | .delayUs _ | .vblank | .raised _ => True

/-- Every answer in a run of events is the environment's, read by read, with the cipher's registers as the writes
before it left them. -/
def Answered (p : Params) : Cipher × Word → Env → List Event → Prop
  | _, _, [] => True
  | c, env, e :: es => e.answeredBy p c.1 env ∧ Answered p (e.applyTo p c) (env.taken e) es

/-- Operation `i`, started in `s`, ends in `t`: it returns `r`, the block is idle again (41_controller.md R140), and
`es` are the accesses and raises it made, in order (20_memory.md R86). -/
def Runs (i : Instr) (s t : State) (r : Result) (es : List Event) : Prop :=
  exec i s = .next t ∧ t.result = some r ∧ t.busy = false ∧ t.op = none ∧ t.stepPos = 0 ∧
    t.trace = es.reverse ++ s.trace

/-- Operation `i`, started in `s`, only returns `r`: no access, no raise, nothing written. -/
def OnlyReturns (i : Instr) (s : State) (r : Result) : Prop := ∃ t, Runs i s t r [] ∧ t.visible = s.visible

/-- The results an operation may return (30_encoding.md R100). -/
def mayReturn : Instr → Result → Bool
  | .hdcpQuery, .bool _ | .hdcpIsEnabled, .bool _ | .hdcpEnable _, .bool _ | .hdcpIsValidBksv, .bool _
  | .computeTransmitterV, .bool _ | .compareVPrime, .bool _ | .getLinkStatus, .bool _ | .isRevoked, .bool _
  | .setRepeaterPresent _, .bool _ => true
  | .hdcpGetCpData, .status _ | .hdcpSetCpData, .status _ | .setEncryptionLevel _, .status _
  | .activateRepeater, .status _ => true
  | .rxRead _ _, .io _ | .rxWrite _ _, .io _ | .rxReadVPrime, .io _ => true
  | .buildSha1Buffer, .record => true
  | .repeaterTeardown, .nothing => true
  | _, _ => false

/-! ## Host inputs that land during an operation -/

/-- The refusal list after the inputs `l` landed: each command gets `InvalidDeviceRequest` (60_exceptions.md R277). -/
def refusalsAfter (l : List HostInput) (refusals : List (Word × Status)) : List (Word × Status) :=
  (l.filterMap fun
    | .command w _ => some (w, Status.invalidDeviceRequest)
    | .initialise _ => none
    | .powerLoss => none).reverse ++ refusals

/-- The state with other inputs on their way. -/
def State.withArrivals (arrivals : List (List HostInput)) (s : State) : State :=
  { s with env := { s.env with arrivals := arrivals } }

/-! ## Illegal words (30_encoding.md R104) -/

/-- The opcodes of format C0 (30_encoding.md R100). -/
def opcodesC0 : List Byte := [0x01, 0x02, 0x04, 0x05, 0x06, 0x11, 0x12, 0x13, 0x14, 0x15, 0x16, 0x19, 0x1B]
/-- The opcodes of format C1. -/
def opcodesC1 : List Byte := [0x03, 0x10, 0x1A]
/-- The opcodes of format C2. -/
def opcodesC2 : List Byte := [0x17, 0x18]

/-- R104's words, by arithmetic on the number the word is: the opcode is not listed, or a bit that its format says is 0
is not, or the format is C2 and the size is 0. -/
def IllegalWord (w : Word) : Prop :=
  let op : Byte := BitVec.ofNat 8 w.toNat
  (op ∉ opcodesC0 ∧ op ∉ opcodesC1 ∧ op ∉ opcodesC2) ∨ (op ∈ opcodesC0 ∧ 2 ^ 8 ≤ w.toNat) ∨
    (op ∈ opcodesC1 ∧ 2 ^ 9 ≤ w.toNat) ∨
    (op ∈ opcodesC2 ∧ (2 ^ 26 ≤ w.toNat ∨ w.toNat / 2 ^ 16 % 2 ^ 10 = 0))

/-! ## Shapes of accesses -/

/-- A poll that ended well: fewer than `POLL_MAX` reads that failed the test, then the read `v` that passed it
(00_scope.md R13). -/
def PollHit (r : CipherReg) (test : Word → Bool) (es : List Event) : Prop :=
  ∃ (vs : List Word) (v : Word), vs.length < pollMax ∧ (∀ x ∈ vs, test x = false) ∧ test v = true ∧
    es = vs.map (Event.cipherRead r) ++ [.cipherRead r v]

/-- A poll that ran out: `POLL_MAX` reads, none of which passed the test (00_scope.md R13). -/
def PollMiss (r : CipherReg) (test : Word → Bool) (es : List Event) : Prop :=
  ∃ vs : List Word, vs.length = pollMax ∧ (∀ x ∈ vs, test x = false) ∧ es = vs.map (Event.cipherRead r)

/-- The two accesses of `CipherWriteField` (20_memory.md R78), `d` being what the read found. -/
def fieldWrite (r : CipherReg) (f : Field) (v d : Word) : List Event :=
  [.cipherRead r d, .cipherWrite r (setField f d v)]

/-- The two accesses of `PortSetEnc` (20_memory.md R79). -/
def portWrites (p : Params) (b : Bool) (d : Word) : List Event :=
  [.portRead d, .portWrite (setField ⟨p.portEncBit, 1⟩ d (bitWord b))]

/-- One vertical-blank-gated status check of the disable wait (41_controller.md R144). -/
def disableCheck (v : Word) : List Event := [.vblank, .cipherRead .status v]

/-- Both bits of the disable wait are clear (41_controller.md R144). -/
def disabledNow (p : Params) (v : Word) : Bool := !hdcpOn p v && !encrypting p v

/-- The accesses of one FEED that succeeded (44_repeater.md R201). -/
def FeedEvents (p : Params) (f : BitVec 3 × Word) (es : List Event) : Prop :=
  ∃ d ps, PollHit .rep (shaReady p) ps ∧
    es = fieldWrite .rep (controlField p) (f.1.setWidth 32) d ++ ps ++ [.cipherWrite .sha1In f.2]

/-- The accesses of one FEED that timed out (44_repeater.md R208): the control write, the poll, no data write. -/
def FeedTimeout (p : Params) (mode : BitVec 3) (es : List Event) : Prop :=
  ∃ d ps, PollMiss .rep (shaReady p) ps ∧
    es = fieldWrite .rep (controlField p) (mode.setWidth 32) d ++ ps ++ [.raised (.hardwareTimeout .sha1Ready)]

/-- Chunk `k` of a SHA-1 stream of `T` text bytes, eight Mo bytes, padding and length: the control mode that fits its
content and the word (44_repeater.md R202 to R206). `buf` holds the bytes of the stream. -/
def expectedFeed (p : Params) (buf : List Byte) (T k : Nat) : BitVec 3 × Word :=
  let bytes := (buf.drop (4 * k)).take 4
  if 4 * k + 4 ≤ T then (textMode p 4, beWord bytes)
  else if 4 * k < T then (textMode p (T - 4 * k), mergeWord p (T - 4 * k) bytes)
  else if 4 * k + 4 ≤ T + 8 then (textMode p 0, 0)
  else if 4 * k < T + 8 then (textMode p (4 * k + 4 - (T + 8)), beWord bytes)
  else (textMode p 4, beWord bytes)

/-- Byte `j` of the SHA-1 input buffer (44_repeater.md R197): `ksvs` is the KSV list, `B` the length. -/
def layoutByte (ksvs : List Byte) (count : Nat) (topology : BitVec 16) (B j : Nat) : Byte :=
  if j < 5 * count then ksvs.getD j 0
  else if j = 5 * count then BitVec.ofNat 8 topology.toNat
  else if j = 5 * count + 1 then BitVec.ofNat 8 (topology.toNat / 256)
  else if j < B - 8 then 0
  else BitVec.ofNat 8 ((5 * count + 10) * 8 / 256 ^ (B - 1 - j))

/-- The bytes of the SHA-1 input buffer. -/
def layoutBytes (ksvs : List Byte) (count : Nat) (topology : BitVec 16) (B : Nat) : List Byte :=
  (List.range B).map (layoutByte ksvs count topology B)

/-- The buffer `m'` holds the SHA-1 input where that lies, and is elsewhere as `m` was (44_repeater.md R196, R197). -/
def HoldsShaInput (ksvs : List Byte) (count : Nat) (topology : BitVec 16) (m m' : Memory) : Prop :=
  m'.wf = true ∧ ∀ j, m'.read j =
    if j < shaLength count then layoutByte ksvs count topology (shaLength count) j else m.read j

/-- The feeds of a whole computation (44_repeater.md R207): one for each chunk, in order. -/
def expectedFeeds (p : Params) (ksvs : List Byte) (count : Nat) (topology : BitVec 16) : List (BitVec 3 × Word) :=
  (List.range (shaLength count / 4)).map
    (expectedFeed p (layoutBytes ksvs count topology (shaLength count)) (5 * count + 2))

/-- The reads of a wait for the next 128-frame boundary after frame count `f0` (45_link_monitor.md R231): at most
`max` reads, of which only the last can lie in another period, and if there are fewer than `max` it does. -/
def WaitEvents (p : Params) (f0 : Word) (es : List Event) : Prop :=
  ∃ vs : List Word, es = vs.map (Event.cipherRead .status) ∧ vs.length ≤ p.frameWaitMax ∧
    (∀ x ∈ vs.dropLast, framePeriod (frameCount p x) = framePeriod f0) ∧
    (vs.length < p.frameWaitMax →
      ∃ x, vs.getLast? = some x ∧ framePeriod (frameCount p x) ≠ framePeriod f0)

/-- The accesses of an Ri comparison: the receiver's two bytes, the mirror write, the status read
(41_controller.md R155, 45_link_monitor.md R230). -/
def riComparison (b0 b1 : Byte) (v : Word) : List Event :=
  [.serialRead 0x08 2 (some [b0, b1]), .cipherWrite .ri ((b1 ++ b0).setWidth 32), .cipherRead .status v]

/-! ## Whole runs of the micro-programs: the accesses they make, how they end, the registers they leave -/

/-- The mode write of HDCP_CONFIG (20_memory.md R78). -/
def modeWrite (p : Params) (m : Nat) (d : Word) : List Event := fieldWrite .config p.cfgMode (BitVec.ofNat 32 m) d

/-- The end of a disable: the Ri mirror cleared, then the port bit (41_controller.md R144). -/
def disableEnd (p : Params) (u : Word) : List Event := .cipherWrite .ri 0 :: portWrites p false u

/-- DISABLE_SEQUENCE (41_controller.md R144): its accesses, its result, `s.ctl_state` after it. -/
inductive DisableTrace (p : Params) : List Event → Bool → CtlState → Prop where
  | first (d v u : Word) : disabledNow p v = true →
      DisableTrace p (modeWrite p p.modeOff d ++ disableCheck v ++ disableEnd p u) true .off
  | second (d v w u : Word) : disabledNow p v = false → disabledNow p w = true →
      DisableTrace p (modeWrite p p.modeOff d ++ disableCheck v ++ disableCheck w ++ disableEnd p u) true .off
  | timeout (d v w : Word) : disabledNow p v = false → disabledNow p w = false →
      DisableTrace p
        (modeWrite p p.modeOff d ++ disableCheck v ++ disableCheck w ++ [.raised (.hardwareTimeout .disable)])
        false .disabling

/-- SET_REPEATER_PRESENT (41_controller.md R154): the field write that found `d`, the read-back that found `v`. -/
def presentWrite (p : Params) (on : Bool) (d v : Word) : List Event :=
  fieldWrite .rep (presentField p) (bitWord on) d ++ [.cipherRead .rep v]

/-- The seeds, the settle delay and the capture mode (41_controller.md R146). -/
def anSeeds (p : Params) (seed0 seed1 d : Word) : List Event :=
  [.random seed0, .cipherWrite .init seed0, .random seed1, .cipherWrite .init seed1, .delayUs anSettleUs] ++
    modeWrite p p.modeCaptureAn d

/-- An captured and read back with Aksv (41_controller.md R146, R147), from session registers `r` to `r'`. -/
inductive KeyTrace (p : Params) (r : Session) : List Event → Session → Prop where
  | captured (seed0 seed1 d lo hi alo ahi : Word) (ps : List Event) : PollHit .status (anReady p) ps →
      KeyTrace p r
        (anSeeds p seed0 seed1 d ++ ps ++
          [.cipherRead .anLow lo, .cipherRead .anHi hi, .cipherRead .aksvLo alo, .cipherRead .aksvHi ahi])
        { r with seed0 := seed0, seed1 := seed1, an := hi ++ lo, aksv := ahi.setWidth 8 ++ alo }

/-- The write of An to the receiver, least significant byte first (41_controller.md R148). -/
def sendAn (r : Session) (ok : Bool) : Event := .serialWrite 0x18 (leBytes 8 r.an.toNat) ok
/-- The write of Aksv to the receiver, least significant byte first (41_controller.md R148). -/
def sendAksv (r : Session) (ok : Bool) : Event := .serialWrite 0x10 (leBytes 5 r.aksv.toNat) ok
/-- The read of Bksv (41_controller.md R149). -/
def bksvRead (k : Ksv) : Event := .serialRead 0x00 5 (some k.bytes)

/-- The exchange up to the read of Bksv `k` (41_controller.md R148, R149). -/
inductive ExchangeTrace (p : Params) (r : Session) (k : Ksv) : List Event → Session → Prop where
  | exchanged (es : List Event) (r' : Session) : KeyTrace p r es r' →
      ExchangeTrace p r k (es ++ [sendAn r' true, sendAksv r' true, bksvRead k]) { r' with bksv := k }

/-- The accesses from BCaps `b` to the start of encryption (41_controller.md R150 to R152). `d`, `v`, `u` and `m` are
what the reads of HDCP_REP, its read-back, PORT_REG and HDCP_CONFIG find. -/
def loadEvents (p : Params) (k : Ksv) (b : Byte) (d v u m : Word) : List Event :=
  [.serialRead 0x40 1 (some [b])] ++ (if (bcaps p b).isRepeater then presentWrite p true d v else []) ++
    [.cipherWrite .bksvLo (k.b3 ++ k.b2 ++ k.b1 ++ k.b0), .cipherWrite .bksvHi (k.b4.setWidth 32)] ++
    portWrites p true u ++ modeWrite p p.modeAuthEnc m

/-- Encryption started with an accepted Bksv (41_controller.md R149 to R152), up to the Ri-ready poll. -/
inductive StartTrace (p : Params) (r : Session) : List Event → Session → Prop where
  | started (k : Ksv) (b : Byte) (d v u m : Word) (es : List Event) (r' : Session) : ExchangeTrace p r k es r' →
      k.weight = ksvWeight → StartTrace p r (es ++ loadEvents p k b d v u m) { r' with bcaps := b }

/-- ENABLE_SEQUENCE (41_controller.md R145): its accesses, its result, `s.ctl_state` and the session registers after
it; one constructor for each of its ends. -/
inductive EnableTrace (p : Params) (r : Session) : List Event → Bool → CtlState → Session → Prop where
  | captureTimeout (seed0 seed1 d d' : Word) (ps : List Event) : PollMiss .status (anReady p) ps →
      EnableTrace p r
        (anSeeds p seed0 seed1 d ++ ps ++ modeWrite p p.modeOff d' ++ [.raised (.hardwareTimeout .anCapture)])
        false .off { r with seed0 := seed0, seed1 := seed1 }
  | anFails (es : List Event) (r' : Session) : KeyTrace p r es r' →
      EnableTrace p r (es ++ [sendAn r' false, .raised (.serialIOFailure 0x18)]) false .off r'
  | aksvFails (es : List Event) (r' : Session) : KeyTrace p r es r' →
      EnableTrace p r (es ++ [sendAn r' true, sendAksv r' false, .raised (.serialIOFailure 0x10)]) false .off r'
  | bksvFails (es : List Event) (r' : Session) : KeyTrace p r es r' →
      EnableTrace p r
        (es ++ [sendAn r' true, sendAksv r' true, .serialRead 0x00 5 none, .raised (.serialIOFailure 0x00)])
        false .off r'
  | badBksv (k : Ksv) (es : List Event) (r' : Session) : ExchangeTrace p r k es r' → k.weight ≠ ksvWeight →
      EnableTrace p r (es ++ [.raised (.protocolViolation .badBksv)]) false .off r'
  | bcapsFails (k : Ksv) (es : List Event) (r' : Session) : ExchangeTrace p r k es r' → k.weight = ksvWeight →
      EnableTrace p r (es ++ [.serialRead 0x40 1 none, .raised (.serialIOFailure 0x40)]) false .off r'
  | riTimeout (es ps : List Event) (r' : Session) : StartTrace p r es r' → PollMiss .status (riReady p) ps →
      EnableTrace p r (es ++ ps ++ [.raised (.hardwareTimeout .riReady)]) false .off r'
  | riFails (es ps : List Event) (r' : Session) : StartTrace p r es r' → PollHit .status (riReady p) ps →
      EnableTrace p r (es ++ ps ++ [.serialRead 0x08 2 none, .raised (.serialIOFailure 0x08)]) false .off r'
  | mismatch (es ps : List Event) (r' : Session) (b0 b1 : Byte) (v : Word) : StartTrace p r es r' →
      PollHit .status (riReady p) ps → riMatch p v = false →
      EnableTrace p r (es ++ ps ++ riComparison b0 b1 v) false .off { r' with ri := b1 ++ b0 }
  | encrypting (es ps : List Event) (r' : Session) (b0 b1 : Byte) (v : Word) : StartTrace p r es r' →
      PollHit .status (riReady p) ps → riMatch p v = true →
      EnableTrace p r (es ++ ps ++ riComparison b0 b1 v) true .encrypting { r' with ri := b1 ++ b0 }

/-- Either sequence of HDCP_ENABLE behind its capability gate (41_controller.md R143). -/
inductive LevelTrace (p : Params) (r : Session) : Bool → List Event → Bool → CtlState → Session → Prop where
  | disable (es : List Event) (ok : Bool) (c : CtlState) : DisableTrace p es ok c → LevelTrace p r false es ok c r
  | enable (es : List Event) (ok : Bool) (c : CtlState) (r' : Session) : EnableTrace p r es ok c r' →
      LevelTrace p r true es ok c r'

/-- The Status of SET_ENCRYPTION_LEVEL (41_controller.md R153). -/
def levelStatus (ok : Bool) : Status := if ok then .success else .unsuccessful

/-! ### Repeater verification -/

/-- A list of feeds, in order; the first that times out ends it (44_repeater.md R200, R208). -/
inductive FeedsTrace (p : Params) : List (BitVec 3 × Word) → List Event → Bool → Prop where
  | done : FeedsTrace p [] [] true
  | feed (f : BitVec 3 × Word) (fs : List (BitVec 3 × Word)) (es es' : List Event) (ok : Bool) : FeedEvents p f es →
      FeedsTrace p fs es' ok → FeedsTrace p (f :: fs) (es ++ es') ok
  | timeout (f : BitVec 3 × Word) (fs : List (BitVec 3 × Word)) (es : List Event) : FeedTimeout p f.1 es →
      FeedsTrace p (f :: fs) es false

/-- The event pushes a word into the SHA-1 engine. -/
def Event.isWordFed : Event → Bool
  | .cipherWrite .sha1In _ => true
  | _ => false

/-- The builder's and feeder's registers after `n` words of a computation (44_repeater.md R196, R200): the position is
the next chunk's, and of the eight Mo bytes that follow the text those behind the position are left (that they stay so
after the return: log 11). -/
def Session.fed (r : Session) (count n : Nat) : Session :=
  { r with
    blen := BitVec.ofNat 11 (shaLength count)
    pos := BitVec.ofNat 11 (4 * n)
    moLeft := BitVec.ofNat 4 (min 8 (5 * count + 2 + 8 - 4 * n)) }

/-- The sequence an operation reads where it needs `n` entries and the host supplied `given`: the host's entries, and
free ones past their end (log 13). -/
def Supplies {α : Type} (given needed : List α) (n : Nat) : Prop :=
  needed.length = n ∧ needed.take given.length = given.take n

/-- The reads of V′ blocks at `subs`: four bytes each, assembled little-endian; the first that fails ends them
(42_receiver_io.md R173). A failure is raised by the transaction and by the operation (log 16). -/
inductive BlocksTrace : List Byte → List Event → Option (List Word) → Prop where
  | done : BlocksTrace [] [] (some [])
  | fails (sub : Byte) (subs : List Byte) :
      BlocksTrace (sub :: subs)
        [.serialRead sub 4 none, .raised (.serialIOFailure sub), .raised (.serialIOFailure sub)] none
  | block (sub b0 b1 b2 b3 : Byte) (subs : List Byte) (es : List Event) (ws : Option (List Word)) :
      BlocksTrace subs es ws →
      BlocksTrace (sub :: subs) (.serialRead sub 4 (some [b0, b1, b2, b3]) :: es)
        (ws.map fun l => (b3 ++ b2 ++ b1 ++ b0) :: l)

/-- RX_READ_VPRIME (42_receiver_io.md R173). -/
def VPrimeTrace (es : List Event) (v : Option VWords) : Prop :=
  ∃ ws, BlocksTrace [0x20, 0x24, 0x28, 0x2C, 0x30] es ws ∧ v = ws.map VWords.ofList

/-- The five V′ writes, H0 first (44_repeater.md R209). -/
def vprimeWrites (v : VWords) : List Event :=
  [.cipherWrite (.vprime 0) v.h0, .cipherWrite (.vprime 1) v.h1, .cipherWrite (.vprime 2) v.h2,
    .cipherWrite (.vprime 3) v.h3, .cipherWrite (.vprime 4) v.h4]

/-- The read shows neither a match, nor a mismatch, nor `Idle` (44_repeater.md R209). -/
def stillComparing (p : Params) (v : Word) : Bool :=
  repState p v != .completeMatch && repState p v != .completeNoMatch && repState p v != .idle

/-- The start of a comparison: V′ loaded, the engine ready, the complete-SHA-1 write (44_repeater.md R209). -/
def CompareStart (p : Params) (v : VWords) (es : List Event) : Prop :=
  ∃ d ps, PollHit .rep (shaReady p) ps ∧
    es = vprimeWrites v ++ ps ++ fieldWrite .rep (controlField p) (p.ctrlCompleteSha1.setWidth 32) d

/-- COMPARE_V_PRIME (44_repeater.md R209). -/
inductive CompareTrace (p : Params) (v : VWords) : List Event → Bool → Prop where
  | notReady (ps : List Event) : PollMiss .rep (shaReady p) ps →
      CompareTrace p v (vprimeWrites v ++ ps ++ [.raised (.hardwareTimeout .repeaterReady)]) false
  | ends (es : List Event) (vs : List Word) (x : Word) : CompareStart p v es → vs.length < pollMax →
      (∀ y ∈ vs, stillComparing p y = true) → stillComparing p x = false →
      CompareTrace p v (es ++ vs.map (Event.cipherRead .rep) ++ [.cipherRead .rep x])
        (repState p x == .completeMatch)
  | timeout (es : List Event) (vs : List Word) : CompareStart p v es → vs.length = pollMax →
      (∀ y ∈ vs, stillComparing p y = true) →
      CompareTrace p v (es ++ vs.map (Event.cipherRead .rep) ++ [.raised (.hardwareTimeout .repeaterComplete)]) false

/-- REPEATER_TEARDOWN (44_repeater.md R210). -/
def teardownEvents (p : Params) (d m : Word) : List Event :=
  fieldWrite .rep (presentField p) 0 d ++ modeWrite p p.modeOff m

/-- The end of a verification that tears down (44_repeater.md R211, R212); the violation of a revoked vector is
recorded after the teardown (log 17). -/
def failEvents (p : Params) (revoked : Bool) (d m : Word) : List Event :=
  teardownEvents p d m ++ (if revoked then [.raised (.protocolViolation .revoked)] else [])

/-- The Status of a verification that tears down (44_repeater.md R211, R212). -/
def failStatus (revoked : Bool) : Status := if revoked then .revokedHdcpDeviceAttached else .unsuccessful

/-- Steps 8 to 10 of ACTIVATE_REPEATER (44_repeater.md R190, R211) for the KSV list `bytes` of `n` vectors: accesses,
Status, whether it tore down, session registers after. -/
inductive VerifyTrace (p : Params) (r : Session) (bytes : List Byte) (n : Nat) (topology : BitVec 16)
    (revoked : Bool) : List Event → Status → Bool → Session → Prop where
  | vFails (es : List Event) (d m : Word) : FeedsTrace p (expectedFeeds p bytes n topology) es false →
      VerifyTrace p r bytes n topology revoked (es ++ failEvents p revoked d m) (failStatus revoked) true
        (r.fed n (es.countP Event.isWordFed))
  | vprimeFails (es es' : List Event) (d m : Word) : FeedsTrace p (expectedFeeds p bytes n topology) es true →
      VPrimeTrace es' none →
      VerifyTrace p r bytes n topology revoked (es ++ es' ++ failEvents p revoked d m) (failStatus revoked) true
        (r.fed n (es.countP Event.isWordFed))
  | rejected (es es' es'' : List Event) (v : VWords) (same : Bool) (d m : Word) :
      FeedsTrace p (expectedFeeds p bytes n topology) es true → VPrimeTrace es' (some v) →
      CompareTrace p v es'' same → (revoked || !same) = true →
      VerifyTrace p r bytes n topology revoked (es ++ es' ++ es'' ++ failEvents p revoked d m) (failStatus revoked)
        true { r.fed n (es.countP Event.isWordFed) with vprime := v }
  | verified (es es' es'' : List Event) (v : VWords) : FeedsTrace p (expectedFeeds p bytes n topology) es true →
      VPrimeTrace es' (some v) → CompareTrace p v es'' true → revoked = false →
      VerifyTrace p r bytes n topology revoked (es ++ es' ++ es'') .success false
        { r.fed n (es.countP Event.isWordFed) with vprime := v }

/-- The vectors of a KSV list, in order (44_repeater.md R195). -/
def ksvsOf (bytes : List Byte) (n : Nat) : List Ksv :=
  (List.range n).map fun i => Ksv.ofBytes ((bytes.drop (5 * i)).take 5)

/-- A vector of the list is in the revocation set (43_validator.md R182). -/
def anyIn (ks revocationSet : List Ksv) : Bool := ks.any fun k => revocationSet.any fun e => decide (e = k)

/-- The reads of BCaps and BStatus that start a verification (44_repeater.md R190). -/
def topologyReads (b t0 t1 : Byte) : List Event := [.serialRead 0x40 1 (some [b]), .serialRead 0x41 2 (some [t0, t1])]

/-- The receiver is a repeater whose KSV FIFO is ready (44_repeater.md R191, R192). -/
def repeaterReady (p : Params) (b : Byte) : Bool := (bcaps p b).isRepeater && (bcaps p b).ksvFifoReady

/-- ACTIVATE_REPEATER (44_repeater.md R190 to R195, R211, R212): its accesses, its Status, whether it tore down, the
session registers after it; one constructor for each row of R212, the last six of which are `VerifyTrace`'s. -/
inductive ActivateTrace (p : Params) (revocationSet : List Ksv) (r : Session) :
    List Event → Status → Bool → Session → Prop where
  | bcapsFails :
      ActivateTrace p revocationSet r [.serialRead 0x40 1 none, .raised (.serialIOFailure 0x40)] .unsuccessful false r
  | noRepeater (b : Byte) : (bcaps p b).isRepeater = false →
      ActivateTrace p revocationSet r [.serialRead 0x40 1 (some [b])] .invalidParameter false { r with bcaps := b }
  | notReady (b : Byte) : (bcaps p b).isRepeater = true → (bcaps p b).ksvFifoReady = false →
      ActivateTrace p revocationSet r [.serialRead 0x40 1 (some [b])] .pending false { r with bcaps := b }
  | bstatusFails (b : Byte) : repeaterReady p b = true →
      ActivateTrace p revocationSet r
        [.serialRead 0x40 1 (some [b]), .serialRead 0x41 2 none, .raised (.serialIOFailure 0x41)]
        .unsuccessful false { r with bcaps := b }
  | badTopology (b t0 t1 : Byte) (v : Violation) : repeaterReady p b = true →
      topologyViolation (bstatus p (t1 ++ t0)) = some v →
      ActivateTrace p revocationSet r (topologyReads b t0 t1 ++ [.raised (.protocolViolation v)]) .invalidParameter
        false { r with bcaps := b, bstatus := t1 ++ t0 }
  | noDevices (b t0 t1 : Byte) : repeaterReady p b = true → topologyViolation (bstatus p (t1 ++ t0)) = none →
      (bstatus p (t1 ++ t0)).deviceCount = 0 →
      ActivateTrace p revocationSet r (topologyReads b t0 t1) .success false
        { r with bcaps := b, bstatus := t1 ++ t0, count := 0 }
  | presentFails (b t0 t1 : Byte) (d v : Word) (n : Nat) : repeaterReady p b = true →
      topologyViolation (bstatus p (t1 ++ t0)) = none → (bstatus p (t1 ++ t0)).deviceCount = n → n ≠ 0 →
      repPresent p v = false →
      ActivateTrace p revocationSet r (topologyReads b t0 t1 ++ presentWrite p true d v) .unsuccessful false
        { r with bcaps := b, bstatus := t1 ++ t0, count := BitVec.ofNat 7 n }
  | fifoFails (b t0 t1 : Byte) (d v d' m : Word) (n : Nat) : repeaterReady p b = true →
      topologyViolation (bstatus p (t1 ++ t0)) = none → (bstatus p (t1 ++ t0)).deviceCount = n → n ≠ 0 →
      repPresent p v = true →
      ActivateTrace p revocationSet r
        (topologyReads b t0 t1 ++ presentWrite p true d v ++ [.serialRead 0x43 (5 * n) none] ++
          teardownEvents p d' m ++ [.raised (.serialIOFailure 0x43)])
        .unsuccessful true { r with bcaps := b, bstatus := t1 ++ t0, count := BitVec.ofNat 7 n }
  | listRead (b t0 t1 : Byte) (d v : Word) (n : Nat) (bytes : List Byte) (es : List Event) (st : Status) (torn : Bool)
      (r' : Session) : repeaterReady p b = true → topologyViolation (bstatus p (t1 ++ t0)) = none →
      (bstatus p (t1 ++ t0)).deviceCount = n → n ≠ 0 → repPresent p v = true → bytes.length = 5 * n →
      VerifyTrace p
        { r with
          bcaps := b
          bstatus := t1 ++ t0
          count := BitVec.ofNat 7 n
          revoked := anyIn (ksvsOf bytes n) revocationSet }
        bytes n (t1 ++ t0) (anyIn (ksvsOf bytes n) revocationSet) es st torn r' →
      ActivateTrace p revocationSet r
        (topologyReads b t0 t1 ++ presentWrite p true d v ++ [.serialRead 0x43 (5 * n) (some bytes)] ++ es) st torn r'

/-- What a verification with the accesses `es` leaves in the two local buffers, from `k` and `h` to `k'` and `h'`
(44_repeater.md R190, R195, R196): before a KSV list was read nothing is stored; then the list, as received, goes over
the start of the KSV buffer, and the SHA-1 input of that list and of the topology read before it into the other (that
both stay so after the return: log 11). -/
def BuffersAfter (es : List Event) (k h k' h' : Memory) : Prop :=
  ((∀ size bytes, Event.serialRead 0x43 size (some bytes) ∉ es) ∧ k' = k ∧ h' = h) ∨
    ∃ n bytes t0 t1, Event.serialRead 0x43 (5 * n) (some bytes) ∈ es ∧ Event.serialRead 0x41 2 (some [t0, t1]) ∈ es ∧
      bytes.length = 5 * n ∧ k' = k.writeBytes 0 bytes ∧ HoldsShaInput bytes n (t1 ++ t0) h h'

/-- `s.ctl_state` after a verification: `Off` where it tore down, else as before (10_state.md R34). -/
def ctlAfter (torn : Bool) (c : CtlState) : CtlState := if torn then .off else c

/-! ### Link monitor and parameter exchange -/

/-- The attempts of GET_LINK_STATUS with `n` left (45_link_monitor.md R230, R231, R232): accesses, result, session
registers after. -/
inductive LinkTrace (p : Params) : Nat → Session → List Event → Bool → Session → Prop where
  | broken (r : Session) : LinkTrace p 0 r [] false r
  | fails (n : Nat) (r : Session) :
      LinkTrace p (n + 1) r [.serialRead 0x08 2 none, .raised (.serialIOFailure 0x08)] false
        { r with attempt := BitVec.ofNat 3 (4 - n) }
  | intact (n : Nat) (r : Session) (b0 b1 : Byte) (v : Word) : riMatch p v = true →
      LinkTrace p (n + 1) r (riComparison b0 b1 v) true { r with attempt := BitVec.ofNat 3 (4 - n), ri := b1 ++ b0 }
  | mismatch (n : Nat) (r r' : Session) (b0 b1 : Byte) (v : Word) (ws es : List Event) (ok : Bool) :
      riMatch p v = false → WaitEvents p (frameCount p v) ws →
      LinkTrace p n { r with attempt := BitVec.ofNat 3 (4 - n), ri := b1 ++ b0, fc0 := frameCount p v } es ok r' →
      LinkTrace p (n + 1) r (riComparison b0 b1 v ++ ws ++ es) ok r'

/-- The BCaps read of the parameter exchange (46_cp_params.md R243); `none` where it fails, which is a SerialIOFailure
(60_exceptions.md R261; its place log 16). -/
def queryEvents : Option Byte → List Event
  | some b => [.serialRead 0x40 1 (some [b])]
  | none => [.serialRead 0x40 1 none, .raised (.serialIOFailure 0x40)]

/-- `is_repeater` as reported (46_cp_params.md R243). -/
def reported (p : Params) (answer : Option Byte) : Bool := answer.any fun b => (bcaps p b).isRepeater

/-- `s.bcaps` after the read. -/
def Session.queried (r : Session) (answer : Option Byte) : Session := { r with bcaps := answer.getD r.bcaps }

/-- The caller's record with the level and the repeater report written (46_cp_params.md R240, R241). -/
def Args.answered (a : Args) (level : Word) (isRepeater : Bool) : Args :=
  { a with params := { a.params with level := level, isRepeater := isRepeater } }

/-- HDCP_GET_CP_DATA behind its gate (46_cp_params.md R240): accesses, Status, reported level, BCaps answer,
`s.ctl_state` and session registers after. -/
inductive GetTrace (p : Params) (c : CtlState) (r : Session) :
    List Event → Status → Word → Option Byte → CtlState → Session → Prop where
  | off (v : Word) (q : Option Byte) : hdcpOn p v = false →
      GetTrace p c r (.cipherRead .status v :: queryEvents q) (if q.isSome then .success else .dataError) p.cpLevelOff
        q c (r.queried q)
  | on (v : Word) (es : List Event) (q : Option Byte) (r' : Session) : hdcpOn p v = true →
      LinkTrace p 4 r es true r' →
      GetTrace p c r (.cipherRead .status v :: es ++ queryEvents q) (if q.isSome then .success else .dataError)
        p.cpLevelOn q c (r'.queried q)
  | broken (v : Word) (es es' : List Event) (q : Option Byte) (r' : Session) (ok : Bool) (c' : CtlState) :
      hdcpOn p v = true → LinkTrace p 4 r es false r' → DisableTrace p es' ok c' →
      GetTrace p c r (.cipherRead .status v :: es ++ es' ++ queryEvents q) .unsuccessful p.cpLevelOff q c'
        (r'.queried q)

/-- The action of HDCP_SET_CP_DATA (46_cp_params.md R241). -/
inductive ActionTrace (p : Params) (params : CpParams) (revocationSet : List Ksv) (c : CtlState) (r : Session) :
    List Event → Status → CtlState → Session → Prop where
  | verify (es : List Event) (st : Status) (torn : Bool) (r' : Session) : params.performSecondStep ≠ 0 →
      ActivateTrace p revocationSet r es st torn r' →
      ActionTrace p params revocationSet c r es st (ctlAfter torn c) r'
  | level (es : List Event) (ok : Bool) (c' : CtlState) (r' : Session) : params.performSecondStep = 0 →
      LevelTrace p r (decide (params.level = p.cpLevelOn)) es ok c' r' →
      ActionTrace p params revocationSet c r es (levelStatus ok) c' r'

/-- HDCP_SET_CP_DATA behind its gate (46_cp_params.md R241, R242): accesses, Status, level after, BCaps answer,
`s.ctl_state` and session registers after. -/
inductive SetTrace (p : Params) (params : CpParams) (revocationSet : List Ksv) (c : CtlState) (r : Session) :
    List Event → Status → Word → Option Byte → CtlState → Session → Prop where
  | done (q : Option Byte) (es : List Event) (c' : CtlState) (r' : Session) :
      ActionTrace p params revocationSet c (r.queried q) es .success c' r' →
      SetTrace p params revocationSet c r (queryEvents q ++ es) .success params.level q c' r'
  | netted (q : Option Byte) (es es' : List Event) (st : Status) (ok : Bool) (c' c'' : CtlState) (r' : Session) :
      ActionTrace p params revocationSet c (r.queried q) es st c' r' → st ≠ .success → DisableTrace p es' ok c'' →
      SetTrace p params revocationSet c r (queryEvents q ++ es ++ es') st p.cpLevelOff q c'' r'

/-! ## Accesses the block may make -/

/-- One of `n` bytes from sub-address `sub` on lies in the region `r`, its first and its last sub-address. -/
def Touches (sub : Byte) (n : Nat) (r : Nat × Nat) : Prop := ∃ i, i < n ∧ r.1 ≤ sub.toNat + i ∧ sub.toNat + i ≤ r.2

/-- A read across two regions of the receiver's map, which the block never makes (42_receiver_io.md R170); in the KSV
FIFO all bytes come from the FIFO. -/
def CrossesRegions (sub : Byte) (n : Nat) : Prop :=
  sub ≠ 0x43 ∧ ∃ r ∈ receiverRegions, ∃ r' ∈ receiverRegions, r ≠ r' ∧ Touches sub n r ∧ Touches sub n r'

/-- A write one of whose bytes goes to AINFO, which the block never makes (10_state.md R60). -/
def WritesAinfo (sub : Byte) (n : Nat) : Prop := Touches sub n (0x15, 0x15)

/-- The accesses an operation may make, whatever the host asks for: none to HDCP_AKEY_*, no write of AINFO (10_state.md
R60), no read across two regions of the receiver (42_receiver_io.md R170). -/
def Event.Permitted : Event → Prop
  | .cipherRead r _ | .cipherWrite r _ => r ≠ .akeyLo ∧ r ≠ .akeyMed ∧ r ≠ .akeyHi
  | .serialRead sub size _ => ¬ CrossesRegions sub size
  | .serialWrite sub payload _ => ¬ WritesAinfo sub payload.length
  | .portRead _ | .portWrite _ | .random _ | .delayUs _ | .vblank | .raised _ => True

/-- The serial transactions the block's own sequences make (30_encoding.md R110, 42_receiver_io.md R174). -/
def ownSerialRead (sub : Byte) (size : Nat) : Bool :=
  (sub == 0x00 && size == 5) || (sub == 0x08 && size == 2) || (sub == 0x40 && size == 1) ||
    (sub == 0x41 && size == 2) || (vprimeSubs.contains sub && size == 4) ||
    (sub == 0x43 && size % 5 == 0 && decide (5 ≤ size) && decide (size ≤ 635))

/-- The access is one the block's own sequences may make, with the written values they may write (10_state.md R51, R60;
30_encoding.md R110, R121, R126; 42_receiver_io.md R174). -/
def Event.own (p : Params) : Event → Bool
  | .cipherRead r _ => [.config, .status, .rep, .aksvLo, .aksvHi, .anLow, .anHi].contains r
  | .cipherWrite r v =>
    match r with
    | .config =>
      [BitVec.ofNat 32 p.modeOff, BitVec.ofNat 32 p.modeCaptureAn, BitVec.ofNat 32 p.modeAuthEnc].contains
        (getField p.cfgMode v)
    | .ri => decide (v.toNat < 2 ^ 16)
    | .bksvHi => decide (v.toNat < 2 ^ 8)
    | .bksvLo | .rep | .vprime _ | .sha1In | .init => true
    | .status | .akeyLo | .akeyMed | .akeyHi | .aksvLo | .aksvHi | .anLow | .anHi => false
  | .serialRead sub size _ => ownSerialRead sub size
  | .serialWrite sub payload _ => (sub == 0x18 && payload.length == 8) || (sub == 0x10 && payload.length == 5)
  | .portRead _ | .portWrite _ | .random _ | .delayUs _ | .vblank | .raised _ => true

/-! ## Counting accesses (70_reset_and_hazards.md R313) -/

/-- A cipher access. -/
def Event.isCipher : Event → Bool
  | .cipherRead _ _ | .cipherWrite _ _ => true
  | _ => false

/-- A port access. -/
def Event.isPort : Event → Bool
  | .portRead _ | .portWrite _ => true
  | _ => false

/-- A serial transaction. -/
def Event.isSerial : Event → Bool
  | .serialRead _ _ _ | .serialWrite _ _ _ => true
  | _ => false

/-- A read of HDCP_STATUS. -/
def Event.isStatusRead : Event → Bool
  | .cipherRead .status _ => true
  | _ => false

/-- A write of HDCP_RI. -/
def Event.isRiWrite : Event → Bool
  | .cipherWrite .ri _ => true
  | _ => false

/-- How many accesses of each kind. -/
structure AccessCount where
  cipher : Nat
  port : Nat
  serial : Nat
  vblank : Nat
  random : Nat
  delay : Nat
  deriving DecidableEq, Repr

/-- The accesses among the events, by kind. -/
def accessCount (es : List Event) : AccessCount where
  cipher := es.countP Event.isCipher
  port := es.countP Event.isPort
  serial := es.countP Event.isSerial
  vblank := es.countP fun e => e == .vblank
  random := es.countP fun e => match e with | .random _ => true | _ => false
  delay := es.countP fun e => match e with | .delayUs _ => true | _ => false

/-- No kind more often than in `b`. -/
def AccessCount.atMost (a b : AccessCount) : Prop :=
  a.cipher ≤ b.cipher ∧ a.port ≤ b.port ∧ a.serial ≤ b.serial ∧ a.vblank ≤ b.vblank ∧ a.random ≤ b.random ∧
    a.delay ≤ b.delay

/-- The table of 70_reset_and_hazards.md R313: `fw` is `FRAME_WAIT_MAX`, `w` is `s.blen / 4`. -/
def accessBound (fw w : Nat) : Instr → AccessCount
  | .hdcpQuery | .hdcpIsValidBksv | .isRevoked | .buildSha1Buffer => ⟨0, 0, 0, 0, 0, 0⟩
  | .hdcpIsEnabled => ⟨1, 0, 0, 0, 0, 0⟩
  | .hdcpEnable false | .setEncryptionLevel false => ⟨5, 2, 0, 2, 0, 0⟩
  | .hdcpEnable true | .setEncryptionLevel true => ⟨3017, 2, 5, 0, 2, 1⟩
  | .setRepeaterPresent _ => ⟨3, 0, 0, 0, 0, 0⟩
  | .rxRead _ _ | .rxWrite _ _ => ⟨0, 0, 1, 0, 0, 0⟩
  | .rxReadVPrime => ⟨0, 0, 5, 0, 0, 0⟩
  | .computeTransmitterV => ⟨1503 * w, 0, 0, 0, 0, 0⟩
  | .compareVPrime => ⟨3007, 0, 0, 0, 0, 0⟩
  | .getLinkStatus => ⟨4 * (2 + fw), 0, 4, 0, 0, 0⟩
  | .repeaterTeardown => ⟨4, 0, 0, 0, 0, 0⟩
  | .activateRepeater => ⟨3 + 1503 * w + 3007 + 4, 0, 8, 0, 0, 0⟩
  | .hdcpGetCpData => ⟨1 + 4 * (2 + fw) + 5, 2, 5, 2, 0, 0⟩
  | .hdcpSetCpData => ⟨max (3 + 1503 * w + 3007 + 4) 3017 + 5, 4, 9, 4, 2, 1⟩

/-! ## Failures each operation can raise (60_exceptions.md R265) -/

/-- The kinds of failure the table of 60_exceptions.md R265 does not rule out for an operation. -/
def mayRaise : Instr → Failure → Bool
  | .hdcpEnable _, _ | .setEncryptionLevel _, _ | .activateRepeater, _ | .hdcpSetCpData, _ => true
  | .rxRead _ _, .serialIOFailure _ | .rxWrite _ _, .serialIOFailure _ | .rxReadVPrime, .serialIOFailure _
  | .getLinkStatus, .serialIOFailure _ | .hdcpGetCpData, .serialIOFailure _ => true
  | .computeTransmitterV, .hardwareTimeout _ | .compareVPrime, .hardwareTimeout _
  | .hdcpGetCpData, .hardwareTimeout _ => true
  | _, _ => false

/-! ## The invariant -/

/-- The mode the block last wrote to HDCP_CONFIG is one of its three codes (30_encoding.md R121, R126). -/
def modeIsOwn (p : Params) (c : Cipher) : Bool :=
  !c.configWritten ||
    [BitVec.ofNat 32 p.modeOff, BitVec.ofNat 32 p.modeCaptureAn, BitVec.ofNat 32 p.modeAuthEnc].contains
      (getField p.cfgMode c.config)

/-- The invariant of the machine between operations: valid parameters (00_scope.md R8); idle (10_state.md R32, R62);
the buffers in canonical form and inside their bounds (20_memory.md R72); the SHA-1 and link registers in their ranges
(10_state.md R38, R39); own mode codes in HDCP_CONFIG and zeros in the unused bits of HDCP_RI and HDCP_BKSV_HI
(30_encoding.md R126); every refusal answered with `InvalidDeviceRequest` (60_exceptions.md R277). -/
structure State.Inv (s : State) : Prop where
  params : s.prm.valid = true
  idle : s.busy = false ∧ s.op = none ∧ s.stepPos = 0
  ksvbuf : s.ksvbuf.wf = true ∧ s.ksvbuf.within ksvBufBytes = true
  shabuf : s.shabuf.wf = true ∧ s.shabuf.within shaBufBytes = true
  blen : s.ses.blen.toNat % 64 = 0 ∧ s.ses.blen.toNat ≤ shaBufBytes
  pos : s.ses.pos.toNat % 4 = 0 ∧ s.ses.pos.toNat ≤ shaBufBytes
  moLeft : s.ses.moLeft.toNat ≤ moBytes
  attempt : s.ses.attempt.toNat ≤ linkAttempts
  mode : modeIsOwn s.prm s.cipher = true
  upperBits : s.cipher.ri.toNat < 2 ^ 16 ∧ s.cipher.bksvHi.toNat < 2 ^ 8
  refusals : ∀ x ∈ s.refusals, x.2 = .invalidDeviceRequest

end Sys2Proof.Machine
end

