-- ==== Sys2Proof/Certificates/Slice0/Obligations.lean ====
section
/-! DEFINITION. The statements about the model, each citing the rule of spec/ it formalises or rests on. -/

section

open Sys2Proof Sys2Proof.Machine

/-! ## Command words -/

/-- Words written out bit by bit from 30_encoding.md R100 and R101, one at least for each format, and an illegal one
for each ground of R104. -/
def Obligations.SampleWordsDecode : Prop :=
  decode 0b00000000000000000000000000000001#32 = .ok .hdcpQuery ∧
    decode 0b00000000000000000000000000000011#32 = .ok (.hdcpEnable false) ∧
    decode 0b00000000000000000000000100000011#32 = .ok (.hdcpEnable true) ∧
    decode 0b00000000000000000000000100010000#32 = .ok (.setEncryptionLevel true) ∧
    decode 0b00000000000000000000000000010001#32 = .ok .activateRepeater ∧
    decode 0b00000010011110110100001100010111#32 = .ok (.rxRead 0x43 635) ∧
    decode 0b00000000000010000001100000011000#32 = .ok (.rxWrite 0x18 8) ∧
    decode 0b00000000000000000000000000011011#32 = .ok .repeaterTeardown ∧
    decode 0b00000000000000000000000000000111#32 = .error .unknownOpcode ∧
    decode 0b00000000000000000000001000000011#32 = .error .reservedBits ∧
    decode 0b00000000000000000100000000010111#32 = .error .zeroSize

/-- Decoding the word of an operation gives the operation, with every field at every value (30_encoding.md R100,
R101). -/
def Obligations.DecodeOfEncode : Prop := ∀ i : Instr, i.wf = true → decode (encode i) = .ok i

/-- A word that decodes is the word of the operation it names, so each operation has one word (30_encoding.md R101,
R107). -/
def Obligations.EncodeOfDecode : Prop := ∀ (w : Word) (i : Instr), decode w = .ok i → i.wf = true ∧ encode i = w

/-- 30_encoding.md R104: which words are illegal, and that one is not executed: no access, no change but the answer. -/
def Obligations.IllegalWordsAreNotExecuted : Prop :=
  (∀ w : Word, (∃ e, decode w = .error e) ↔ IllegalWord w) ∧
    ∀ (s : State) (w : Word) (a : Args) (rest : List HostInput), s.ready = true → s.inbox = .command w a :: rest →
      IllegalWord w →
        step s = .next { s with inbox := rest, result := some (.status .invalidDeviceRequest) }

/-- A step of a ready block whose next input is a legal word runs the operation the word names, with the argument
record that came with it (30_encoding.md R102, R107; log 1). -/
def Obligations.StepRunsDecodedOperation : Prop :=
  ∀ (s : State) (w : Word) (a : Args) (rest : List HostInput) (i : Instr), s.ready = true →
    s.inbox = .command w a :: rest → decode w = .ok i → step s = exec i { s with inbox := rest, args := a }

/-- The word of an operation, placed where `step` takes its next command, runs that operation (30_encoding.md R100,
R107; log 1). -/
def Obligations.PlacedCommandRuns : Prop :=
  ∀ (s : State) (i : Instr), i.wf = true →
    step (s.withFetchWord 32 (encode i).toNat) = exec i { s with initialised := true, busy := false, op := none }

/-- A transaction of size 0 is refused as an illegal command is (42_receiver_io.md R174, 30_encoding.md R104; what
`exec` answers for it is the model's choice, log 19). -/
def Obligations.SizeZeroIsRefused : Prop :=
  ∀ (s : State) (sub : Byte), s.ready = true → s.undisturbed = true →
    OnlyReturns (.rxRead sub 0) s (.status .invalidDeviceRequest) ∧
      OnlyReturns (.rxWrite sub 0) s (.status .invalidDeviceRequest)

/-- The result word of 30_encoding.md R103 with the codes of R124: distinct statuses have distinct codes, `Success` is
0, `Unsuccessful` 0x80000000, a Boolean and `Ok`/`Fail` are 1 and 0. -/
def Obligations.ResultWords : Prop :=
  ∀ p : Params, p.valid = true →
    (∀ a b : Status, a.code p = b.code p → a = b) ∧ Status.code p .success = 0 ∧
      Status.code p .unsuccessful = 0x80000000 ∧
      (∀ b : Bool, Result.word p (.bool b) = some (if b then 1 else 0)) ∧
      (∀ b : Bool, Result.word p (.io b) = some (if b then 1 else 0)) ∧
      ∀ st : Status, Result.word p (.status st) = some (st.code p)

/-! ## Starting, refusing, abandoning -/

/-- A command presented to a busy block, legal or not, changes nothing and gets `InvalidDeviceRequest`
(60_exceptions.md R277; 10_state.md R32). -/
def Obligations.BusyBlockRefuses : Prop :=
  ∀ s : State, s.busy = true →
    (∀ i : Instr, exec i s = .next { s with refusals := (encode i, .invalidDeviceRequest) :: s.refusals }) ∧
      ∀ (w : Word) (a : Args) (rest : List HostInput), s.inbox = .command w a :: rest →
        step s = .next { s with inbox := rest, refusals := (w, .invalidDeviceRequest) :: s.refusals }

/-- Commands that land while an operation runs do not disturb it: with them it ends in the state it ends in without
them, but that each presenter got `InvalidDeviceRequest` (60_exceptions.md R277); they land before an access or at the
end (the model's choice, log 3). A loss of display power changes nothing, in an operation or between two
(70_reset_and_hazards.md R296; log 20). -/
def Obligations.ArrivalsDoNotDisturb : Prop :=
  (∀ (i : Instr) (s t : State) (es : List Event) (L : List (List HostInput)), s.ready = true →
    exec i (s.withArrivals []) = .next t → t.trace = es.reverse ++ s.trace →
    (∀ l ∈ L.take (accesses es + 1), l.all HostInput.isNoReset = true) →
      t.refusals = s.refusals ∧
        exec i (s.withArrivals L) = .next
          { t with
            refusals := refusalsAfter (L.take (accesses es + 1)).flatten s.refusals
            env := { t.env with arrivals := L.drop (accesses es + 1) } }) ∧
    ∀ (s : State) (rest : List HostInput), s.inbox = .powerLoss :: rest → step s = .next { s with inbox := rest }

/-- A command presented before initialisation, legal or not, is refused with no effect (70_reset_and_hazards.md R295,
93_implementation_defined.md item 5; the answer it gets is the model's choice, log 21). -/
def Obligations.NoCommandBeforeInitialisation : Prop :=
  ∀ s : State, s.busy = false → s.initialised = false →
    (∀ i : Instr, exec i s = .next { s with result := some (.status .invalidDeviceRequest) }) ∧
      ∀ (w : Word) (a : Args) (rest : List HostInput), s.inbox = .command w a :: rest →
        step s = .next { s with inbox := rest, result := some (.status .invalidDeviceRequest) }

/-- 70_reset_and_hazards.md R290: the state right after reset, and what an initialisation makes of any state. No value is
stated of a register that R62 leaves unspecified. The model's readings are that an initialisation leaves the cipher, the
port register, the waiting inputs and the scripts as they are (log 25) and that a step with no input waiting changes
nothing (log 22). -/
def Obligations.ResetState : Prop :=
  (State.reset.busy = false ∧ State.reset.op = none ∧ State.reset.ctlState = .off ∧
      State.reset.hdcpSupported = Config.capability ∧ State.reset.trace = [] ∧ step State.reset = .next State.reset) ∧
    ∀ (s : State) (supported : Bool) (rest : List HostInput), s.inbox = .initialise supported :: rest →
      ∃ t, step s = .next t ∧ t.busy = false ∧ t.op = none ∧ t.ctlState = .off ∧ t.hdcpSupported = supported ∧
        t.initialised = true ∧ t.trace = s.trace ∧ t.cipher = s.cipher ∧ t.port = s.port ∧ t.prm = s.prm ∧
        t.inbox = rest ∧ t.env = s.env

/-- 70_reset_and_hazards.md R292 and R293: the capability changes only where an initialisation is taken or lands, and
to its input; and a reset that lands just before access `k` of an operation, or at its end, abandons it there: the
accesses made are the first `k`, the collaborators hold what those wrote, the block is as after reset, with no
result. The model's choices are the moments in which inputs land (log 3), that what lands after the reset waits, before
the inputs that wait already (logs 1 and 3), and that an abandoned operation has no result (log 25). -/
def Obligations.ResetAbandonsAnOperation : Prop :=
  (∀ s t : State, step s = .next t → t.hdcpSupported = s.hdcpSupported ∨
      (∃ rest, s.inbox = .initialise t.hdcpSupported :: rest) ∨
      ∃ l ∈ s.env.arrivals, HostInput.initialise t.hdcpSupported ∈ l) ∧
    ∀ (i : Instr) (s t : State) (es : List Event) (L : List (List HostInput)) (k : Nat) (pre post : List HostInput)
      (supported : Bool), s.ready = true →
      exec i (s.withArrivals []) = .next t → t.trace = es.reverse ++ s.trace → k ≤ accesses es →
      (∀ l ∈ L.take k, l.all HostInput.isNoReset = true) → L[k]? = some (pre ++ .initialise supported :: post) →
      pre.all HostInput.isNoReset = true →
        ∃ u es1 es2, es = es1 ++ es2 ∧ accesses es1 = k ∧ exec i (s.withArrivals L) = .next u ∧
          u.trace = es1.reverse ++ s.trace ∧
          (u.cipher, u.port) = es1.foldl (Event.applyTo s.prm) (s.cipher, s.port) ∧ u.prm = s.prm ∧
          u.hdcpSupported = supported ∧ u.initialised = true ∧ u.result = none ∧ u.busy = false ∧ u.op = none ∧ u.ctlState = .off ∧
          u.inbox = post ++ s.inbox ∧ u.refusals = refusalsAfter ((L.take k).flatten ++ pre) s.refusals

/-- No failure stops the block: every operation of a ready block completes, whatever the collaborators answer and
whatever lands, and after it the block takes the next command (60_exceptions.md R260, R264; 70_reset_and_hazards.md
R296, R312). -/
def Obligations.EveryOperationCompletes : Prop :=
  ∀ (i : Instr) (s : State), s.ready = true →
    ∃ t, exec i s = .next t ∧ t.ready = true

/-- An operation that no reset disturbs returns one result, of the kind its row of 30_encoding.md R100 gives
(10_state.md R47). -/
def Obligations.OperationsReturnTheirResult : Prop :=
  ∀ (i : Instr) (s : State), i.wf = true → s.ready = true → s.undisturbed = true →
    ∃ t r es, Runs i s t r es ∧ mayReturn i r = true

/-! ## Rules about every operation -/

/-- What the collaborators hold after an operation, abandoned or not, is what the writes in its trace made of it, in
order, and nothing else (10_state.md R50; 20_memory.md R86). -/
def Obligations.CollaboratorsHoldTheTracedWrites : Prop :=
  ∀ (i : Instr) (s t : State), s.ready = true → exec i s = .next t →
    t.prm = s.prm ∧ ∃ es : List Event, t.trace = es.reverse ++ s.trace ∧
      (t.cipher, t.port) = es.foldl (Event.applyTo s.prm) (s.cipher, s.port)

/-- Every answer an operation acts on is the collaborators': the next one of the script, or any value at all where
none is scripted, under no law but the read-back law (00_scope.md R6; 10_state.md R58; log 4). The model's readings are
that a write of HDCP_REP fixes both its fields, also the one it only wrote back as read (log 9), that a port read is a
draw under no such law (log 10), and that a scripted answer of another length than the size asked for gives free bytes
here (log 14). -/
def Obligations.AnswersAreTheCollaborators : Prop :=
  ∀ (i : Instr) (s t : State) (r : Result) (es : List Event), s.ready = true → s.undisturbed = true →
    Runs i s t r es → Answered s.prm (s.cipher, s.port) s.scripts es

/-- 10_state.md R58: a read of HDCP_CONFIG finds in `mode`, and a read of HDCP_REP in `present` and `control`, what
the block last wrote there. That a write of HDCP_REP fixes both fields, also the one it only wrote back as read, is the
model's reading (log 9). -/
def Obligations.ReadBackLaw : Prop :=
  ∀ (i : Instr) (s t : State) (r : Result) (es1 es2 : List Event) (reg : CipherReg) (v : Word),
    s.prm.valid = true → s.ready = true → s.undisturbed = true →
    Runs i s t r (es1 ++ .cipherRead reg v :: es2) →
      let c := (es1.foldl (Event.applyTo s.prm) (s.cipher, s.port)).1
      (reg = .config → c.configWritten = true → getField s.prm.cfgMode v = getField s.prm.cfgMode c.config) ∧
        (reg = .rep → c.repWritten = true →
          getField (presentField s.prm) v = getField (presentField s.prm) c.rep ∧
            getField (controlField s.prm) v = getField (controlField s.prm) c.rep)

/-- 20_memory.md R78 and R79: a write of HDCP_CONFIG, HDCP_REP or PORT_REG comes right after a read of the same
register and writes that value back with one field replaced, by a value the block writes there (30_encoding.md R121,
R122, R126); what replacing a field does to every bit. -/
def Obligations.FieldWritesAreReadModifyWrite : Prop :=
  (∀ (f : Field) (w x : Word) (j : Nat), j < 32 →
      (setField f w x).getLsbD j = if f.lo ≤ j ∧ j < f.lo + f.width then x.getLsbD (j - f.lo) else w.getLsbD j) ∧
    ∀ (i : Instr) (s t : State) (r : Result) (es1 es2 : List Event) (e : Event), s.Inv → s.ready = true →
      s.undisturbed = true → Runs i s t r (es1 ++ e :: es2) →
        (∀ v, e = .cipherWrite .config v → ∃ es0 d m, es1 = es0 ++ [.cipherRead .config d] ∧
            m ∈ [s.prm.modeOff, s.prm.modeCaptureAn, s.prm.modeAuthEnc] ∧
            v = setField s.prm.cfgMode d (BitVec.ofNat 32 m)) ∧
          (∀ v, e = .cipherWrite .rep v → ∃ es0 d, es1 = es0 ++ [.cipherRead .rep d] ∧
            ((∃ b, v = setField (presentField s.prm) d (bitWord b)) ∨
              ∃ m ∈ s.prm.writtenControls, v = setField (controlField s.prm) d (m.setWidth 32))) ∧
          ∀ v, e = .portWrite v → ∃ es0 d b, es1 = es0 ++ [.portRead d] ∧
            v = setField ⟨s.prm.portEncBit, 1⟩ d (bitWord b)

/-- The order of accesses that keeps the hazards of 70_reset_and_hazards.md R299: An and Aksv are read after a status
read that showed `an_ready`; in enable(true), by whichever operation runs it, the receiver's Ri′ is read right after a
status read that showed `ri_ready`; a SHA-1 word is written right after a read that showed `ReadyForNextData`; the
complete-SHA-1 code is written, by whichever operation, after the five V′ words, a ready poll that ended in such a read,
and the read of its own field write (a write of `present` that finds the code there and keeps it is none). -/
def Obligations.ReadyBeforeUse : Prop :=
  ∀ (i : Instr) (s t : State) (r : Result) (es1 es2 : List Event) (e : Event), s.Inv → s.ready = true →
    s.undisturbed = true → Runs i s t r (es1 ++ e :: es2) →
      (∀ reg v, e = .cipherRead reg v → [CipherReg.anLow, .anHi, .aksvLo, .aksvHi].contains reg = true →
          ∃ x, Event.cipherRead .status x ∈ es1 ∧ anReady s.prm x = true) ∧
        ([Instr.hdcpEnable true, .setEncryptionLevel true, .hdcpSetCpData].contains i = true →
          ∀ a, e = .serialRead 0x08 2 a → ∃ x, es1.getLast? = some (.cipherRead .status x) ∧ riReady s.prm x = true) ∧
        (∀ v, e = .cipherWrite .sha1In v → ∃ x, es1.getLast? = some (.cipherRead .rep x) ∧ shaReady s.prm x = true) ∧
        (i = .compareVPrime → ∀ v, e = .cipherWrite .rep v →
          ∃ (xs : List Word) (x d : Word), es1 = vprimeWrites s.args.vPrime ++ xs.map (Event.cipherRead .rep) ++
            [.cipherRead .rep x, .cipherRead .rep d] ∧ shaReady s.prm x = true) ∧
        ∀ es0 d v, e = .cipherWrite .rep v → es1 = es0 ++ [.cipherRead .rep d] →
          getField (controlField s.prm) v = s.prm.ctrlCompleteSha1.setWidth 32 →
          getField (controlField s.prm) d ≠ s.prm.ctrlCompleteSha1.setWidth 32 →
            ∃ (es3 : List Event) (w : VWords) (xs : List Word) (x : Word),
              es0 = es3 ++ vprimeWrites w ++ xs.map (Event.cipherRead .rep) ++ [.cipherRead .rep x] ∧
              shaReady s.prm x = true

/-- No operation, RX_READ and RX_WRITE included, abandoned or not, accesses HDCP_AKEY_* or writes AINFO (10_state.md
R60), or reads across two regions of the receiver (42_receiver_io.md R170). The accesses the block's own sequences make,
with what they may write (10_state.md R51; 20_memory.md R73; 30_encoding.md R110, R126; 42_receiver_io.md R174), are
those of every operation but RX_READ and RX_WRITE, whose sub-address the host gives (log 33). A write of HDCP_REP keeps
the control code of the read right before it or carries one of the six codes the block writes (30_encoding.md R122),
never `REP_CTRL_IDLE` and never 3; that a record whose written codes include one of these two is no valid one is the
model's reading (log 5). That byte `i` of a write goes to `sub + i` is the model's too (log 33). -/
def Obligations.AccessesAreTheBlocksOwn : Prop :=
  ∀ (i : Instr) (s t : State) (es : List Event), s.Inv → s.ready = true →
    exec i s = .next t → t.trace = es.reverse ++ s.trace →
      (∀ e ∈ es, e.Permitted) ∧
        ((∀ sub size, i ≠ .rxRead sub size ∧ i ≠ .rxWrite sub size) → ∀ e ∈ es, e.own s.prm = true) ∧
        ∀ es1 v es2, es = es1 ++ .cipherWrite .rep v :: es2 → ∃ es0 d, es1 = es0 ++ [.cipherRead .rep d] ∧
          (getField (controlField s.prm) v = getField (controlField s.prm) d ∨
            ∃ m ∈ s.prm.writtenControls, m ≠ s.prm.ctrlIdle ∧ m ≠ 3 ∧
              getField (controlField s.prm) v = m.setWidth 32)

/-- 70_reset_and_hazards.md R313: the bounds on the accesses of each operation, with `W` as the operation leaves
`s.blen`, at most 176. That `s.blen` still has its value after the return is the model's choice (log 11). -/
def Obligations.AccessBounds : Prop :=
  ∀ (i : Instr) (s t : State) (r : Result) (es : List Event), s.Inv → s.ready = true → s.undisturbed = true →
    Runs i s t r es →
      (accessCount es).atMost (accessBound s.prm.frameWaitMax (t.ses.blen.toNat / 4) i) ∧
        t.ses.blen.toNat / 4 ≤ 176

/-- The kinds of failure the table of 60_exceptions.md R265 says cannot occur in an operation are not raised in it. -/
def Obligations.FailuresAreThoseOfTheTable : Prop :=
  ∀ (i : Instr) (s t : State) (r : Result) (es : List Event), s.Inv → s.ready = true → s.undisturbed = true →
    Runs i s t r es → ∀ f, Event.raised f ∈ es → mayRaise i f = true

/-- No operation reads what an earlier one left in the controller state, the session registers or the buffers: from
states that differ only there it does the same (10_state.md R33, R48; 20_memory.md R91). -/
def Obligations.EarlierSessionsDoNotMatter : Prop :=
  ∀ (i : Instr) (s : State) (c : CtlState) (ses : Session) (k h : Memory), s.ksvbuf.wf = true → s.shabuf.wf = true →
    k.wf = true → h.wf = true → s.ready = true →
      ∃ t t', exec i s = .next t ∧ exec i { s with ctlState := c, ses := ses, ksvbuf := k, shabuf := h } = .next t' ∧
        t' = { t with ctlState := t'.ctlState, ses := t'.ses, ksvbuf := t'.ksvbuf, shabuf := t'.shabuf }

/-- The state right after reset meets the invariant. It rests on the model's choices for what the spec leaves open at
reset: the platform's record is a valid one (log 5), session and collaborator registers are 0 (logs 7 and 8), the
buffers hold nothing (log 12). -/
def Obligations.InvariantAtReset : Prop := State.reset.Inv

/-- Every step keeps the invariant (the rules each part of `State.Inv` names). -/
def Obligations.StepKeepsInvariant : Prop := ∀ s t : State, s.Inv → step s = .next t → t.Inv

/-! ## The local buffers (20_memory.md R72) -/

/-- Writing a run of bytes keeps the canonical form; a read finds the run inside it and the old byte outside. -/
def Obligations.BufferReadsWhatWasWritten : Prop :=
  ∀ (m : Memory) (a : Nat) (bs : List Byte), m.wf = true →
    (m.writeBytes a bs).wf = true ∧
      ∀ x, (m.writeBytes a bs).read x = if a ≤ x ∧ x < a + bs.length then bs.getD (x - a) 0 else m.read x

/-- Two buffers in canonical form that read the same everywhere are the same data (the model's form, log 12). -/
def Obligations.EqualBuffersAreEqualData : Prop :=
  ∀ m m' : Memory, m.wf = true → m'.wf = true → (∀ a, m.read a = m'.read a) → m = m'

/-! ## Controller -/

/-- 41_controller.md R141. -/
def Obligations.QueryReturnsCapability : Prop :=
  ∀ s : State, s.ready = true → s.undisturbed = true → OnlyReturns .hdcpQuery s (.bool s.hdcpSupported)

/-- 41_controller.md R142. -/
def Obligations.IsEnabledReadsHdcpOn : Prop :=
  ∀ s : State, s.ready = true → s.undisturbed = true →
    (s.hdcpSupported = false → OnlyReturns .hdcpIsEnabled s (.bool false)) ∧
      (s.hdcpSupported = true →
        ∃ t v, Runs .hdcpIsEnabled s t (.bool (hdcpOn s.prm v)) [.cipherRead .status v] ∧ t.visible = s.visible)

/-- The capability gate of 41_controller.md R143, and what R153 makes of it. -/
def Obligations.CapabilityGate : Prop :=
  ∀ (s : State) (on : Bool), s.ready = true → s.undisturbed = true → s.hdcpSupported = false →
    OnlyReturns (.hdcpEnable on) s (.bool false) ∧ OnlyReturns (.setEncryptionLevel on) s (.status .unsuccessful)

/-- 41_controller.md R144: HDCP_ENABLE with `on = 0` makes the accesses of the disable sequence, returns its result
and changes nothing else but `s.ctl_state`. -/
def Obligations.DisableSequence : Prop :=
  ∀ s : State, s.ready = true → s.undisturbed = true → s.hdcpSupported = true →
    ∃ t es ok c, DisableTrace s.prm es ok c ∧ Runs (.hdcpEnable false) s t (.bool ok) es ∧
      t.visible = { s.visible.replay es with ctlState := c }

/-- A disable whose first status check finds both bits clear succeeds and leaves HDCP_RI and the port bit cleared
(41_controller.md R144). -/
def Obligations.DisableSucceedsWhenClear : Prop :=
  ∀ (s : State) (d v : Word) (rest : List Word), s.prm.valid = true → s.ready = true → s.undisturbed = true →
    s.hdcpSupported = true → s.env.cipher = d :: v :: rest → disabledNow s.prm v = true →
      ∃ t es, Runs (.hdcpEnable false) s t (.bool true) es ∧ t.ctlState = .off ∧ t.cipher.ri = 0 ∧
        t.port.getLsbD s.prm.portEncBit = false ∧
        getField s.prm.cfgMode t.cipher.config = BitVec.ofNat 32 s.prm.modeOff ∧ accesses es = 7

/-- 41_controller.md R156: two disables that both succeed. -/
def Obligations.DisableTwice : Prop :=
  ∀ s t u : State, s.prm.valid = true → s.ready = true → s.undisturbed = true →
    exec (.hdcpEnable false) s = .next t → t.result = some (.bool true) →
    exec (.hdcpEnable false) t = .next u → u.result = some (.bool true) →
      ∀ x, x = t ∨ x = u → getField s.prm.cfgMode x.cipher.config = BitVec.ofNat 32 s.prm.modeOff ∧
        x.cipher.ri = 0 ∧ x.port.getLsbD s.prm.portEncBit = false ∧ x.ctlState = .off

/-- 41_controller.md R145 to R152 and R155: HDCP_ENABLE with `on = 1` makes the accesses of the enable sequence, ends
in one of its ends with that end's result, and changes nothing else but `s.ctl_state` and the session registers the
sequence names. What it leaves in the cipher and the port register is what its writes left (R157). That the session
registers keep their last values after the return is the model's choice (log 11). -/
def Obligations.EnableSequence : Prop :=
  ∀ s : State, s.ready = true → s.undisturbed = true → s.hdcpSupported = true →
    ∃ t es ok c ses, EnableTrace s.prm s.ses es ok c ses ∧ Runs (.hdcpEnable true) s t (.bool ok) es ∧
      t.visible = { s.visible.replay es with ctlState := c, ses := ses }

/-- An enable whose answers are all good ends encrypting (41_controller.md R145, its example): `an_ready` and
`ri_ready` at the first read of their polls, every transaction `Ok`, a Bksv with 20 bits set, a receiver that is no
repeater, `ri_match` in the last read. That `s.an` and `s.aksv` keep their values after the return is the model's choice
(log 11). -/
def Obligations.GoodAnswersEncrypt : Prop :=
  ∀ (s : State) (d a lo hi alo ahi m y f : Word) (rest : List Word) (w0 w1 kb : List Byte) (b b0 b1 : Byte)
    (rest' : List (Option (List Byte))), s.ready = true → s.undisturbed = true → s.hdcpSupported = true →
    s.env.cipher = d :: a :: lo :: hi :: alo :: ahi :: m :: y :: f :: rest →
    s.env.serial = some w0 :: some w1 :: some kb :: some [b] :: some [b0, b1] :: rest' →
    anReady s.prm a = true → riReady s.prm y = true → riMatch s.prm f = true → kb.length = 5 →
    (Ksv.ofBytes kb).weight = 20 → (bcaps s.prm b).isRepeater = false →
      ∃ t es, Runs (.hdcpEnable true) s t (.bool true) es ∧ t.ctlState = .encrypting ∧
        t.cipher.bksvLo = leWord (kb.take 4) ∧ t.cipher.bksvHi = (kb.getD 4 0).setWidth 32 ∧
        t.cipher.ri = (b1 ++ b0).setWidth 32 ∧ t.ses.an = hi ++ lo ∧ t.ses.aksv = ahi.setWidth 8 ++ alo ∧
        es.getLast? = some (.cipherRead .status f)

/-- 41_controller.md R153: SET_ENCRYPTION_LEVEL does what HDCP_ENABLE does and maps its Boolean to a Status. -/
def Obligations.SetEncryptionLevelIsEnable : Prop :=
  ∀ (s : State) (on : Bool), s.ready = true → s.undisturbed = true →
    ∃ t ok es, Runs (.hdcpEnable on) s t (.bool ok) es ∧
      Runs (.setEncryptionLevel on) s
        { t with result := some (.status (if ok then .success else .unsuccessful)) }
        (.status (if ok then .success else .unsuccessful)) es

/-- 41_controller.md R154: SET_REPEATER_PRESENT writes `present` and reads it back; under the read-back law of
10_state.md R58 the result is always true. -/
def Obligations.SetRepeaterPresent : Prop :=
  ∀ (s : State) (on : Bool), s.prm.valid = true → s.ready = true → s.undisturbed = true →
    ∃ t d v, Runs (.setRepeaterPresent on) s t (.bool true) (presentWrite s.prm on d v) ∧
      repPresent s.prm v = on ∧ repPresent s.prm t.cipher.rep = on ∧
      t.visible = s.visible.replay (presentWrite s.prm on d v)

/-- 10_state.md R34: which operations change `s.ctl_state`, and to what, from start to end, each operation
(41_controller.md R153, R154; 42_receiver_io.md R170, R171; 46_cp_params.md R240 to R242). -/
def Obligations.ControllerStateTable : Prop :=
  ∀ (i : Instr) (s t : State) (r : Result) (es : List Event), s.Inv → s.ready = true → s.undisturbed = true →
    Runs i s t r es →
      (i = .hdcpEnable true → s.hdcpSupported = true → t.ctlState = if r = .bool true then .encrypting else .off) ∧
        (i = .hdcpEnable false → s.hdcpSupported = true → t.ctlState = if r = .bool true then .off else .disabling) ∧
        (i = .setEncryptionLevel true → s.hdcpSupported = true →
          t.ctlState = if r = .status .success then .encrypting else .off) ∧
        (i = .setEncryptionLevel false → s.hdcpSupported = true →
          t.ctlState = if r = .status .success then .off else .disabling) ∧
        (i = .hdcpGetCpData → if r = .status .unsuccessful then t.ctlState = .off ∨ t.ctlState = .disabling
          else t.ctlState = s.ctlState) ∧
        (i = .hdcpSetCpData →
          ((s.hdcpSupported && s.args.params.typeMask.getLsbD s.prm.cpTypeHdcp) = false → t.ctlState = s.ctlState) ∧
            (s.hdcpSupported = true → s.args.params.typeMask.getLsbD s.prm.cpTypeHdcp = true →
              if r = .status .success then
                t.ctlState = if s.args.params.performSecondStep ≠ 0 then s.ctlState
                  else if s.args.params.level = s.prm.cpLevelOn then .encrypting else .off
              else t.ctlState = .off ∨ t.ctlState = .disabling)) ∧
        (∀ on sub size, i = .setRepeaterPresent on ∨ i = .rxRead sub size ∨ i = .rxWrite sub size →
          t.ctlState = s.ctlState) ∧
        (i = .repeaterTeardown → t.ctlState = .off) ∧
        (i = .activateRepeater → t.ctlState = s.ctlState ∨ t.ctlState = .off ∧ r ≠ .status .success) ∧
        (s.hdcpSupported = false → i ≠ .repeaterTeardown → i ≠ .activateRepeater → t.ctlState = s.ctlState) ∧
        ([Instr.hdcpQuery, .hdcpIsEnabled, .hdcpIsValidBksv, .buildSha1Buffer, .computeTransmitterV, .compareVPrime,
            .getLinkStatus, .isRevoked, .rxReadVPrime].contains i = true → t.ctlState = s.ctlState)

/-! ## Receiver I/O and the validator -/

/-- 42_receiver_io.md R170 and R172: one transaction; on `Ok` all bytes go over the start of the caller's buffer, on
`Fail` nothing changes. A read across two regions is not made (R170). The model's choices are that its result is then
`Fail`, with no raise, and that every other read is made, those outside the receiver's map included (log 33). -/
def Obligations.RxReadTransaction : Prop :=
  ∀ (s : State) (sub : Byte) (size : BitVec 10), size ≠ 0 → s.ready = true → s.undisturbed = true →
    (CrossesRegions sub size.toNat → OnlyReturns (.rxRead sub size) s (.io false)) ∧
      (¬ CrossesRegions sub size.toNat →
        ∃ t, (∃ bytes, bytes.length = size.toNat ∧
            Runs (.rxRead sub size) s t (.io true) [.serialRead sub size.toNat (some bytes)] ∧
            t.visible =
              { s.visible with args := { s.args with buffer := bytes ++ s.args.buffer.drop size.toNat } }) ∨
          (Runs (.rxRead sub size) s t (.io false)
              [.serialRead sub size.toNat none, .raised (.serialIOFailure sub)] ∧ t.visible = s.visible))

/-- 42_receiver_io.md R171: one transaction with the first `size` bytes of the caller's buffer. A write one of whose
bytes would go to AINFO, which the block never writes (10_state.md R60), is not made. The model's choices are that byte
`i` goes to `sub + i`, that the result of a write not made is `Fail`, with no raise, that every other write is made,
those outside the receiver's map included (log 33), and free bytes past the buffer's end (log 13). -/
def Obligations.RxWriteTransaction : Prop :=
  ∀ (s : State) (sub : Byte) (size : BitVec 10), size ≠ 0 → s.ready = true → s.undisturbed = true →
    (WritesAinfo sub size.toNat → OnlyReturns (.rxWrite sub size) s (.io false)) ∧
      (¬ WritesAinfo sub size.toNat →
        ∃ t payload, Supplies s.args.buffer payload size.toNat ∧ t.visible = s.visible ∧
          (Runs (.rxWrite sub size) s t (.io true) [.serialWrite sub payload true] ∨
            Runs (.rxWrite sub size) s t (.io false)
              [.serialWrite sub payload false, .raised (.serialIOFailure sub)]))

/-- 42_receiver_io.md R173: five 4-byte blocks; the caller's `v_prime` is written only when all succeeded. That a failed
block is raised twice, by its transaction and by the operation, is the model's reading (log 16). -/
def Obligations.RxReadVPrimeBlocks : Prop :=
  ∀ s : State, s.ready = true → s.undisturbed = true →
    ∃ t es v, VPrimeTrace es v ∧ Runs .rxReadVPrime s t (.io v.isSome) es ∧
      t.visible = { s.visible with args := { s.args with vPrime := v.getD s.args.vPrime } }

/-- 43_validator.md R180 and R184: a size other than 5 is false; five bytes are valid exactly when 20 of their bits
are 1. No access, nothing written. Free bytes past the end of a buffer shorter than five are the model's choice (log
13). -/
def Obligations.IsValidBksv : Prop :=
  ∀ s : State, s.ready = true → s.undisturbed = true →
    ∃ bytes, Supplies s.args.buffer bytes 5 ∧
      OnlyReturns .hdcpIsValidBksv s (.bool (decide (s.args.size = 5 ∧
        ((List.range 5).map fun k => (List.range 8).countP fun j => (bytes.getD k 0).getLsbD j).sum = 20)))

/-- 43_validator.md R181: membership, byte for byte. No access, nothing written. -/
def Obligations.IsRevoked : Prop :=
  ∀ s : State, s.ready = true → s.undisturbed = true →
    OnlyReturns .isRevoked s (.bool (decide (s.args.candidate ∈ s.args.revocationSet)))

/-! ## Repeater verifier -/

/-- 44_repeater.md R196 to R199: the buffer BUILD_SHA1_BUFFER makes of the caller's list, count and topology, and the
length it returns; no access, and no other register written. The model's choices are that `s.blen` and `s.shabuf` keep
their values after the return (log 11) and free bytes past the end of a list that is too short (log 13). -/
def Obligations.BuildSha1Buffer : Prop :=
  ∀ s : State, s.shabuf.wf = true → s.ready = true → s.undisturbed = true →
    ∃ t ksvs, Supplies s.args.ksvList ksvs (5 * s.args.count.toNat) ∧ Runs .buildSha1Buffer s t .record [] ∧
      HoldsShaInput ksvs s.args.count.toNat s.args.topology s.shabuf t.shabuf ∧
      t.args.shaLength = (5 * s.args.count.toNat + 18 + 63) / 64 * 64 ∧
      t.visible =
        { s.visible with
          shabuf := t.shabuf
          ses := { s.ses with blen := BitVec.ofNat 11 t.args.shaLength }
          args := { s.args with
            shaBuffer := layoutBytes ksvs s.args.count.toNat s.args.topology t.args.shaLength
            shaLength := t.args.shaLength } }

/-- 44_repeater.md R200 to R208: COMPUTE_TRANSMITTER_V makes the feeds of its chunks in order, ended by the first that
times out, and writes no register but the builder's and feeder's. What `s.shabuf`, `s.pos` and `s.mo_left` hold after
the return is the model's choice (log 11), and so are free bytes past the end of a list that is too short (log 13). -/
def Obligations.ComputeTransmitterV : Prop :=
  ∀ s : State, s.shabuf.wf = true → s.ready = true → s.undisturbed = true →
    ∃ t ksvs es ok, Supplies s.args.ksvList ksvs (5 * s.args.count.toNat) ∧
      FeedsTrace s.prm (expectedFeeds s.prm ksvs s.args.count.toNat s.args.topology) es ok ∧
      Runs .computeTransmitterV s t (.bool ok) es ∧
      HoldsShaInput ksvs s.args.count.toNat s.args.topology s.shabuf t.shabuf ∧
      t.visible =
        { s.visible.replay es with
          ses := s.ses.fed s.args.count.toNat (es.countP Event.isWordFed), shabuf := t.shabuf }

/-- 44_repeater.md R202 to R207: the feeds of a computation, phase by phase: how many; the text words; the last text
bytes packed in the low bytes of their word (`MERGE_TEXT_POSITION = LOW`) or in its high bytes (`HIGH`); the Mo word; the word of Mo and padding, which is 0; the
padding words, which are 0; the length. -/
def Obligations.FeedsFollowThePhases : Prop :=
  ∀ (p : Params) (ksvs : List Byte) (count : Nat) (topology : BitVec 16), count ≤ 127 → ksvs.length = 5 * count →
    let fs := expectedFeeds p ksvs count topology
    let T := 5 * count + 2
    let text := ksvs ++ [topology.extractLsb' 0 8, topology.extractLsb' 8 8]
    let third := (T + 3) / 4
    fs.length = (5 * count + 18 + 63) / 64 * 16 ∧
      (∀ k, k < T / 4 → fs[k]? = some (p.ctrlText32, beWord ((text.drop (4 * k)).take 4))) ∧
      (T % 4 ≠ 0 → p.mergeText = .low →
        fs[T / 4]? = some (textMode p (T % 4), beWord (text.drop (T / 4 * 4)))) ∧
      (T % 4 ≠ 0 → p.mergeText = .high →
        fs[T / 4]? = some (textMode p (T % 4), beWord (text.drop (T / 4 * 4) ++ List.replicate (4 - T % 4) 0))) ∧
      fs[third]? = some (p.ctrlMo32, 0) ∧
      fs[third + 1]? = some (textMode p (if T % 4 = 0 then 0 else 4 - T % 4), 0) ∧
      (∀ k, third + 1 < k → k + 1 < fs.length → fs[k]? = some (p.ctrlText32, 0)) ∧
      fs.getLast? = some (p.ctrlText32, BitVec.ofNat 32 ((T + 8) * 8))

/-- 44_repeater.md R209. -/
def Obligations.CompareVPrime : Prop :=
  ∀ s : State, s.ready = true → s.undisturbed = true →
    ∃ t es ok, CompareTrace s.prm s.args.vPrime es ok ∧ Runs .compareVPrime s t (.bool ok) es ∧
      t.visible = s.visible.replay es

/-- 44_repeater.md R210. -/
def Obligations.RepeaterTeardown : Prop :=
  ∀ s : State, s.ready = true → s.undisturbed = true →
    ∃ t d m, Runs .repeaterTeardown s t .nothing (teardownEvents s.prm d m) ∧
      t.visible = { s.visible.replay (teardownEvents s.prm d m) with ctlState := .off }

/-- 44_repeater.md R190 to R195, R211, R212: ACTIVATE_REPEATER makes the accesses of one row of R212's table, returns
that row's Status, tears down where the row says so, and changes nothing else but `s.ctl_state`, the session registers
the sequence names and, once a KSV list was read, its buffers. The model's readings are the place of the violation of a
revoked vector, after the teardown (log 17), the second raise of a failed V′ block (log 16), and that session registers
and buffers keep their last values (log 11). -/
def Obligations.ActivateRepeater : Prop :=
  ∀ s : State, s.ksvbuf.wf = true → s.shabuf.wf = true → s.ready = true → s.undisturbed = true →
    ∃ t es st torn ses, ActivateTrace s.prm s.args.revocationSet s.ses es st torn ses ∧
      Runs .activateRepeater s t (.status st) es ∧ BuffersAfter es s.ksvbuf s.shabuf t.ksvbuf t.shabuf ∧
      t.visible =
        { s.visible.replay es with
          ctlState := ctlAfter torn s.ctlState, ses := ses, ksvbuf := t.ksvbuf, shabuf := t.shabuf }

/-- A revoked result never leaves the repeater-present bit set: after it the bit is 0, the mode is
`CFG_MODE_OFF` and the controller state `Off` (44_repeater.md R190, R210, R211). -/
def Obligations.RevokedLeavesNoRepeaterPresent : Prop :=
  ∀ s t : State, s.Inv → s.ready = true → s.undisturbed = true → exec .activateRepeater s = .next t →
    t.result = some (.status .revokedHdcpDeviceAttached) →
      repPresent s.prm t.cipher.rep = false ∧
        getField s.prm.cfgMode t.cipher.config = BitVec.ofNat 32 s.prm.modeOff ∧ t.ctlState = .off

/-- A verification succeeds only with no downstream device, or after a KSV list free of revoked vectors and a
completion read that showed `CompleteMatch` as its last access (44_repeater.md R190, R194, R209, R211). -/
def Obligations.SuccessMeansVerified : Prop :=
  ∀ (s t : State) (es : List Event), s.Inv → s.ready = true → s.undisturbed = true →
    Runs .activateRepeater s t (.status .success) es →
      (∃ b t0 t1, es = [.serialRead 0x40 1 (some [b]), .serialRead 0x41 2 (some [t0, t1])] ∧
          (bstatus s.prm (t1 ++ t0)).deviceCount = 0) ∨
        ∃ n bytes v, Event.serialRead 0x43 (5 * n) (some bytes) ∈ es ∧
          (∀ k < n, Ksv.ofBytes ((bytes.drop (5 * k)).take 5) ∉ s.args.revocationSet) ∧
          es.getLast? = some (.cipherRead .rep v) ∧ repState s.prm v = .completeMatch

/-! ## Link monitor -/

/-- 45_link_monitor.md R230 to R232: GET_LINK_STATUS makes up to four attempts, each mismatch followed by a frame
wait, and changes nothing but HDCP_RI and its session registers, of which the model's choice is that they keep their last
values after the return (log 11). -/
def Obligations.LinkStatus : Prop :=
  ∀ s : State, s.ready = true → s.undisturbed = true →
    ∃ t es ok ses, LinkTrace s.prm 4 s.ses es ok ses ∧ Runs .getLinkStatus s t (.bool ok) es ∧
      t.visible = { s.visible.replay es with ses := ses }

/-- 45_link_monitor.md R234: the bounds on the accesses of GET_LINK_STATUS. -/
def Obligations.LinkStatusBounds : Prop :=
  ∀ (s t : State) (r : Result) (es : List Event), s.ready = true → s.undisturbed = true → Runs .getLinkStatus s t r es →
    1 ≤ es.countP Event.isSerial ∧ es.countP Event.isSerial ≤ 4 ∧ es.countP Event.isRiWrite ≤ 4 ∧
      es.countP Event.isStatusRead ≤ 4 * (1 + s.prm.frameWaitMax) ∧ ∀ e ∈ es, e.isPort = false

/-! ## Parameter exchange -/

/-- 46_cp_params.md R244. -/
def Obligations.CpGateClosed : Prop :=
  ∀ s : State, s.ready = true → s.undisturbed = true →
    (s.hdcpSupported = false ∨ s.args.params.typeMask.getLsbD s.prm.cpTypeHdcp = false) →
      OnlyReturns .hdcpGetCpData s (.status .notSupported) ∧ OnlyReturns .hdcpSetCpData s (.status .notSupported)

/-- 46_cp_params.md R240, behind its gate and before it. The place of the raise of a failed BCaps read, right after the
read (60_exceptions.md R261), is the model's reading (log 16), and that session registers keep their last values the
model's choice (log 11). -/
def Obligations.GetCpData : Prop :=
  ∀ s : State, s.ready = true → s.undisturbed = true →
    ((s.hdcpSupported && s.args.params.typeMask.getLsbD s.prm.cpTypeHdcp) = false →
        OnlyReturns .hdcpGetCpData s (.status .notSupported)) ∧
      (s.hdcpSupported = true → s.args.params.typeMask.getLsbD s.prm.cpTypeHdcp = true →
        ∃ t es st level q c ses, GetTrace s.prm s.ctlState s.ses es st level q c ses ∧
          Runs .hdcpGetCpData s t (.status st) es ∧
          t.visible =
            { s.visible.replay es with
              ctlState := c, ses := ses, args := s.args.answered level (reported s.prm q) })

/-- 46_cp_params.md R241, behind its gate and before it; the revocation set is the caller's KSV list. The buffers change
only in a verification, as there (44_repeater.md R195, R196). The model's choices are free vectors past the end of a
list shorter than its length (log 13), the number and the places of raises (logs 16 and 17), and that session registers
and buffers keep their last values (log 11). -/
def Obligations.SetCpData : Prop :=
  ∀ s : State, s.ready = true → s.undisturbed = true →
    ((s.hdcpSupported && s.args.params.typeMask.getLsbD s.prm.cpTypeHdcp) = false →
        OnlyReturns .hdcpSetCpData s (.status .notSupported)) ∧
      (s.ksvbuf.wf = true → s.shabuf.wf = true → s.hdcpSupported = true →
        s.args.params.typeMask.getLsbD s.prm.cpTypeHdcp = true →
        ∃ t es st level q rs c ses, Supplies s.args.params.ksvList rs s.args.params.ksvListLength ∧
          SetTrace s.prm s.args.params rs s.ctlState s.ses es st level q c ses ∧
          Runs .hdcpSetCpData s t (.status st) es ∧
          (s.args.params.performSecondStep = 0 → t.ksvbuf = s.ksvbuf ∧ t.shabuf = s.shabuf) ∧
          (s.args.params.performSecondStep ≠ 0 → BuffersAfter es s.ksvbuf s.shabuf t.ksvbuf t.shabuf) ∧
          t.visible =
            { s.visible.replay es with
              ctlState := c, ses := ses, ksvbuf := t.ksvbuf, shabuf := t.shabuf
              args := s.args.answered level (reported s.prm q) })

/-- The safety net of 46_cp_params.md R242: any result but `Success` behind the gate leaves the level Off, ends with a
whole disable sequence, and leaves HDCP_CONFIG in `CFG_MODE_OFF`; where that disable succeeded, HDCP_RI and the port
bit are clear. -/
def Obligations.SafetyNet : Prop :=
  ∀ (s t : State) (st : Status) (es : List Event), s.Inv → s.ready = true → s.undisturbed = true →
    s.hdcpSupported = true → s.args.params.typeMask.getLsbD s.prm.cpTypeHdcp = true →
    Runs .hdcpSetCpData s t (.status st) es → st ≠ .success →
      t.args.params.level = s.prm.cpLevelOff ∧
        getField s.prm.cfgMode t.cipher.config = BitVec.ofNat 32 s.prm.modeOff ∧
        ∃ es1 es2 ok, es = es1 ++ es2 ∧ DisableTrace s.prm es2 ok t.ctlState ∧
          (ok = true → t.ctlState = .off ∧ t.cipher.ri = 0 ∧ t.port.getLsbD s.prm.portEncBit = false)

/-! ## Registers of the cipher the block only writes -/

/-- What a write leaves in the cipher's registers (10_state.md R51 to R57, R64): the register written holds the value,
every other one is as before; HDCP_INIT keeps its two most recent values; HDCP_SHA1_IN adds a word to those pushed, and a
complete-SHA-1 control write empties them (that only they are kept of the engine is the model's choice, log 15);
registers the block does not write stay. -/
def Obligations.CipherWriteLaw : Prop :=
  ∀ (p : Params) (c : Cipher) (reg : CipherReg) (v : Word),
    let c' := c.write p reg v
    (reg.isWritten = true → c'.holds reg = some v) ∧ (∀ other, other ≠ reg → c'.holds other = c.holds other) ∧
      c'.initOld = (if reg = .init then c.initNew else c.initOld) ∧
      c'.sha1Words = (if reg = .sha1In then c.sha1Words ++ [v]
        else if reg = .rep ∧ getField (controlField p) v = p.ctrlCompleteSha1.setWidth 32 then [] else c.sha1Words) ∧
      (reg.isWritten = false → c' = c)

/-- What operations leave in the registers the block only writes (10_state.md R57, R64; 41_controller.md R146;
44_repeater.md R201, R209): after an enable HDCP_INIT holds both seeds; after a computation that succeeded the words of
all feeds have been pushed, the bit length last; a comparison leaves V′ in HDCP_VPRIME_H0 to H4 and, where it matched, no
pushed words. That session registers and pushed words are kept is the model's choice (logs 11 and 15), and so are free
bytes past the end of a list that is too short (log 13). -/
def Obligations.SpecialRegistersAfterOperations : Prop :=
  ∀ (i : Instr) (s t : State) (r : Result) (es : List Event), s.Inv → s.ready = true → s.undisturbed = true →
    Runs i s t r es →
      (i = .hdcpEnable true → s.hdcpSupported = true →
          t.cipher.initOld = t.ses.seed0 ∧ t.cipher.initNew = t.ses.seed1) ∧
        (i = .computeTransmitterV → r = .bool true →
          t.cipher.sha1In = BitVec.ofNat 32 ((5 * s.args.count.toNat + 10) * 8) ∧
            ∃ ksvs, Supplies s.args.ksvList ksvs (5 * s.args.count.toNat) ∧
              t.cipher.sha1Words = s.cipher.sha1Words ++
                (expectedFeeds s.prm ksvs s.args.count.toNat s.args.topology).map Prod.snd) ∧
        (i = .compareVPrime → t.cipher.vprime = s.args.vPrime ∧ (r = .bool true → t.cipher.sha1Words = []))

end
end

