-- ==== Sys2Proof/Laws/State.lean ====
section
/-! SUPPORT. One lemma per field and update of `State` (each true by `rfl`), so that no later proof unfolds an update. -/

namespace Sys2Proof.Machine

open Sys2Proof

/-! ## `State.log` -/

@[simp] theorem State.log_prm (s : State) (e : Event) : (s.log e).prm = s.prm := rfl
@[simp] theorem State.log_initialised (s : State) (e : Event) : (s.log e).initialised = s.initialised := rfl
@[simp] theorem State.log_busy (s : State) (e : Event) : (s.log e).busy = s.busy := rfl
@[simp] theorem State.log_op (s : State) (e : Event) : (s.log e).op = s.op := rfl
@[simp] theorem State.log_stepPos (s : State) (e : Event) : (s.log e).stepPos = s.stepPos := rfl
@[simp] theorem State.log_ctlState (s : State) (e : Event) : (s.log e).ctlState = s.ctlState := rfl
@[simp] theorem State.log_hdcpSupported (s : State) (e : Event) : (s.log e).hdcpSupported = s.hdcpSupported := rfl
@[simp] theorem State.log_ses (s : State) (e : Event) : (s.log e).ses = s.ses := rfl
@[simp] theorem State.log_ksvbuf (s : State) (e : Event) : (s.log e).ksvbuf = s.ksvbuf := rfl
@[simp] theorem State.log_shabuf (s : State) (e : Event) : (s.log e).shabuf = s.shabuf := rfl
@[simp] theorem State.log_cipher (s : State) (e : Event) : (s.log e).cipher = s.cipher := rfl
@[simp] theorem State.log_port (s : State) (e : Event) : (s.log e).port = s.port := rfl
@[simp] theorem State.log_args (s : State) (e : Event) : (s.log e).args = s.args := rfl
@[simp] theorem State.log_result (s : State) (e : Event) : (s.log e).result = s.result := rfl
@[simp] theorem State.log_refusals (s : State) (e : Event) : (s.log e).refusals = s.refusals := rfl
@[simp] theorem State.log_inbox (s : State) (e : Event) : (s.log e).inbox = s.inbox := rfl
@[simp] theorem State.log_env (s : State) (e : Event) : (s.log e).env = s.env := rfl
@[simp] theorem State.log_draws (s : State) (e : Event) : (s.log e).draws = s.draws := rfl
@[simp] theorem State.log_trace (s : State) (e : Event) : (s.log e).trace = e :: s.trace := rfl

/-! ## `State.refuseBusy` -/

@[simp] theorem State.refuseBusy_prm (s : State) (w : Word) : (s.refuseBusy w).prm = s.prm := rfl
@[simp] theorem State.refuseBusy_initialised (s : State) (w : Word) : (s.refuseBusy w).initialised = s.initialised := rfl
@[simp] theorem State.refuseBusy_busy (s : State) (w : Word) : (s.refuseBusy w).busy = s.busy := rfl
@[simp] theorem State.refuseBusy_op (s : State) (w : Word) : (s.refuseBusy w).op = s.op := rfl
@[simp] theorem State.refuseBusy_stepPos (s : State) (w : Word) : (s.refuseBusy w).stepPos = s.stepPos := rfl
@[simp] theorem State.refuseBusy_ctlState (s : State) (w : Word) : (s.refuseBusy w).ctlState = s.ctlState := rfl
@[simp] theorem State.refuseBusy_hdcpSupported (s : State) (w : Word) : (s.refuseBusy w).hdcpSupported = s.hdcpSupported := rfl
@[simp] theorem State.refuseBusy_ses (s : State) (w : Word) : (s.refuseBusy w).ses = s.ses := rfl
@[simp] theorem State.refuseBusy_ksvbuf (s : State) (w : Word) : (s.refuseBusy w).ksvbuf = s.ksvbuf := rfl
@[simp] theorem State.refuseBusy_shabuf (s : State) (w : Word) : (s.refuseBusy w).shabuf = s.shabuf := rfl
@[simp] theorem State.refuseBusy_cipher (s : State) (w : Word) : (s.refuseBusy w).cipher = s.cipher := rfl
@[simp] theorem State.refuseBusy_port (s : State) (w : Word) : (s.refuseBusy w).port = s.port := rfl
@[simp] theorem State.refuseBusy_args (s : State) (w : Word) : (s.refuseBusy w).args = s.args := rfl
@[simp] theorem State.refuseBusy_result (s : State) (w : Word) : (s.refuseBusy w).result = s.result := rfl
@[simp] theorem State.refuseBusy_refusals (s : State) (w : Word) : (s.refuseBusy w).refusals = (w, .invalidDeviceRequest) :: s.refusals := rfl
@[simp] theorem State.refuseBusy_inbox (s : State) (w : Word) : (s.refuseBusy w).inbox = s.inbox := rfl
@[simp] theorem State.refuseBusy_env (s : State) (w : Word) : (s.refuseBusy w).env = s.env := rfl
@[simp] theorem State.refuseBusy_draws (s : State) (w : Word) : (s.refuseBusy w).draws = s.draws := rfl
@[simp] theorem State.refuseBusy_trace (s : State) (w : Word) : (s.refuseBusy w).trace = s.trace := rfl

/-! ## `State.rejectCommand` -/

@[simp] theorem State.rejectCommand_prm (s : State) : s.rejectCommand.prm = s.prm := rfl
@[simp] theorem State.rejectCommand_initialised (s : State) : s.rejectCommand.initialised = s.initialised := rfl
@[simp] theorem State.rejectCommand_busy (s : State) : s.rejectCommand.busy = s.busy := rfl
@[simp] theorem State.rejectCommand_op (s : State) : s.rejectCommand.op = s.op := rfl
@[simp] theorem State.rejectCommand_stepPos (s : State) : s.rejectCommand.stepPos = s.stepPos := rfl
@[simp] theorem State.rejectCommand_ctlState (s : State) : s.rejectCommand.ctlState = s.ctlState := rfl
@[simp] theorem State.rejectCommand_hdcpSupported (s : State) : s.rejectCommand.hdcpSupported = s.hdcpSupported := rfl
@[simp] theorem State.rejectCommand_ses (s : State) : s.rejectCommand.ses = s.ses := rfl
@[simp] theorem State.rejectCommand_ksvbuf (s : State) : s.rejectCommand.ksvbuf = s.ksvbuf := rfl
@[simp] theorem State.rejectCommand_shabuf (s : State) : s.rejectCommand.shabuf = s.shabuf := rfl
@[simp] theorem State.rejectCommand_cipher (s : State) : s.rejectCommand.cipher = s.cipher := rfl
@[simp] theorem State.rejectCommand_port (s : State) : s.rejectCommand.port = s.port := rfl
@[simp] theorem State.rejectCommand_args (s : State) : s.rejectCommand.args = s.args := rfl
@[simp] theorem State.rejectCommand_result (s : State) : s.rejectCommand.result = some (.status .invalidDeviceRequest) := rfl
@[simp] theorem State.rejectCommand_refusals (s : State) : s.rejectCommand.refusals = s.refusals := rfl
@[simp] theorem State.rejectCommand_inbox (s : State) : s.rejectCommand.inbox = s.inbox := rfl
@[simp] theorem State.rejectCommand_env (s : State) : s.rejectCommand.env = s.env := rfl
@[simp] theorem State.rejectCommand_draws (s : State) : s.rejectCommand.draws = s.draws := rfl
@[simp] theorem State.rejectCommand_trace (s : State) : s.rejectCommand.trace = s.trace := rfl

/-! ## `State.withArgs` -/

@[simp] theorem State.withArgs_prm (s : State) (a : Args) : (s.withArgs a).prm = s.prm := rfl
@[simp] theorem State.withArgs_initialised (s : State) (a : Args) : (s.withArgs a).initialised = s.initialised := rfl
@[simp] theorem State.withArgs_busy (s : State) (a : Args) : (s.withArgs a).busy = s.busy := rfl
@[simp] theorem State.withArgs_op (s : State) (a : Args) : (s.withArgs a).op = s.op := rfl
@[simp] theorem State.withArgs_stepPos (s : State) (a : Args) : (s.withArgs a).stepPos = s.stepPos := rfl
@[simp] theorem State.withArgs_ctlState (s : State) (a : Args) : (s.withArgs a).ctlState = s.ctlState := rfl
@[simp] theorem State.withArgs_hdcpSupported (s : State) (a : Args) : (s.withArgs a).hdcpSupported = s.hdcpSupported := rfl
@[simp] theorem State.withArgs_ses (s : State) (a : Args) : (s.withArgs a).ses = s.ses := rfl
@[simp] theorem State.withArgs_ksvbuf (s : State) (a : Args) : (s.withArgs a).ksvbuf = s.ksvbuf := rfl
@[simp] theorem State.withArgs_shabuf (s : State) (a : Args) : (s.withArgs a).shabuf = s.shabuf := rfl
@[simp] theorem State.withArgs_cipher (s : State) (a : Args) : (s.withArgs a).cipher = s.cipher := rfl
@[simp] theorem State.withArgs_port (s : State) (a : Args) : (s.withArgs a).port = s.port := rfl
@[simp] theorem State.withArgs_args (s : State) (a : Args) : (s.withArgs a).args = a := rfl
@[simp] theorem State.withArgs_result (s : State) (a : Args) : (s.withArgs a).result = s.result := rfl
@[simp] theorem State.withArgs_refusals (s : State) (a : Args) : (s.withArgs a).refusals = s.refusals := rfl
@[simp] theorem State.withArgs_inbox (s : State) (a : Args) : (s.withArgs a).inbox = s.inbox := rfl
@[simp] theorem State.withArgs_env (s : State) (a : Args) : (s.withArgs a).env = s.env := rfl
@[simp] theorem State.withArgs_draws (s : State) (a : Args) : (s.withArgs a).draws = s.draws := rfl
@[simp] theorem State.withArgs_trace (s : State) (a : Args) : (s.withArgs a).trace = s.trace := rfl

/-! ## `State.start` -/

@[simp] theorem State.start_prm (s : State) (i : Instr) : (s.start i).prm = s.prm := rfl
@[simp] theorem State.start_initialised (s : State) (i : Instr) : (s.start i).initialised = s.initialised := rfl
@[simp] theorem State.start_busy (s : State) (i : Instr) : (s.start i).busy = true := rfl
@[simp] theorem State.start_op (s : State) (i : Instr) : (s.start i).op = some i := rfl
@[simp] theorem State.start_stepPos (s : State) (i : Instr) : (s.start i).stepPos = 0 := rfl
@[simp] theorem State.start_ctlState (s : State) (i : Instr) : (s.start i).ctlState = s.ctlState := rfl
@[simp] theorem State.start_hdcpSupported (s : State) (i : Instr) : (s.start i).hdcpSupported = s.hdcpSupported := rfl
@[simp] theorem State.start_ses (s : State) (i : Instr) : (s.start i).ses = s.ses := rfl
@[simp] theorem State.start_ksvbuf (s : State) (i : Instr) : (s.start i).ksvbuf = s.ksvbuf := rfl
@[simp] theorem State.start_shabuf (s : State) (i : Instr) : (s.start i).shabuf = s.shabuf := rfl
@[simp] theorem State.start_cipher (s : State) (i : Instr) : (s.start i).cipher = s.cipher := rfl
@[simp] theorem State.start_port (s : State) (i : Instr) : (s.start i).port = s.port := rfl
@[simp] theorem State.start_args (s : State) (i : Instr) : (s.start i).args = s.args := rfl
@[simp] theorem State.start_result (s : State) (i : Instr) : (s.start i).result = s.result := rfl
@[simp] theorem State.start_refusals (s : State) (i : Instr) : (s.start i).refusals = s.refusals := rfl
@[simp] theorem State.start_inbox (s : State) (i : Instr) : (s.start i).inbox = s.inbox := rfl
@[simp] theorem State.start_env (s : State) (i : Instr) : (s.start i).env = s.env := rfl
@[simp] theorem State.start_draws (s : State) (i : Instr) : (s.start i).draws = s.draws + 1 := rfl
@[simp] theorem State.start_trace (s : State) (i : Instr) : (s.start i).trace = s.trace := rfl

/-! ## `State.initialise` -/

@[simp] theorem State.initialise_prm (s : State) (b : Bool) : (s.initialise b).prm = s.prm := rfl
@[simp] theorem State.initialise_initialised (s : State) (b : Bool) : (s.initialise b).initialised = true := rfl
@[simp] theorem State.initialise_busy (s : State) (b : Bool) : (s.initialise b).busy = false := rfl
@[simp] theorem State.initialise_op (s : State) (b : Bool) : (s.initialise b).op = none := rfl
@[simp] theorem State.initialise_stepPos (s : State) (b : Bool) : (s.initialise b).stepPos = 0 := rfl
@[simp] theorem State.initialise_ctlState (s : State) (b : Bool) : (s.initialise b).ctlState = .off := rfl
@[simp] theorem State.initialise_hdcpSupported (s : State) (b : Bool) : (s.initialise b).hdcpSupported = b := rfl
@[simp] theorem State.initialise_ses (s : State) (b : Bool) : (s.initialise b).ses = .zero := rfl
@[simp] theorem State.initialise_ksvbuf (s : State) (b : Bool) : (s.initialise b).ksvbuf = [] := rfl
@[simp] theorem State.initialise_shabuf (s : State) (b : Bool) : (s.initialise b).shabuf = [] := rfl
@[simp] theorem State.initialise_cipher (s : State) (b : Bool) : (s.initialise b).cipher = s.cipher := rfl
@[simp] theorem State.initialise_port (s : State) (b : Bool) : (s.initialise b).port = s.port := rfl
@[simp] theorem State.initialise_args (s : State) (b : Bool) : (s.initialise b).args = s.args := rfl
@[simp] theorem State.initialise_result (s : State) (b : Bool) : (s.initialise b).result = none := rfl
@[simp] theorem State.initialise_refusals (s : State) (b : Bool) : (s.initialise b).refusals = s.refusals := rfl
@[simp] theorem State.initialise_inbox (s : State) (b : Bool) : (s.initialise b).inbox = s.inbox := rfl
@[simp] theorem State.initialise_env (s : State) (b : Bool) : (s.initialise b).env = s.env := rfl
@[simp] theorem State.initialise_draws (s : State) (b : Bool) : (s.initialise b).draws = s.draws := rfl
@[simp] theorem State.initialise_trace (s : State) (b : Bool) : (s.initialise b).trace = s.trace := rfl

/-! ## `State.visible` -/

@[simp] theorem State.visible_prm (s : State) : s.visible.prm = s.prm := rfl
@[simp] theorem State.visible_ctlState (s : State) : s.visible.ctlState = s.ctlState := rfl
@[simp] theorem State.visible_hdcpSupported (s : State) : s.visible.hdcpSupported = s.hdcpSupported := rfl
@[simp] theorem State.visible_ses (s : State) : s.visible.ses = s.ses := rfl
@[simp] theorem State.visible_ksvbuf (s : State) : s.visible.ksvbuf = s.ksvbuf := rfl
@[simp] theorem State.visible_shabuf (s : State) : s.visible.shabuf = s.shabuf := rfl
@[simp] theorem State.visible_cipher (s : State) : s.visible.cipher = s.cipher := rfl
@[simp] theorem State.visible_port (s : State) : s.visible.port = s.port := rfl
@[simp] theorem State.visible_args (s : State) : s.visible.args = s.args := rfl
@[simp] theorem State.visible_inbox (s : State) : s.visible.inbox = s.inbox := rfl
@[simp] theorem State.log_visible (s : State) (e : Event) : (s.log e).visible = s.visible := rfl
@[simp] theorem State.refuseBusy_visible (s : State) (w : Word) : (s.refuseBusy w).visible = s.visible := rfl
@[simp] theorem State.rejectCommand_visible (s : State) : s.rejectCommand.visible = s.visible := rfl
@[simp] theorem State.start_visible (s : State) (i : Instr) : (s.start i).visible = s.visible := rfl

/-! ## The effects of accesses -/

@[simp] theorem State.drawCipher_visible (s : State) : s.drawCipher.2.visible = s.visible := by
  unfold State.drawCipher; split <;> rfl
@[simp] theorem State.drawPort_visible (s : State) : s.drawPort.2.visible = s.visible := by
  unfold State.drawPort; split <;> rfl
@[simp] theorem State.drawRandom_visible (s : State) : s.drawRandom.2.visible = s.visible := by
  unfold State.drawRandom; split <;> rfl
@[simp] theorem State.drawSerial_visible (s : State) : s.drawSerial.2.visible = s.visible := by
  unfold State.drawSerial; split <;> rfl
@[simp] theorem State.drawCipher_trace (s : State) : s.drawCipher.2.trace = s.trace := by
  unfold State.drawCipher; split <;> rfl
@[simp] theorem State.drawPort_trace (s : State) : s.drawPort.2.trace = s.trace := by
  unfold State.drawPort; split <;> rfl
@[simp] theorem State.drawRandom_trace (s : State) : s.drawRandom.2.trace = s.trace := by
  unfold State.drawRandom; split <;> rfl
@[simp] theorem State.drawSerial_trace (s : State) : s.drawSerial.2.trace = s.trace := by
  unfold State.drawSerial; split <;> rfl
@[simp] theorem State.drawCipher_arrivals (s : State) : s.drawCipher.2.env.arrivals = s.env.arrivals := by
  unfold State.drawCipher; split <;> rfl
@[simp] theorem State.drawPort_arrivals (s : State) : s.drawPort.2.env.arrivals = s.env.arrivals := by
  unfold State.drawPort; split <;> rfl
@[simp] theorem State.drawRandom_arrivals (s : State) : s.drawRandom.2.env.arrivals = s.env.arrivals := by
  unfold State.drawRandom; split <;> rfl
@[simp] theorem State.drawSerial_arrivals (s : State) : s.drawSerial.2.env.arrivals = s.env.arrivals := by
  unfold State.drawSerial; split <;> rfl

end Sys2Proof.Machine
end

