-- ==== Sys2Proof/Laws/Bits.lean ====
section
/-! SUPPORT. Bit fields (20_memory.md R78), byte orders (R74 to R76) and local buffers (R72): what they read back, what
they leave alone, and the canonical form. -/

namespace Sys2Proof.Machine

open Sys2Proof

/-! ## Fields -/

theorem ones_bit (n i : Nat) (hn : n ≤ 32) : (ones n).getLsbD i = decide (i < n) := by
  unfold ones
  rw [BitVec.getLsbD_ofNat, Nat.testBit_two_pow_sub_one]
  by_cases h : i < n
  · simp [h, Nat.lt_of_lt_of_le h hn]
  · simp [h]

theorem getField_bit (f : Field) (hf : f.fits 32 = true) (w : Word) (i : Nat) :
    (getField f w).getLsbD i = (decide (i < f.width) && w.getLsbD (f.lo + i)) := by
  simp only [Field.fits, Bool.and_eq_true, decide_eq_true_eq] at hf
  unfold getField
  rw [BitVec.getLsbD_and, BitVec.getLsbD_ushiftRight, ones_bit _ _ (by omega), Bool.and_comm]

/-- A bit of a word after a field is replaced: inside the field it is the value's, outside it is as it was. -/
theorem setField_bit (f : Field) (hf : f.fits 32 = true) (w v : Word) (i : Nat) (hi : i < 32) :
    (setField f w v).getLsbD i =
      if f.lo ≤ i ∧ i < f.lo + f.width then v.getLsbD (i - f.lo) else w.getLsbD i := by
  simp only [Field.fits, Bool.and_eq_true, decide_eq_true_eq] at hf
  unfold setField
  simp only [BitVec.getLsbD_or, BitVec.getLsbD_and, BitVec.getLsbD_not, BitVec.getLsbD_shiftLeft,
    ones_bit _ _ (show f.width ≤ 32 by omega), hi, decide_true, Bool.true_and]
  by_cases h1 : i < f.lo
  · rw [if_neg (by omega)]; simp [h1]
  · by_cases h2 : i < f.lo + f.width
    · rw [if_pos (by omega)]
      simp [h1, show i - f.lo < f.width by omega]
    · rw [if_neg (by omega)]
      simp [h1, show ¬ i - f.lo < f.width by omega]

/-- Reading back a field just replaced gives the value's low bits. -/
theorem getField_setField (f : Field) (hf : f.fits 32 = true) (w v : Word) :
    getField f (setField f w v) = v &&& ones f.width := by
  have hb := hf
  simp only [Field.fits, Bool.and_eq_true, decide_eq_true_eq] at hb
  apply BitVec.eq_of_getLsbD_eq
  intro i hi
  rw [getField_bit f hf, BitVec.getLsbD_and, ones_bit _ _ (by omega)]
  by_cases h : i < f.width
  · rw [setField_bit f hf _ _ _ (by omega), if_pos (by omega)]
    simp [h]
  · simp [h]

/-- Replacing one field leaves a field apart from it as it was. -/
theorem getField_setField_apart (f g : Field) (hf : f.fits 32 = true) (hg : g.fits 32 = true)
    (h : f.apart g = true) (w v : Word) : getField g (setField f w v) = getField g w := by
  have hb := hg
  simp only [Field.fits, Field.apart, Bool.and_eq_true, Bool.or_eq_true, decide_eq_true_eq] at hb h
  apply BitVec.eq_of_getLsbD_eq
  intro i hi
  rw [getField_bit g hg, getField_bit g hg]
  by_cases hw : i < g.width
  · rw [setField_bit f hf _ _ _ (by omega), if_neg (by omega)]
  · simp [hw]

/-- A value that fits a field is its own low bits. -/
theorem ofNat_and_ones (m n : Nat) (hn : n ≤ 32) (hm : m < 2 ^ n) :
    BitVec.ofNat 32 m &&& ones n = BitVec.ofNat 32 m := by
  apply BitVec.eq_of_getLsbD_eq
  intro i hi
  rw [BitVec.getLsbD_and, ones_bit _ _ hn, BitVec.getLsbD_ofNat]
  by_cases h : i < n
  · simp [h]
  · have : m.testBit i = false :=
      Nat.testBit_lt_two_pow (Nat.lt_of_lt_of_le hm (Nat.pow_le_pow_right (by omega) (by omega)))
    simp [h, this]

/-! ## Byte sequences -/

@[simp] theorem leBytes_length (n v : Nat) : (leBytes n v).length = n := by
  induction n generalizing v with
  | zero => rfl
  | succ n ih => simp [leBytes, ih]

@[simp] theorem be64Bytes_length (v : Nat) : (be64Bytes v).length = 8 := by simp [be64Bytes]

@[simp] theorem callerBytes_length (d : Nat) (bs : List Byte) (n : Nat) : (callerBytes d bs n).length = n := by
  simp [callerBytes]

@[simp] theorem sizedAnswer_length (d n : Nat) (bs : List Byte) : (sizedAnswer d n bs).length = n := by
  simp [sizedAnswer]

/-- A caller's sequence that is long enough is read as it stands. -/
theorem callerBytes_eq_take (d : Nat) (bs : List Byte) (n : Nat) (h : n ≤ bs.length) :
    callerBytes d bs n = bs.take n := by
  apply List.ext_getElem
  · simp [h]
  · intro i h1 h2
    have hi : i < bs.length := by simp at h1; omega
    simp [callerBytes, hi]

/-- A scripted answer of the right size is delivered as it stands. -/
theorem sizedAnswer_eq_self (d : Nat) (bs : List Byte) : sizedAnswer d bs.length bs = bs := by
  apply List.ext_getElem
  · simp
  · intro i h1 h2
    simp [sizedAnswer, h2]

/-! ## Local buffers -/

/-- Five bytes are the bytes of the vector they make (30_encoding.md R111). -/
theorem Ksv.bytes_ofBytes (bs : List Byte) (h : bs.length = 5) : (Ksv.ofBytes bs).bytes = bs := by
  match bs, h with
  | [_, _, _, _, _], _ => rfl

theorem leWord_four (b0 b1 b2 b3 : Byte) : leWord [b0, b1, b2, b3] = b3 ++ b2 ++ b1 ++ b0 := by
  apply BitVec.eq_of_toNat_eq
  have := b0.isLt; have := b1.isLt; have := b2.isLt; have := b3.isLt
  simp only [leWord, leNat, BitVec.toNat_ofNat, BitVec.toNat_append]
  rw [← Nat.shiftLeft_add_eq_or_of_lt b2.isLt, ← Nat.shiftLeft_add_eq_or_of_lt b1.isLt,
    ← Nat.shiftLeft_add_eq_or_of_lt b0.isLt]
  simp only [Nat.shiftLeft_eq]
  omega

theorem le16_two (b0 b1 : Byte) : le16 [b0, b1] = b1 ++ b0 := by
  apply BitVec.eq_of_toNat_eq
  have := b0.isLt; have := b1.isLt
  simp only [le16, leNat, BitVec.toNat_ofNat, BitVec.toNat_append]
  rw [← Nat.shiftLeft_add_eq_or_of_lt b0.isLt]
  simp only [Nat.shiftLeft_eq]
  omega

@[simp] theorem Memory.readBytes_length (m : Memory) (a n : Nat) : (m.readBytes a n).length = n := by
  simp [Memory.readBytes]

/-- A higher lower bound is also a lower bound. -/
theorem Memory.wfFrom_mono {lo lo' : Nat} (h : lo' ≤ lo) {m : Memory} (hm : m.wfFrom lo = true) :
    m.wfFrom lo' = true := by
  cases m with
  | nil => rfl
  | cons c m =>
    obtain ⟨x, b⟩ := c
    simp only [Memory.wfFrom, Bool.and_eq_true, decide_eq_true_eq] at hm ⊢
    exact ⟨⟨by omega, hm.1.2⟩, hm.2⟩

/-- Below the lowest listed address every byte is blank. -/
theorem Memory.read_below {lo a : Nat} (ha : a < lo) {m : Memory} (hm : m.wfFrom lo = true) :
    m.read a = blankByte := by
  induction m generalizing lo with
  | nil => rfl
  | cons c m ih =>
    obtain ⟨x, b⟩ := c
    simp only [Memory.wfFrom, Bool.and_eq_true, decide_eq_true_eq] at hm
    have : a ≠ x := by omega
    simp only [Memory.read, this, if_false]
    exact ih (by omega) hm.2

/-- A write keeps the canonical form. -/
theorem Memory.write_wfFrom {lo a : Nat} (ha : lo ≤ a) (b : Byte) {m : Memory} (hm : m.wfFrom lo = true) :
    (m.write a b).wfFrom lo = true := by
  induction m generalizing lo with
  | nil =>
    unfold Memory.write
    split <;> simp_all [Memory.wfFrom]
  | cons c m ih =>
    obtain ⟨x, d⟩ := c
    have h0 := hm
    simp only [Memory.wfFrom, Bool.and_eq_true, decide_eq_true_eq] at hm
    unfold Memory.write
    split
    · split
      · exact h0
      · next h1 h2 =>
        simp only [Memory.wfFrom, Bool.and_eq_true, decide_eq_true_eq]
        exact ⟨⟨ha, h2⟩, ⟨by omega, hm.1.2⟩, hm.2⟩
    · split
      · split
        · exact Memory.wfFrom_mono (by omega) hm.2
        · next h1 h2 h3 =>
          subst h2
          simp only [Memory.wfFrom, Bool.and_eq_true, decide_eq_true_eq]
          exact ⟨⟨ha, h3⟩, hm.2⟩
      · simp only [Memory.wfFrom, Bool.and_eq_true, decide_eq_true_eq]
        exact ⟨hm.1, ih (by omega) hm.2⟩

/-- A write keeps the canonical form (20_memory.md R72, log 12). -/
theorem Memory.write_wf (a : Nat) (b : Byte) {m : Memory} (hm : m.wf = true) : (m.write a b).wf = true :=
  Memory.write_wfFrom (Nat.zero_le a) b hm

/-- A read after a write: the written byte at its place, every other byte as it was. -/
theorem Memory.read_write_from {lo : Nat} (a a' : Nat) (b : Byte) {m : Memory} (hm : m.wfFrom lo = true) :
    (m.write a b).read a' = if a' = a then b else m.read a' := by
  induction m generalizing lo with
  | nil =>
    unfold Memory.write
    split <;> simp_all [Memory.read]
  | cons c m ih =>
    obtain ⟨x, d⟩ := c
    have h0 := hm
    simp only [Memory.wfFrom, Bool.and_eq_true, decide_eq_true_eq] at hm
    unfold Memory.write
    split
    · next hax =>
      split
      · next hb =>
        subst hb
        by_cases h : a' = a
        · subst h
          rw [if_pos rfl, Memory.read, if_neg (by omega)]
          exact Memory.read_below (by omega) hm.2
        · rw [if_neg h]
      · by_cases h : a' = a
        · simp [Memory.read, h]
        · simp [Memory.read, h]
    · split
      · next h1 h2 =>
        subst h2
        split
        · next hb =>
          subst hb
          by_cases h : a' = a
          · subst h
            rw [if_pos rfl]
            exact Memory.read_below (by omega) hm.2
          · simp [Memory.read, h]
        · by_cases h : a' = a <;> simp [Memory.read, h]
      · next h1 h2 =>
        have := ih hm.2
        by_cases hx : a' = x
        · subst hx
          have : a' ≠ a := fun h => h2 h.symm
          simp [Memory.read, this]
        · simp [Memory.read, hx, this]

/-- A read after a write (20_memory.md R72). -/
theorem Memory.read_write (a a' : Nat) (b : Byte) {m : Memory} (hm : m.wf = true) :
    (m.write a b).read a' = if a' = a then b else m.read a' :=
  Memory.read_write_from a a' b hm

/-- Writing a run of bytes keeps the canonical form. -/
theorem Memory.writeBytes_wf (a : Nat) (bs : List Byte) {m : Memory} (hm : m.wf = true) :
    (m.writeBytes a bs).wf = true := by
  induction bs generalizing a m with
  | nil => exact hm
  | cons b bs ih => exact ih (a + 1) (Memory.write_wf a b hm)

/-- A read after writing a run of bytes: the run's byte inside it, the old byte outside (20_memory.md R72). -/
theorem Memory.read_writeBytes (a a' : Nat) (bs : List Byte) {m : Memory} (hm : m.wf = true) :
    (m.writeBytes a bs).read a' =
      if a ≤ a' ∧ a' < a + bs.length then bs.getD (a' - a) 0 else m.read a' := by
  induction bs generalizing a m with
  | nil =>
    rw [if_neg (by simp)]
    rfl
  | cons b bs ih =>
    rw [Memory.writeBytes, ih (a + 1) (Memory.write_wf a b hm), Memory.read_write a a' b hm]
    simp only [List.length_cons]
    by_cases h : a' = a
    · subst h
      rw [if_neg (by omega), if_pos rfl, if_pos (by omega)]
      simp
    · by_cases h2 : a + 1 ≤ a' ∧ a' < a + 1 + bs.length
      · rw [if_pos h2, if_pos (by omega)]
        obtain ⟨k, rfl⟩ : ∃ k, a' = a + 1 + k := ⟨a' - (a + 1), by omega⟩
        rw [show a + 1 + k - (a + 1) = k by omega, show a + 1 + k - a = k + 1 by omega]
        simp
      · rw [if_neg h2, if_neg h, if_neg (by omega)]

/-- A write inside the bounds keeps a buffer inside its bounds. -/
theorem Memory.write_within {size a : Nat} (ha : a < size) (b : Byte) {m : Memory}
    (hm : m.within size = true) : (m.write a b).within size = true := by
  unfold Memory.within at *
  induction m with
  | nil =>
    unfold Memory.write
    split <;> simp [ha]
  | cons c m ih =>
    obtain ⟨x, d⟩ := c
    simp only [List.all_cons, Bool.and_eq_true, decide_eq_true_eq] at hm
    have := ih hm.2
    unfold Memory.write
    split
    · split <;> simp [ha, hm.1, hm.2]
    · split
      · split <;> simp [ha, hm.2]
      · simp [hm.1, this]

/-- Writing a run of bytes inside the bounds keeps a buffer inside its bounds. -/
theorem Memory.writeBytes_within {size : Nat} (a : Nat) (bs : List Byte) (h : a + bs.length ≤ size) {m : Memory}
    (hm : m.within size = true) : (m.writeBytes a bs).within size = true := by
  induction bs generalizing a m with
  | nil => exact hm
  | cons b bs ih =>
    simp only [List.length_cons] at h
    exact ih (a + 1) (by omega) (Memory.write_within (by omega) b hm)

end Sys2Proof.Machine
end

