-- ==== Sys2Proof/Laws/Ops.lean ====
section
/-! SUPPORT. One law for each shared operation of Machine/Ops.lean: what it can do, said once, for runs that no reset
disturbs (`Gives`), with the rules that compose them. -/

namespace Sys2Proof.Machine

open Sys2Proof

variable {α β : Type}

/-! ## Sequencing -/

theorem bind_ok {x : Op α} {s t : State} {a : α} (h : x s = .ok a t) (f : α → Op β) : (x >>= f) s = f a t := by
  simp only [bind, EStateM.bind, h]

theorem bind_error {x : Op α} {s t : State} {e : Abandoned} (h : x s = .error e t) (f : α → Op β) :
    (x >>= f) s = .error e t := by
  simp only [bind, EStateM.bind, h]

/-! ## Host inputs that land -/

/-- A state after host inputs without a reset have landed. -/
def State.landed : List HostInput → State → State
  | [], s => s
  | .command w _ :: rest, s => State.landed rest (s.refuseBusy w)
  | .powerLoss :: rest, s => State.landed rest s
  | .initialise _ :: rest, s => State.landed rest s

theorem land_noReset (l : List HostInput) (h : l.all HostInput.isNoReset = true) (s : State) :
    land l s = .ok () (s.landed l) := by
  induction l generalizing s with
  | nil => rfl
  | cons a l ih =>
    simp only [List.all_cons, Bool.and_eq_true] at h
    cases a with
    | command w a => exact ih h.2 _
    | initialise b => simp [HostInput.isNoReset] at h
    | powerLoss => exact ih h.2 _

/-- What the landing of inputs leaves: everything but `refusals`. -/
theorem State.landed_eq (l : List HostInput) (s : State) : s.landed l = { s with refusals := (s.landed l).refusals } := by
  induction l generalizing s with
  | nil => rfl
  | cons a l ih =>
    cases a with
    | command w a => exact ih _
    | initialise b => exact ih _
    | powerLoss => exact ih _

/-- The state after a moment of an undisturbed run. -/
def State.met (s : State) : State :=
  { s with env := { s.env with arrivals := s.env.arrivals.tail } }.landed (s.env.arrivals.headD [])

/-- What a moment leaves: everything but the refusals and the inputs still to arrive. -/
theorem State.met_eq (s : State) :
    s.met = { s with env := { s.env with arrivals := s.env.arrivals.tail }, refusals := s.met.refusals } := by
  unfold State.met
  rw [State.landed_eq]

@[simp] theorem State.met_visible (s : State) : s.met.visible = s.visible := by rw [State.met_eq]; rfl
@[simp] theorem State.met_trace (s : State) : s.met.trace = s.trace := by rw [State.met_eq]

theorem moment_undisturbed {s : State} (h : s.undisturbed = true) : moment s = .ok () s.met := by
  refine land_noReset (s.env.arrivals.headD []) ?_ _
  unfold State.undisturbed at h
  cases hl : s.env.arrivals with
  | nil => rfl
  | cons a l => rw [hl, List.all_cons, Bool.and_eq_true] at h; exact h.1

/-- The state in which an access of an undisturbed run takes effect. -/
def State.tick (s : State) : State := { s with stepPos := s.stepPos + 1 }.met

/-- What comes before an access leaves: everything but the position, the refusals and the inputs still to arrive. -/
theorem State.tick_eq (s : State) :
    s.tick = { s with
      stepPos := s.stepPos + 1
      env := { s.env with arrivals := s.env.arrivals.tail }
      refusals := s.tick.refusals } := by
  unfold State.tick
  rw [State.met_eq]

@[simp] theorem State.tick_visible (s : State) : s.tick.visible = s.visible := by rw [State.tick_eq]; rfl
@[simp] theorem State.tick_prm (s : State) : s.tick.prm = s.prm := by rw [State.tick_eq]
@[simp] theorem State.tick_cipher (s : State) : s.tick.cipher = s.cipher := by rw [State.tick_eq]
@[simp] theorem State.tick_port (s : State) : s.tick.port = s.port := by rw [State.tick_eq]
@[simp] theorem State.tick_trace (s : State) : s.tick.trace = s.trace := by rw [State.tick_eq]
@[simp] theorem State.tick_draws (s : State) : s.tick.draws = s.draws := by rw [State.tick_eq]
@[simp] theorem State.tick_env (s : State) : s.tick.env = { s.env with arrivals := s.env.arrivals.tail } := by
  rw [State.tick_eq]

theorem State.tick_undisturbed {s : State} (h : s.undisturbed = true) : s.tick.undisturbed = true := by
  unfold State.undisturbed at *
  rw [State.tick_env]
  simp only [List.all_eq_true] at *
  exact fun l hl => h l (List.mem_of_mem_tail hl)

theorem access_undisturbed {s : State} (h : s.undisturbed = true) : access s = .ok () s.tick :=
  moment_undisturbed (s := { s with stepPos := s.stepPos + 1 }) h

/-- One access of an undisturbed run: its effect, at its moment. -/
theorem perform_undisturbed {s : State} (h : s.undisturbed = true) (f : State → α × State) :
    perform f s = .ok (f s.tick).1 (f s.tick).2 := by
  exact bind_ok (access_undisturbed h) _

/-! ## Undisturbed runs -/

/-- The registers an operation writes through no access. -/
structure Regs where
  ctlState : CtlState
  ses : Session
  ksvbuf : Memory
  shabuf : Memory
  args : Args

/-- The registers of a state. -/
def State.regs (s : State) : Regs := ⟨s.ctlState, s.ses, s.ksvbuf, s.shabuf, s.args⟩

@[simp] theorem State.regs_ctlState (s : State) : s.regs.ctlState = s.ctlState := rfl
@[simp] theorem State.regs_ses (s : State) : s.regs.ses = s.ses := rfl
@[simp] theorem State.regs_ksvbuf (s : State) : s.regs.ksvbuf = s.ksvbuf := rfl
@[simp] theorem State.regs_shabuf (s : State) : s.regs.shabuf = s.shabuf := rfl
@[simp] theorem State.regs_args (s : State) : s.regs.args = s.args := rfl

/-- The visible part with these registers. -/
def Visible.withRegs (v : Visible) (r : Regs) : Visible :=
  { v with ctlState := r.ctlState, ses := r.ses, ksvbuf := r.ksvbuf, shabuf := r.shabuf, args := r.args }

/-- From `s`, with no reset on its way, `x` ends normally in a state `t`: it answers `a` and makes the accesses `es`;
the collaborators hold what the writes among `es` say; the answers in `es` are those of the environment; and
`Q a es t` holds. -/
def Gives (x : Op α) (s : State) (Q : α → List Event → State → Prop) : Prop :=
  ∃ a es t, x s = .ok a t ∧ t.trace = es.reverse ++ s.trace ∧ t.undisturbed = true ∧
    t.visible = (s.visible.replay es).withRegs t.regs ∧
    (Answered s.prm (s.cipher, s.port) s.scripts es ∧ t.scripts = es.foldl Env.taken s.scripts) ∧ Q a es t

theorem Answered.append {p : Params} {c : Cipher × Word} {env : Env} {es es' : List Event}
    (h : Answered p c env es) (h' : Answered p (es.foldl (Event.applyTo p) c) (es.foldl Env.taken env) es') :
    Answered p c env (es ++ es') := by
  induction es generalizing c env with
  | nil => exact h'
  | cons e es ih => exact ⟨h.1, ih h.2 h'⟩

@[simp] theorem Visible.replay_nil (v : Visible) : v.replay [] = v := rfl

theorem Visible.replay_append (es es' : List Event) (v : Visible) :
    v.replay (es ++ es') = (v.replay es).replay es' := by
  simp [Visible.replay, List.foldl_append]

@[simp] theorem Visible.replay_withRegs (es : List Event) (v : Visible) (r : Regs) :
    (v.withRegs r).replay es = (v.replay es).withRegs r := rfl

@[simp] theorem Visible.withRegs_withRegs (v : Visible) (r r' : Regs) :
    (v.withRegs r).withRegs r' = v.withRegs r' := rfl

@[simp] theorem State.visible_withRegs (s : State) : s.visible.withRegs s.regs = s.visible := rfl

theorem Gives.mono {x : Op α} {s : State} {Q R : α → List Event → State → Prop} (h : Gives x s Q)
    (hQ : ∀ a es t, t.undisturbed = true → Q a es t → R a es t) : Gives x s R := by
  obtain ⟨a, es, t, h1, h2, h3, h4, hA, h5⟩ := h
  exact ⟨a, es, t, h1, h2, h3, h4, hA, hQ a es t h3 h5⟩

theorem gives_pure {s : State} (hs : s.undisturbed = true) (a : α) {Q : α → List Event → State → Prop}
    (h : Q a [] s) : Gives (pure a) s Q :=
  ⟨a, [], s, rfl, rfl, hs, rfl, ⟨trivial, rfl⟩, h⟩

theorem gives_get {s : State} (hs : s.undisturbed = true) {Q : State → List Event → State → Prop}
    (h : Q s [] s) : Gives get s Q :=
  ⟨s, [], s, rfl, rfl, hs, rfl, ⟨trivial, rfl⟩, h⟩

/-- Two pieces of a micro-program in sequence. -/
theorem Gives.bind {x : Op α} {f : α → Op β} {s : State} {Q : α → List Event → State → Prop}
    {R : β → List Event → State → Prop} (h : Gives x s Q)
    (hf : ∀ a es t, t.undisturbed = true → t.prm = s.prm → t.hdcpSupported = s.hdcpSupported → Q a es t →
      Gives (f a) t fun b es' u => R b (es ++ es') u) :
    Gives (x >>= f) s R := by
  obtain ⟨a, es, t, h1, h2, h3, h4, ⟨hA, hS⟩, h5⟩ := h
  have hp : t.prm = s.prm := congrArg Visible.prm h4
  have hc : t.hdcpSupported = s.hdcpSupported := congrArg Visible.hdcpSupported h4
  have hcp : (t.cipher, t.port) = es.foldl (Event.applyTo s.prm) (s.cipher, s.port) :=
    congrArg (fun v : Visible => (v.cipher, v.port)) h4
  obtain ⟨b, es', u, g1, g2, g3, g4, ⟨gA, gS⟩, g5⟩ := hf a es t h3 hp hc h5
  rw [hp, hcp, hS] at gA
  refine ⟨b, es ++ es', u, ?_, ?_, g3, ?_, ⟨hA.append gA, by rw [gS, hS, List.foldl_append]⟩, g5⟩
  · rw [bind_ok h1, g1]
  · rw [g2, h2, List.reverse_append, List.append_assoc]
  · rw [g4, h4, Visible.replay_withRegs, Visible.withRegs_withRegs, Visible.replay_append]

/-- A piece that reads the state first. -/
theorem Gives.get_bind {f : State → Op β} {s : State} {R : β → List Event → State → Prop} (h : Gives (f s) s R) :
    Gives (get >>= f) s R := h

/-- A piece that only writes registers. -/
theorem gives_modify {s : State} (hs : s.undisturbed = true) (f : State → State)
    (hf : f s = { s with
      ctlState := (f s).ctlState
      ses := (f s).ses
      ksvbuf := (f s).ksvbuf
      shabuf := (f s).shabuf
      args := (f s).args }) :
    Gives (modify f) s fun _ es t => es = [] ∧ t = f s :=
  ⟨(), [], f s, rfl, by rw [hf]; rfl, by rw [hf]; exact hs, by rw [hf]; rfl, ⟨trivial, by rw [hf]; rfl⟩, rfl, rfl⟩

/-! ## Accesses of undisturbed runs -/

@[simp] theorem Visible.replay_cons (e : Event) (es : List Event) (v : Visible) :
    v.replay (e :: es) = (v.replay [e]).replay es := rfl

/-- An access whose effect is one event and the draw of an answer. -/
theorem perform_gives {s : State} (hs : s.undisturbed = true) (f : State → α × State) (e : α → Event)
    (ht : (f s.tick).2.trace = e (f s.tick).1 :: s.tick.trace)
    (ha : (f s.tick).2.env.arrivals = s.tick.env.arrivals)
    (hv : (f s.tick).2.visible = s.tick.visible.replay [e (f s.tick).1])
    (hw : (e (f s.tick).1).answeredBy s.prm s.cipher s.scripts)
    (hsc : (f s.tick).2.scripts = s.scripts.taken (e (f s.tick).1)) :
    Gives (perform f) s fun a es t =>
      es = [e a] ∧ t.regs = s.regs ∧ a = (f s.tick).1 ∧ t = (f s.tick).2 := by
  have hu := State.tick_undisturbed hs
  rw [State.tick_visible] at hv
  have hr : (f s.tick).2.regs = s.regs := by
    have h : (f s.tick).2.regs = ⟨(f s.tick).2.visible.ctlState, (f s.tick).2.visible.ses,
      (f s.tick).2.visible.ksvbuf, (f s.tick).2.visible.shabuf, (f s.tick).2.visible.args⟩ := rfl
    rw [h, hv]; rfl
  refine ⟨_, [e (f s.tick).1], _, perform_undisturbed hs f, ?_, ?_, ?_, ⟨⟨hw, trivial⟩, hsc⟩, rfl, hr, rfl, rfl⟩
  · rw [ht, State.tick_trace]; rfl
  · unfold State.undisturbed at *; rw [ha]; exact hu
  · rw [hv, hr]; rfl

theorem State.tick_drawCipher (s : State) : s.tick.drawCipher.1 = s.drawCipher.1 := by
  rw [State.tick_eq]; unfold State.drawCipher; cases s.env.cipher <;> rfl

theorem State.drawCipher_head (s : State) (x : Word) (h : s.scripts.cipher.head? = some x) : s.drawCipher.1 = x := by
  unfold State.scripts at h; unfold State.drawCipher
  cases hl : s.env.cipher with
  | nil => simp [hl] at h
  | cons y ys => simpa [hl] using h

theorem State.drawCipher_fields (s : State) :
    s.drawCipher.2 = { s with draws := s.draws + 1, env := { s.env with cipher := s.env.cipher.tail } } := by
  cases s with
  | _ prm ini busy op pos ctl sup ses kb sb ci po ar re rf ib env dr tr =>
    cases env with
    | _ c p sr r a => cases c <;> rfl

theorem State.tick_drawPort (s : State) : s.tick.drawPort.1 = s.drawPort.1 := by
  rw [State.tick_eq]; unfold State.drawPort; cases s.env.port <;> rfl

theorem State.drawPort_head (s : State) (x : Word) (h : s.scripts.port.head? = some x) : s.drawPort.1 = x := by
  unfold State.scripts at h; unfold State.drawPort
  cases hl : s.env.port with
  | nil => simp [hl] at h
  | cons y ys => simpa [hl] using h

theorem State.drawPort_fields (s : State) :
    s.drawPort.2 = { s with draws := s.draws + 1, env := { s.env with port := s.env.port.tail } } := by
  cases s with
  | _ prm ini busy op pos ctl sup ses kb sb ci po ar re rf ib env dr tr =>
    cases env with
    | _ c p sr r a => cases p <;> rfl

theorem State.tick_drawRandom (s : State) : s.tick.drawRandom.1 = s.drawRandom.1 := by
  rw [State.tick_eq]; unfold State.drawRandom; cases s.env.rng <;> rfl

theorem State.drawRandom_head (s : State) (x : Word) (h : s.scripts.rng.head? = some x) : s.drawRandom.1 = x := by
  unfold State.scripts at h; unfold State.drawRandom
  cases hl : s.env.rng with
  | nil => simp [hl] at h
  | cons y ys => simpa [hl] using h

theorem State.drawRandom_fields (s : State) :
    s.drawRandom.2 = { s with draws := s.draws + 1, env := { s.env with rng := s.env.rng.tail } } := by
  cases s with
  | _ prm ini busy op pos ctl sup ses kb sb ci po ar re rf ib env dr tr =>
    cases env with
    | _ c p sr r a => cases r <;> rfl

theorem State.tick_drawSerial (s : State) : s.tick.drawSerial.1 = s.drawSerial.1 := by
  rw [State.tick_eq]; unfold State.drawSerial; cases s.env.serial <;> rfl

theorem State.drawSerial_head (s : State) (x : Option (List Byte)) (h : s.scripts.serial.head? = some x) : s.drawSerial.1 = x := by
  unfold State.scripts at h; unfold State.drawSerial
  cases hl : s.env.serial with
  | nil => simp [hl] at h
  | cons y ys => simpa [hl] using h

theorem State.drawSerial_fields (s : State) :
    s.drawSerial.2 = { s with draws := s.draws + 1, env := { s.env with serial := s.env.serial.tail } } := by
  cases s with
  | _ prm ini busy op pos ctl sup ses kb sb ci po ar re rf ib env dr tr =>
    cases env with
    | _ c p sr r a => cases sr <;> rfl

/-- A cipher read finds what the read-back law leaves of the next draw. -/
theorem cipherRead_gives {s : State} (hs : s.undisturbed = true) (r : CipherReg) :
    Gives (cipherRead r) s fun v es t =>
      es = [.cipherRead r v] ∧ t.regs = s.regs ∧ v = readBack s.prm s.cipher r s.drawCipher.1 ∧
        t.scripts = { s.scripts with cipher := s.env.cipher.tail } ∧ t.cipher = s.cipher := by
  refine (perform_gives hs (State.readCipher r) (Event.cipherRead r) ?_ ?_ ?_ ?_ ?_).mono ?_
  · simp [State.readCipher]
  · simp [State.readCipher]
  · simp only [State.readCipher, State.log_visible, State.drawCipher_visible]; rfl
  · exact ⟨s.drawCipher.1, s.drawCipher_head, by simp [State.readCipher, State.tick_drawCipher]⟩
  · simp [State.readCipher, State.scripts, State.drawCipher_fields, Env.taken]
  · rintro v es t - ⟨rfl, h, rfl, rfl⟩
    refine ⟨rfl, h, ?_, ?_, ?_⟩
    · simp [State.readCipher, State.tick_drawCipher]
    · simp [State.readCipher, State.drawCipher_fields, State.scripts]
    · simp [State.readCipher, State.drawCipher_fields]

/-- A cipher write puts its value into the register. -/
theorem cipherWrite_gives {s : State} (hs : s.undisturbed = true) (r : CipherReg) (v : Word) :
    Gives (cipherWrite r v) s fun _ es t =>
      es = [.cipherWrite r v] ∧ t.regs = s.regs ∧ t.scripts = s.scripts ∧
        t.cipher = s.cipher.write s.prm r v := by
  refine (perform_gives hs (State.writeCipher r v) (fun _ => Event.cipherWrite r v) ?_ ?_ ?_ ?_ ?_).mono ?_
  · simp [State.writeCipher]
  · simp [State.writeCipher]
  · rfl
  · trivial
  · simp [State.writeCipher, State.scripts, Env.taken]
  · rintro _ es t - ⟨rfl, h, -, rfl⟩
    refine ⟨rfl, h, ?_, ?_⟩
    · simp [State.writeCipher, State.scripts]
    · simp [State.writeCipher]

/-- A serial read delivers the next scripted answer, of the right size, or fails. -/
theorem serialRead_gives {s : State} (hs : s.undisturbed = true) (sub : Byte) (size : Nat) :
    Gives (serialRead sub size) s fun a es t =>
      es = [.serialRead sub size a] ∧ t.regs = s.regs ∧ (∀ bs ∈ a, bs.length = size) ∧
        a = s.drawSerial.1.map (sizedAnswer s.draws size) ∧
        t.scripts = { s.scripts with serial := s.env.serial.tail } ∧ t.cipher = s.cipher := by
  refine (perform_gives hs (State.readSerial sub size) (Event.serialRead sub size) ?_ ?_ ?_ ?_ ?_).mono ?_
  · simp [State.readSerial]
  · simp [State.readSerial]
  · simp only [State.readSerial, State.log_visible, State.drawSerial_visible]; rfl
  · simp only [State.readSerial, State.tick_drawSerial, State.tick_draws]
    refine ⟨?_, fun x hx => ?_⟩
    · intro bs hbs
      obtain ⟨y, -, rfl⟩ := Option.map_eq_some_iff.1 hbs
      simp
    · rw [s.drawSerial_head x hx]
      refine ⟨by simp, ?_⟩
      rintro bs rfl rfl
      simp [sizedAnswer_eq_self]
  · simp [State.readSerial, State.scripts, State.drawSerial_fields, Env.taken]
  · rintro a es t - ⟨rfl, h, rfl, rfl⟩
    refine ⟨rfl, h, ?_, ?_, ?_, ?_⟩
    · simp only [State.readSerial, Option.mem_map]; rintro _ ⟨x, -, rfl⟩; simp
    · simp [State.readSerial, State.tick_drawSerial]
    · simp [State.readSerial, State.drawSerial_fields, State.scripts]
    · simp [State.readSerial, State.drawSerial_fields]

/-- A serial write succeeds when the next scripted answer is no failure. -/
theorem serialWrite_gives {s : State} (hs : s.undisturbed = true) (sub : Byte) (payload : List Byte) :
    Gives (serialWrite sub payload) s fun a es t =>
      es = [.serialWrite sub payload a] ∧ t.regs = s.regs ∧ a = s.drawSerial.1.isSome ∧
        t.scripts = { s.scripts with serial := s.env.serial.tail } ∧ t.cipher = s.cipher := by
  refine (perform_gives hs (State.writeSerial sub payload) (Event.serialWrite sub payload) ?_ ?_ ?_ ?_ ?_).mono ?_
  · simp [State.writeSerial]
  · simp [State.writeSerial]
  · simp only [State.writeSerial, State.log_visible, State.drawSerial_visible]; rfl
  · intro x hx
    simp only [State.writeSerial, State.tick_drawSerial, s.drawSerial_head x hx]
  · simp [State.writeSerial, State.scripts, State.drawSerial_fields, Env.taken]
  · rintro a es t - ⟨rfl, h, rfl, rfl⟩
    refine ⟨rfl, h, ?_, ?_, ?_⟩
    · simp [State.writeSerial, State.tick_drawSerial]
    · simp [State.writeSerial, State.drawSerial_fields, State.scripts]
    · simp [State.writeSerial, State.drawSerial_fields]

/-- A random number is the next draw. -/
theorem rng32_gives {s : State} (hs : s.undisturbed = true) :
    Gives rng32 s fun v es t =>
      es = [.random v] ∧ t.regs = s.regs ∧ v = s.drawRandom.1 ∧ t.scripts = { s.scripts with rng := s.env.rng.tail } ∧
        t.cipher = s.cipher := by
  refine (perform_gives hs State.readRandom Event.random ?_ ?_ ?_ ?_ ?_).mono ?_
  · simp [State.readRandom]
  · simp [State.readRandom]
  · simp only [State.readRandom, State.log_visible, State.drawRandom_visible]; rfl
  · intro x hx
    simp only [State.readRandom, State.tick_drawRandom, s.drawRandom_head x hx]
  · simp [State.readRandom, State.scripts, State.drawRandom_fields, Env.taken]
  · rintro a es t - ⟨rfl, h, rfl, rfl⟩
    refine ⟨rfl, h, ?_, ?_, ?_⟩
    · simp [State.readRandom, State.tick_drawRandom]
    · simp [State.readRandom, State.drawRandom_fields, State.scripts]
    · simp [State.readRandom, State.drawRandom_fields]

/-- A delay changes nothing. -/
theorem delayUs_gives {s : State} (hs : s.undisturbed = true) (n : Nat) :
    Gives (delayUs n) s fun _ es t =>
      es = [.delayUs n] ∧ t.regs = s.regs ∧ t.scripts = s.scripts ∧ t.cipher = s.cipher := by
  refine (perform_gives hs (fun s => ((), s.log (.delayUs n))) (fun _ => Event.delayUs n) ?_ ?_ ?_ ?_ ?_).mono ?_
  · simp
  · simp
  · simp only [State.log_visible]; rfl
  · trivial
  · simp [State.scripts, Env.taken]
  · rintro _ es t - ⟨rfl, h, -, rfl⟩
    exact ⟨rfl, h, by simp [State.scripts], by simp⟩

/-- A wait for the vertical blank changes nothing and ends. -/
theorem waitVblank_gives {s : State} (hs : s.undisturbed = true) :
    Gives waitVblank s fun _ es t =>
      es = [.vblank] ∧ t.regs = s.regs ∧ t.scripts = s.scripts ∧ t.cipher = s.cipher := by
  refine (perform_gives hs (fun s => ((), s.log .vblank)) (fun _ => Event.vblank) ?_ ?_ ?_ ?_ ?_).mono ?_
  · simp
  · simp
  · simp only [State.log_visible]; rfl
  · trivial
  · simp [State.scripts, Env.taken]
  · rintro _ es t - ⟨rfl, h, -, rfl⟩
    exact ⟨rfl, h, by simp [State.scripts], by simp⟩

/-- The raise of a failure is recorded and changes nothing else. -/
theorem raiseFailure_gives {s : State} (hs : s.undisturbed = true) (f : Failure) :
    Gives (raiseFailure f) s fun _ es t =>
      es = [.raised f] ∧ t.regs = s.regs ∧ t.scripts = s.scripts ∧ t.cipher = s.cipher :=
  ⟨(), [.raised f], s.log (.raised f), rfl, rfl, hs, rfl, ⟨⟨trivial, trivial⟩, rfl⟩, rfl, rfl, rfl, rfl⟩

/-- A field write reads the register once and writes it once (20_memory.md R78). -/
theorem cipherWriteField_gives {s : State} (hs : s.undisturbed = true) (r : CipherReg) (f : Field) (v : Word) :
    Gives (cipherWriteField r f v) s fun _ es t =>
      ∃ d, es = fieldWrite r f v d ∧ d = readBack s.prm s.cipher r s.drawCipher.1 ∧ t.regs = s.regs ∧
        t.scripts = { s.scripts with cipher := s.env.cipher.tail } ∧
        t.cipher = s.cipher.write s.prm r (setField f d v) := by
  refine (cipherRead_gives hs r).bind fun d es t ht hp _ h => ?_
  obtain ⟨rfl, hr, hd, hsc, hc⟩ := h
  refine (cipherWrite_gives ht r _).mono fun _ es u _ h => ?_
  obtain ⟨rfl, hr', hsc', hc'⟩ := h
  exact ⟨d, rfl, hd, hr'.trans hr, hsc'.trans hsc, by rw [hc', hp, hc]⟩

/-- `PortSetEnc` reads the port register once and writes it once (20_memory.md R79). -/
theorem portSetEnc_gives {s : State} (hs : s.undisturbed = true) (b : Bool) :
    Gives (portSetEnc b) s fun _ es t =>
      ∃ d, es = portWrites s.prm b d ∧ d = s.drawPort.1 ∧ t.regs = s.regs ∧
        t.scripts = { s.scripts with port := s.env.port.tail } ∧ t.cipher = s.cipher := by
  refine Gives.get_bind ?_
  refine (perform_gives hs State.readPort Event.portRead ?_ ?_ ?_ ?_ ?_).bind fun d es t ht hp _ h => ?_
  · simp [State.readPort]
  · simp [State.readPort]
  · simp only [State.readPort, State.log_visible, State.drawPort_visible]; rfl
  · intro x hx
    simp only [State.readPort, State.tick_drawPort, s.drawPort_head x hx]
  · simp [State.readPort, State.scripts, State.drawPort_fields, Env.taken]
  obtain ⟨rfl, hr, hd, rfl⟩ := h
  refine (perform_gives ht (State.writePort _) (fun _ => Event.portWrite (setField ⟨s.prm.portEncBit, 1⟩ d (bitWord b)))
    ?_ ?_ ?_ ?_ ?_).mono fun _ es u _ h => ?_
  · rfl
  · rfl
  · rfl
  · trivial
  · simp [State.writePort, State.scripts, Env.taken]
  obtain ⟨rfl, hr', -, rfl⟩ := h
  refine ⟨d, rfl, ?_, hr'.trans hr, ?_, ?_⟩
  · rw [hd]; simp [State.readPort, State.tick_drawPort]
  · simp [State.writePort, State.readPort, State.drawPort_fields, State.scripts]
  · simp [State.writePort, State.readPort, State.drawPort_fields]

/-- A poll ends at the first read that passes the test, or after its bound (00_scope.md R13). -/
theorem pollUntil_gives (r : CipherReg) (test : Word → Bool) (max : Nat) (last : Word) {s : State}
    (hs : s.undisturbed = true) :
    Gives (pollUntil r test max last) s fun a es t =>
      t.regs = s.regs ∧ t.cipher = s.cipher ∧
        ((a.1 = true ∧ ∃ vs : List Word, vs.length < max ∧ (∀ x ∈ vs, test x = false) ∧ test a.2 = true ∧
            es = vs.map (Event.cipherRead r) ++ [.cipherRead r a.2]) ∨
          (a.1 = false ∧ ∃ vs : List Word, vs.length = max ∧ (∀ x ∈ vs, test x = false) ∧ es = vs.map (Event.cipherRead r))) := by
  induction max generalizing last s with
  | zero => exact gives_pure hs _ ⟨rfl, rfl, .inr ⟨rfl, [], rfl, by simp, rfl⟩⟩
  | succ n ih =>
    refine (cipherRead_gives hs r).bind fun v es t ht hp _ h => ?_
    obtain ⟨rfl, hr, -, -, hc⟩ := h
    by_cases hv : test v = true
    · rw [if_pos hv]
      exact gives_pure ht _ ⟨hr, hc, .inl ⟨rfl, [], by simp, by simp, hv, rfl⟩⟩
    · rw [if_neg hv]
      refine (ih v ht).mono fun a es u _ h => ?_
      obtain ⟨hr', hc', h⟩ := h
      refine ⟨hr'.trans hr, hc'.trans hc, h.imp ?_ ?_⟩
      · rintro ⟨h1, vs, h2, h3, h4, rfl⟩
        exact ⟨h1, v :: vs, by simp; omega, by simpa using ⟨by simpa using hv, h3⟩, h4, rfl⟩
      · rintro ⟨h1, vs, h2, h3, rfl⟩
        exact ⟨h1, v :: vs, by simp; omega, by simpa using ⟨by simpa using hv, h3⟩, rfl⟩

/-- `POLL_MAX` reads: a hit or a miss. -/
theorem pollMax_gives (r : CipherReg) (test : Word → Bool) {s : State} (hs : s.undisturbed = true) :
    Gives (pollUntil r test pollMax 0) s fun a es t =>
      t.regs = s.regs ∧ t.cipher = s.cipher ∧
        ((a.1 = true ∧ PollHit r test es) ∨ (a.1 = false ∧ PollMiss r test es)) := by
  refine (pollUntil_gives r test pollMax 0 hs).mono fun a es t _ h => ⟨h.1, h.2.1, h.2.2.imp ?_ ?_⟩
  · rintro ⟨h1, vs, h2, h3, h4, h5⟩; exact ⟨h1, vs, _, h2, h3, h4, h5⟩
  · rintro ⟨h1, vs, h2, h3, h5⟩; exact ⟨h1, vs, h2, h3, h5⟩

/-- Writes of session registers. -/
theorem setSes_gives {s : State} (hs : s.undisturbed = true) (f : Session → Session) :
    Gives (setSes f) s fun _ es t =>
      es = [] ∧ t.regs = { s.regs with ses := f s.regs.ses } ∧ t.scripts = s.scripts ∧ t.cipher = s.cipher :=
  (gives_modify hs _ rfl).mono fun _ _ _ _ h => by obtain ⟨rfl, rfl⟩ := h; exact ⟨rfl, rfl, rfl, rfl⟩

/-- A write of the controller state. -/
theorem setCtl_gives {s : State} (hs : s.undisturbed = true) (c : CtlState) :
    Gives (setCtl c) s fun _ es t =>
      es = [] ∧ t.regs = { s.regs with ctlState := c } ∧ t.scripts = s.scripts ∧ t.cipher = s.cipher :=
  (gives_modify hs _ rfl).mono fun _ _ _ _ h => by obtain ⟨rfl, rfl⟩ := h; exact ⟨rfl, rfl, rfl, rfl⟩

/-- Writes of the KSV buffer. -/
theorem setKsvbuf_gives {s : State} (hs : s.undisturbed = true) (f : Memory → Memory) :
    Gives (setKsvbuf f) s fun _ es t =>
      es = [] ∧ t.regs = { s.regs with ksvbuf := f s.regs.ksvbuf } ∧ t.scripts = s.scripts ∧ t.cipher = s.cipher :=
  (gives_modify hs _ rfl).mono fun _ _ _ _ h => by obtain ⟨rfl, rfl⟩ := h; exact ⟨rfl, rfl, rfl, rfl⟩

/-- Writes of the SHA-1 buffer. -/
theorem setShabuf_gives {s : State} (hs : s.undisturbed = true) (f : Memory → Memory) :
    Gives (setShabuf f) s fun _ es t =>
      es = [] ∧ t.regs = { s.regs with shabuf := f s.regs.shabuf } ∧ t.scripts = s.scripts ∧ t.cipher = s.cipher :=
  (gives_modify hs _ rfl).mono fun _ _ _ _ h => by obtain ⟨rfl, rfl⟩ := h; exact ⟨rfl, rfl, rfl, rfl⟩

/-- Writes of the argument record. -/
theorem setArgs_gives {s : State} (hs : s.undisturbed = true) (f : Args → Args) :
    Gives (setArgs f) s fun _ es t =>
      es = [] ∧ t.regs = { s.regs with args := f s.regs.args } ∧ t.scripts = s.scripts ∧ t.cipher = s.cipher :=
  (gives_modify hs _ rfl).mono fun _ _ _ _ h => by obtain ⟨rfl, rfl⟩ := h; exact ⟨rfl, rfl, rfl, rfl⟩

/-! ## Starting and ending an operation -/

theorem State.start_undisturbed (i : Instr) (s : State) : (s.start i).undisturbed = s.undisturbed := rfl

@[simp] theorem State.start_regs (i : Instr) (s : State) : (s.start i).regs = s.regs := rfl

/-- An undisturbed micro-program comes to its end. -/
theorem completed_undisturbed {body : Op Result} {s t : State} {r : Result} (h : body s = .ok r t)
    (ht : t.undisturbed = true) : completed body s = .ok r t.met :=
  (bind_ok h _).trans (bind_ok (moment_undisturbed ht) _)

/-- An operation of a ready block runs its body to the end. -/
theorem runOperation_gives {i : Instr} {w : Word} {body : Op Result} {s : State}
    {Q : Result → List Event → State → Prop} (hr : s.ready = true) (h : Gives body (s.start i) Q) :
    ∃ t r es u, runOperation i w body s = .next t ∧ t.result = some r ∧ t.busy = false ∧ t.op = none ∧
      t.stepPos = 0 ∧ t.trace = es.reverse ++ s.trace ∧ t.visible = (s.visible.replay es).withRegs u.regs ∧
      Answered s.prm (s.cipher, s.port) s.scripts es ∧ Q r es u := by
  obtain ⟨r, es, u, h1, h2, h3, h4, h6, h5⟩ := h
  simp only [State.ready, Bool.and_eq_true, Bool.not_eq_true'] at hr
  refine ⟨endOperation (.ok r u.met), r, es, u, ?_, rfl, rfl, rfl, rfl, u.met_trace.trans h2, u.met_visible.trans h4,
    h6.1, h5⟩
  unfold runOperation
  rw [hr.2, hr.1, completed_undisturbed h1 h3]; rfl

end Sys2Proof.Machine
end

