-- ==== Sys2Proof/Laws/Controller.lean ====
section
/-! SUPPORT. What the micro-programs of the controller do (41_controller.md), said once for runs that no reset
disturbs. -/

namespace Sys2Proof.Machine

open Sys2Proof

/-- HDCP_IS_ENABLED's body: nothing without the capability, else one status read (R142). -/
theorem isEnabled_gives {s : State} (hs : s.undisturbed = true) :
    Gives isEnabled s fun b es t =>
      t.regs = s.regs ∧ ((s.hdcpSupported = false ∧ b = false ∧ es = []) ∨
        (s.hdcpSupported = true ∧ ∃ v, b = hdcpOn s.prm v ∧ es = [.cipherRead .status v])) := by
  refine Gives.get_bind ?_
  by_cases h : s.hdcpSupported = true
  · rw [if_pos h]
    refine (cipherRead_gives hs _).bind fun v es t ht _ _ h' => ?_
    obtain ⟨rfl, hr, -⟩ := h'
    exact gives_pure ht _ ⟨hr, .inr ⟨h, v, rfl, rfl⟩⟩
  · rw [if_neg h]
    exact gives_pure hs _ ⟨rfl, .inl ⟨by simpa using h, rfl, rfl⟩⟩

/-- A write of HDCP_CONFIG's mode (20_memory.md R78). -/
theorem writeMode_gives {s : State} (hs : s.undisturbed = true) (m : Nat) :
    Gives (writeMode m) s fun _ es t =>
      ∃ d, es = modeWrite s.prm m d ∧ d = readBack s.prm s.cipher .config s.drawCipher.1 ∧ t.regs = s.regs ∧
        t.scripts = { s.scripts with cipher := s.env.cipher.tail } ∧
        t.cipher = s.cipher.write s.prm .config (setField s.prm.cfgMode d (BitVec.ofNat 32 m)) :=
  Gives.get_bind (cipherWriteField_gives hs _ _ _)

/-- SET_REPEATER_PRESENT's body: the field write and its read-back (R154). -/
theorem writeRepeaterPresent_gives {s : State} (hs : s.undisturbed = true) (on : Bool) :
    Gives (writeRepeaterPresent on) s fun ok es t =>
      t.regs = s.regs ∧ ∃ d v w, es = presentWrite s.prm on d v ∧ ok = (repPresent s.prm v == on) ∧
        v = readBack s.prm (s.cipher.write s.prm .rep (setField (presentField s.prm) d (bitWord on))) .rep w := by
  refine Gives.get_bind ?_
  refine (cipherWriteField_gives hs _ _ _).bind fun _ es t ht hp _ h => ?_
  obtain ⟨d, rfl, -, hr, -, hc⟩ := h
  refine (cipherRead_gives ht _).bind fun v es u hu _ _ h => ?_
  obtain ⟨rfl, hr', hv, -⟩ := h
  refine gives_pure hu _ ⟨hr'.trans hr, d, v, t.drawCipher.1, rfl, rfl, ?_⟩
  rw [hv, hp, hc]

/-- The disable wait with `n` checks: it ends at the first check that sees both bits clear (R144). -/
theorem disableWait_gives (n : Nat) {s : State} (hs : s.undisturbed = true) :
    Gives (disableWait n) s fun b es t => ∃ vs : List Word, (∀ v ∈ vs, disabledNow s.prm v = false) ∧
      ((b = true ∧ vs.length < n ∧ t.regs = { s.regs with ctlState := .off } ∧ ∃ v u, disabledNow s.prm v = true ∧
          es = vs.flatMap disableCheck ++ disableCheck v ++ disableEnd s.prm u) ∨
        (b = false ∧ vs.length = n ∧ t.regs = s.regs ∧
          es = vs.flatMap disableCheck ++ [.raised (.hardwareTimeout .disable)])) := by
  induction n generalizing s with
  | zero =>
    refine (raiseFailure_gives hs _).bind fun _ es t ht _ _ h => ?_
    obtain ⟨rfl, hr, -⟩ := h
    exact gives_pure ht _ ⟨[], by simp, .inr ⟨rfl, rfl, hr, rfl⟩⟩
  | succ n ih =>
    refine Gives.get_bind ?_
    refine (waitVblank_gives hs).bind fun _ es t ht hp _ h => ?_
    obtain ⟨rfl, hr, -⟩ := h
    refine (cipherRead_gives ht _).bind fun v es t2 ht2 hp2 _ h => ?_
    obtain ⟨rfl, hr2, -⟩ := h
    change Gives (if disabledNow s.prm v = true then _ else _) _ _
    by_cases hv : disabledNow s.prm v = true
    · rw [if_pos hv]
      refine (cipherWrite_gives ht2 _ _).bind fun _ es t3 ht3 hp3 _ h => ?_
      obtain ⟨rfl, hr3, -⟩ := h
      refine (portSetEnc_gives ht3 _).bind fun _ es t4 ht4 hp4 _ h => ?_
      obtain ⟨u, rfl, -, hr4, -⟩ := h
      refine (setCtl_gives ht4 _).bind fun _ es t5 ht5 hp5 _ h => ?_
      obtain ⟨rfl, hr5, -⟩ := h
      refine gives_pure ht5 _ ⟨[], by simp, .inl ⟨rfl, by simp, ?_, v, u, hv, ?_⟩⟩
      · rw [hr5, hr4, hr3, hr2, hr]
      · rw [hp3, hp2, hp]; rfl
    · rw [if_neg hv]
      refine (ih ht2).mono fun b es u _ h => ?_
      rw [hp2, hp] at h
      obtain ⟨vs, h1, h2⟩ := h
      refine ⟨v :: vs, by simpa using ⟨by simpa using hv, h1⟩, h2.imp ?_ ?_⟩
      · rintro ⟨hb, hl, hreg, w, u, hw, rfl⟩
        exact ⟨hb, by simp; omega, by rw [hreg, hr2, hr], w, u, hw, by simp [disableCheck]⟩
      · rintro ⟨hb, hl, hreg, rfl⟩
        exact ⟨hb, by simp; omega, by rw [hreg, hr2, hr], by simp [disableCheck]⟩

/-- DISABLE_SEQUENCE: the mode write, then at most two checks, each behind a vertical blank (R144). -/
theorem disableSequence_gives {s : State} (hs : s.undisturbed = true) :
    Gives disableSequence s fun b es t =>
      DisableTrace s.prm es b t.ctlState ∧ t.regs = { s.regs with ctlState := t.ctlState } := by
  refine (setCtl_gives hs _).bind fun _ es t ht hp _ h => ?_
  obtain ⟨rfl, hr0, -⟩ := h
  refine Gives.get_bind ?_
  refine (writeMode_gives ht _).bind fun _ es t2 ht2 hp2 _ h => ?_
  obtain ⟨d, rfl, -, hr, -⟩ := h
  refine (disableWait_gives _ ht2).mono fun b es t3 _ h => ?_
  rw [hp2, hp] at h
  rw [hp]
  rw [hr0] at hr
  have hc : t2.ctlState = .disabling := congrArg Regs.ctlState hr
  obtain ⟨vs, h1, ⟨rfl, hl, hreg, v, u, hv, rfl⟩ | ⟨rfl, hl, hreg, rfl⟩⟩ := h
  · have hc3 : t3.ctlState = .off := congrArg Regs.ctlState hreg
    rw [hc3, hreg, hr]
    refine ⟨?_, rfl⟩
    match vs, hl, h1 with
    | [], _, _ => simpa [List.append_assoc] using DisableTrace.first d v u hv
    | [w], _, h1 => simpa [List.append_assoc] using DisableTrace.second d w v u (h1 w (by simp)) hv
  · have hc3 : t3.ctlState = .disabling := (congrArg Regs.ctlState hreg).trans hc
    rw [hc3, hreg, hr]
    refine ⟨?_, rfl⟩
    match vs, hl, h1 with
    | [v, w], _, h1 =>
      simpa [List.append_assoc] using DisableTrace.timeout d v w (h1 v (by simp)) (h1 w (by simp))

/-- `FAIL_ENABLE`: `Off`, the failure, `false` (R145). -/
theorem failEnable_gives {s : State} (hs : s.undisturbed = true) (f : Failure) :
    Gives (failEnable f) s fun ok es t =>
      ok = false ∧ es = [.raised f] ∧ t.regs = { s.regs with ctlState := .off } := by
  refine (setCtl_gives hs _).bind fun _ es t ht hp _ h => ?_
  obtain ⟨rfl, hr0, -⟩ := h
  refine (raiseFailure_gives ht _).bind fun _ es t2 ht2 _ _ h => ?_
  obtain ⟨rfl, hr, -⟩ := h
  exact gives_pure ht2 _ ⟨rfl, rfl, hr.trans hr0⟩

/-- An generation and capture (R146). -/
theorem captureAn_gives {s : State} (hs : s.undisturbed = true) :
    Gives captureAn s fun ok es t => ∃ seed0 seed1 d ps,
      ((ok = true ∧ PollHit .status (anReady s.prm) ps ∧ es = anSeeds s.prm seed0 seed1 d ++ ps ∧
          t.regs = { s.regs with ctlState := .anCaptured, ses := { s.ses with seed0 := seed0, seed1 := seed1 } }) ∨
        (ok = false ∧ PollMiss .status (anReady s.prm) ps ∧
          (∃ d', es = anSeeds s.prm seed0 seed1 d ++ ps ++ modeWrite s.prm s.prm.modeOff d' ++
            [.raised (.hardwareTimeout .anCapture)]) ∧
          t.regs = { s.regs with ctlState := .off, ses := { s.ses with seed0 := seed0, seed1 := seed1 } })) := by
  refine Gives.get_bind ?_
  refine (rng32_gives hs).bind fun seed0 es t ht hp _ h => ?_
  obtain ⟨rfl, hr, -⟩ := h
  refine (setSes_gives ht _).bind fun _ es t2 ht2 hp2 _ h => ?_
  obtain ⟨rfl, hr2, -⟩ := h
  refine (cipherWrite_gives ht2 _ _).bind fun _ es t3 ht3 hp3 _ h => ?_
  obtain ⟨rfl, hr3, -⟩ := h
  refine (rng32_gives ht3).bind fun seed1 es t4 ht4 hp4 _ h => ?_
  obtain ⟨rfl, hr4, -⟩ := h
  refine (setSes_gives ht4 _).bind fun _ es t5 ht5 hp5 _ h => ?_
  obtain ⟨rfl, hr5, -⟩ := h
  refine (cipherWrite_gives ht5 _ _).bind fun _ es t6 ht6 hp6 _ h => ?_
  obtain ⟨rfl, hr6, -⟩ := h
  refine (delayUs_gives ht6 _).bind fun _ es t7 ht7 hp7 _ h => ?_
  obtain ⟨rfl, hr7, -⟩ := h
  refine (writeMode_gives ht7 _).bind fun _ es t8 ht8 hp8 _ h => ?_
  obtain ⟨d, rfl, -, hr8, -⟩ := h
  rw [hp7, hp6, hp5, hp4, hp3, hp2, hp] at hp8 ⊢
  rw [hr7, hr6, hr5, hr4, hr3, hr2, hr] at hr8
  refine (pollMax_gives _ _ ht8).bind fun a es t9 ht9 hp9 _ h => ?_
  obtain ⟨hr9, -, ⟨ha, hps⟩ | ⟨ha, hps⟩⟩ := h
  · simp only [ha, if_true]
    refine (setCtl_gives ht9 _).bind fun _ es' t10 ht10 hp10 _ h => ?_
    obtain ⟨rfl, hr10, -⟩ := h
    refine gives_pure ht10 _ ⟨seed0, seed1, d, es, .inl ⟨rfl, hps, ?_, ?_⟩⟩
    · simp [anSeeds]
    · rw [hr10, hr9, hr8]; rfl
  · simp only [ha]
    refine (writeMode_gives ht9 _).bind fun _ es' t10 ht10 hp10 _ h => ?_
    obtain ⟨d', rfl, -, hr10, -⟩ := h
    refine (failEnable_gives ht10 _).mono fun ok es' t11 ht11 h => ?_
    obtain ⟨rfl, rfl, hr11⟩ := h
    rw [hp9, hp8]
    refine ⟨seed0, seed1, d, es, .inr ⟨rfl, hps, ⟨d', ?_⟩, ?_⟩⟩
    · simp [anSeeds]
    · rw [hr11, hr10, hr9, hr8]; rfl

/-- An captured, then read back with Aksv (R146, R147). -/
theorem readAnAksv_gives {s : State} (hs : s.undisturbed = true) :
    Gives readAnAksv s fun a es t => ∃ lo hi alo ahi : Word,
      es = [.cipherRead .anLow lo, .cipherRead .anHi hi, .cipherRead .aksvLo alo, .cipherRead .aksvHi ahi] ∧
        a = (hi ++ lo, ahi.setWidth 8 ++ alo) ∧
        t.regs = { s.regs with ses := { s.ses with an := hi ++ lo, aksv := ahi.setWidth 8 ++ alo } } := by
  refine (cipherRead_gives hs _).bind fun lo es t ht hp _ h => ?_
  obtain ⟨rfl, hr, -⟩ := h
  refine (cipherRead_gives ht _).bind fun hi es t2 ht2 hp2 _ h => ?_
  obtain ⟨rfl, hr2, -⟩ := h
  refine (setSes_gives ht2 _).bind fun _ es t3 ht3 hp3 _ h => ?_
  obtain ⟨rfl, hr3, -⟩ := h
  refine (cipherRead_gives ht3 _).bind fun alo es t4 ht4 hp4 _ h => ?_
  obtain ⟨rfl, hr4, -⟩ := h
  refine (cipherRead_gives ht4 _).bind fun ahi es t5 ht5 hp5 _ h => ?_
  obtain ⟨rfl, hr5, -⟩ := h
  refine (setSes_gives ht5 _).bind fun _ es t6 ht6 hp6 _ h => ?_
  obtain ⟨rfl, hr6, -⟩ := h
  refine gives_pure ht6 _ ⟨lo, hi, alo, ahi, rfl, rfl, ?_⟩
  rw [hr6, hr5, hr4, hr3, hr2, hr]; rfl

/-- An, then Aksv, to the receiver (R148). -/
theorem sendAnAksv_gives {s : State} (hs : s.undisturbed = true) (an : BitVec 64) (aksv : BitVec 40) :
    Gives (sendAnAksv an aksv) s fun ok es t =>
      (ok = true ∧ t.regs = s.regs ∧
          es = [.serialWrite 0x18 (leBytes 8 an.toNat) true, .serialWrite 0x10 (leBytes 5 aksv.toNat) true]) ∨
        (ok = false ∧ t.regs = { s.regs with ctlState := .off } ∧
          (es = [.serialWrite 0x18 (leBytes 8 an.toNat) false, .raised (.serialIOFailure 0x18)] ∨
            es = [.serialWrite 0x18 (leBytes 8 an.toNat) true, .serialWrite 0x10 (leBytes 5 aksv.toNat) false,
              .raised (.serialIOFailure 0x10)])) := by
  refine (serialWrite_gives hs _ _).bind fun ok es t ht hp _ h => ?_
  obtain ⟨rfl, hr, -⟩ := h
  cases ok
  · refine (failEnable_gives ht _).mono fun ok es t2 ht2 h => ?_
    obtain ⟨rfl, rfl, hr2⟩ := h
    exact .inr ⟨rfl, by rw [hr2, hr], .inl rfl⟩
  · refine (serialWrite_gives ht _ _).bind fun ok es t2 ht2 hp2 _ h => ?_
    obtain ⟨rfl, hr2, -⟩ := h
    cases ok
    · refine (failEnable_gives ht2 _).mono fun ok es t3 ht3 h => ?_
      obtain ⟨rfl, rfl, hr3⟩ := h
      exact .inr ⟨rfl, by rw [hr3, hr2, hr], .inr rfl⟩
    · exact gives_pure ht2 _ (.inl ⟨rfl, hr2.trans hr, rfl⟩)

/-- Bksv from the receiver, accepted only with the right bit population (R149). -/
theorem readBksv_gives {s : State} (hs : s.undisturbed = true) :
    Gives readBksv s fun a es t =>
      (a = none ∧ es = [.serialRead 0x00 5 none, .raised (.serialIOFailure 0x00)] ∧
          t.regs = { s.regs with ctlState := .off }) ∨
        (∃ k, a = none ∧ k.weight ≠ ksvWeight ∧ es = [bksvRead k, .raised (.protocolViolation .badBksv)] ∧
          t.regs = { s.regs with ctlState := .off, ses := { s.ses with bksv := k } }) ∨
        (∃ k, a = some k ∧ k.weight = ksvWeight ∧ es = [bksvRead k] ∧
          t.regs = { s.regs with ses := { s.ses with bksv := k } }) := by
  refine (serialRead_gives hs _ _).bind fun a es t ht hp _ h => ?_
  obtain ⟨rfl, hr, hl, -⟩ := h
  cases a with
  | none =>
    refine (failEnable_gives ht _).bind fun ok es t2 ht2 _ _ h => ?_
    obtain ⟨rfl, rfl, hr2⟩ := h
    exact gives_pure ht2 _ (.inl ⟨rfl, rfl, by rw [hr2, hr]⟩)
  | some bytes =>
    obtain ⟨k, rfl⟩ : ∃ k : Ksv, bytes = k.bytes := ⟨_, (Ksv.bytes_ofBytes _ (hl _ rfl)).symm⟩
    refine (setSes_gives ht _).bind fun _ es t2 ht2 _ _ h => ?_
    obtain ⟨rfl, hr2, -⟩ := h
    by_cases hw : (Ksv.ofBytes k.bytes).weight = ksvWeight
    · rw [if_pos hw]
      exact gives_pure ht2 _ (.inr (.inr ⟨k, rfl, hw, rfl, by rw [hr2, hr]; rfl⟩))
    · rw [if_neg hw]
      refine (failEnable_gives ht2 _).bind fun ok es t3 ht3 _ _ h => ?_
      obtain ⟨rfl, rfl, hr3⟩ := h
      exact gives_pure ht3 _ (.inr (.inl ⟨k, rfl, hw, rfl, by rw [hr3, hr2, hr]; rfl⟩))

/-- BCaps, and the repeater-present bit if the receiver is a repeater (R150). -/
theorem readBcapsEnable_gives {s : State} (hs : s.undisturbed = true) :
    Gives readBcapsEnable s fun ok es t =>
      (ok = false ∧ es = [.serialRead 0x40 1 none, .raised (.serialIOFailure 0x40)] ∧
          t.regs = { s.regs with ctlState := .off }) ∨
        (ok = true ∧ ∃ b d v, t.regs = { s.regs with ses := { s.ses with bcaps := b } } ∧
          es = [.serialRead 0x40 1 (some [b])] ++
            (if (bcaps s.prm b).isRepeater then presentWrite s.prm true d v else [])) := by
  refine Gives.get_bind ?_
  refine (serialRead_gives hs _ _).bind fun a es t ht hp _ h => ?_
  obtain ⟨rfl, hr, hl, -⟩ := h
  cases a with
  | none =>
    refine (failEnable_gives ht _).mono fun ok es t2 ht2 h => ?_
    obtain ⟨rfl, rfl, hr2⟩ := h
    exact .inl ⟨rfl, rfl, by rw [hr2, hr]⟩
  | some bytes =>
    obtain ⟨b, rfl⟩ := List.length_eq_one_iff.1 (hl _ rfl)
    refine (setSes_gives ht _).bind fun _ es t2 ht2 hp2 _ h => ?_
    obtain ⟨rfl, hr2, -⟩ := h
    rw [hr] at hr2
    by_cases hb : (bcaps s.prm b).isRepeater = true
    · refine Gives.mono (Q := fun ok es' t => ok = true ∧ t.regs = { s.regs with ses := { s.ses with bcaps := b } } ∧
        ∃ d v, es' = presentWrite s.prm true d v) ?_ ?_
      · simp only [List.getD_cons_zero, hb, if_true]
        refine (writeRepeaterPresent_gives ht2 _).bind fun ok es t3 ht3 _ _ h => ?_
        obtain ⟨hr3, d, v, w, rfl, -⟩ := h
        rw [hp2, hp]
        exact gives_pure ht3 _ ⟨rfl, by rw [hr3, hr2]; rfl, d, v, by simp⟩
      · rintro ok es' u - ⟨rfl, hr3, d, v, rfl⟩
        exact .inr ⟨rfl, b, d, v, hr3, by simp [hb]⟩
    · simp only [List.getD_cons_zero, hb, Bool.false_eq_true, if_false]
      exact gives_pure ht2 _ (.inr ⟨rfl, b, 0, 0, hr2, by simp [hb]⟩)

/-- Bksv into the cipher (R151). -/
theorem loadBksv_gives {s : State} (hs : s.undisturbed = true) (k : Ksv) :
    Gives (loadBksv k) s fun _ es t =>
      es = [.cipherWrite .bksvLo (k.b3 ++ k.b2 ++ k.b1 ++ k.b0), .cipherWrite .bksvHi (k.b4.setWidth 32)] ∧
        t.regs = { s.regs with ctlState := .authenticated } := by
  refine (cipherWrite_gives hs _ _).bind fun _ es t ht _ _ h => ?_
  obtain ⟨rfl, hr, -⟩ := h
  refine (cipherWrite_gives ht _ _).bind fun _ es t2 ht2 _ _ h => ?_
  obtain ⟨rfl, hr2, -⟩ := h
  refine (setCtl_gives ht2 _).mono fun _ es t3 _ h => ?_
  obtain ⟨rfl, hr3, -⟩ := h
  exact ⟨by rw [leWord_four]; rfl, by rw [hr3, hr2, hr]⟩

/-- Encryption on, then the Ri-ready poll (R152). -/
theorem startEncryption_gives {s : State} (hs : s.undisturbed = true) :
    Gives startEncryption s fun ok es t => ∃ u m ps,
      (ok = true ∧ PollHit .status (riReady s.prm) ps ∧ t.regs = s.regs ∧
          es = portWrites s.prm true u ++ modeWrite s.prm s.prm.modeAuthEnc m ++ ps) ∨
        (ok = false ∧ PollMiss .status (riReady s.prm) ps ∧ t.regs = { s.regs with ctlState := .off } ∧
          es = portWrites s.prm true u ++ modeWrite s.prm s.prm.modeAuthEnc m ++ ps ++
            [.raised (.hardwareTimeout .riReady)]) := by
  refine Gives.get_bind ?_
  refine (portSetEnc_gives hs _).bind fun _ es t ht hp _ h => ?_
  obtain ⟨u, rfl, -, hr, -⟩ := h
  refine (writeMode_gives ht _).bind fun _ es t2 ht2 hp2 _ h => ?_
  obtain ⟨m, rfl, -, hr2, -⟩ := h
  refine (pollMax_gives _ _ ht2).bind fun a es t3 ht3 hp3 _ h => ?_
  rw [hp]
  obtain ⟨hr3, -, ⟨ha, hps⟩ | ⟨ha, hps⟩⟩ := h
  · simp only [ha, if_true]
    exact gives_pure ht3 _ ⟨u, m, es, .inl ⟨rfl, hps, by rw [hr3, hr2, hr], by simp⟩⟩
  · simp only [ha, Bool.false_eq_true, if_false]
    refine (failEnable_gives ht3 _).mono fun ok es' t4 ht4 h => ?_
    obtain ⟨rfl, rfl, hr4⟩ := h
    exact ⟨u, m, es, .inr ⟨rfl, hps, by rw [hr4, hr3, hr2, hr], by simp⟩⟩

/-- One Ri comparison (R155; 45_link_monitor.md R230). -/
theorem compareRi_gives {s : State} (hs : s.undisturbed = true) :
    Gives compareRi s fun a es t =>
      (a = none ∧ es = [.serialRead 0x08 2 none] ∧ t.regs = s.regs) ∨
        (∃ b0 b1 v, a = some v ∧ es = riComparison b0 b1 v ∧
          t.regs = { s.regs with ses := { s.ses with ri := b1 ++ b0 } }) := by
  refine (serialRead_gives hs _ _).bind fun a es t ht hp _ h => ?_
  obtain ⟨rfl, hr, hl, -⟩ := h
  cases a with
  | none => exact gives_pure ht _ (.inl ⟨rfl, rfl, hr⟩)
  | some bytes =>
    obtain ⟨b0, b1, rfl⟩ := List.length_eq_two.1 (hl _ rfl)
    refine (setSes_gives ht _).bind fun _ es t2 ht2 hp2 _ h => ?_
    obtain ⟨rfl, hr2, -⟩ := h
    refine (cipherWrite_gives ht2 _ _).bind fun _ es t3 ht3 _ _ h => ?_
    obtain ⟨rfl, hr3, -⟩ := h
    refine (cipherRead_gives ht3 _).bind fun v es t4 ht4 _ _ h => ?_
    obtain ⟨rfl, hr4, -⟩ := h
    exact gives_pure ht4 _ (.inr ⟨b0, b1, v, rfl, by rw [riComparison, ← le16_two]; rfl,
      by rw [hr4, hr3, hr2, hr, ← le16_two]; rfl⟩)

/-- The final Ri check: one comparison, no retry (R155). -/
theorem checkRi_gives {s : State} (hs : s.undisturbed = true) :
    Gives checkRi s fun ok es t =>
      (ok = false ∧ es = [.serialRead 0x08 2 none, .raised (.serialIOFailure 0x08)] ∧
          t.regs = { s.regs with ctlState := .off }) ∨
        (∃ b0 b1 v, ok = riMatch s.prm v ∧ es = riComparison b0 b1 v ∧
          t.regs = { s.regs with ctlState := if ok then .encrypting else .off, ses := { s.ses with ri := b1 ++ b0 } }) := by
  refine Gives.get_bind ?_
  refine (compareRi_gives hs).bind fun a es t ht hp _ h => ?_
  obtain ⟨rfl, rfl, hr⟩ | ⟨b0, b1, v, rfl, rfl, hr⟩ := h
  · refine (failEnable_gives ht _).mono fun ok es t2 ht2 h => ?_
    obtain ⟨rfl, rfl, hr2⟩ := h
    exact .inl ⟨rfl, rfl, by rw [hr2, hr]⟩
  · by_cases hv : riMatch s.prm v = true
    · simp only [hv, if_true]
      refine (setCtl_gives ht _).bind fun _ es t2 ht2 _ _ h => ?_
      obtain ⟨rfl, hr2, -⟩ := h
      exact gives_pure ht2 _ (.inr ⟨b0, b1, v, hv.symm, by simp, by rw [hr2, hr]; rfl⟩)
    · simp only [hv, Bool.false_eq_true, if_false]
      refine (setCtl_gives ht _).bind fun _ es t2 ht2 _ _ h => ?_
      obtain ⟨rfl, hr2, -⟩ := h
      exact gives_pure ht2 _ (.inr ⟨b0, b1, v, by simpa using hv, by simp, by rw [hr2, hr]; rfl⟩)

/-- The enable sequence from an accepted Bksv on (R150 to R152, R155), behind an exchange that made `pre`. -/
theorem enableWithBksv_gives {s : State} (hs : s.undisturbed = true) {r : Session} {pre : List Event} {k : Ksv}
    (hpre : ExchangeTrace s.prm r k pre s.ses) (hk : k.weight = ksvWeight) :
    Gives (enableWithBksv k) s fun ok es t =>
      EnableTrace s.prm r (pre ++ es) ok t.ctlState t.ses ∧
        t.regs = { s.regs with ctlState := t.ctlState, ses := t.ses } := by
  refine (readBcapsEnable_gives hs).bind fun ok es t ht hp _ h => ?_
  obtain ⟨rfl, rfl, hr⟩ | ⟨rfl, b, d, v, hr, rfl⟩ := h
  · have hc : t.ctlState = .off := congrArg Regs.ctlState hr
    have he : t.ses = s.ses := congrArg Regs.ses hr
    refine gives_pure ht _ ⟨?_, by rw [hc, he, hr]; rfl⟩
    rw [hc, he]
    simpa using EnableTrace.bcapsFails k pre s.ses hpre hk
  refine (loadBksv_gives ht k).bind fun _ es t2 ht2 hp2 _ h => ?_
  obtain ⟨rfl, hr2⟩ := h
  refine (startEncryption_gives ht2).bind fun ok es t3 ht3 hp3 _ h => ?_
  rw [hp2, hp] at h
  obtain ⟨u, m, ps, ⟨rfl, hps, hr3, rfl⟩ | ⟨rfl, hps, hr3, rfl⟩⟩ := h
  · refine (checkRi_gives ht3).mono fun ok es t4 ht4 h => ?_
    rw [hp3, hp2, hp] at h
    have hst := StartTrace.started k b d v u m pre s.ses hpre hk
    obtain ⟨rfl, rfl, hr4⟩ | ⟨b0, b1, x, hok, rfl, hr4⟩ := h
    · rw [hr3, hr2, hr] at hr4
      have hc : t4.ctlState = .off := congrArg Regs.ctlState hr4
      have he : t4.ses = { s.ses with bcaps := b } := congrArg Regs.ses hr4
      refine ⟨?_, by rw [hc, he, hr4]⟩
      rw [hc, he]
      simpa [loadEvents] using EnableTrace.riFails _ ps _ hst hps
    · have he3 : t3.ses = { s.ses with bcaps := b } := by
        have := congrArg Regs.ses hr3
        rw [hr2, hr] at this; exact this
      rw [hr3, hr2, hr, he3] at hr4
      have hc : t4.ctlState = if ok then .encrypting else .off := congrArg Regs.ctlState hr4
      have he : t4.ses = { s.ses with bcaps := b, ri := b1 ++ b0 } := congrArg Regs.ses hr4
      refine ⟨?_, by rw [hc, he, hr4]⟩
      rw [hc, he]
      cases ok
      · simpa [loadEvents] using EnableTrace.mismatch _ ps _ b0 b1 x hst hps hok.symm
      · simpa [loadEvents] using EnableTrace.encrypting _ ps _ b0 b1 x hst hps hok.symm
  · rw [hr2, hr] at hr3
    have hc : t3.ctlState = .off := congrArg Regs.ctlState hr3
    have he : t3.ses = { s.ses with bcaps := b } := congrArg Regs.ses hr3
    refine gives_pure ht3 _ ⟨?_, by rw [hc, he, hr3]⟩
    rw [hc, he]
    simpa [loadEvents] using EnableTrace.riTimeout _ ps _ (StartTrace.started k b d v u m pre s.ses hpre hk) hps

/-- ENABLE_SEQUENCE (R145). -/
theorem enableSequence_gives {s : State} (hs : s.undisturbed = true) :
    Gives enableSequence s fun ok es t =>
      EnableTrace s.prm s.ses es ok t.ctlState t.ses ∧
        t.regs = { s.regs with ctlState := t.ctlState, ses := t.ses } := by
  refine (captureAn_gives hs).bind fun ok es t ht hp _ h => ?_
  obtain ⟨seed0, seed1, d, ps, ⟨rfl, hps, rfl, hr⟩ | ⟨rfl, hps, ⟨d', rfl⟩, hr⟩⟩ := h
  swap
  · have hc : t.ctlState = .off := congrArg Regs.ctlState hr
    have he : t.ses = { s.ses with seed0 := seed0, seed1 := seed1 } := congrArg Regs.ses hr
    refine gives_pure ht _ ⟨?_, by rw [hc, he, hr]⟩
    rw [hc, he]
    simpa using EnableTrace.captureTimeout (r := s.ses) seed0 seed1 d d' ps hps
  refine (readAnAksv_gives ht).bind fun a es t2 ht2 hp2 _ h => ?_
  obtain ⟨lo, hi, alo, ahi, rfl, rfl, hr2⟩ := h
  rw [hr, show t.ses = { s.ses with seed0 := seed0, seed1 := seed1 } from congrArg Regs.ses hr] at hr2
  have hk := KeyTrace.captured (p := s.prm) (r := s.ses) seed0 seed1 d lo hi alo ahi ps hps
  have he2 : t2.ses = _ := congrArg Regs.ses hr2
  refine (sendAnAksv_gives ht2 _ _).bind fun ok es t3 ht3 hp3 _ h => ?_
  obtain ⟨rfl, hr3, rfl⟩ | ⟨rfl, hr3, hes⟩ := h
  swap
  · rw [hr2] at hr3
    have hc : t3.ctlState = .off := congrArg Regs.ctlState hr3
    have he : t3.ses = _ := congrArg Regs.ses hr3
    refine gives_pure ht3 _ ⟨?_, by rw [hc, he, hr3]⟩
    rw [hc, he]
    obtain rfl | rfl := hes
    · simpa [sendAn] using EnableTrace.anFails _ _ hk
    · simpa [sendAn, sendAksv] using EnableTrace.aksvFails _ _ hk
  refine (readBksv_gives ht3).bind fun a es t4 ht4 hp4 _ h => ?_
  have he3 : t3.ses = _ := (congrArg Regs.ses hr3).trans he2
  rw [hr3, hr2, he3] at h
  obtain ⟨rfl, rfl, hr4⟩ | ⟨k, rfl, hw, rfl, hr4⟩ | ⟨k, rfl, hw, rfl, hr4⟩ := h
  · have hc : t4.ctlState = .off := congrArg Regs.ctlState hr4
    have he : t4.ses = _ := congrArg Regs.ses hr4
    refine gives_pure ht4 _ ⟨?_, by rw [hc, he, hr4]⟩
    rw [hc, he]
    simpa [sendAn, sendAksv] using EnableTrace.bksvFails _ _ hk
  · have hc : t4.ctlState = .off := congrArg Regs.ctlState hr4
    have he : t4.ses = _ := congrArg Regs.ses hr4
    refine gives_pure ht4 _ ⟨?_, by rw [hc, he, hr4]⟩
    rw [hc, he]
    simpa [sendAn, sendAksv] using EnableTrace.badBksv k _ _ (.exchanged _ _ hk) hw
  · have he : t4.ses = _ := congrArg Regs.ses hr4
    have hx := ExchangeTrace.exchanged (k := k) _ _ hk
    rw [← show t4.prm = s.prm by rw [hp4, hp3, hp2, hp]] at hx ⊢
    refine (enableWithBksv_gives ht4 (by rw [he]; exact hx) hw).mono fun ok es t5 _ h => ?_
    obtain ⟨h, hr5⟩ := h
    refine ⟨by simpa [sendAn, sendAksv] using h, ?_⟩
    rw [hr5, hr4]

/-- HDCP_ENABLE's body: the capability gate, then one of the two sequences (R143). -/
theorem enableHdcp_gives {s : State} (hs : s.undisturbed = true) (on : Bool) :
    Gives (enableHdcp on) s fun ok es t =>
      (s.hdcpSupported = false ∧ ok = false ∧ es = [] ∧ t = s) ∨
        (s.hdcpSupported = true ∧ LevelTrace s.prm s.ses on es ok t.ctlState t.ses ∧
          t.regs = { s.regs with ctlState := t.ctlState, ses := t.ses }) := by
  refine Gives.get_bind ?_
  by_cases h : s.hdcpSupported = true
  · rw [if_pos h]
    cases on
    · refine (disableSequence_gives hs).mono fun ok es t _ h' => .inr ⟨h, ?_, ?_⟩
      · rw [show t.ses = s.ses from congrArg Regs.ses h'.2]; exact .disable _ _ _ h'.1
      · rw [show t.ses = s.ses from congrArg Regs.ses h'.2]; exact h'.2
    · exact (enableSequence_gives hs).mono fun ok es t _ h' => .inr ⟨h, .enable _ _ _ _ h'.1, h'.2⟩
  · rw [if_neg h]
    exact gives_pure hs _ (.inl ⟨by simpa using h, rfl, rfl, rfl⟩)

/-- SET_ENCRYPTION_LEVEL's body (R153). -/
theorem encryptionLevel_gives {s : State} (hs : s.undisturbed = true) (on : Bool) :
    Gives (encryptionLevel on) s fun st es t => ∃ ok, st = levelStatus ok ∧
      ((s.hdcpSupported = false ∧ ok = false ∧ es = [] ∧ t = s) ∨
        (s.hdcpSupported = true ∧ LevelTrace s.prm s.ses on es ok t.ctlState t.ses ∧
          t.regs = { s.regs with ctlState := t.ctlState, ses := t.ses })) := by
  refine (enableHdcp_gives hs on).bind fun ok es t ht _ _ h => ?_
  cases ok
  · exact gives_pure ht _ ⟨false, rfl, by simpa using h⟩
  · exact gives_pure ht _ ⟨true, rfl, by simpa using h⟩

end Sys2Proof.Machine
end

