-- ==== Sys2Proof/Laws/Repeater.lean ====
section
/-! SUPPORT. What the micro-programs of the receiver I/O sequencer (42_receiver_io.md), the validator (43_validator.md)
and the repeater verifier (44_repeater.md) do, said once for runs that no reset disturbs. -/

namespace Sys2Proof.Machine

open Sys2Proof

/-! ## Receiver I/O -/

theorem touches_iff (sub : Byte) {n : Nat} (hn : 0 < n) {r : Nat × Nat} (hr : r.1 ≤ r.2) :
    touches sub n r = true ↔ Touches sub n r := by
  simp only [touches, Touches, Bool.and_eq_true, decide_eq_true_eq]
  exact ⟨fun _ => ⟨r.1 - sub.toNat, by omega⟩, fun ⟨_, _⟩ => by omega⟩

/-- The check of RX_READ is R170's. -/
theorem crossesRegions_iff (sub : Byte) {n : Nat} (hn : 0 < n) : crossesRegions sub n = true ↔ CrossesRegions sub n := by
  have hle : ∀ r ∈ receiverRegions, r.1 ≤ r.2 := by decide
  simp only [crossesRegions, CrossesRegions, ksvFifoSub, Bool.and_eq_true, bne_iff_ne, List.any_eq_true, and_assoc]
  exact and_congr_right fun _ => exists_congr fun r => and_congr_right fun h => exists_congr fun r' =>
    and_congr_right fun h' => and_congr_right fun _ =>
      and_congr (touches_iff sub hn (hle r h)) (touches_iff sub hn (hle r' h'))

/-- The check of RX_WRITE is R60's. -/
theorem touches_ainfo_iff (sub : Byte) {n : Nat} (hn : 0 < n) :
    touches sub n (ainfoSub.toNat, ainfoSub.toNat) = true ↔ WritesAinfo sub n :=
  touches_iff sub hn (Nat.le_refl _)

/-- One serial read that raises where it fails (42_receiver_io.md R170). -/
theorem rxRead_gives {s : State} (hs : s.undisturbed = true) (sub : Byte) (size : Nat) :
    Gives (rxRead sub size) s fun a es t => t.regs = s.regs ∧
      ((a = none ∧ es = [.serialRead sub size none, .raised (.serialIOFailure sub)]) ∨
        (∃ bytes, a = some bytes ∧ bytes.length = size ∧ es = [.serialRead sub size (some bytes)])) := by
  refine (serialRead_gives hs _ _).bind fun a es t ht hp _ h => ?_
  obtain ⟨rfl, hr, hl, -⟩ := h
  cases a with
  | none =>
    refine (raiseFailure_gives ht _).bind fun _ es t2 ht2 _ _ h => ?_
    obtain ⟨rfl, hr2, -⟩ := h
    exact gives_pure ht2 _ ⟨hr2.trans hr, .inl ⟨rfl, rfl⟩⟩
  | some bytes => exact gives_pure ht _ ⟨hr, .inr ⟨bytes, rfl, hl _ rfl, rfl⟩⟩

/-- The V′ blocks, in order; the first that fails ends them (42_receiver_io.md R173). -/
theorem readVBlocks_gives (subs : List Byte) {s : State} (hs : s.undisturbed = true) :
    Gives (readVBlocks subs) s fun a es t => t.regs = s.regs ∧ BlocksTrace subs es a := by
  induction subs generalizing s with
  | nil => exact gives_pure hs _ ⟨rfl, .done⟩
  | cons sub subs ih =>
    refine (rxRead_gives hs _ _).bind fun a es t ht hp _ h => ?_
    obtain ⟨hr, ⟨rfl, rfl⟩ | ⟨bytes, rfl, hl, rfl⟩⟩ := h
    · refine (raiseFailure_gives ht _).bind fun _ es t2 ht2 _ _ h => ?_
      obtain ⟨rfl, hr2, -⟩ := h
      exact gives_pure ht2 _ ⟨hr2.trans hr, .fails sub subs⟩
    · obtain ⟨b0, b1, b2, b3, rfl⟩ : ∃ b0 b1 b2 b3, bytes = [b0, b1, b2, b3] := by
        match bytes, hl with
        | [b0, b1, b2, b3], _ => exact ⟨b0, b1, b2, b3, rfl⟩
      refine (ih ht).bind fun ws es t2 ht2 _ _ h => ?_
      have hb := BlocksTrace.block sub b0 b1 b2 b3 subs es ws h.2
      cases ws with
      | none => exact gives_pure ht2 _ ⟨h.1.trans hr, by simpa using hb⟩
      | some ws => exact gives_pure ht2 _ ⟨h.1.trans hr, by simpa [leWord_four] using hb⟩

/-- RX_READ_VPRIME's body (42_receiver_io.md R173). -/
theorem readVPrime_gives {s : State} (hs : s.undisturbed = true) :
    Gives readVPrime s fun a es t => t.regs = s.regs ∧ VPrimeTrace es a := by
  refine (readVBlocks_gives vprimeSubs hs).bind fun ws es t ht _ _ h => ?_
  cases ws with
  | none => exact gives_pure ht _ ⟨h.1, none, by simpa [vprimeSubs] using h.2, rfl⟩
  | some ws => exact gives_pure ht _ ⟨h.1, some ws, by simpa [vprimeSubs] using h.2, rfl⟩

/-! ## Revocation (43_validator.md R181, R182) -/

theorem revokedBy_eq (k : Ksv) (es : List Ksv) : revokedBy k es = es.any fun e => decide (e = k) := by
  induction es with
  | nil => rfl
  | cons e es ih => by_cases h : e = k <;> simp [revokedBy, h, ih]

theorem anyRevoked_eq (rs ks : List Ksv) : anyRevoked rs ks = anyIn ks rs := by
  induction ks with
  | nil => rfl
  | cons k ks ih =>
    simp only [anyRevoked, revokedBy_eq, ih, anyIn, List.any_cons]
    cases rs.any fun e => decide (e = k) <;> simp

/-! ## The SHA-1 input buffer (44_repeater.md R196 to R199) -/

theorem shaLength_bounds (count : Nat) :
    shaLength count % 64 = 0 ∧ 5 * count + 18 ≤ shaLength count ∧ shaLength count < 5 * count + 18 + 64 := by
  simp only [shaLength, ksvBytes, topoBytes, moBytes, lenBytes, shaBlock]; omega

theorem shaLength_le (count : Nat) (h : count ≤ 127) : 64 ≤ shaLength count ∧ shaLength count ≤ 704 := by
  simp only [shaLength, ksvBytes, topoBytes, moBytes, lenBytes, shaBlock]; omega

theorem leBytes_getD (n v k : Nat) : (leBytes n v).getD k 0 = if k < n then BitVec.ofNat 8 (v / 256 ^ k) else 0 := by
  induction n generalizing v k with
  | zero => simp [leBytes]
  | succ n ih =>
    cases k with
    | zero => simp [leBytes]
    | succ k =>
      simp only [leBytes, List.getD_cons_succ, ih, Nat.add_lt_add_iff_right, Nat.div_div_eq_div_mul, Nat.pow_succ']

theorem be64Bytes_getD (v k : Nat) (h : k < 8) : (be64Bytes v).getD k 0 = BitVec.ofNat 8 (v / 256 ^ (7 - k)) := by
  unfold be64Bytes
  rw [List.getD_eq_getElem?_getD, List.getElem?_reverse (by simpa using h), ← List.getD_eq_getElem?_getD,
    leBytes_length, leBytes_getD, if_pos (by omega)]

/-- BUILD_SHA1_BUFFER writes exactly the layout of R197 and keeps the canonical form. -/
theorem fillShaBuffer_layout (ksvs : List Byte) (count : Nat) (topology : BitVec 16) (hk : ksvs.length = 5 * count)
    {m : Memory} (hm : m.wf = true) :
    (fillShaBuffer ksvs count topology m).wf = true ∧
      ∀ j, (fillShaBuffer ksvs count topology m).read j =
        if j < shaLength count then layoutByte ksvs count topology (shaLength count) j else m.read j := by
  have hB := shaLength_bounds count
  unfold fillShaBuffer
  have h1 := Memory.writeBytes_wf 0 (List.replicate (shaLength count) 0) hm
  have h2 := Memory.writeBytes_wf 0 ksvs h1
  have h3 := Memory.write_wf (ksvBytes * count) (topology.extractLsb' 0 8) h2
  have h4 := Memory.write_wf (ksvBytes * count + 1) (topology.extractLsb' 8 8) h3
  refine ⟨Memory.writeBytes_wf _ _ h4, fun j => ?_⟩
  rw [Memory.read_writeBytes _ _ _ h4, Memory.read_write _ _ _ h3, Memory.read_write _ _ _ h2,
    Memory.read_writeBytes _ _ _ h1, Memory.read_writeBytes _ _ _ hm]
  simp only [be64Bytes_length, List.length_replicate, hk, Nat.zero_le, true_and, Nat.zero_add, Nat.sub_zero,
    ksvBytes, lenBytes]
  unfold layoutByte
  by_cases hj : j < shaLength count
  · simp only [if_pos hj]
    by_cases a : j < 5 * count
    · simp only [if_pos a]
      rw [if_neg (by omega), if_neg (by omega), if_neg (by omega)]
    by_cases b : j = 5 * count
    · simp only [if_neg a, if_pos b]
      rw [if_neg (by omega), if_neg (by omega)]
      apply BitVec.eq_of_toNat_eq; simp
    by_cases c : j = 5 * count + 1
    · simp only [if_neg a, if_neg b, if_pos c]
      rw [if_neg (by omega)]
      apply BitVec.eq_of_toNat_eq
      simp [Nat.shiftRight_eq_div_pow]
    by_cases d : j < shaLength count - 8
    · simp only [if_neg a, if_neg b, if_neg c, if_pos d]
      rw [if_neg (by omega)]
      simp [hj]
    · simp only [if_neg a, if_neg b, if_neg c, if_neg d]
      rw [if_pos (by omega), be64Bytes_getD _ _ (by omega)]
      congr 2
      congr 1; omega
  · simp only [if_neg hj]
    rw [if_neg (by omega), if_neg (by omega), if_neg (by omega), if_neg (by omega)]

theorem readBytes_layout (ksvs : List Byte) (count : Nat) (topology : BitVec 16) {m : Memory}
    (h : ∀ j, j < shaLength count → m.read j = layoutByte ksvs count topology (shaLength count) j) (a n : Nat)
    (hn : a + n ≤ shaLength count) :
    m.readBytes a n = ((layoutBytes ksvs count topology (shaLength count)).drop a).take n := by
  apply List.ext_getElem
  · simp [layoutBytes]; omega
  · intro i h1 h2
    have hi : i < n := by simpa using h1
    simp [Memory.readBytes, layoutBytes, h (a + i) (by omega)]

/-! ## Feeding the SHA-1 engine (44_repeater.md R200 to R208) -/

theorem FeedsTrace.append {p : Params} {fs gs : List (BitVec 3 × Word)} {es es' : List Event} {ok : Bool}
    (h : FeedsTrace p fs es true) (h' : FeedsTrace p gs es' ok) : FeedsTrace p (fs ++ gs) (es ++ es') ok := by
  generalize hb : true = b at h
  induction h with
  | done => exact h'
  | feed f fs es es2 ok hf _ ih => rw [List.append_assoc]; exact .feed f _ _ _ _ hf (ih hb)
  | timeout => cases hb

theorem FeedsTrace.append_false {p : Params} {fs : List (BitVec 3 × Word)} (gs : List (BitVec 3 × Word))
    {es : List Event} (h : FeedsTrace p fs es false) : FeedsTrace p (fs ++ gs) es false := by
  generalize hb : false = b at h
  induction h with
  | done => cases hb
  | feed f fs es es2 ok hf _ ih => exact .feed f _ _ _ _ hf (ih hb)
  | timeout f fs es hf => exact .timeout f _ _ hf

@[simp] theorem countP_wordFed_reads (r : CipherReg) (vs : List Word) :
    (vs.map (Event.cipherRead r)).countP Event.isWordFed = 0 := by
  induction vs with
  | nil => rfl
  | cons v vs ih => simp [Event.isWordFed]

theorem PollHit.wordFed {r : CipherReg} {test : Word → Bool} {es : List Event} (h : PollHit r test es) :
    es.countP Event.isWordFed = 0 := by
  obtain ⟨vs, v, -, -, -, rfl⟩ := h
  rw [List.countP_append, countP_wordFed_reads]; rfl

theorem PollMiss.wordFed {r : CipherReg} {test : Word → Bool} {es : List Event} (h : PollMiss r test es) :
    es.countP Event.isWordFed = 0 := by
  obtain ⟨vs, -, -, rfl⟩ := h
  exact countP_wordFed_reads r vs

theorem FeedEvents.wordFed {p : Params} {f : BitVec 3 × Word} {es : List Event} (h : FeedEvents p f es) :
    es.countP Event.isWordFed = 1 := by
  obtain ⟨d, ps, hps, rfl⟩ := h
  simp [fieldWrite, hps.wordFed, Event.isWordFed, List.countP_cons]

theorem FeedTimeout.wordFed {p : Params} {m : BitVec 3} {es : List Event} (h : FeedTimeout p m es) :
    es.countP Event.isWordFed = 0 := by
  obtain ⟨d, ps, hps, rfl⟩ := h
  simp [fieldWrite, hps.wordFed, Event.isWordFed]

theorem FeedsTrace.wordFed {p : Params} {fs : List (BitVec 3 × Word)} {es : List Event}
    (h : FeedsTrace p fs es true) : es.countP Event.isWordFed = fs.length := by
  generalize hb : true = b at h
  induction h with
  | done => rfl
  | feed f fs es es2 ok hf _ ih => rw [List.countP_append, hf.wordFed, ih hb, List.length_cons, Nat.add_comm]
  | timeout => cases hb

/-- One FEED: the control write, the poll, the word (R201); a poll that runs out writes no word (R208). -/
theorem feed_gives {s : State} (hs : s.undisturbed = true) (mode : BitVec 3) (w : Word) :
    Gives (feed mode w) s fun ok es t => t.regs = s.regs ∧ FeedsTrace s.prm [(mode, w)] es ok := by
  refine Gives.get_bind ?_
  refine Gives.bind (Gives.get_bind (cipherWriteField_gives hs _ _ _)) fun _ es t ht hp _ h => ?_
  obtain ⟨d, rfl, -, hr, -⟩ := h
  refine (pollMax_gives _ _ ht).bind fun a es t2 ht2 _ _ h => ?_
  obtain ⟨hr2, -, ⟨ha, hps⟩ | ⟨ha, hps⟩⟩ := h
  · simp only [ha, if_true]
    refine (cipherWrite_gives ht2 _ _).bind fun _ es' t3 ht3 _ _ h => ?_
    obtain ⟨rfl, hr3, -⟩ := h
    refine gives_pure ht3 _ ⟨by rw [hr3, hr2, hr], ?_⟩
    simpa using FeedsTrace.feed (mode, w) [] _ [] true ⟨d, es, hps, rfl⟩ .done
  · simp only [ha, Bool.false_eq_true, if_false]
    refine (raiseFailure_gives ht2 _).bind fun _ es' t3 ht3 _ _ h => ?_
    obtain ⟨rfl, hr3, -⟩ := h
    refine gives_pure ht3 _ ⟨by rw [hr3, hr2, hr], ?_⟩
    simpa using FeedsTrace.timeout (mode, w) [] _ ⟨d, es, hps, rfl⟩

/-- A piece of the feeder that feeds the chunks `a` to `a + n - 1` of `chunk`, in order; a timeout ends it. -/
def Feeds (r : Session) (count : Nat) (chunk : Nat → BitVec 3 × Word) (a n : Nat) (x : Op Bool) (s : State) : Prop :=
  Gives x s fun ok es t =>
    FeedsTrace s.prm ((List.range' a n).map chunk) es ok ∧
      t.regs = { s.regs with ses := r.fed count (a + es.countP Event.isWordFed) }

theorem Feeds.seq {r : Session} {count : Nat} {chunk : Nat → BitVec 3 × Word} {a n m k : Nat} {x y : Op Bool}
    {s : State} (hk : k = n + m) (hx : Feeds r count chunk a n x s)
    (hy : ∀ t : State, t.undisturbed = true → t.prm = s.prm → t.regs = { s.regs with ses := r.fed count (a + n) } →
      Feeds r count chunk (a + n) m y t) :
    Feeds r count chunk a k (do if ← x then y else return false) s := by
  subst hk
  refine Gives.bind hx fun ok es t ht hp _ h => ?_
  obtain ⟨h1, hr⟩ := h
  have hsplit : (List.range' a (n + m)).map chunk =
      (List.range' a n).map chunk ++ (List.range' (a + n) m).map chunk := by
    rw [← List.map_append, List.range'_append_1]
  rw [hsplit]
  cases ok with
  | false => exact gives_pure ht _ ⟨by simpa using h1.append_false _, by simpa using hr⟩
  | true =>
    have hn : es.countP Event.isWordFed = n := by rw [h1.wordFed]; simp
    rw [hn] at hr
    refine (hy t ht hp hr).mono fun ok es' u _ h => ?_
    rw [hp] at h
    refine ⟨h1.append h.1, ?_⟩
    rw [h.2, hr, List.countP_append, hn, Nat.add_assoc]

/-- The registers after one more word. -/
theorem Session.fed_pos (r : Session) (count n : Nat)
    (h : min 8 (5 * count + 2 + 8 - 4 * n) = min 8 (5 * count + 2 + 8 - 4 * (n + 1))) :
    { r.fed count n with pos := BitVec.ofNat 11 (4 * n + 4) } = r.fed count (n + 1) := by
  unfold Session.fed
  rw [← h]
  rfl

theorem Session.fed_moLeft (r : Session) (count n left : Nat)
    (h : left = min 8 (5 * count + 2 + 8 - 4 * (n + 1))) :
    { r.fed count n with pos := BitVec.ofNat 11 (4 * n + 4), moLeft := BitVec.ofNat 4 left } =
      r.fed count (n + 1) := by
  unfold Session.fed
  rw [← h]
  rfl

/-- One word at chunk `k`. -/
theorem feedAt_gives {s : State} (hs : s.undisturbed = true) (pos : Nat) (mode : BitVec 3) (w : Word) :
    Gives (feedAt pos mode w) s fun ok es t =>
      FeedsTrace s.prm [(mode, w)] es ok ∧
        t.regs = if ok then { s.regs with ses := { s.ses with pos := BitVec.ofNat 11 (pos + 4) } } else s.regs := by
  refine (feed_gives hs mode w).bind fun ok es t ht hp _ h => ?_
  cases ok with
  | false => exact gives_pure ht _ ⟨by simpa using h.2, by simpa using h.1⟩
  | true =>
    refine (setSes_gives ht _).bind fun _ es' t2 ht2 _ _ h' => ?_
    obtain ⟨rfl, hr, -⟩ := h'
    exact gives_pure ht2 _ ⟨by simpa using h.2, by rw [hr, h.1]; rfl⟩

/-- A word at chunk `a`, followed by a write of `s.mo_left`. -/
theorem feedAt_feeds {s : State} (hs : s.undisturbed = true) {r : Session} {count : Nat}
    {chunk : Nat → BitVec 3 × Word} {a : Nat} {mode : BitVec 3} {w : Word} {left : Nat}
    (he : s.ses = r.fed count a) (hc : chunk a = (mode, w)) (hl : left = min 8 (5 * count + 2 + 8 - 4 * (a + 1))) :
    Feeds r count chunk a 1
      (do
        if ← feedAt (4 * a) mode w then
          setSes fun x => { x with moLeft := BitVec.ofNat 4 left }
          return true
        else return false) s := by
  refine (feedAt_gives hs _ _ _).bind fun ok es t ht hp _ h => ?_
  obtain ⟨h1, hr⟩ := h
  cases ok with
  | false =>
    have hz : es.countP Event.isWordFed = 0 := by
      cases h1 with
      | feed _ _ _ _ _ _ h => cases h
      | timeout _ _ _ hf => exact hf.wordFed
    refine gives_pure ht _ ⟨by simpa [hc] using h1, ?_⟩
    simp only [List.append_nil, hz, Nat.add_zero, ← he]
    exact hr
  | true =>
    have hz : es.countP Event.isWordFed = 1 := h1.wordFed
    refine (setSes_gives ht _).bind fun _ es' t2 ht2 _ _ h' => ?_
    obtain ⟨rfl, hr2, -⟩ := h'
    refine gives_pure ht2 _ ⟨by simpa [hc] using h1, ?_⟩
    simp only [List.append_nil, hz, if_true] at hr ⊢
    rw [hr2, hr, ← Session.fed_moLeft r count a left hl, he]

/-- Whole text words: phases 1 and 5 (R202, R206). -/
theorem feedText_feeds (n : Nat) {s : State} (hs : s.undisturbed = true) {r : Session} {count : Nat}
    {chunk : Nat → BitVec 3 × Word} {a : Nat} (he : s.ses = r.fed count a)
    (hc : ∀ k, a ≤ k → k < a + n → chunk k = (s.prm.ctrlText32, beWord (s.shabuf.readBytes (4 * k) 4)))
    (hl : ∀ k, a ≤ k → k < a + n → 4 * k + 4 ≤ 5 * count + 2 ∨ 5 * count + 10 ≤ 4 * k) :
    Feeds r count chunk a n (feedText n (4 * a)) s := by
  induction n generalizing s a with
  | zero =>
    refine gives_pure hs _ ⟨.done, ?_⟩
    simp only [List.countP_nil, Nat.add_zero, ← he]; rfl
  | succ n ih =>
    refine Gives.get_bind (Gives.get_bind ?_)
    refine Feeds.seq (n := 1) (m := n) (y := feedText n (4 * a + 4)) (Nat.add_comm n 1) ?_ ?_
    · refine (feedAt_gives hs _ _ _).mono fun ok es t _ h => ?_
      obtain ⟨h1, hr⟩ := h
      have hk := hc a (Nat.le_refl a) (by omega)
      cases ok with
      | false =>
        have hz : es.countP Event.isWordFed = 0 := by
          cases h1 with
          | feed _ _ _ _ _ _ h => cases h
          | timeout _ _ _ hf => exact hf.wordFed
        refine ⟨by simpa [hk] using h1, ?_⟩
        simp only [hz, Nat.add_zero, ← he]
        exact hr
      | true =>
        refine ⟨by simpa [hk] using h1, ?_⟩
        have hz : es.countP Event.isWordFed = 1 := h1.wordFed
        simp only [hz, if_true] at hr ⊢
        have hm := hl a (Nat.le_refl a) (by omega)
        rw [hr, ← Session.fed_pos r count a (by omega), he]
    · intro t ht hp hr
      have hsh : t.shabuf = s.shabuf := congrArg Regs.shabuf hr
      refine ih ht (congrArg Regs.ses hr) (fun k h1 h2 => ?_) (fun k h1 h2 => hl k (by omega) (by omega))
      rw [hp, hsh]; exact hc k (by omega) (by omega)

/-- A word of zeros. -/
theorem beWord_zeros (n : Nat) : beWord (List.replicate n 0) = 0 := by
  have h : ∀ n, leNat (List.replicate n (0 : Byte)) = 0 := by
    intro n
    induction n with
    | zero => rfl
    | succ n ih => rw [List.replicate_succ, leNat, ih]; rfl
  rw [beWord, beNat, List.reverse_replicate, h]; rfl

/-- The five phases feed the chunks of the buffer, in order, each in the mode that fits its content (R202 to R207). -/
theorem feedPhases_feeds {s : State} (hs : s.undisturbed = true) {r : Session} {ksvs : List Byte} {count : Nat}
    {topology : BitVec 16} (he : s.ses = r.fed count 0)
    (hm : ∀ j, j < shaLength count → s.shabuf.read j = layoutByte ksvs count topology (shaLength count) j) :
    Feeds r count (expectedFeed s.prm (layoutBytes ksvs count topology (shaLength count)) (5 * count + 2)) 0
      (shaLength count / 4) (feedPhases count) s := by
  have hB := shaLength_bounds count
  generalize hTdef : 5 * count + 2 = T
  have hT : textBytes count = T := by simp only [textBytes, ksvBytes, topoBytes]; exact hTdef
  -- the words of a state that still holds the buffer
  have hread : ∀ t : State, t.shabuf = s.shabuf → ∀ k, 4 * k + 4 ≤ shaLength count →
      t.shabuf.readBytes (4 * k) 4 =
        ((layoutBytes ksvs count topology (shaLength count)).drop (4 * k)).take 4 := by
    intro t ht k hk
    rw [ht]
    exact readBytes_layout ksvs count topology hm (4 * k) 4 hk
  unfold feedPhases
  rw [hT]
  generalize hrdef : T % 4 = rem
  have hrem : rem < 4 := by omega
  obtain ⟨a, ha⟩ : ∃ a, T - rem = 4 * a := ⟨(T - rem) / 4, by omega⟩
  have hTa : T = 4 * a + rem := by omega
  simp only [ha, Nat.mul_div_cancel_left a (show 0 < 4 by omega)]
  -- where phases 3 and 5 start
  obtain ⟨a3, h3, h3'⟩ : ∃ a3, (if rem = 0 then 4 * a else 4 * a + 4) = 4 * a3 ∧ a3 = a + (if rem = 0 then 0 else 1) := by
    by_cases hz : rem = 0
    · exact ⟨a, by simp [hz], by simp [hz]⟩
    · exact ⟨a + 1, by simp [hz]; omega, by simp [hz]⟩
  have hleft : ∃ left, (if rem = 0 then moBytes - 4 else moBytes - (4 - rem) - 4) = left ∧ 0 < left ∧ left ≤ 4 ∧
      4 * a3 + 4 + left = T + 8 := by
    refine ⟨_, rfl, ?_⟩
    by_cases hz : rem = 0
    · simp only [hz, if_true, moBytes] at h3' ⊢; omega
    · simp only [hz, if_false, moBytes] at h3' ⊢; omega
  obtain ⟨left, hl, hl0, hl4, hlT⟩ := hleft
  simp only [h3, hl, if_neg (show ¬ left = 0 by omega)]
  have h2le : a + (if rem = 0 then 0 else 1) = a3 := h3'.symm
  refine Feeds.seq (n := a) (m := shaLength count / 4 - a) (by omega) ?_ ?_
  · -- phase 1
    refine feedText_feeds a hs he (fun k _ hk => ?_) (fun k _ hk => .inl (by omega))
    rw [hread s rfl k (by omega)]
    unfold expectedFeed
    rw [if_pos (by omega)]
    rfl
  intro t1 ht1 hp1 hr1
  have hb1 : t1.shabuf = s.shabuf := congrArg Regs.shabuf hr1
  rw [← hp1, Nat.zero_add]
  rw [Nat.zero_add] at hr1
  refine Feeds.seq (n := if rem = 0 then 0 else 1) (m := shaLength count / 4 - a3) (by omega) ?_ ?_
  · -- phase 2
    unfold feedPartial
    by_cases hz : rem = 0
    · rw [if_pos hz, if_pos hz]
      refine gives_pure ht1 _ ⟨.done, ?_⟩
      rw [hr1]; rfl
    · rw [if_neg hz, if_neg hz]
      refine Gives.get_bind ?_
      refine feedAt_feeds ht1 (congrArg Regs.ses hr1) ?_ ?_
      · rw [hread t1 hb1 a (by omega)]
        unfold expectedFeed
        rw [if_neg (by omega), if_pos (by omega), show T - 4 * a = rem by omega]
      · simp only [moBytes]; omega
  intro t2 ht2 hp2 hr2
  have hb2 : t2.shabuf = s.shabuf := (congrArg Regs.shabuf hr2).trans hb1
  rw [← hp2, h2le]
  rw [h2le] at hr2
  refine Feeds.seq (n := 1) (m := shaLength count / 4 - a3 - 1) (by omega) ?_ ?_
  · -- phase 3
    unfold feedMo
    refine Gives.get_bind ?_
    refine feedAt_feeds ht2 (congrArg Regs.ses hr2) ?_ (by omega)
    unfold expectedFeed
    rw [if_neg (by omega), if_neg (by omega), if_pos (by omega)]
    rfl
  intro t3 ht3 hp3 hr3
  have hb3 : t3.shabuf = s.shabuf := (congrArg Regs.shabuf hr3).trans hb2
  rw [← hp3]
  refine Feeds.seq (n := 1) (m := shaLength count / 4 - a3 - 2) (by omega) ?_ ?_
  · -- phase 4
    unfold feedMoRest
    refine Gives.get_bind ?_
    rw [if_neg (by omega)]
    refine Gives.get_bind ?_
    change Feeds r count _ (a3 + 1) 1
      (do
        if ← feedAt (4 * (a3 + 1)) _ (beWord (t3.shabuf.readBytes (4 * (a3 + 1)) 4)) then
          setSes fun x => { x with moLeft := BitVec.ofNat 4 0 }
          return true
        else return false) t3
    refine feedAt_feeds ht3 (congrArg Regs.ses hr3) ?_ (by omega)
    rw [hread t3 hb3 (a3 + 1) (by omega)]
    unfold expectedFeed
    rw [if_neg (by omega), if_neg (by omega)]
    by_cases hz : left = 4
    · have hzero : ((layoutBytes ksvs count topology (shaLength count)).drop (4 * (a3 + 1))).take 4 =
          List.replicate 4 0 := by
        rw [← hread t3 hb3 (a3 + 1) (by omega), hb3]
        simp only [Memory.readBytes, List.eq_replicate_iff, List.length_map, List.length_range, List.mem_map,
          List.mem_range, true_and]
        rintro x ⟨i, hi, rfl⟩
        rw [hm _ (by omega)]
        unfold layoutByte
        rw [if_neg (by omega), if_neg (by omega), if_neg (by omega), if_pos (by omega)]
      rw [if_pos (by omega), hzero, beWord_zeros, hz]
    · rw [if_neg (by omega), if_pos (by omega)]
      congr 2
      omega
  intro t4 ht4 hp4 hr4
  have hb4 : t4.shabuf = s.shabuf := (congrArg Regs.shabuf hr4).trans hb3
  rw [← hp4]
  -- phase 5
  have hn : (shaLength count - (4 * a3 + 8)) / 4 = shaLength count / 4 - a3 - 2 := by omega
  rw [hn]
  refine feedText_feeds _ ht4 (congrArg Regs.ses hr4) (fun k h1 h2 => ?_) (fun k h1 h2 => .inr (by omega))
  rw [hread t4 hb4 k (by omega)]
  unfold expectedFeed
  rw [if_neg (by omega), if_neg (by omega), if_neg (by omega), if_neg (by omega)]
  rfl

/-- BUILD_SHA1_BUFFER's body (R196). -/
theorem buildShaBuffer_gives {s : State} (hs : s.undisturbed = true) (hw : s.shabuf.wf = true) {ksvs : List Byte}
    {count : Nat} (hk : ksvs.length = 5 * count) (topology : BitVec 16) :
    Gives (buildShaBuffer ksvs count topology) s fun _ es t =>
      es = [] ∧ HoldsShaInput ksvs count topology s.shabuf t.shabuf ∧
        t.regs = { s.regs with
          ses := { s.ses with blen := BitVec.ofNat 11 (shaLength count) }, shabuf := t.shabuf } := by
  refine (setSes_gives hs _).bind fun _ es t ht hp _ h => ?_
  obtain ⟨rfl, hr, -⟩ := h
  refine (setShabuf_gives ht _).mono fun _ es t2 _ h => ?_
  obtain ⟨rfl, hr2, -⟩ := h
  rw [hr] at hr2
  have hb : t2.shabuf = fillShaBuffer ksvs count topology s.shabuf := congrArg Regs.shabuf hr2
  exact ⟨rfl, by rw [hb]; exact fillShaBuffer_layout ksvs count topology hk hw, by rw [hb, hr2]; rfl⟩

/-- COMPUTE_TRANSMITTER_V's body: the buffer, then one feed for each of its chunks (R200 to R208). -/
theorem computeV_gives {s : State} (hs : s.undisturbed = true) (hw : s.shabuf.wf = true) {ksvs : List Byte}
    {count : Nat} (hk : ksvs.length = 5 * count) (topology : BitVec 16) :
    Gives (computeV ksvs count topology) s fun ok es t =>
      FeedsTrace s.prm (expectedFeeds s.prm ksvs count topology) es ok ∧
        HoldsShaInput ksvs count topology s.shabuf t.shabuf ∧
        t.regs = { s.regs with ses := s.ses.fed count (es.countP Event.isWordFed), shabuf := t.shabuf } := by
  refine (buildShaBuffer_gives hs hw hk topology).bind fun _ es t ht hp _ h => ?_
  obtain ⟨rfl, hh, hr⟩ := h
  refine (setSes_gives ht _).bind fun _ es t2 ht2 hp2 _ h => ?_
  obtain ⟨rfl, hr2, -⟩ := h
  rw [hr] at hr2
  have he : t2.ses = s.ses.fed count 0 := by
    have h := congrArg Regs.ses hr2
    refine h.trans ?_
    unfold Session.fed
    rw [show min 8 (5 * count + 2 + 8 - 4 * 0) = 8 by omega]
    rfl
  have hb2 : t2.shabuf = t.shabuf := congrArg Regs.shabuf hr2
  refine (feedPhases_feeds ht2 (ksvs := ksvs) (topology := topology) he fun j hj => ?_).mono fun ok es u _ h => ?_
  · rw [hb2, hh.2 j, if_pos hj]
  · rw [hp2, hp, ← List.range_eq_range'] at h
    have hbu : u.shabuf = t.shabuf := (congrArg Regs.shabuf h.2).trans hb2
    refine ⟨h.1, by rw [hbu]; exact hh, ?_⟩
    rw [hbu, h.2, hr2, Nat.zero_add]
    rfl

/-! ## The V′ comparison (44_repeater.md R209) -/

theorem stillComparing_iff (p : Params) (v : Word) :
    stillComparing p v = true ↔ repState p v = .busy ∨ repState p v = .readyForNextData ∨ repState p v = .other := by
  unfold stillComparing
  cases repState p v <;> decide

/-- The completion poll (R209). -/
theorem awaitCompletion_gives (n : Nat) {s : State} (hs : s.undisturbed = true) :
    Gives (awaitCompletion n) s fun ok es t => t.regs = s.regs ∧ ∃ vs : List Word,
      (∀ y ∈ vs, stillComparing s.prm y = true) ∧
        ((vs.length < n ∧ ∃ x, stillComparing s.prm x = false ∧ ok = (repState s.prm x == .completeMatch) ∧
            es = vs.map (Event.cipherRead .rep) ++ [.cipherRead .rep x]) ∨
          (vs.length = n ∧ ok = false ∧
            es = vs.map (Event.cipherRead .rep) ++ [.raised (.hardwareTimeout .repeaterComplete)])) := by
  induction n generalizing s with
  | zero =>
    refine (raiseFailure_gives hs _).bind fun _ es t ht _ _ h => ?_
    obtain ⟨rfl, hr, -⟩ := h
    exact gives_pure ht _ ⟨hr, [], by simp, .inr ⟨rfl, rfl, rfl⟩⟩
  | succ n ih =>
    refine Gives.get_bind ?_
    refine (cipherRead_gives hs _).bind fun v es t ht hp _ h => ?_
    obtain ⟨rfl, hr, -⟩ := h
    have hcont : stillComparing s.prm v = true → Gives (awaitCompletion n) t fun ok es u =>
        u.regs = s.regs ∧ ∃ vs : List Word, (∀ y ∈ vs, stillComparing s.prm y = true) ∧
          ((vs.length < n + 1 ∧ ∃ x, stillComparing s.prm x = false ∧ ok = (repState s.prm x == .completeMatch) ∧
              [.cipherRead .rep v] ++ es = vs.map (Event.cipherRead .rep) ++ [.cipherRead .rep x]) ∨
            (vs.length = n + 1 ∧ ok = false ∧ [.cipherRead .rep v] ++ es =
              vs.map (Event.cipherRead .rep) ++ [.raised (.hardwareTimeout .repeaterComplete)])) := by
      intro hv
      refine (ih ht).mono fun ok es u _ h => ?_
      rw [hp] at h
      obtain ⟨hr', vs, h1, h2⟩ := h
      refine ⟨hr'.trans hr, v :: vs, by simpa using ⟨hv, h1⟩, h2.imp ?_ ?_⟩
      · rintro ⟨hl, x, hx, rfl, rfl⟩; exact ⟨by simpa using hl, x, hx, rfl, rfl⟩
      · rintro ⟨hl, rfl, rfl⟩; exact ⟨by simpa using hl, rfl, rfl⟩
    have hend : ∀ b, stillComparing s.prm v = false → b = (repState s.prm v == .completeMatch) →
        Gives (pure b) t fun ok es u =>
        u.regs = s.regs ∧ ∃ vs : List Word, (∀ y ∈ vs, stillComparing s.prm y = true) ∧
          ((vs.length < n + 1 ∧ ∃ x, stillComparing s.prm x = false ∧ ok = (repState s.prm x == .completeMatch) ∧
              [.cipherRead .rep v] ++ es = vs.map (Event.cipherRead .rep) ++ [.cipherRead .rep x]) ∨
            (vs.length = n + 1 ∧ ok = false ∧ [.cipherRead .rep v] ++ es =
              vs.map (Event.cipherRead .rep) ++ [.raised (.hardwareTimeout .repeaterComplete)])) :=
      fun b hv hb => gives_pure ht _ ⟨hr, [], by simp, .inl ⟨by simp, v, hv, hb, rfl⟩⟩
    cases hst : repState s.prm v
    · exact hend _ (by simp [stillComparing, hst]) (by rw [hst]; rfl)
    · exact hcont (by simp [stillComparing, hst])
    · exact hcont (by simp [stillComparing, hst])
    · exact hend _ (by simp [stillComparing, hst]) (by rw [hst]; rfl)
    · exact hend _ (by simp [stillComparing, hst]) (by rw [hst]; rfl)
    · exact hcont (by simp [stillComparing, hst])

/-- COMPARE_V_PRIME's body (R209). -/
theorem compareV_gives {s : State} (hs : s.undisturbed = true) (v : VWords) :
    Gives (compareV v) s fun ok es t => t.regs = s.regs ∧ CompareTrace s.prm v es ok := by
  refine Gives.get_bind ?_
  refine Gives.bind (Q := fun _ es t => es = vprimeWrites v ∧ t.regs = s.regs) ?_ fun _ es t ht hp _ h => ?_
  · refine (cipherWrite_gives hs _ _).bind fun _ es t ht _ _ h => ?_
    obtain ⟨rfl, hr, -⟩ := h
    refine (cipherWrite_gives ht _ _).bind fun _ es t2 ht2 _ _ h => ?_
    obtain ⟨rfl, hr2, -⟩ := h
    refine (cipherWrite_gives ht2 _ _).bind fun _ es t3 ht3 _ _ h => ?_
    obtain ⟨rfl, hr3, -⟩ := h
    refine (cipherWrite_gives ht3 _ _).bind fun _ es t4 ht4 _ _ h => ?_
    obtain ⟨rfl, hr4, -⟩ := h
    refine (cipherWrite_gives ht4 _ _).mono fun _ es t5 ht5 h => ?_
    obtain ⟨rfl, hr5, -⟩ := h
    exact ⟨rfl, by rw [hr5, hr4, hr3, hr2, hr]⟩
  obtain ⟨rfl, hr⟩ := h
  refine (pollMax_gives _ _ ht).bind fun a es t2 ht2 hp2 _ h => ?_
  obtain ⟨hr2, -, ⟨ha, hps⟩ | ⟨ha, hps⟩⟩ := h
  · simp only [ha, if_true]
    refine Gives.bind (Gives.get_bind (cipherWriteField_gives ht2 _ _ _)) fun _ es' t3 ht3 hp3 _ h => ?_
    rw [hp2, hp] at h
    obtain ⟨d, rfl, -, hr3, -⟩ := h
    refine (awaitCompletion_gives _ ht3).mono fun ok es'' u _ h => ?_
    rw [hp3, hp2, hp] at h
    obtain ⟨hr4, vs, h1, h2⟩ := h
    refine ⟨by rw [hr4, hr3, hr2, hr], ?_⟩
    have hst : CompareStart s.prm v (vprimeWrites v ++ es ++
        fieldWrite .rep (controlField s.prm) (s.prm.ctrlCompleteSha1.setWidth 32) d) := ⟨d, es, hps, rfl⟩
    obtain ⟨hl, x, hx, rfl, rfl⟩ | ⟨hl, rfl, rfl⟩ := h2
    · simpa using CompareTrace.ends _ vs x hst hl h1 hx
    · simpa using CompareTrace.timeout _ vs hst hl h1
  · simp only [ha, Bool.false_eq_true, if_false]
    refine (raiseFailure_gives ht2 _).bind fun _ es' t3 ht3 _ _ h => ?_
    obtain ⟨rfl, hr3, -⟩ := h
    refine gives_pure ht3 _ ⟨by rw [hr3, hr2, hr], ?_⟩
    simpa using CompareTrace.notReady es hps

/-! ## Teardown and activation (44_repeater.md R190 to R195, R210 to R212) -/

/-- REPEATER_TEARDOWN's body (R210). -/
theorem teardown_gives {s : State} (hs : s.undisturbed = true) :
    Gives teardown s fun _ es t =>
      ∃ d m, es = teardownEvents s.prm d m ∧ t.regs = { s.regs with ctlState := .off } := by
  refine Gives.get_bind ?_
  refine (cipherWriteField_gives hs _ _ _).bind fun _ es t ht hp _ h => ?_
  obtain ⟨d, rfl, -, hr, -⟩ := h
  refine (writeMode_gives ht _).bind fun _ es t2 ht2 hp2 _ h => ?_
  obtain ⟨m, rfl, -, hr2, -⟩ := h
  refine (setCtl_gives ht2 _).mono fun _ es t3 _ h => ?_
  obtain ⟨rfl, hr3, -⟩ := h
  refine ⟨d, m, ?_, by rw [hr3, hr2, hr]⟩
  rw [hp, List.append_nil]; rfl

/-- The end of a verification that tears down (R211, R212). -/
theorem endFailed_gives {s : State} (hs : s.undisturbed = true) (revoked : Bool) :
    Gives (endFailed revoked) s fun st es t =>
      st = failStatus revoked ∧ ∃ d m, es = failEvents s.prm revoked d m ∧
        t.regs = { s.regs with ctlState := .off } := by
  cases revoked
  · refine (teardown_gives hs).bind fun _ es t ht _ _ h => ?_
    obtain ⟨d, m, rfl, hr⟩ := h
    exact gives_pure ht _ ⟨rfl, d, m, rfl, hr⟩
  · refine (teardown_gives hs).bind fun _ es t ht _ _ h => ?_
    obtain ⟨d, m, rfl, hr⟩ := h
    refine (raiseFailure_gives ht _).bind fun _ es t2 ht2 _ _ h => ?_
    obtain ⟨rfl, hr2, -⟩ := h
    exact gives_pure ht2 _ ⟨rfl, d, m, by simp [failEvents], hr2.trans hr⟩

/-- Steps 8 to 10 (R190, R211). -/
theorem verifyV_gives {s : State} (hs : s.undisturbed = true) (hw : s.shabuf.wf = true) (count : Nat)
    (topology : BitVec 16) (revoked : Bool) {bytes : List Byte} (hb : s.ksvbuf.readBytes 0 (5 * count) = bytes) :
    Gives (verifyV count topology revoked) s fun st es t => ∃ torn,
      VerifyTrace s.prm s.ses bytes count topology revoked es st torn t.ses ∧
        HoldsShaInput bytes count topology s.shabuf t.shabuf ∧
        t.regs = { s.regs with ctlState := ctlAfter torn s.ctlState, ses := t.ses, shabuf := t.shabuf } := by
  have hl : bytes.length = 5 * count := by rw [← hb]; simp
  refine Gives.get_bind ?_
  change Gives (do if ← computeV (s.ksvbuf.readBytes 0 (5 * count)) count topology then _ else _) _ _
  rw [hb]
  refine (computeV_gives hs hw hl topology).bind fun ok es t ht hp _ h => ?_
  obtain ⟨hf, hin, hr⟩ := h
  have he : t.ses = s.ses.fed count (es.countP Event.isWordFed) := congrArg Regs.ses hr
  cases ok with
  | false =>
    refine (endFailed_gives ht revoked).mono fun st es' u _ h => ?_
    obtain ⟨rfl, d, m, rfl, hr2⟩ := h
    rw [hp]
    have heu : u.ses = _ := (congrArg Regs.ses hr2).trans he
    have hbu : u.shabuf = t.shabuf := congrArg Regs.shabuf hr2
    refine ⟨true, by rw [heu]; exact .vFails es d m hf, by rw [hbu]; exact hin, ?_⟩
    rw [heu, hbu, hr2, hr]; rfl
  | true =>
    refine (readVPrime_gives ht).bind fun v es' t2 ht2 hp2 _ h => ?_
    obtain ⟨hr2, hv⟩ := h
    cases v with
    | none =>
      refine (endFailed_gives ht2 revoked).mono fun st es'' u _ h => ?_
      obtain ⟨rfl, d, m, rfl, hr3⟩ := h
      rw [hp2, hp]
      have heu : u.ses = s.ses.fed count (es.countP Event.isWordFed) := by
        have := congrArg Regs.ses hr3
        rw [hr2] at this; exact this.trans he
      rw [hr2] at hr3
      have hbu : u.shabuf = t.shabuf := congrArg Regs.shabuf hr3
      refine ⟨true, by rw [heu]; simpa using VerifyTrace.vprimeFails (r := s.ses) (revoked := revoked) es es' d m hf hv,
        by rw [hbu]; exact hin, ?_⟩
      rw [heu, hbu, hr3, hr]; rfl
    | some v =>
      refine (setSes_gives ht2 _).bind fun _ es'' t3 ht3 hp3 _ h => ?_
      obtain ⟨rfl, hr3, -⟩ := h
      rw [hr2] at hr3
      refine (compareV_gives ht3 v).bind fun same es'' t4 ht4 hp4 _ h => ?_
      obtain ⟨hr4, hc⟩ := h
      rw [hp3, hp2, hp] at hc
      rw [hr3] at hr4
      have he4 : t4.ses = { s.ses.fed count (es.countP Event.isWordFed) with vprime := v } := by
        have := congrArg Regs.ses hr4
        refine this.trans ?_
        change { t.ses with vprime := v } = _
        rw [he]
      have hb4 : t4.shabuf = t.shabuf := congrArg Regs.shabuf hr4
      have hfail : ∀ rv : Bool, rv = revoked → (revoked || !same) = true →
          Gives (endFailed rv) t4 fun st es3 u => ∃ torn,
            VerifyTrace s.prm s.ses bytes count topology revoked (es ++ (es' ++ ([] ++ (es'' ++ es3)))) st torn u.ses ∧
              HoldsShaInput bytes count topology s.shabuf u.shabuf ∧
              u.regs = { s.regs with ctlState := ctlAfter torn s.ctlState, ses := u.ses, shabuf := u.shabuf } := by
        rintro _ rfl hor
        refine (endFailed_gives ht4 _).mono fun st es3 u _ h => ?_
        obtain ⟨rfl, d, m, rfl, hr5⟩ := h
        rw [hp4, hp3, hp2, hp]
        have heu : u.ses = _ := (congrArg Regs.ses hr5).trans he4
        have hbu : u.shabuf = t4.shabuf := congrArg Regs.shabuf hr5
        refine ⟨true, by rw [heu]; simpa using VerifyTrace.rejected es es' es'' v same d m hf hv hc hor,
          by rw [hbu, hb4]; exact hin, ?_⟩
        rw [heu, hbu, hr5, hr4, hr, hb4]; rfl
      cases revoked with
      | true => exact hfail true rfl rfl
      | false =>
        cases same with
        | false => exact hfail false rfl rfl
        | true =>
          refine gives_pure ht4 _ ⟨false, by rw [he4]; simpa using VerifyTrace.verified es es' es'' v hf hv hc rfl,
            by rw [hb4]; exact hin, ?_⟩
          rw [he4, hb4, hr4, hr]; rfl

/-- The entries read back from the KSV buffer are those of the list (R195). -/
theorem ksvEntries_eq (bytes : List Byte) (n : Nat) (hl : bytes.length = 5 * n) {m : Memory} (hm : m.wf = true) :
    ksvEntries (m.writeBytes 0 bytes) n = ksvsOf bytes n ∧ (m.writeBytes 0 bytes).readBytes 0 (5 * n) = bytes := by
  have hread : ∀ a k, a + k ≤ 5 * n → (m.writeBytes 0 bytes).readBytes a k = (bytes.drop a).take k := by
    intro a k hk
    apply List.ext_getElem
    · simp; omega
    · intro i h1 h2
      have hi : i < k := by simpa using h1
      have hlt : a + i < bytes.length := by omega
      simp [Memory.readBytes, Memory.read_writeBytes _ _ _ hm, hlt]
  refine ⟨?_, ?_⟩
  · unfold ksvEntries ksvsOf
    refine List.map_congr_left fun i hi => ?_
    rw [List.mem_range] at hi
    simp only [ksvBytes]
    rw [hread _ _ (by omega)]
  · rw [hread _ _ (by omega), List.drop_zero, ← hl, List.take_length]

/-- Steps 6 and 7, then the rest (R190, R195; 43_validator.md R182). -/
theorem verifyTopology_gives {s : State} (hs : s.undisturbed = true) (hk : s.ksvbuf.wf = true)
    (hw : s.shabuf.wf = true) (n : Nat) (topology : BitVec 16) (rs : List Ksv) :
    Gives (verifyTopology n topology rs) s fun st es t =>
      (st = .unsuccessful ∧ (∃ d m, es = [.serialRead 0x43 (5 * n) none] ++ teardownEvents s.prm d m ++
          [.raised (.serialIOFailure 0x43)]) ∧ t.regs = { s.regs with ctlState := .off }) ∨
        (∃ bytes es' torn, bytes.length = 5 * n ∧ es = .serialRead 0x43 (5 * n) (some bytes) :: es' ∧
          VerifyTrace s.prm { s.ses with revoked := anyIn (ksvsOf bytes n) rs } bytes n topology
            (anyIn (ksvsOf bytes n) rs) es' st torn t.ses ∧
          t.ksvbuf = s.ksvbuf.writeBytes 0 bytes ∧ HoldsShaInput bytes n topology s.shabuf t.shabuf ∧
          t.regs = { s.regs with
            ctlState := ctlAfter torn s.ctlState, ses := t.ses, ksvbuf := t.ksvbuf, shabuf := t.shabuf }) := by
  refine (serialRead_gives hs _ _).bind fun a es t ht hp _ h => ?_
  obtain ⟨rfl, hr, hl, -⟩ := h
  cases a with
  | none =>
    refine (teardown_gives ht).bind fun _ es t2 ht2 _ _ h => ?_
    obtain ⟨d, m, rfl, hr2⟩ := h
    refine (raiseFailure_gives ht2 _).bind fun _ es t3 ht3 _ _ h => ?_
    obtain ⟨rfl, hr3, -⟩ := h
    rw [hp]
    exact gives_pure ht3 _ (.inl ⟨rfl, ⟨d, m, by simp⟩, by rw [hr3, hr2, hr]⟩)
  | some bytes =>
    have hlen : bytes.length = 5 * n := hl _ rfl
    refine (setKsvbuf_gives ht _).bind fun _ es t2 ht2 hp2 _ h => ?_
    obtain ⟨rfl, hr2, -⟩ := h
    rw [hr] at hr2
    have hkb : t2.ksvbuf = s.ksvbuf.writeBytes 0 bytes := congrArg Regs.ksvbuf hr2
    obtain ⟨hent, hread⟩ := ksvEntries_eq bytes n hlen hk
    refine Gives.get_bind ?_
    rw [hkb, hent, anyRevoked_eq]
    refine (setSes_gives ht2 _).bind fun _ es t3 ht3 hp3 _ h => ?_
    obtain ⟨rfl, hr3, -⟩ := h
    rw [hr2] at hr3
    have he3 : t3.ses = { s.ses with revoked := anyIn (ksvsOf bytes n) rs } := congrArg Regs.ses hr3
    have hk3 : t3.ksvbuf = s.ksvbuf.writeBytes 0 bytes := congrArg Regs.ksvbuf hr3
    have hs3 : t3.shabuf = s.shabuf := congrArg Regs.shabuf hr3
    refine (verifyV_gives ht3 (by rw [hs3]; exact hw) n topology _ (bytes := bytes) (by rw [hk3]; exact hread)).mono
      fun st es u _ h => ?_
    obtain ⟨torn, hv, hin, hr4⟩ := h
    rw [hp3, hp2, hp, he3] at hv
    rw [hs3] at hin
    have hku : u.ksvbuf = t3.ksvbuf := congrArg Regs.ksvbuf hr4
    refine .inr ⟨bytes, es, torn, hlen, by simp, hv, hku.trans hk3, hin, ?_⟩
    rw [hku, hk3, hr4, show t3.ctlState = s.ctlState from congrArg Regs.ctlState hr3, hr3]
    rfl

/-- ACTIVATE_REPEATER's body (R190 to R195, R211, R212). -/
theorem activate_gives {s : State} (hs : s.undisturbed = true) (hk : s.ksvbuf.wf = true) (hw : s.shabuf.wf = true)
    (rs : List Ksv) :
    Gives (activate rs) s fun st es t => ∃ torn, ActivateTrace s.prm rs s.ses es st torn t.ses ∧
      BuffersAfter es s.ksvbuf s.shabuf t.ksvbuf t.shabuf ∧ t.regs = { s.regs with
        ctlState := ctlAfter torn s.ctlState, ses := t.ses, ksvbuf := t.ksvbuf, shabuf := t.shabuf } := by
  refine Gives.get_bind ?_
  refine (serialRead_gives hs _ _).bind fun a es t ht hp _ h => ?_
  obtain ⟨rfl, hr, hl, -⟩ := h
  cases a with
  | none =>
    refine (raiseFailure_gives ht _).bind fun _ es t2 ht2 _ _ h => ?_
    obtain ⟨rfl, hr2, -⟩ := h
    rw [hr] at hr2
    have he : t2.ses = s.ses := congrArg Regs.ses hr2
    have hk2 : t2.ksvbuf = s.ksvbuf := congrArg Regs.ksvbuf hr2
    have hw2 : t2.shabuf = s.shabuf := congrArg Regs.shabuf hr2
    refine gives_pure ht2 _ ⟨false, by rw [he]; exact .bcapsFails, .inl ⟨by simp, hk2, hw2⟩, ?_⟩
    rw [he, hk2, hw2, hr2]; rfl
  | some bytes =>
  obtain ⟨b, rfl⟩ := List.length_eq_one_iff.1 (hl _ rfl)
  refine (setSes_gives ht _).bind fun _ es t2 ht2 hp2 _ h => ?_
  obtain ⟨rfl, hr2, -⟩ := h
  rw [hr] at hr2
  have early : ∀ (st : Status) (es : List Event) (u : State) (r : Session), u.regs = { s.regs with ses := r } →
      ActivateTrace s.prm rs s.ses es st false r → (∀ size bytes, Event.serialRead 0x43 size (some bytes) ∉ es) →
      ∃ torn, ActivateTrace s.prm rs s.ses es st torn u.ses ∧ BuffersAfter es s.ksvbuf s.shabuf u.ksvbuf u.shabuf ∧
        u.regs = { s.regs with
          ctlState := ctlAfter torn s.ctlState, ses := u.ses, ksvbuf := u.ksvbuf, shabuf := u.shabuf } := by
    intro st es u r h1 h2 h3
    have hk1 : u.ksvbuf = s.ksvbuf := congrArg Regs.ksvbuf h1
    have hw1 : u.shabuf = s.shabuf := congrArg Regs.shabuf h1
    refine ⟨false, by rw [show u.ses = r from congrArg Regs.ses h1]; exact h2, .inl ⟨h3, hk1, hw1⟩, ?_⟩
    rw [show u.ses = r from congrArg Regs.ses h1, hk1, hw1, h1]; rfl
  by_cases hrep : (bcaps s.prm b).isRepeater = true
  swap
  · simp only [List.getD_cons_zero, hrep, Bool.false_eq_true, if_false]
    exact gives_pure ht2 _ (early _ _ _ _ hr2 (by simpa using ActivateTrace.noRepeater b (by simpa using hrep))
      (by simp))
  by_cases hrdy : (bcaps s.prm b).ksvFifoReady = true
  swap
  · simp only [List.getD_cons_zero, hrep, hrdy, Bool.false_eq_true, if_false, if_true]
    exact gives_pure ht2 _ (early _ _ _ _ hr2 (by simpa using ActivateTrace.notReady b hrep (by simpa using hrdy))
      (by simp))
  have hready : repeaterReady s.prm b = true := by simp [repeaterReady, hrep, hrdy]
  simp only [List.getD_cons_zero, hrep, hrdy, if_true]
  refine Gives.get_bind ?_
  refine (serialRead_gives ht2 _ _).bind fun a es t3 ht3 hp3 _ h => ?_
  obtain ⟨rfl, hr3, hl3, -⟩ := h
  rw [hr2] at hr3
  have e2 : t2.prm = s.prm := hp2.trans hp
  cases a with
  | none =>
    refine (raiseFailure_gives ht3 _).bind fun _ es t4 ht4 _ _ h => ?_
    obtain ⟨rfl, hr4, -⟩ := h
    rw [hr3] at hr4
    exact gives_pure ht4 _ (early _ _ _ _ hr4 (by simpa using ActivateTrace.bstatusFails b hready)
      (by simp))
  | some bytes =>
  obtain ⟨t0, t1, rfl⟩ := List.length_eq_two.1 (hl3 _ rfl)
  rw [e2]
  simp only [le16_two]
  refine (setSes_gives ht3 _).bind fun _ es t4 ht4 hp4 _ h => ?_
  obtain ⟨rfl, hr4, -⟩ := h
  rw [hr3] at hr4
  cases hviol : topologyViolation (bstatus s.prm (t1 ++ t0)) with
  | some v =>
    refine (raiseFailure_gives ht4 _).bind fun _ es t5 ht5 _ _ h => ?_
    obtain ⟨rfl, hr5, -⟩ := h
    rw [hr4] at hr5
    exact gives_pure ht5 _ (early _ _ _ _ hr5
      (by simpa [topologyReads] using ActivateTrace.badTopology (r := s.ses) b t0 t1 v hready hviol)
      (by simp))
  | none =>
  refine (setSes_gives ht4 _).bind fun _ es t5 ht5 hp5 _ h => ?_
  obtain ⟨rfl, hr5, -⟩ := h
  rw [hr4] at hr5
  generalize hn : (bstatus s.prm (t1 ++ t0)).deviceCount = n at hr5 ⊢
  by_cases hz : n = 0
  · rw [if_pos hz]
    refine gives_pure ht5 _ (early _ _ _ _ hr5 ?_ (by simp))
    rw [hz] at hn ⊢
    simpa [topologyReads] using ActivateTrace.noDevices (r := s.ses) b t0 t1 hready hviol hn
  rw [if_neg hz]
  have e5 : t5.prm = s.prm := by rw [hp5, hp4, hp3, e2]
  refine (writeRepeaterPresent_gives ht5 true).bind fun ok es t6 ht6 hp6 _ h => ?_
  rw [e5] at h
  obtain ⟨hr6, d, v, w, rfl, hok, -⟩ := h
  rw [hr5] at hr6
  cases ok with
  | false =>
    refine gives_pure ht6 _ (early _ _ _ _ hr6 ?_ (by simp [presentWrite, fieldWrite]))
    simpa [topologyReads] using ActivateTrace.presentFails (r := s.ses) b t0 t1 d v n hready hviol hn hz
      (by simpa using hok.symm)
  | true =>
  have hv : repPresent s.prm v = true := by simpa using hok.symm
  have hk6 : t6.ksvbuf = s.ksvbuf := congrArg Regs.ksvbuf hr6
  have hw6 : t6.shabuf = s.shabuf := congrArg Regs.shabuf hr6
  have hc6 : t6.ctlState = s.ctlState := congrArg Regs.ctlState hr6
  have he6 : t6.ses = { s.ses with bcaps := b, bstatus := t1 ++ t0, count := BitVec.ofNat 7 n } :=
    congrArg Regs.ses hr6
  refine (verifyTopology_gives ht6 (by rw [hk6]; exact hk) (by rw [hw6]; exact hw) n (t1 ++ t0) rs).mono
    fun st es u _ h => ?_
  rw [hp6, e5, he6, hc6] at h
  obtain ⟨rfl, ⟨d', m, rfl⟩, hr7⟩ | ⟨bytes, es', torn, hlen, rfl, hver, hk7, hw7, hr7⟩ := h
  · rw [hr6] at hr7
    refine ⟨true, ?_, .inl ⟨by simp [presentWrite, fieldWrite, teardownEvents, modeWrite],
      congrArg Regs.ksvbuf hr7, congrArg Regs.shabuf hr7⟩, ?_⟩
    · rw [show u.ses = _ from congrArg Regs.ses hr7]
      simpa [topologyReads] using ActivateTrace.fifoFails (r := s.ses) (revocationSet := rs) b t0 t1 d v d' m n hready
        hviol hn hz hv
    · rw [show u.ksvbuf = s.ksvbuf from congrArg Regs.ksvbuf hr7,
        show u.shabuf = s.shabuf from congrArg Regs.shabuf hr7, show u.ses = _ from congrArg Regs.ses hr7, hr7]; rfl
  · refine ⟨torn, ?_, .inr ⟨n, bytes, t0, t1, by simp, by simp, hlen, by rw [hk7, hk6], by rw [← hw6]; exact hw7⟩,
      by rw [hr7, hr6]⟩
    simpa [topologyReads] using ActivateTrace.listRead (r := s.ses) b t0 t1 d v n bytes es' st torn u.ses hready hviol
      hn hz hv hlen hver

end Sys2Proof.Machine
end

