-- ==== Sys2Proof/Laws/CpExchange.lean ====
section
/-! SUPPORT. What the micro-programs of the link monitor (45_link_monitor.md) and of the parameter exchange
(46_cp_params.md) do, said once for runs that no reset disturbs. -/

namespace Sys2Proof.Machine

open Sys2Proof

/-! ## Link monitor -/

/-- The wait for the next 128-frame boundary (R231). -/
theorem awaitFrameBoundary_gives (f0 : Word) (n : Nat) {s : State} (hs : s.undisturbed = true) :
    Gives (awaitFrameBoundary f0 n) s fun _ es t =>
      t.regs = s.regs ∧ ∃ vs : List Word, es = vs.map (Event.cipherRead .status) ∧ vs.length ≤ n ∧
        (∀ x ∈ vs.dropLast, framePeriod (frameCount s.prm x) = framePeriod f0) ∧
        (vs.length < n → ∃ x, vs.getLast? = some x ∧ framePeriod (frameCount s.prm x) ≠ framePeriod f0) := by
  induction n generalizing s with
  | zero => exact gives_pure hs _ ⟨rfl, [], rfl, by simp, by simp, by simp⟩
  | succ n ih =>
    refine Gives.get_bind ?_
    refine (cipherRead_gives hs _).bind fun v es t ht hp _ h => ?_
    obtain ⟨rfl, hr, -⟩ := h
    by_cases hv : framePeriod (frameCount s.prm v) = framePeriod f0
    · rw [if_pos hv]
      refine (ih ht).mono fun _ es u _ h => ?_
      rw [hp] at h
      obtain ⟨hr', vs, rfl, h1, h2, h3⟩ := h
      refine ⟨hr'.trans hr, v :: vs, rfl, by simpa using h1, ?_, ?_⟩
      · cases vs with
        | nil => simp
        | cons w ws => simpa [List.dropLast] using ⟨hv, h2⟩
      · intro hl
        obtain ⟨x, hx, hne⟩ := h3 (by simpa using hl)
        refine ⟨x, ?_, hne⟩
        cases vs with
        | nil => simp at hx
        | cons w ws => simpa using hx
    · rw [if_neg hv]
      exact gives_pure ht _ ⟨hr, [v], rfl, by simp, by simp, fun _ => ⟨v, rfl, hv⟩⟩

/-- The attempts of the link monitor (R230 to R232). -/
theorem linkAttempt_gives (n : Nat) {s : State} (hs : s.undisturbed = true) :
    Gives (linkAttempt n) s fun ok es t =>
      LinkTrace s.prm n s.ses es ok t.ses ∧ t.regs = { s.regs with ses := t.ses } := by
  induction n generalizing s with
  | zero => exact gives_pure hs _ ⟨.broken _, rfl⟩
  | succ n ih =>
    refine Gives.get_bind ?_
    refine (setSes_gives hs _).bind fun _ es t ht hp _ h => ?_
    obtain ⟨rfl, hr, -⟩ := h
    have he : t.ses = { s.ses with attempt := BitVec.ofNat 3 (4 - n) } := congrArg Regs.ses hr
    refine (compareRi_gives ht).bind fun a es t2 ht2 hp2 _ h => ?_
    obtain ⟨rfl, rfl, hr2⟩ | ⟨b0, b1, v, rfl, rfl, hr2⟩ := h
    · refine (raiseFailure_gives ht2 _).bind fun _ es t3 ht3 hp3 _ h => ?_
      obtain ⟨rfl, hr3, -⟩ := h
      rw [hr2, hr] at hr3
      have he3 : t3.ses = { s.ses with attempt := BitVec.ofNat 3 (4 - n) } := congrArg Regs.ses hr3
      refine gives_pure ht3 _ ⟨?_, by rw [hr3, he3]; rfl⟩
      rw [he3]
      exact .fails n s.ses
    · rw [hr, he] at hr2
      have he2 : t2.ses = { s.ses with attempt := BitVec.ofNat 3 (4 - n), ri := b1 ++ b0 } := congrArg Regs.ses hr2
      by_cases hv : riMatch s.prm v = true
      · simp only [hv, if_true]
        refine gives_pure ht2 _ ⟨?_, by rw [hr2, he2]⟩
        rw [he2]
        simpa using LinkTrace.intact n s.ses b0 b1 v hv
      · simp only [hv, Bool.false_eq_true, if_false]
        refine Gives.bind (Q := fun _ es t => WaitEvents s.prm (frameCount s.prm v) es ∧
          t.regs = { s.regs with
            ses := { s.ses with attempt := BitVec.ofNat 3 (4 - n), ri := b1 ++ b0, fc0 := frameCount s.prm v } }) ?_ ?_
        · refine Gives.get_bind ?_
          refine (setSes_gives ht2 _).bind fun _ es t3 ht3 hp3 _ h => ?_
          obtain ⟨rfl, hr3, -⟩ := h
          refine (awaitFrameBoundary_gives _ _ ht3).mono fun _ es t4 _ h => ?_
          rw [hp3, hp2, hp] at h
          obtain ⟨hr4, vs, rfl, h1, h2, h3⟩ := h
          refine ⟨⟨vs, by simp, h1, h2, h3⟩, ?_⟩
          rw [hr4, hr3, hr2]
        · rintro _ es t3 ht3 hp3 - ⟨hw, hr3⟩
          refine (ih ht3).mono fun ok es' t4 _ h => ?_
          rw [hp3, hp2, hp, show t3.ses = _ from congrArg Regs.ses hr3] at h
          refine ⟨?_, by rw [h.2, hr3]⟩
          simpa [List.append_assoc] using
            LinkTrace.mismatch n s.ses t4.ses b0 b1 v es es' ok (by simpa using hv) hw h.1

/-- GET_LINK_STATUS's body (R230). -/
theorem linkStatus_gives {s : State} (hs : s.undisturbed = true) :
    Gives linkStatus s fun ok es t =>
      LinkTrace s.prm 4 s.ses es ok t.ses ∧ t.regs = { s.regs with ses := t.ses } :=
  linkAttempt_gives 4 hs

/-! ## Parameter exchange -/

/-- The repeater query (R243). -/
theorem reportRepeater_gives {s : State} (hs : s.undisturbed = true) :
    Gives reportRepeater s fun ok es t => ∃ q, ok = q.isSome ∧ es = queryEvents q ∧
      t.regs = { s.regs with
        ses := s.ses.queried q, args := s.args.answered s.args.params.level (reported s.prm q) } := by
  refine Gives.get_bind ?_
  refine (serialRead_gives hs _ _).bind fun a es t ht hp _ h => ?_
  obtain ⟨rfl, hr, hl, -⟩ := h
  cases a with
  | none =>
    refine (raiseFailure_gives ht _).bind fun _ es t2 ht2 _ _ h => ?_
    obtain ⟨rfl, hr2, -⟩ := h
    refine (setArgs_gives ht2 _).bind fun _ es t3 ht3 _ _ h => ?_
    obtain ⟨rfl, hr3, -⟩ := h
    exact gives_pure ht3 _ ⟨none, rfl, rfl, by rw [hr3, hr2, hr]; rfl⟩
  | some bytes =>
    obtain ⟨b, rfl⟩ := List.length_eq_one_iff.1 (hl _ rfl)
    refine (setSes_gives ht _).bind fun _ es t2 ht2 _ _ h => ?_
    obtain ⟨rfl, hr2, -⟩ := h
    refine (setArgs_gives ht2 _).bind fun _ es t3 ht3 _ _ h => ?_
    obtain ⟨rfl, hr3, -⟩ := h
    exact gives_pure ht3 _ ⟨some b, rfl, rfl, by rw [hr3, hr2, hr]; rfl⟩

/-- HDCP_GET_CP_DATA behind its gate (R240). -/
theorem getCpData_gives {s : State} (hs : s.undisturbed = true) (hg : cpGate s = true) :
    Gives getCpData s fun st es t => ∃ level q,
      GetTrace s.prm s.ctlState s.ses es st level q t.ctlState t.ses ∧
        t.regs = { s.regs with
          ctlState := t.ctlState, ses := t.ses, args := s.args.answered level (reported s.prm q) } := by
  have hsup : s.hdcpSupported = true := by
    unfold cpGate at hg; rw [Bool.and_eq_true] at hg; exact hg.1
  refine Gives.get_bind ?_
  rw [if_pos hg]
  -- the level, then the query
  refine Gives.bind (Q := fun st es t => ∃ level c r, t.regs = { s.regs with
      ctlState := c, ses := r, args := { s.args with params := { s.args.params with level := level } } } ∧
      ((∃ v, hdcpOn s.prm v = false ∧ es = [.cipherRead .status v] ∧ st = .success ∧ level = s.prm.cpLevelOff ∧
          c = s.ctlState ∧ r = s.ses) ∨
        (∃ v es', hdcpOn s.prm v = true ∧ LinkTrace s.prm 4 s.ses es' true r ∧ es = .cipherRead .status v :: es' ∧
          st = .success ∧ level = s.prm.cpLevelOn ∧ c = s.ctlState) ∨
        (∃ v es' es'' ok, hdcpOn s.prm v = true ∧ LinkTrace s.prm 4 s.ses es' false r ∧
          DisableTrace s.prm es'' ok c ∧ es = .cipherRead .status v :: es' ++ es'' ∧ st = .unsuccessful ∧
          level = s.prm.cpLevelOff))) ?_ ?_
  · refine Gives.get_bind ?_
    refine (isEnabled_gives hs).bind fun en es t ht hp hsp h => ?_
    obtain ⟨hr, ⟨h0, -⟩ | ⟨-, v, rfl, rfl⟩⟩ := h
    · rw [h0] at hsup; cases hsup
    by_cases hv : hdcpOn s.prm v = true
    · simp only [hv, if_true]
      refine (setArgs_gives ht _).bind fun _ es t2 ht2 hp2 hsp2 h => ?_
      obtain ⟨rfl, hr2, -⟩ := h
      refine (linkStatus_gives ht2).bind fun ok es t3 ht3 hp3 hsp3 h => ?_
      obtain ⟨hl, hr3⟩ := h
      rw [hr2, hr] at hr3
      rw [hp2, hp, show t2.ses = s.ses by
        have := congrArg Regs.ses hr2; rw [hr] at this; exact this] at hl
      cases ok with
      | true =>
        refine gives_pure ht3 _ ⟨s.prm.cpLevelOn, s.ctlState, t3.ses, by rw [hr3]; rfl, .inr (.inl ⟨v, es, hv, hl, ?_, rfl, rfl, rfl⟩)⟩
        simp
      | false =>
        refine (setArgs_gives ht3 _).bind fun _ es' t4 ht4 hp4 hsp4 h => ?_
        obtain ⟨rfl, hr4, -⟩ := h
        rw [hr3] at hr4
        refine (encryptionLevel_gives ht4 false).bind fun st es'' t5 ht5 hp5 hsp5 h => ?_
        obtain ⟨ok, -, ⟨h0, -⟩ | ⟨-, hlev, hr5⟩⟩ := h
        · rw [hsp4, hsp3, hsp2, hsp, hsup] at h0; cases h0
        rw [hp4, hp3, hp2, hp] at hlev
        rw [hr4] at hr5
        have hd : DisableTrace s.prm es'' ok t5.ctlState ∧ t5.ses = t3.ses := by
          have h4 : t4.ses = t3.ses := congrArg Regs.ses hr4
          rw [← h4]
          generalize t5.ses = z at hlev
          cases hlev with
          | disable _ _ _ h => exact ⟨h, rfl⟩
        refine gives_pure ht5 _ ⟨s.prm.cpLevelOff, t5.ctlState, t3.ses, ?_,
          .inr (.inr ⟨v, es, es'', ok, hv, hl, hd.1, ?_, rfl, rfl⟩)⟩
        · rw [hr5, hd.2]; rfl
        · simp
    · simp only [hv, Bool.false_eq_true, if_false]
      refine (setArgs_gives ht _).bind fun _ es t2 ht2 hp2 hsp2 h => ?_
      obtain ⟨rfl, hr2, -⟩ := h
      refine gives_pure ht2 _ ⟨s.prm.cpLevelOff, s.ctlState, s.ses, by rw [hr2, hr]; rfl,
        .inl ⟨v, by simpa using hv, by simp, rfl, rfl, rfl, rfl⟩⟩
  · rintro st es t ht hp hsp ⟨level, c, r, hr, hcases⟩
    refine (reportRepeater_gives ht).bind fun ok es' t2 ht2 _ _ h => ?_
    obtain ⟨q, rfl, rfl, hr2⟩ := h
    have hct : t.ctlState = c := congrArg Regs.ctlState hr
    have het : t.ses = r := congrArg Regs.ses hr
    have hat : t.args = _ := congrArg Regs.args hr
    rw [hp, hr, het, hat] at hr2
    have hct2 : t2.ctlState = c := congrArg Regs.ctlState hr2
    have het2 : t2.ses = r.queried q := congrArg Regs.ses hr2
    have key : ∀ u st', u = t2 → GetTrace s.prm s.ctlState s.ses (es ++ queryEvents q) st' level q c (r.queried q) →
        ∃ level q', GetTrace s.prm s.ctlState s.ses (es ++ queryEvents q) st' level q' u.ctlState u.ses ∧
          u.regs = { s.regs with
            ctlState := u.ctlState, ses := u.ses, args := s.args.answered level (reported s.prm q') } := by
      rintro u st' rfl h
      refine ⟨level, q, by rw [hct2, het2]; exact h, ?_⟩
      rw [hct2, het2, hr2]; rfl
    have hst : Gives (if q.isSome = true then pure st else if st = .success then pure .dataError else pure st) t2
        fun st' es'' u => es'' = [] ∧ u = t2 ∧
          st' = if st = .success then (if q.isSome then .success else .dataError) else st := by
      by_cases hq : q.isSome = true
      · rw [if_pos hq]; refine gives_pure ht2 _ ⟨rfl, rfl, ?_⟩; split <;> simp_all
      · rw [if_neg hq]
        split
        · exact gives_pure ht2 _ ⟨rfl, rfl, by simp⟩
        · exact gives_pure ht2 _ ⟨rfl, rfl, rfl⟩
    refine hst.mono fun st' es'' u _ h => ?_
    obtain ⟨rfl, hu, rfl⟩ := h
    rw [List.append_nil]
    refine key u _ hu ?_
    obtain ⟨v, hv, rfl, rfl, rfl, rfl, rfl⟩ | ⟨v, es', hv, hl, rfl, rfl, rfl, rfl⟩ |
      ⟨v, es', es'', ok, hv, hl, hd, rfl, rfl, rfl⟩ := hcases
    · exact .off v q hv
    · exact .on v es' q r hv hl
    · exact .broken v es' es'' q r ok c hv hl hd

/-- What an action of HDCP_SET_CP_DATA leaves in the buffers (R241): only a verification stores. -/
def StepBuffers (c : CpParams) (es : List Event) (k h k' h' : Memory) : Prop :=
  (c.performSecondStep = 0 → k' = k ∧ h' = h) ∧ (c.performSecondStep ≠ 0 → BuffersAfter es k h k' h')

/-- Accesses before and after that read no KSV list. -/
theorem BuffersAfter.around {es : List Event} {k h k' h' : Memory} (hb : BuffersAfter es k h k' h') (pre post : List Event)
    (hpre : ∀ size bytes, Event.serialRead 0x43 size (some bytes) ∉ pre)
    (hpost : ∀ size bytes, Event.serialRead 0x43 size (some bytes) ∉ post) :
    BuffersAfter (pre ++ (es ++ post)) k h k' h' := by
  obtain ⟨h1, h2⟩ | ⟨n, bytes, t0, t1, h1, h2, h3⟩ := hb
  · refine .inl ⟨fun size bytes h => ?_, h2⟩
    rcases List.mem_append.1 h with h | h
    · exact hpre size bytes h
    · exact (List.mem_append.1 h).elim (h1 size bytes) (hpost size bytes)
  · have hin : ∀ e ∈ es, e ∈ pre ++ (es ++ post) := fun e h =>
      List.mem_append_right _ (List.mem_append_left _ h)
    exact .inr ⟨n, bytes, t0, t1, hin _ h1, hin _ h2, h3⟩

theorem queryEvents_noList (q : Option Byte) (size : Nat) (bytes : List Byte) :
    Event.serialRead 0x43 size (some bytes) ∉ queryEvents q := by
  cases q <;> simp [queryEvents]

theorem DisableTrace.noList {p : Params} {es : List Event} {ok : Bool} {c : CtlState} (h : DisableTrace p es ok c)
    (size : Nat) (bytes : List Byte) : Event.serialRead 0x43 size (some bytes) ∉ es := by
  cases h <;> simp [modeWrite, fieldWrite, disableCheck, disableEnd, portWrites]

/-- HDCP_SET_CP_DATA's action (R241). -/
theorem applyCpData_gives {s : State} (hs : s.undisturbed = true) (hsup : s.hdcpSupported = true)
    (hk : s.ksvbuf.wf = true) (hw : s.shabuf.wf = true) {rs : List Ksv}
    (hrs : callerKsvs s.draws s.args.params.ksvList s.args.params.ksvListLength = rs) :
    Gives applyCpData s fun st es t =>
      ActionTrace s.prm s.args.params rs s.ctlState s.ses es st t.ctlState t.ses ∧
        StepBuffers s.args.params es s.ksvbuf s.shabuf t.ksvbuf t.shabuf ∧ t.regs = { s.regs with
          ctlState := t.ctlState, ses := t.ses, ksvbuf := t.ksvbuf, shabuf := t.shabuf } := by
  refine Gives.get_bind ?_
  by_cases h : s.args.params.performSecondStep ≠ 0
  · simp only [if_pos h, hrs]
    refine (activate_gives hs hk hw rs).mono fun st es t _ h' => ?_
    obtain ⟨torn, hv, hbuf, hr⟩ := h'
    have hc : t.ctlState = ctlAfter torn s.ctlState := congrArg Regs.ctlState hr
    exact ⟨by rw [hc]; exact .verify es st torn t.ses h hv, ⟨fun h0 => absurd h0 h, fun _ => hbuf⟩, by rw [hc]; exact hr⟩
  · simp only [if_neg h]
    refine (encryptionLevel_gives hs _).mono fun st es t _ h' => ?_
    obtain ⟨ok, rfl, ⟨h0, -⟩ | ⟨-, hlev, hr⟩⟩ := h'
    · rw [hsup] at h0; cases h0
    refine ⟨.level es ok t.ctlState t.ses (by simpa using h) (by simpa [beq_eq_decide] using hlev),
      ⟨fun _ => ⟨congrArg Regs.ksvbuf hr, congrArg Regs.shabuf hr⟩, fun h0 => absurd h0 h⟩, ?_⟩
    rw [show t.ksvbuf = s.ksvbuf from congrArg Regs.ksvbuf hr,
      show t.shabuf = s.shabuf from congrArg Regs.shabuf hr, hr]; rfl

/-- A list of `n` entries that are `given`'s, and others past its end. -/
theorem supplies_map {α : Type} (given : List α) (n : Nat) (free : Nat → α) :
    Supplies given ((List.range n).map fun j => given.getD j (free j)) n := by
  refine ⟨by simp, ?_⟩
  apply List.ext_getElem
  · simp [Nat.min_comm]
  · intro i h1 h2
    have hi : i < given.length := by simp at h1; omega
    simp [List.getD_eq_getElem?_getD, hi]

theorem callerBytes_supplies (d : Nat) (bs : List Byte) (n : Nat) : Supplies bs (callerBytes d bs n) n :=
  supplies_map bs n _

theorem callerKsvs_supplies (d : Nat) (ks : List Ksv) (n : Nat) : Supplies ks (callerKsvs d ks n) n :=
  supplies_map ks n _

theorem ActionTrace.congr {p : Params} {a b : CpParams} {rs : List Ksv} {c c' : CtlState} {r r' : Session}
    {es : List Event} {st : Status} (h : ActionTrace p a rs c r es st c' r')
    (h1 : a.performSecondStep = b.performSecondStep) (h2 : a.level = b.level) : ActionTrace p b rs c r es st c' r' := by
  cases h with
  | verify _ torn _ hp ha => exact .verify _ _ torn _ (h1 ▸ hp) ha
  | level ok _ _ hp hl => exact .level _ ok _ _ (h1 ▸ hp) (h2 ▸ hl)

/-- The safety net (R242). -/
theorem safetyNet_gives {s : State} (hs : s.undisturbed = true) (hsup : s.hdcpSupported = true) (st : Status) :
    Gives (safetyNet st) s fun _ es t =>
      (st = .success ∧ es = [] ∧ t.regs = s.regs) ∨
        (st ≠ .success ∧ ∃ ok, DisableTrace s.prm es ok t.ctlState ∧ t.regs = { s.regs with
          ctlState := t.ctlState
          args := { s.args with params := { s.args.params with level := s.prm.cpLevelOff } } }) := by
  unfold safetyNet
  by_cases h : st = .success
  · rw [if_pos h]; exact gives_pure hs _ (.inl ⟨h, rfl, rfl⟩)
  · rw [if_neg h]
    refine Gives.get_bind ?_
    refine (setArgs_gives hs _).bind fun _ es t ht hp hsp h' => ?_
    obtain ⟨rfl, hr, -⟩ := h'
    refine (encryptionLevel_gives ht false).bind fun st' es t2 ht2 _ _ h' => ?_
    obtain ⟨ok, -, ⟨h0, -⟩ | ⟨-, hlev, hr2⟩⟩ := h'
    · rw [hsp, hsup] at h0; cases h0
    rw [hr] at hr2
    have hes : t.ses = s.ses := congrArg Regs.ses hr
    have hd : DisableTrace s.prm es ok t2.ctlState ∧ t2.ses = s.ses := by
      rw [hp, hes] at hlev
      generalize t2.ses = z at hlev
      cases hlev with
      | disable _ _ _ h => exact ⟨h, rfl⟩
    refine gives_pure ht2 _ (.inr ⟨h, ok, by simpa using hd.1, ?_⟩)
    rw [hr2, hd.2]; rfl

/-- HDCP_SET_CP_DATA behind its gate (R241, R242). -/
theorem setCpData_gives {s : State} (hs : s.undisturbed = true) (hg : cpGate s = true) (hk : s.ksvbuf.wf = true)
    (hw : s.shabuf.wf = true) :
    Gives setCpData s fun st es t => ∃ level q rs, Supplies s.args.params.ksvList rs s.args.params.ksvListLength ∧
      SetTrace s.prm s.args.params rs s.ctlState s.ses es st level q t.ctlState t.ses ∧
        StepBuffers s.args.params es s.ksvbuf s.shabuf t.ksvbuf t.shabuf ∧ t.regs = { s.regs with
          ctlState := t.ctlState
          ses := t.ses
          ksvbuf := t.ksvbuf
          shabuf := t.shabuf
          args := s.args.answered level (reported s.prm q) } := by
  have hsup : s.hdcpSupported = true := by
    unfold cpGate at hg; rw [Bool.and_eq_true] at hg; exact hg.1
  refine Gives.get_bind ?_
  rw [if_pos hg]
  refine (reportRepeater_gives hs).bind fun ok es t ht hp hsp h => ?_
  obtain ⟨q, rfl, rfl, hr⟩ := h
  have hat : t.args = s.args.answered s.args.params.level (reported s.prm q) := congrArg Regs.args hr
  have hct : t.ctlState = s.ctlState := congrArg Regs.ctlState hr
  have het : t.ses = s.ses.queried q := congrArg Regs.ses hr
  have hpar : t.args.params.ksvList = s.args.params.ksvList ∧
      t.args.params.ksvListLength = s.args.params.ksvListLength := by rw [hat]; exact ⟨rfl, rfl⟩
  have hsupplies := callerKsvs_supplies t.draws s.args.params.ksvList s.args.params.ksvListLength
  refine (applyCpData_gives ht (hsp.trans hsup) (by rw [show t.ksvbuf = s.ksvbuf from congrArg Regs.ksvbuf hr]; exact hk)
    (by rw [show t.shabuf = s.shabuf from congrArg Regs.shabuf hr]; exact hw) (by rw [hpar.1, hpar.2])).bind
    fun st es' t2 ht2 hp2 hsp2 h => ?_
  obtain ⟨hact, hbuf, hr2⟩ := h
  rw [hp, hct, het] at hact
  have hact' := hact.congr (b := s.args.params) (by rw [hat]; rfl) (by rw [hat]; rfl)
  have hbuf : StepBuffers s.args.params es' s.ksvbuf s.shabuf t2.ksvbuf t2.shabuf := by
    rw [show t.ksvbuf = s.ksvbuf from congrArg Regs.ksvbuf hr, show t.shabuf = s.shabuf from congrArg Regs.shabuf hr,
      hat] at hbuf
    exact hbuf
  rw [hr] at hr2
  have hat2 : t2.args = s.args.answered s.args.params.level (reported s.prm q) := congrArg Regs.args hr2
  refine (safetyNet_gives ht2 (hsp2.trans (hsp.trans hsup)) st).bind fun _ es'' t3 ht3 _ _ h => ?_
  obtain ⟨rfl, rfl, hr3⟩ | ⟨hne, ok, hd, hr3⟩ := h
  · have hk3 : t3.ksvbuf = t2.ksvbuf := congrArg Regs.ksvbuf hr3
    have hw3 : t3.shabuf = t2.shabuf := congrArg Regs.shabuf hr3
    refine gives_pure ht3 _ ⟨s.args.params.level, q, _, hsupplies, ?_, ?_, ?_⟩
    · rw [show t3.ctlState = t2.ctlState from congrArg Regs.ctlState hr3,
        show t3.ses = t2.ses from congrArg Regs.ses hr3]
      simpa using SetTrace.done q es' _ _ hact'
    · rw [hk3, hw3]
      exact ⟨hbuf.1, fun h0 => by simpa using (hbuf.2 h0).around _ [] (queryEvents_noList q) (by simp)⟩
    · rw [show t3.ctlState = t2.ctlState from congrArg Regs.ctlState hr3,
        show t3.ses = t2.ses from congrArg Regs.ses hr3, hk3, hw3, hr3, hr2]
  · rw [hp2, hp] at hd hr3
    rw [hat2] at hr3
    have he3 : t3.ses = t2.ses := congrArg Regs.ses hr3
    have hk3 : t3.ksvbuf = t2.ksvbuf := congrArg Regs.ksvbuf hr3
    have hw3 : t3.shabuf = t2.shabuf := congrArg Regs.shabuf hr3
    refine gives_pure ht3 _ ⟨s.prm.cpLevelOff, q, _, hsupplies, ?_, ?_, ?_⟩
    · rw [he3]
      simpa using SetTrace.netted q es' es'' st ok _ _ _ hact' hne hd
    · rw [hk3, hw3]
      exact ⟨hbuf.1, fun h0 => by
        simpa using (hbuf.2 h0).around _ _ (queryEvents_noList q) fun size bytes => hd.noList size bytes⟩
    · rw [he3, hk3, hw3, hr3, hr2]; rfl

end Sys2Proof.Machine
end

