-- ==== Sys2Proof/Laws/Arrivals.lean ====
section
/-! SUPPORT. What the host's inputs that land during an operation do to it, said once for every micro-program: commands
change only the refusals (60_exceptions.md R277), a power loss changes nothing (70_reset_and_hazards.md R296), a reset
cuts the run short (70_reset_and_hazards.md R293). -/

namespace Sys2Proof.Machine

open Sys2Proof

variable {α β : Type}

/-- The state with another operation recorded, other refusals and inputs on their way. -/
def State.ctx (s : State) (op : Option Instr) (refusals : List (Word × Status)) (arrivals : List (List HostInput)) :
    State :=
  { s with op := op, refusals := refusals, env := { s.env with arrivals := arrivals } }

theorem State.ctx_self (s : State) : s.ctx s.op s.refusals s.env.arrivals = s := rfl

theorem refusalsAfter_append (l l' : List HostInput) (r : List (Word × Status)) :
    refusalsAfter (l ++ l') r = refusalsAfter l' (refusalsAfter l r) := by
  simp [refusalsAfter]

theorem land_ctx (l : List HostInput) (h : l.all HostInput.isNoReset = true) (s : State)
    (o : Option Instr) (r : List (Word × Status)) (L : List (List HostInput)) :
    land l (s.ctx o r L) = .ok () (s.ctx o (refusalsAfter l r) L) := by
  induction l generalizing r with
  | nil => simp [land, refusalsAfter]; rfl
  | cons a l ih =>
    simp only [List.all_cons, Bool.and_eq_true] at h
    cases a with
    | command w a =>
      refine (ih h.2 ((w, .invalidDeviceRequest) :: r)).trans ?_
      simp [refusalsAfter]
    | initialise b => simp [HostInput.isNoReset] at h
    | powerLoss => exact (ih h.2 r).trans (by simp [refusalsAfter])

theorem land_reset (pre : List HostInput) (h : pre.all HostInput.isNoReset = true) (c : Bool) (post : List HostInput)
    (s : State) (o : Option Instr) (r : List (Word × Status)) (L : List (List HostInput)) :
    land (pre ++ .initialise c :: post) (s.ctx o r L) = .error ⟨c⟩
      { s.ctx o (refusalsAfter pre r) L with inbox := post ++ s.inbox } := by
  induction pre generalizing r with
  | nil => simp [refusalsAfter]; rfl
  | cons a l ih =>
    simp only [List.all_cons, Bool.and_eq_true] at h
    cases a with
    | command w a =>
      refine (ih h.2 ((w, .invalidDeviceRequest) :: r)).trans ?_
      simp [refusalsAfter]
    | initialise b => simp [HostInput.isNoReset] at h
    | powerLoss => exact (ih h.2 r).trans (by simp [refusalsAfter])

@[simp] theorem accesses_append (es es' : List Event) : accesses (es ++ es') = accesses es + accesses es' :=
  List.countP_append

/-- No reset among the inputs that land in the first `n` moments. -/
def Calm (L : List (List HostInput)) (n : Nat) : Prop := ∀ l ∈ L.take n, l.all HostInput.isNoReset = true

theorem Calm.left {L : List (List HostInput)} {n m : Nat} (h : Calm L (n + m)) : Calm L n :=
  fun l hl => h l (List.take_subset_take_left L (Nat.le_add_right n m) hl)

theorem Calm.right {L : List (List HostInput)} {n m : Nat} (h : Calm L (n + m)) : Calm (L.drop n) m := by
  intro l hl
  refine h l ?_
  rw [List.take_add]
  exact List.mem_append_right _ hl

/-- The first moment of an operation without a reset. -/
theorem moment_ctx (s : State) (o : Option Instr) (r : List (Word × Status)) {L : List (List HostInput)}
    (h : Calm L 1) : moment (s.ctx o r L) = .ok () (s.ctx o (refusalsAfter (L.take 1).flatten r) (L.drop 1)) := by
  cases L with
  | nil => exact land_ctx [] rfl s o r []
  | cons l L =>
    refine Eq.trans (show moment (s.ctx o r (l :: L)) = land l (s.ctx o r L) from rfl) ?_
    simpa using land_ctx l (h l (by simp)) s o r L

/-- A moment with a reset. -/
theorem moment_reset (s : State) (o : Option Instr) (r : List (Word × Status)) {L : List (List HostInput)}
    {pre post : List HostInput} {c : Bool} (hg : L[0]? = some (pre ++ .initialise c :: post))
    (hp : pre.all HostInput.isNoReset = true) :
    moment (s.ctx o r L) = .error ⟨c⟩ { s.ctx o (refusalsAfter pre r) L.tail with inbox := post ++ s.inbox } := by
  cases L with
  | nil => simp at hg
  | cons l L =>
    obtain rfl : l = pre ++ .initialise c :: post := by simpa using hg
    exact land_reset pre hp c post s o r L

/-- A micro-program whose accesses and answers do not depend on what lands, with `m` moments after its last access.
Undisturbed from `s` it answers `a` in `t` after `es`; inputs without a reset change only the refusals; a reset in
moment `k` ends it with the events before access `k`, or after the last access. -/
def Lands (m : Nat) (x : Op α) : Prop :=
  ∀ s : State, ∃ (a : α) (t : State) (es : List Event),
    (∀ o r L, Calm L (accesses es + m) →
      x (s.ctx o r L) = .ok a (t.ctx o (refusalsAfter (L.take (accesses es + m)).flatten r)
        (L.drop (accesses es + m)))) ∧
    (t.trace = es.reverse ++ s.trace ∧ (t.cipher, t.port) = es.foldl (Event.applyTo s.prm) (s.cipher, s.port) ∧
      t.prm = s.prm ∧ t.hdcpSupported = s.hdcpSupported ∧ t.inbox = s.inbox ∧ t.initialised = s.initialised) ∧
    (∀ o r L k pre c post, k < accesses es + m → Calm L k → L[k]? = some (pre ++ .initialise c :: post) →
      pre.all HostInput.isNoReset = true →
      ∃ (u : State) (es1 es2 : List Event), es = es1 ++ es2 ∧ accesses es1 = k ∧ x (s.ctx o r L) = .error ⟨c⟩ u ∧
        u.trace = es1.reverse ++ s.trace ∧
        (u.cipher, u.port) = es1.foldl (Event.applyTo s.prm) (s.cipher, s.port) ∧ u.prm = s.prm ∧
        u.inbox = post ++ s.inbox ∧ u.refusals = refusalsAfter ((L.take k).flatten ++ pre) r)

/-- A piece of a micro-program: its moments are those of its accesses. -/
abbrev Tame (x : Op α) : Prop := Lands 0 x

theorem tame_pure (a : α) : Tame (pure a : Op α) := fun s =>
  ⟨a, s, [], fun o r L _ => by simp [accesses, refusalsAfter]; rfl, ⟨rfl, rfl, rfl, rfl, rfl, rfl⟩,
    fun o r L k pre c post h => absurd h (Nat.not_lt_zero k)⟩

theorem Lands.bind {x : Op α} {f : α → Op β} {m : Nat} (hx : Tame x) (hf : ∀ a, Lands m (f a)) : Lands m (x >>= f) := by
  intro s
  obtain ⟨a, t, es, h1, ⟨h2, h3, h4, h5, h6, h8⟩, h7⟩ := hx s
  obtain ⟨b, u, es', g1, ⟨g2, g3, g4, g5, g6, g8⟩, g7⟩ := hf a t
  refine ⟨b, u, es ++ es', fun o r L hL => ?_,
    ⟨?_, ?_, g4.trans h4, g5.trans h5, g6.trans h6, g8.trans h8⟩, ?_⟩
  · rw [accesses_append, Nat.add_assoc] at hL ⊢
    refine (bind_ok (h1 o r L hL.left) f).trans ((g1 _ _ _ hL.right).trans ?_)
    have e : L.take (accesses es + (accesses es' + m)) =
        L.take (accesses es) ++ (L.drop (accesses es)).take (accesses es' + m) := List.take_add
    rw [Nat.add_zero, e, List.flatten_append, refusalsAfter_append, List.drop_drop]
  · rw [g2, h2, List.reverse_append, List.append_assoc]
  · rw [g3, h4, h3, List.foldl_append]
  · intro o r L k pre c post hk hL hget hpre
    rw [accesses_append, Nat.add_assoc] at hk
    by_cases hlt : k < accesses es
    · obtain ⟨v, e1, e2, rfl, q1, q2, q3, q4, q5, q6, q7⟩ := h7 o r L k pre c post hlt hL hget hpre
      exact ⟨v, e1, e2 ++ es', by rw [List.append_assoc], q1, bind_error q2 _, q3, q4, q5, q6, q7⟩
    · obtain ⟨j, rfl⟩ : ∃ j, k = accesses es + j := ⟨k - accesses es, by omega⟩
      have hget' : (L.drop (accesses es))[j]? = some (pre ++ .initialise c :: post) := by
        rw [List.getElem?_drop]; exact hget
      obtain ⟨v, e1, e2, rfl, q1, q2, q3, q4, q5, q6, q7⟩ :=
        g7 o (refusalsAfter (L.take (accesses es)).flatten r) (L.drop (accesses es)) j pre c post (by omega) hL.right
          hget' hpre
      refine ⟨v, es ++ e1, e2, by rw [List.append_assoc], by rw [accesses_append, q1], ?_, ?_, ?_, q5.trans h4,
        by rw [q6, h6], ?_⟩
      · exact (bind_ok (h1 o r L hL.left) f).trans q2
      · rw [q3, h2, List.reverse_append, List.append_assoc]
      · rw [q4, h4, h3, List.foldl_append]
      · rw [q7, ← refusalsAfter_append, List.take_add, List.flatten_append, List.append_assoc]

/-- A piece that reads the state: what it reads must not depend on what lands. -/
theorem Lands.get_bind {f : State → Op β} {m : Nat} (h : ∀ s, Lands m (f s))
    (hc : ∀ s o r L, f (State.ctx s o r L) = f s) : Lands m (get >>= f) := by
  intro s
  obtain ⟨a, t, es, h1, h2, h3⟩ := h s s
  refine ⟨a, t, es, fun o r L hL => ?_, h2, fun o r L k pre c post hk hL hg hp => ?_⟩
  · refine Eq.trans ?_ (h1 o r L hL)
    exact congrFun (hc s o r L) _
  · obtain ⟨u, e1, e2, q0, q1, q2, q⟩ := h3 o r L k pre c post hk hL hg hp
    refine ⟨u, e1, e2, q0, q1, Eq.trans ?_ q2, q⟩
    exact congrFun (hc s o r L) _

/-- A piece that only writes registers or the trace. -/
theorem tame_modify (g : State → State) (es : State → List Event) (hes : ∀ s, accesses (es s) = 0)
    (hc : ∀ s o r L, g (State.ctx s o r L) = (g s).ctx o r L)
    (hg : ∀ s : State, (g s).trace = (es s).reverse ++ s.trace ∧
      ((g s).cipher, (g s).port) = (es s).foldl (Event.applyTo s.prm) (s.cipher, s.port) ∧ (g s).prm = s.prm ∧
      (g s).hdcpSupported = s.hdcpSupported ∧ (g s).inbox = s.inbox ∧ (g s).initialised = s.initialised) :
    Tame (modify g : Op Unit) := fun s =>
  ⟨(), g s, es s, fun o r L _ => by
    rw [hes]
    show EStateM.Result.ok () (g (s.ctx o r L)) = _
    rw [hc]; simp [refusalsAfter], hg s,
    fun o r L k pre c post h => by rw [hes] at h; exact absurd h (Nat.not_lt_zero k)⟩

/-- One access. -/
theorem tame_perform (f : State → α × State) (e : α → Event) (he : ∀ a, (e a).isAccess = true)
    (hc : ∀ s o r L, f (State.ctx s o r L) = ((f s).1, (f s).2.ctx o r L))
    (hf : ∀ s : State, (f s).2.trace = e (f s).1 :: s.trace ∧
      ((f s).2.cipher, (f s).2.port) = (e (f s).1).applyTo s.prm (s.cipher, s.port) ∧ (f s).2.prm = s.prm ∧
      (f s).2.hdcpSupported = s.hdcpSupported ∧ (f s).2.inbox = s.inbox ∧ (f s).2.initialised = s.initialised) :
    Tame (perform f) := by
  intro s
  let s' : State := { s with stepPos := s.stepPos + 1 }
  have hacc : accesses [e (f s').1] = 1 := by simp [accesses, he]
  have hmom : ∀ o r L, access (s.ctx o r L) = moment (s'.ctx o r L) := fun _ _ _ => rfl
  refine ⟨(f s').1, (f s').2, [e (f s').1], fun o r L hL => ?_, hf s', fun o r L k pre c post hk hL hg hp => ?_⟩
  · rw [hacc] at hL ⊢
    refine (bind_ok ((hmom o r L).trans (moment_ctx s' o r hL)) _).trans ?_
    show EStateM.Result.ok (f _).1 (f _).2 = _
    rw [hc]
  · rw [hacc] at hk
    obtain rfl : k = 0 := by omega
    exact ⟨_, [], [e (f s').1], rfl, rfl, bind_error ((hmom o r L).trans (moment_reset s' o r hg hp)) _, rfl, rfl, rfl,
      rfl, by simp [State.ctx]⟩

/-- The end of an operation is one moment more. -/
theorem lands_end (r : Result) : Lands 1 (do moment; return r : Op Result) := by
  refine fun s => ⟨r, s, [], fun o q L hL => bind_ok (moment_ctx s o q hL) _, ⟨rfl, rfl, rfl, rfl, rfl, rfl⟩,
    fun o q L k pre c post hk _ hg hp => ?_⟩
  obtain rfl : k = 0 := by simp [accesses] at hk; exact hk
  exact ⟨_, [], [], rfl, rfl, bind_error (moment_reset s o q hg hp) _, rfl, rfl, rfl, rfl, by simp [State.ctx]⟩

/-- A tame micro-program, with its last moment. -/
theorem Lands.completed {body : Op Result} (h : Tame body) : Lands 1 (completed body) := h.bind lands_end

/-! ## The accesses -/

theorem tame_cipherRead (r : CipherReg) : Tame (cipherRead r) := by
  refine tame_perform _ (fun a => .cipherRead r a) (fun _ => rfl) (fun s o r L => ?_) (fun s => ?_) <;>
    cases h : s.env.cipher <;>
    simp [State.readCipher, State.drawCipher, State.ctx, State.log, Event.applyTo, h]

theorem tame_cipherWrite (r : CipherReg) (v : Word) : Tame (cipherWrite r v) :=
  tame_perform _ (fun _ => .cipherWrite r v) (fun _ => rfl) (fun _ _ _ _ => rfl)
    (fun _ => ⟨rfl, rfl, rfl, rfl, rfl, rfl⟩)

theorem tame_readPort : Tame (perform State.readPort) := by
  refine tame_perform _ (fun a => .portRead a) (fun _ => rfl) (fun s o r L => ?_) (fun s => ?_) <;>
    cases h : s.env.port <;>
    simp [State.readPort, State.drawPort, State.ctx, State.log, Event.applyTo, h]

theorem tame_writePort (v : Word) : Tame (perform (State.writePort v)) :=
  tame_perform _ (fun _ => .portWrite v) (fun _ => rfl) (fun _ _ _ _ => rfl)
    (fun _ => ⟨rfl, rfl, rfl, rfl, rfl, rfl⟩)

theorem tame_serialRead (sub : Byte) (size : Nat) : Tame (serialRead sub size) := by
  refine tame_perform _ (fun a => .serialRead sub size a) (fun _ => rfl) (fun s o r L => ?_) (fun s => ?_) <;>
    cases h : s.env.serial <;>
    simp [State.readSerial, State.drawSerial, State.ctx, State.log, Event.applyTo, h]

theorem tame_serialWrite (sub : Byte) (payload : List Byte) : Tame (serialWrite sub payload) := by
  refine tame_perform _ (fun a => .serialWrite sub payload a) (fun _ => rfl) (fun s o r L => ?_) (fun s => ?_) <;>
    cases h : s.env.serial <;>
    simp [State.writeSerial, State.drawSerial, State.ctx, State.log, Event.applyTo, h]

theorem tame_rng32 : Tame rng32 := by
  refine tame_perform _ (fun a => .random a) (fun _ => rfl) (fun s o r L => ?_) (fun s => ?_) <;>
    cases h : s.env.rng <;>
    simp [State.readRandom, State.drawRandom, State.ctx, State.log, Event.applyTo, h]

theorem tame_delayUs (n : Nat) : Tame (delayUs n) :=
  tame_perform _ (fun _ => .delayUs n) (fun _ => rfl) (fun _ _ _ _ => rfl) (fun _ => ⟨rfl, rfl, rfl, rfl, rfl, rfl⟩)

theorem tame_waitVblank : Tame waitVblank :=
  tame_perform _ (fun _ => .vblank) (fun _ => rfl) (fun _ _ _ _ => rfl) (fun _ => ⟨rfl, rfl, rfl, rfl, rfl, rfl⟩)

theorem tame_cipherWriteField (r : CipherReg) (f : Field) (v : Word) : Tame (cipherWriteField r f v) :=
  (tame_cipherRead r).bind fun _ => tame_cipherWrite r _

theorem tame_portSetEnc (b : Bool) : Tame (portSetEnc b) :=
  Lands.get_bind (fun _ => tame_readPort.bind fun _ => tame_writePort _) (fun _ _ _ _ => rfl)

theorem tame_pollUntil (r : CipherReg) (test : Word → Bool) (max : Nat) (last : Word) :
    Tame (pollUntil r test max last) := by
  induction max generalizing last with
  | zero => exact tame_pure _
  | succ n ih =>
    refine (tame_cipherRead r).bind fun v => ?_
    split
    · exact tame_pure _
    · exact ih v

theorem tame_raiseFailure (f : Failure) : Tame (raiseFailure f) :=
  tame_modify _ (fun _ => [.raised f]) (fun _ => rfl) (fun _ _ _ _ => rfl) (fun _ => ⟨rfl, rfl, rfl, rfl, rfl, rfl⟩)

theorem tame_setSes (f : Session → Session) : Tame (setSes f) :=
  tame_modify _ (fun _ => []) (fun _ => rfl) (fun _ _ _ _ => rfl) (fun _ => ⟨rfl, rfl, rfl, rfl, rfl, rfl⟩)

theorem tame_setCtl (c : CtlState) : Tame (setCtl c) :=
  tame_modify _ (fun _ => []) (fun _ => rfl) (fun _ _ _ _ => rfl) (fun _ => ⟨rfl, rfl, rfl, rfl, rfl, rfl⟩)

theorem tame_setKsvbuf (f : Memory → Memory) : Tame (setKsvbuf f) :=
  tame_modify _ (fun _ => []) (fun _ => rfl) (fun _ _ _ _ => rfl) (fun _ => ⟨rfl, rfl, rfl, rfl, rfl, rfl⟩)

theorem tame_setShabuf (f : Memory → Memory) : Tame (setShabuf f) :=
  tame_modify _ (fun _ => []) (fun _ => rfl) (fun _ _ _ _ => rfl) (fun _ => ⟨rfl, rfl, rfl, rfl, rfl, rfl⟩)

theorem tame_setArgs (f : Args → Args) : Tame (setArgs f) :=
  tame_modify _ (fun _ => []) (fun _ => rfl) (fun _ _ _ _ => rfl) (fun _ => ⟨rfl, rfl, rfl, rfl, rfl, rfl⟩)

theorem tame_setParams (f : CpParams → CpParams) : Tame (setParams f) := tame_setArgs _

/-- A choice between two pieces. -/
theorem Lands.ite {c : Prop} [Decidable c] {m : Nat} {x y : Op α} (hx : Lands m x) (hy : Lands m y) :
    Lands m (if c then x else y) := by
  split
  · exact hx
  · exact hy

/-! ## The micro-programs -/

theorem tame_isEnabled : Tame isEnabled :=
  Lands.get_bind (fun _ => ((tame_cipherRead _).bind fun _ => tame_pure _).ite (tame_pure _)) (fun _ _ _ _ => rfl)

theorem tame_writeMode (m : Nat) : Tame (writeMode m) :=
  Lands.get_bind (fun _ => tame_cipherWriteField _ _ _) (fun _ _ _ _ => rfl)

theorem tame_writeRepeaterPresent (on : Bool) : Tame (writeRepeaterPresent on) :=
  Lands.get_bind
    (fun _ => (tame_cipherWriteField _ _ _).bind fun _ => (tame_cipherRead _).bind fun _ => tame_pure _)
    (fun _ _ _ _ => rfl)

theorem tame_disableWait (n : Nat) : Tame (disableWait n) := by
  induction n with
  | zero => exact (tame_raiseFailure _).bind fun _ => tame_pure _
  | succ n ih =>
    exact Lands.get_bind
      (fun _ => tame_waitVblank.bind fun _ => (tame_cipherRead _).bind fun _ =>
        ((tame_cipherWrite _ _).bind fun _ => (tame_portSetEnc _).bind fun _ => (tame_setCtl _).bind fun _ =>
          tame_pure _).ite ih)
      (fun _ _ _ _ => rfl)

theorem tame_disableSequence : Tame disableSequence :=
  (tame_setCtl _).bind fun _ => Lands.get_bind
    (fun _ => (tame_writeMode _).bind fun _ => tame_disableWait _) (fun _ _ _ _ => rfl)

theorem tame_failEnable (f : Failure) : Tame (failEnable f) :=
  (tame_setCtl _).bind fun _ => (tame_raiseFailure _).bind fun _ => tame_pure _

theorem tame_captureAn : Tame captureAn :=
  Lands.get_bind
    (fun _ => tame_rng32.bind fun _ => (tame_setSes _).bind fun _ => (tame_cipherWrite _ _).bind fun _ =>
      tame_rng32.bind fun _ => (tame_setSes _).bind fun _ => (tame_cipherWrite _ _).bind fun _ =>
      (tame_delayUs _).bind fun _ => (tame_writeMode _).bind fun _ => (tame_pollUntil _ _ _ _).bind fun _ =>
      ((tame_setCtl _).bind fun _ => tame_pure _).ite ((tame_writeMode _).bind fun _ => tame_failEnable _))
    (fun _ _ _ _ => rfl)

theorem tame_readAnAksv : Tame readAnAksv :=
  (tame_cipherRead _).bind fun _ => (tame_cipherRead _).bind fun _ => (tame_setSes _).bind fun _ =>
    (tame_cipherRead _).bind fun _ => (tame_cipherRead _).bind fun _ => (tame_setSes _).bind fun _ => tame_pure _

theorem tame_sendAnAksv (an : BitVec 64) (aksv : BitVec 40) : Tame (sendAnAksv an aksv) :=
  (tame_serialWrite _ _).bind fun _ =>
    ((tame_serialWrite _ _).bind fun _ => (tame_pure _).ite (tame_failEnable _)).ite (tame_failEnable _)

theorem tame_readBksv : Tame readBksv := by
  refine (tame_serialRead _ _).bind fun a => ?_
  cases a with
  | none => exact (tame_failEnable _).bind fun _ => tame_pure _
  | some bytes =>
    exact (tame_setSes _).bind fun _ => (tame_pure _).ite ((tame_failEnable _).bind fun _ => tame_pure _)

theorem tame_readBcapsEnable : Tame readBcapsEnable := by
  refine Lands.get_bind (fun _ => (tame_serialRead _ _).bind fun a => ?_) (fun _ _ _ _ => rfl)
  cases a with
  | none => exact tame_failEnable _
  | some bytes =>
    exact (tame_setSes _).bind fun _ => ((tame_writeRepeaterPresent _).bind fun _ => tame_pure _).ite (tame_pure _)

theorem tame_loadBksv (k : Ksv) : Tame (loadBksv k) :=
  (tame_cipherWrite _ _).bind fun _ => (tame_cipherWrite _ _).bind fun _ => tame_setCtl _

theorem tame_startEncryption : Tame startEncryption :=
  Lands.get_bind
    (fun _ => (tame_portSetEnc _).bind fun _ => (tame_writeMode _).bind fun _ =>
      (tame_pollUntil _ _ _ _).bind fun _ => (tame_pure _).ite (tame_failEnable _))
    (fun _ _ _ _ => rfl)

theorem tame_compareRi : Tame compareRi := by
  refine (tame_serialRead _ _).bind fun a => ?_
  cases a with
  | none => exact tame_pure _
  | some bytes =>
    exact (tame_setSes _).bind fun _ => (tame_cipherWrite _ _).bind fun _ => (tame_cipherRead _).bind fun _ =>
      tame_pure _

theorem tame_checkRi : Tame checkRi := by
  refine Lands.get_bind (fun _ => tame_compareRi.bind fun a => ?_) (fun _ _ _ _ => rfl)
  cases a with
  | none => exact tame_failEnable _
  | some v =>
    exact ((tame_setCtl _).bind fun _ => tame_pure _).ite ((tame_setCtl _).bind fun _ => tame_pure _)

theorem tame_enableWithBksv (k : Ksv) : Tame (enableWithBksv k) :=
  tame_readBcapsEnable.bind fun _ =>
    ((tame_loadBksv _).bind fun _ => tame_startEncryption.bind fun _ => tame_checkRi.ite (tame_pure _)).ite
      (tame_pure _)

theorem tame_enableSequence : Tame enableSequence := by
  refine tame_captureAn.bind fun _ => Lands.ite (tame_readAnAksv.bind fun _ => (tame_sendAnAksv _ _).bind fun _ =>
    Lands.ite (tame_readBksv.bind fun a => ?_) (tame_pure _)) (tame_pure _)
  cases a with
  | none => exact tame_pure _
  | some k => exact tame_enableWithBksv k

theorem tame_enableHdcp (on : Bool) : Tame (enableHdcp on) :=
  Lands.get_bind (fun _ => (tame_enableSequence.ite tame_disableSequence).ite (tame_pure _)) (fun _ _ _ _ => rfl)

theorem tame_encryptionLevel (on : Bool) : Tame (encryptionLevel on) :=
  (tame_enableHdcp on).bind fun _ => (tame_pure _).ite (tame_pure _)

theorem tame_rxRead (sub : Byte) (size : Nat) : Tame (rxRead sub size) := by
  refine (tame_serialRead _ _).bind fun a => ?_
  cases a with
  | none => exact (tame_raiseFailure _).bind fun _ => tame_pure _
  | some bytes => exact tame_pure _

theorem tame_rxReadCommand (sub : Byte) (size : BitVec 10) : Tame (rxReadCommand sub size) := by
  refine Lands.ite (tame_pure _) (Lands.ite (tame_pure _) ((tame_rxRead _ _).bind fun a => ?_))
  cases a with
  | none => exact tame_pure _
  | some bytes => exact (tame_setArgs _).bind fun _ => tame_pure _

theorem tame_rxWriteCommand (sub : Byte) (size : BitVec 10) : Tame (rxWriteCommand sub size) :=
  (tame_pure _).ite ((tame_pure _).ite (Lands.get_bind
    (fun _ => (tame_serialWrite _ _).bind fun _ =>
      (tame_pure _).ite ((tame_raiseFailure _).bind fun _ => tame_pure _)) (fun _ _ _ _ => rfl)))

theorem tame_readVBlocks (subs : List Byte) : Tame (readVBlocks subs) := by
  induction subs with
  | nil => exact tame_pure _
  | cons sub subs ih =>
    refine (tame_rxRead _ _).bind fun a => ?_
    cases a with
    | none => exact (tame_raiseFailure _).bind fun _ => tame_pure _
    | some bytes =>
      refine ih.bind fun b => ?_
      cases b <;> exact tame_pure _

theorem tame_readVPrime : Tame readVPrime := by
  refine (tame_readVBlocks _).bind fun a => ?_
  cases a <;> exact tame_pure _

theorem tame_rxReadVPrimeCommand : Tame rxReadVPrimeCommand := by
  refine tame_readVPrime.bind fun a => ?_
  cases a with
  | none => exact tame_pure _
  | some v => exact (tame_setArgs _).bind fun _ => tame_pure _

theorem tame_buildShaBuffer (ksvs : List Byte) (count : Nat) (topology : BitVec 16) :
    Tame (buildShaBuffer ksvs count topology) :=
  (tame_setSes _).bind fun _ => tame_setShabuf _

theorem tame_buildShaCommand : Tame buildShaCommand :=
  Lands.get_bind
    (fun _ => (tame_buildShaBuffer _ _ _).bind fun _ => Lands.get_bind
      (fun _ => (tame_setArgs _).bind fun _ => tame_pure _) (fun _ _ _ _ => rfl))
    (fun _ _ _ _ => rfl)

theorem tame_writeControl (mode : BitVec 3) : Tame (writeControl mode) :=
  Lands.get_bind (fun _ => tame_cipherWriteField _ _ _) (fun _ _ _ _ => rfl)

theorem tame_feed (mode : BitVec 3) (w : Word) : Tame (feed mode w) :=
  Lands.get_bind
    (fun _ => (tame_writeControl _).bind fun _ => (tame_pollUntil _ _ _ _).bind fun _ =>
      ((tame_cipherWrite _ _).bind fun _ => tame_pure _).ite ((tame_raiseFailure _).bind fun _ => tame_pure _))
    (fun _ _ _ _ => rfl)

theorem tame_feedAt (pos : Nat) (mode : BitVec 3) (w : Word) : Tame (feedAt pos mode w) :=
  (tame_feed _ _).bind fun _ => ((tame_setSes _).bind fun _ => tame_pure _).ite (tame_pure _)

theorem tame_shaChunk (pos : Nat) : Tame (shaChunk pos) :=
  Lands.get_bind (fun _ => tame_pure _) (fun _ _ _ _ => rfl)

theorem tame_feedText (n pos : Nat) : Tame (feedText n pos) := by
  induction n generalizing pos with
  | zero => exact tame_pure _
  | succ n ih =>
    exact Lands.get_bind
      (fun _ => (tame_shaChunk _).bind fun _ => (tame_feedAt _ _ _).bind fun _ => (ih _).ite (tame_pure _))
      (fun _ _ _ _ => rfl)

theorem tame_feedPartial (r pos : Nat) : Tame (feedPartial r pos) :=
  (tame_pure _).ite (Lands.get_bind
    (fun _ => (tame_feedAt _ _ _).bind fun _ => ((tame_setSes _).bind fun _ => tame_pure _).ite (tame_pure _))
    (fun _ _ _ _ => rfl))

theorem tame_feedMo (pos left : Nat) : Tame (feedMo pos left) :=
  Lands.get_bind
    (fun _ => (tame_feedAt _ _ _).bind fun _ => ((tame_setSes _).bind fun _ => tame_pure _).ite (tame_pure _))
    (fun _ _ _ _ => rfl)

theorem tame_feedMoRest (pos left : Nat) : Tame (feedMoRest pos left) :=
  Lands.get_bind
    (fun _ => (tame_pure _).ite ((tame_shaChunk _).bind fun _ => (tame_feedAt _ _ _).bind fun _ =>
      ((tame_setSes _).bind fun _ => tame_pure _).ite (tame_pure _)))
    (fun _ _ _ _ => rfl)

theorem tame_feedPhases (count : Nat) : Tame (feedPhases count) :=
  (tame_feedText _ _).bind fun _ => ((tame_feedPartial _ _).bind fun _ => ((tame_feedMo _ _).bind fun _ =>
    ((tame_feedMoRest _ _).bind fun _ => (tame_feedText _ _).ite (tame_pure _)).ite (tame_pure _)).ite
      (tame_pure _)).ite (tame_pure _)

theorem tame_computeV (ksvs : List Byte) (count : Nat) (topology : BitVec 16) : Tame (computeV ksvs count topology) :=
  (tame_buildShaBuffer _ _ _).bind fun _ => (tame_setSes _).bind fun _ => tame_feedPhases _

theorem tame_awaitCompletion (n : Nat) : Tame (awaitCompletion n) := by
  induction n with
  | zero => exact (tame_raiseFailure _).bind fun _ => tame_pure _
  | succ n ih =>
    refine Lands.get_bind (fun s => (tame_cipherRead _).bind fun v => ?_) (fun _ _ _ _ => rfl)
    cases repState s.prm v <;> first | exact tame_pure _ | exact ih

theorem tame_loadVPrime (v : VWords) : Tame (loadVPrime v) :=
  (tame_cipherWrite _ _).bind fun _ => (tame_cipherWrite _ _).bind fun _ => (tame_cipherWrite _ _).bind fun _ =>
    (tame_cipherWrite _ _).bind fun _ => tame_cipherWrite _ _

theorem tame_compareV (v : VWords) : Tame (compareV v) :=
  Lands.get_bind
    (fun _ => (tame_loadVPrime _).bind fun _ => (tame_pollUntil _ _ _ _).bind fun _ =>
      ((tame_writeControl _).bind fun _ => tame_awaitCompletion _).ite
        ((tame_raiseFailure _).bind fun _ => tame_pure _))
    (fun _ _ _ _ => rfl)

theorem tame_teardown : Tame teardown :=
  Lands.get_bind
    (fun _ => (tame_cipherWriteField _ _ _).bind fun _ => (tame_writeMode _).bind fun _ => tame_setCtl _)
    (fun _ _ _ _ => rfl)

theorem tame_endRevoked : Tame endRevoked :=
  tame_teardown.bind fun _ => (tame_raiseFailure _).bind fun _ => tame_pure _

theorem tame_endFailed (revoked : Bool) : Tame (endFailed revoked) :=
  tame_endRevoked.ite (tame_teardown.bind fun _ => tame_pure _)

theorem tame_verifyV (count : Nat) (topology : BitVec 16) (revoked : Bool) : Tame (verifyV count topology revoked) := by
  refine Lands.get_bind (fun _ => (tame_computeV _ _ _).bind fun _ =>
    Lands.ite (tame_readVPrime.bind fun a => ?_) (tame_endFailed _)) (fun _ _ _ _ => rfl)
  cases a with
  | none => exact tame_endFailed _
  | some v =>
    exact (tame_setSes _).bind fun _ => (tame_compareV _).bind fun _ =>
      tame_endRevoked.ite ((tame_pure _).ite (tame_endFailed _))

theorem tame_verifyTopology (count : Nat) (topology : BitVec 16) (revocationSet : List Ksv) :
    Tame (verifyTopology count topology revocationSet) := by
  refine (tame_serialRead _ _).bind fun a => ?_
  cases a with
  | none => exact tame_teardown.bind fun _ => (tame_raiseFailure _).bind fun _ => tame_pure _
  | some bytes =>
    exact (tame_setKsvbuf _).bind fun _ => Lands.get_bind
      (fun _ => (tame_setSes _).bind fun _ => tame_verifyV _ _ _) (fun _ _ _ _ => rfl)

theorem tame_checkTopology (revocationSet : List Ksv) : Tame (checkTopology revocationSet) := by
  refine Lands.get_bind (fun s => (tame_serialRead _ _).bind fun a => ?_) (fun _ _ _ _ => rfl)
  cases a with
  | none => exact (tame_raiseFailure _).bind fun _ => tame_pure _
  | some bytes =>
    refine (tame_setSes _).bind fun _ => ?_
    cases topologyViolation (bstatus s.prm (le16 bytes)) with
    | some v => exact (tame_raiseFailure _).bind fun _ => tame_pure _
    | none =>
      exact (tame_setSes _).bind fun _ => (tame_pure _).ite ((tame_writeRepeaterPresent _).bind fun _ =>
        (tame_verifyTopology _ _ _).ite (tame_pure _))

theorem tame_activate (revocationSet : List Ksv) : Tame (activate revocationSet) := by
  refine Lands.get_bind (fun _ => (tame_serialRead _ _).bind fun a => ?_) (fun _ _ _ _ => rfl)
  cases a with
  | none => exact (tame_raiseFailure _).bind fun _ => tame_pure _
  | some bytes =>
    exact (tame_setSes _).bind fun _ => ((tame_checkTopology _).ite (tame_pure _)).ite (tame_pure _)

theorem tame_awaitFrameBoundary (f0 : Word) (n : Nat) : Tame (awaitFrameBoundary f0 n) := by
  induction n with
  | zero => exact tame_pure _
  | succ n ih =>
    exact Lands.get_bind (fun _ => (tame_cipherRead _).bind fun _ => ih.ite (tame_pure _)) (fun _ _ _ _ => rfl)

theorem tame_waitFrameBoundary (f0 : Word) : Tame (waitFrameBoundary f0) :=
  Lands.get_bind (fun _ => (tame_setSes _).bind fun _ => tame_awaitFrameBoundary _ _) (fun _ _ _ _ => rfl)

theorem tame_linkAttempt (n : Nat) : Tame (linkAttempt n) := by
  induction n with
  | zero => exact tame_pure _
  | succ n ih =>
    refine Lands.get_bind (fun _ => (tame_setSes _).bind fun _ => tame_compareRi.bind fun a => ?_)
      (fun _ _ _ _ => rfl)
    cases a with
    | none => exact (tame_raiseFailure _).bind fun _ => tame_pure _
    | some v => exact (tame_pure _).ite ((tame_waitFrameBoundary _).bind fun _ => ih)

theorem tame_linkStatus : Tame linkStatus := tame_linkAttempt _

theorem tame_reportRepeater : Tame reportRepeater := by
  refine Lands.get_bind (fun _ => (tame_serialRead _ _).bind fun a => ?_) (fun _ _ _ _ => rfl)
  cases a with
  | none => exact (tame_raiseFailure _).bind fun _ => (tame_setParams _).bind fun _ => tame_pure _
  | some bytes => exact (tame_setSes _).bind fun _ => (tame_setParams _).bind fun _ => tame_pure _

theorem tame_reportLevel : Tame reportLevel :=
  Lands.get_bind
    (fun _ => tame_isEnabled.bind fun _ =>
      ((tame_setParams _).bind fun _ => tame_linkStatus.bind fun _ =>
        (tame_pure _).ite ((tame_setParams _).bind fun _ => (tame_encryptionLevel _).bind fun _ =>
          tame_pure _)).ite
        ((tame_setParams _).bind fun _ => tame_pure _))
    (fun _ _ _ _ => rfl)

theorem tame_getCpData : Tame getCpData :=
  Lands.get_bind
    (fun _ => (tame_reportLevel.bind fun _ => tame_reportRepeater.bind fun _ =>
      (tame_pure _).ite ((tame_pure _).ite (tame_pure _))).ite (tame_pure _))
    (fun _ _ _ _ => rfl)

theorem tame_applyCpData : Tame applyCpData :=
  Lands.get_bind (fun _ => (tame_activate _).ite (tame_encryptionLevel _)) (fun _ _ _ _ => rfl)

theorem tame_safetyNet (st : Status) : Tame (safetyNet st) :=
  (tame_pure _).ite (Lands.get_bind
    (fun _ => (tame_setParams _).bind fun _ => (tame_encryptionLevel _).bind fun _ => tame_pure _)
    (fun _ _ _ _ => rfl))

theorem tame_setCpData : Tame setCpData :=
  Lands.get_bind
    (fun _ => (tame_reportRepeater.bind fun _ => tame_applyCpData.bind fun _ => (tame_safetyNet _).bind fun _ =>
      tame_pure _).ite (tame_pure _))
    (fun _ _ _ _ => rfl)

/-- Every operation is one `runOperation` of a micro-program that is tame. -/
theorem exec_tame (i : Instr) : ∃ w body, Tame body ∧ ∀ s, exec i s = runOperation i w body s := by
  cases i with
  | hdcpQuery =>
    refine ⟨_, _, ?_, fun _ => rfl⟩
    exact Lands.get_bind (fun _ => tame_pure _) (fun _ _ _ _ => rfl)
  | hdcpIsEnabled =>
    refine ⟨_, _, ?_, fun _ => rfl⟩
    exact tame_isEnabled.bind fun _ => tame_pure _
  | hdcpEnable on =>
    refine ⟨_, _, ?_, fun _ => rfl⟩
    exact (tame_enableHdcp on).bind fun _ => tame_pure _
  | hdcpGetCpData =>
    refine ⟨_, _, ?_, fun _ => rfl⟩
    exact tame_getCpData.bind fun _ => tame_pure _
  | hdcpSetCpData =>
    refine ⟨_, _, ?_, fun _ => rfl⟩
    exact tame_setCpData.bind fun _ => tame_pure _
  | hdcpIsValidBksv =>
    refine ⟨_, _, ?_, fun _ => rfl⟩
    exact Lands.get_bind (fun _ => tame_pure _) (fun _ _ _ _ => rfl)
  | setEncryptionLevel on =>
    refine ⟨_, _, ?_, fun _ => rfl⟩
    exact (tame_encryptionLevel on).bind fun _ => tame_pure _
  | activateRepeater =>
    refine ⟨_, _, ?_, fun _ => rfl⟩
    exact Lands.get_bind (fun _ => (tame_activate _).bind fun _ => tame_pure _) (fun _ _ _ _ => rfl)
  | buildSha1Buffer =>
    refine ⟨_, _, ?_, fun _ => rfl⟩
    exact tame_buildShaCommand
  | computeTransmitterV =>
    refine ⟨_, _, ?_, fun _ => rfl⟩
    exact Lands.get_bind (fun _ => (tame_computeV _ _ _).bind fun _ => tame_pure _) (fun _ _ _ _ => rfl)
  | compareVPrime =>
    refine ⟨_, _, ?_, fun _ => rfl⟩
    exact Lands.get_bind (fun _ => (tame_compareV _).bind fun _ => tame_pure _) (fun _ _ _ _ => rfl)
  | getLinkStatus =>
    refine ⟨_, _, ?_, fun _ => rfl⟩
    exact tame_linkStatus.bind fun _ => tame_pure _
  | isRevoked =>
    refine ⟨_, _, ?_, fun _ => rfl⟩
    exact Lands.get_bind (fun _ => tame_pure _) (fun _ _ _ _ => rfl)
  | rxRead sub size =>
    refine ⟨_, _, ?_, fun _ => rfl⟩
    exact tame_rxReadCommand sub size
  | rxWrite sub size =>
    refine ⟨_, _, ?_, fun _ => rfl⟩
    exact tame_rxWriteCommand sub size
  | rxReadVPrime =>
    refine ⟨_, _, ?_, fun _ => rfl⟩
    exact tame_rxReadVPrimeCommand
  | setRepeaterPresent on =>
    refine ⟨_, _, ?_, fun _ => rfl⟩
    exact (tame_writeRepeaterPresent on).bind fun _ => tame_pure _
  | repeaterTeardown =>
    refine ⟨_, _, ?_, fun _ => rfl⟩
    exact tame_teardown.bind fun _ => tame_pure _

end Sys2Proof.Machine
end

