-- ==== Sys2Proof/Laws/PerInstr.lean ====
section
/-! SUPPORT. One lemma per operation for statements made for every instruction. -/

namespace Sys2Proof.Laws.Opcode

open Sys2Proof

/-- The opcode field of an operation's command word is the operation's opcode (30_encoding.md R100, R107). -/
def Statement (i : Instr) : Prop := opcodeField (encode i) = i.opcode

/-- The low byte of a word put together from 24 bits and a byte is the byte. -/
theorem opcodeField_append (x : BitVec 24) (b : Byte) : opcodeField (x ++ b) = b := by
  apply BitVec.eq_of_getLsbD_eq
  intro i hi
  have h : (x ++ b).getLsbD i = b.getLsbD i := by rw [BitVec.getLsbD_append]; simp [hi]
  simp only [opcodeField, BitVec.getLsbD_extractLsb', hi, decide_true, Bool.true_and, Nat.zero_add]
  exact h

theorem hdcpQuery : Statement .hdcpQuery := opcodeField_append _ _
theorem hdcpIsEnabled : Statement .hdcpIsEnabled := opcodeField_append _ _
theorem hdcpEnable (on : Bool) : Statement (.hdcpEnable on) := opcodeField_append _ _
theorem hdcpGetCpData : Statement .hdcpGetCpData := opcodeField_append _ _
theorem hdcpSetCpData : Statement .hdcpSetCpData := opcodeField_append _ _
theorem hdcpIsValidBksv : Statement .hdcpIsValidBksv := opcodeField_append _ _
theorem setEncryptionLevel (on : Bool) : Statement (.setEncryptionLevel on) := opcodeField_append _ _
theorem activateRepeater : Statement .activateRepeater := opcodeField_append _ _
theorem buildSha1Buffer : Statement .buildSha1Buffer := opcodeField_append _ _
theorem computeTransmitterV : Statement .computeTransmitterV := opcodeField_append _ _
theorem compareVPrime : Statement .compareVPrime := opcodeField_append _ _
theorem getLinkStatus : Statement .getLinkStatus := opcodeField_append _ _
theorem isRevoked : Statement .isRevoked := opcodeField_append _ _
theorem rxRead (sub : Byte) (size : BitVec 10) : Statement (.rxRead sub size) := opcodeField_append _ _
theorem rxWrite (sub : Byte) (size : BitVec 10) : Statement (.rxWrite sub size) := opcodeField_append _ _
theorem rxReadVPrime : Statement .rxReadVPrime := opcodeField_append _ _
theorem setRepeaterPresent (on : Bool) : Statement (.setRepeaterPresent on) := opcodeField_append _ _
theorem repeaterTeardown : Statement .repeaterTeardown := opcodeField_append _ _

end Sys2Proof.Laws.Opcode
end

