-- ==== Sys2Proof/Laws/Session.lean ====
section
/-! SUPPORT. No operation reads what an earlier one left in the controller state, the session registers or the local
buffers (10_state.md R33, R48; 20_memory.md R91): two runs that differ only there make the same accesses and return the
same results. Said once for every micro-program. -/

namespace Sys2Proof.Machine

open Sys2Proof

variable {α β : Type}

/-- The state with other controller state, session registers and buffers. -/
def State.reg (s : State) (c : CtlState) (r : Session) (k h : Memory) : State :=
  { s with ctlState := c, ses := r, ksvbuf := k, shabuf := h }

/-- Two states that differ only in controller state, session registers and buffers, whose KSV buffers agree below `n`
and whose SHA-1 buffers agree below `m`. -/
def Sim (n m : Nat) (s s' : State) : Prop :=
  (∃ c r k h, s' = s.reg c r k h) ∧ (s.ksvbuf.wf = true ∧ s'.ksvbuf.wf = true) ∧
    (s.shabuf.wf = true ∧ s'.shabuf.wf = true) ∧ (∀ a < n, s'.ksvbuf.read a = s.ksvbuf.read a) ∧
    ∀ a < m, s'.shabuf.read a = s.shabuf.read a

theorem Sim.weaken {n m n' m' : Nat} {s s' : State} (h : Sim n m s s') (hn : n' ≤ n) (hm : m' ≤ m) : Sim n' m' s s' :=
  ⟨h.1, h.2.1, h.2.2.1, fun a ha => h.2.2.2.1 a (by omega), fun a ha => h.2.2.2.2 a (by omega)⟩

/-- Two results that are the same but for what `Sim` lets differ. -/
def SameResult (n m : Nat) : EStateM.Result Abandoned State α → EStateM.Result Abandoned State α → Prop
  | .ok a t, .ok b u => b = a ∧ Sim n m t u
  | .error e t, .error f u => f = e ∧ Sim 0 0 t u
  | _, _ => False

/-- From states that agree on `n` and `m` bytes, `x` does the same and leaves states that agree on `n'` and `m'`. -/
def Same (x : Op α) (n m n' m' : Nat) : Prop := ∀ s s', Sim n m s s' → SameResult n' m' (x s) (x s')

/-- `x` does the same and keeps the agreement. -/
abbrev Keeps (x : Op α) : Prop := ∀ n m, Same x n m n m

theorem same_pure (a : α) : Keeps (pure a : Op α) := fun _ _ _ _ h => ⟨rfl, h⟩

theorem Same.weaken {x : Op α} {n m n' m' : Nat} (h : Same x n m n' m') {k l k' l' : Nat} (h1 : n ≤ k) (h2 : m ≤ l)
    (h3 : k' ≤ n') (h4 : l' ≤ m') : Same x k l k' l' := by
  intro s s' hs
  have := h s s' (hs.weaken h1 h2)
  revert this
  unfold SameResult
  cases x s <;> cases x s' <;> simp
  exact fun e hsim => ⟨e, hsim.weaken h3 h4⟩

theorem Same.bind {x : Op α} {f : α → Op β} {n m n' m' k l : Nat} (hx : Same x n m n' m')
    (hf : ∀ a, Same (f a) n' m' k l) : Same (x >>= f) n m k l := by
  intro s s' hs
  have h := hx s s' hs
  cases h1 : x s with
  | ok a t =>
    cases h2 : x s' with
    | ok b u =>
      rw [h1, h2] at h
      obtain ⟨rfl, h⟩ := h
      rw [bind_ok h1, bind_ok h2]
      exact hf _ t u h
    | error e u => rw [h1, h2] at h; exact h.elim
  | error e t =>
    cases h2 : x s' with
    | ok b u => rw [h1, h2] at h; exact h.elim
    | error e' u =>
      rw [h1, h2] at h
      rw [bind_error h1, bind_error h2]
      exact h

theorem Same.get_bind {f : State → Op β} {n m k l : Nat} (hc : ∀ s s', Sim n m s s' → f s' = f s)
    (h : ∀ s, Same (f s) n m k l) : Same (get >>= f) n m k l := by
  intro s s' hs
  have := h s s s' hs
  rw [← hc s s' hs] at this
  rw [hc s s' hs] at this
  have e : (get >>= f : Op β) s' = f s s' := congrFun (hc s s' hs) s'
  show SameResult k l (f s s) _
  rw [e]
  exact this

/-- What a piece reads of the state is not what may differ. -/
theorem Sim.congr {n m : Nat} {γ : Type} {f : State → γ} (hf : ∀ s c r k h, f (State.reg s c r k h) = f s) :
    ∀ s s', Sim n m s s' → f s' = f s := by
  rintro s s' ⟨⟨c, r, k, h, rfl⟩, -⟩
  exact hf s c r k h

theorem Same.ite {c : Prop} [Decidable c] {x y : Op α} {n m k l : Nat} (hx : Same x n m k l) (hy : Same y n m k l) :
    Same (if c then x else y) n m k l := by
  split
  · exact hx
  · exact hy

/-! ## The accesses and the register writes -/

theorem land_reg (l : List HostInput) (s : State) (c : CtlState) (r : Session) (k h : Memory) :
    land l (s.reg c r k h) =
      match land l s with
      | .ok _ t => .ok () (t.reg c r k h)
      | .error e t => .error e (t.reg c r k h) := by
  induction l generalizing s with
  | nil => rfl
  | cons a l ih =>
    cases a with
    | command w a => exact ih (s.refuseBusy w)
    | initialise b => rfl
    | powerLoss => exact ih s

theorem land_keeps (l : List HostInput) (s : State) : ∃ t : State, (land l s = .ok () t ∨ ∃ e, land l s = .error e t) ∧
    t.ksvbuf = s.ksvbuf ∧ t.shabuf = s.shabuf := by
  induction l generalizing s with
  | nil => exact ⟨s, .inl rfl, rfl, rfl⟩
  | cons a l ih =>
    cases a with
    | command w a => exact ih (s.refuseBusy w)
    | initialise b => exact ⟨_, .inr ⟨⟨b⟩, rfl⟩, rfl, rfl⟩
    | powerLoss => exact ih s

theorem same_moment : Keeps moment := by
  rintro n m s s' ⟨⟨c, r, k, h, rfl⟩, h2⟩
  have e : moment (s.reg c r k h) = land (s.env.arrivals.headD [])
    (({ s with env := { s.env with arrivals := s.env.arrivals.tail } } : State).reg c r k h) := rfl
  have e' : moment s = land (s.env.arrivals.headD [])
    { s with env := { s.env with arrivals := s.env.arrivals.tail } } := rfl
  rw [e, e', land_reg]
  obtain ⟨t, h1, hk, hh⟩ := land_keeps (s.env.arrivals.headD [])
    { s with env := { s.env with arrivals := s.env.arrivals.tail } }
  have hsim : Sim n m t (t.reg c r k h) := by
    refine ⟨⟨c, r, k, h, rfl⟩, ?_⟩
    rw [hk, hh]
    exact h2
  obtain h1 | ⟨e, h1⟩ := h1
  · rw [h1]; exact ⟨rfl, hsim⟩
  · rw [h1]; exact ⟨rfl, hsim.weaken (by omega) (by omega)⟩

/-- A write of the trace, the position, the argument record, the controller state or the session registers. -/
theorem same_modify (g : State → State) (hg : ∀ s c r k h, ∃ c' r', g (State.reg s c r k h) = (g s).reg c' r' k h)
    (hb : ∀ s, (g s).ksvbuf = s.ksvbuf ∧ (g s).shabuf = s.shabuf) : Keeps (modify g : Op Unit) := by
  rintro n m s s' ⟨⟨c, r, k, h, rfl⟩, h2⟩
  obtain ⟨c', r', e⟩ := hg s c r k h
  show SameResult n m (.ok () (g s)) (.ok () (g _))
  rw [e]
  refine ⟨rfl, ⟨c', r', k, h, rfl⟩, ?_⟩
  rw [(hb s).1, (hb s).2]
  exact h2

theorem same_access : Keeps access := fun n m =>
  (same_modify (fun s => { s with stepPos := s.stepPos + 1 }) (fun _ c r _ _ => ⟨c, r, rfl⟩) (fun _ => ⟨rfl, rfl⟩) n
    m).bind fun _ => same_moment n m

theorem same_perform (f : State → α × State)
    (hf : ∀ s c r k h, f (State.reg s c r k h) = ((f s).1, (f s).2.reg c r k h))
    (hb : ∀ s, (f s).2.ksvbuf = s.ksvbuf ∧ (f s).2.shabuf = s.shabuf) : Keeps (perform f) := by
  intro n m
  refine (same_access n m).bind fun _ => ?_
  rintro s s' ⟨⟨c, r, k, h, rfl⟩, h2⟩
  show SameResult n m (.ok (f s).1 (f s).2) (.ok (f _).1 (f _).2)
  rw [hf]
  refine ⟨rfl, ⟨c, r, k, h, rfl⟩, ?_⟩
  rw [(hb s).1, (hb s).2]
  exact h2

theorem same_cipherRead (r : CipherReg) : Keeps (cipherRead r) := by
  refine same_perform _ (fun s _ _ _ _ => ?_) (fun s => ?_) <;>
    cases h : s.env.cipher <;> simp [State.readCipher, State.drawCipher, State.reg, State.log, h]

theorem same_cipherWrite (r : CipherReg) (v : Word) : Keeps (cipherWrite r v) :=
  same_perform _ (fun _ _ _ _ _ => rfl) (fun _ => ⟨rfl, rfl⟩)

theorem same_readPort : Keeps (perform State.readPort) := by
  refine same_perform _ (fun s _ _ _ _ => ?_) (fun s => ?_) <;>
    cases h : s.env.port <;> simp [State.readPort, State.drawPort, State.reg, State.log, h]

theorem same_writePort (v : Word) : Keeps (perform (State.writePort v)) :=
  same_perform _ (fun _ _ _ _ _ => rfl) (fun _ => ⟨rfl, rfl⟩)

theorem same_serialRead (sub : Byte) (size : Nat) : Keeps (serialRead sub size) := by
  refine same_perform _ (fun s _ _ _ _ => ?_) (fun s => ?_) <;>
    cases h : s.env.serial <;> cases hf : Config.freeSerialOk s.draws <;>
      simp [State.readSerial, State.drawSerial, State.reg, State.log, h, hf]

theorem same_serialWrite (sub : Byte) (payload : List Byte) : Keeps (serialWrite sub payload) := by
  refine same_perform _ (fun s _ _ _ _ => ?_) (fun s => ?_) <;>
    cases h : s.env.serial <;> cases hf : Config.freeSerialOk s.draws <;>
      simp [State.writeSerial, State.drawSerial, State.reg, State.log, h, hf]

theorem same_rng32 : Keeps rng32 := by
  refine same_perform _ (fun s _ _ _ _ => ?_) (fun s => ?_) <;>
    cases h : s.env.rng <;> simp [State.readRandom, State.drawRandom, State.reg, State.log, h]

theorem same_delayUs (n : Nat) : Keeps (delayUs n) := same_perform _ (fun _ _ _ _ _ => rfl) (fun _ => ⟨rfl, rfl⟩)

theorem same_waitVblank : Keeps waitVblank := same_perform _ (fun _ _ _ _ _ => rfl) (fun _ => ⟨rfl, rfl⟩)

theorem same_raiseFailure (f : Failure) : Keeps (raiseFailure f) :=
  same_modify _ (fun _ c r _ _ => ⟨c, r, rfl⟩) (fun _ => ⟨rfl, rfl⟩)

theorem same_setSes (f : Session → Session) : Keeps (setSes f) :=
  same_modify _ (fun _ c r _ _ => ⟨c, f r, rfl⟩) (fun _ => ⟨rfl, rfl⟩)

theorem same_setCtl (c : CtlState) : Keeps (setCtl c) :=
  same_modify _ (fun _ _ r _ _ => ⟨c, r, rfl⟩) (fun _ => ⟨rfl, rfl⟩)

theorem same_setArgs (f : Args → Args) : Keeps (setArgs f) :=
  same_modify _ (fun _ c r _ _ => ⟨c, r, rfl⟩) (fun _ => ⟨rfl, rfl⟩)

theorem same_setParams (f : CpParams → CpParams) : Keeps (setParams f) := same_setArgs _

/-! ## Values the buffers pass on -/

/-- A piece whose answers all have a property. -/
theorem Same.bind_of {x : Op α} {f : α → Op β} {n m n' m' k l : Nat} {P : α → Prop} (hx : Same x n m n' m')
    (hP : ∀ s a t, x s = .ok a t → P a) (hf : ∀ a, P a → Same (f a) n' m' k l) : Same (x >>= f) n m k l := by
  intro s s' hs
  have h := hx s s' hs
  cases h1 : x s with
  | ok a t =>
    cases h2 : x s' with
    | ok b u =>
      rw [h1, h2] at h
      obtain ⟨rfl, h⟩ := h
      rw [bind_ok h1, bind_ok h2]
      exact hf _ (hP _ _ _ h1) t u h
    | error e u => rw [h1, h2] at h; exact h.elim
  | error e t =>
    cases h2 : x s' with
    | ok b u => rw [h1, h2] at h; exact h.elim
    | error e' u =>
      rw [h1, h2] at h
      rw [bind_error h1, bind_error h2]
      exact h

theorem serialRead_length {sub : Byte} {size : Nat} {s t : State} {a : Option (List Byte)}
    (h : serialRead sub size s = .ok a t) : ∀ bs, a = some bs → bs.length = size := by
  rintro bs rfl
  unfold serialRead perform at h
  cases h1 : access s with
  | error e u => rw [bind_error h1] at h; cases h
  | ok _ u =>
    rw [bind_ok h1] at h
    have h2 : some bs = (State.readSerial sub size u).1 := by
      injection h with h3 _
      exact h3.symm
    unfold State.readSerial at h2
    cases h3 : u.drawSerial.1 with
    | none => rw [h3] at h2; cases h2
    | some l =>
      rw [h3] at h2
      injection h2 with h4
      rw [h4]; simp [sizedAnswer]

theorem readBytes_congr {k h : Memory} {a n m : Nat} (heq : ∀ x < m, h.read x = k.read x) (hle : a + n ≤ m) :
    h.readBytes a n = k.readBytes a n := by
  unfold Memory.readBytes
  refine List.map_congr_left fun i hi => heq _ ?_
  have := List.mem_range.1 hi
  omega

/-- A write of the KSV buffer from its start: below the written bytes the buffers agree. -/
theorem same_setKsvbuf (bytes : List Byte) (n m : Nat) : Same (setKsvbuf fun b => b.writeBytes 0 bytes) n m bytes.length m := by
  rintro s s' ⟨⟨c, r, k, h, rfl⟩, ⟨k1, k2⟩, h1, h2, h3⟩
  refine ⟨rfl, ⟨c, r, k.writeBytes 0 bytes, h, rfl⟩, ⟨Memory.writeBytes_wf _ _ k1, Memory.writeBytes_wf _ _ k2⟩, h1,
    fun a ha => ?_, h3⟩
  refine (Memory.read_writeBytes 0 a bytes k2).trans (Eq.trans ?_ (Memory.read_writeBytes 0 a bytes k1).symm)
  rw [if_pos (by omega), if_pos (by omega)]

theorem same_buildShaBuffer {ksvs : List Byte} {count : Nat} (hk : ksvs.length = 5 * count) (topology : BitVec 16)
    (n m : Nat) : Same (buildShaBuffer ksvs count topology) n m n (shaLength count) := by
  refine (same_setSes _ n m).bind fun _ => ?_
  rintro s s' ⟨⟨c, r, k, h, rfl⟩, h1, ⟨k1, k2⟩, h2, h3⟩
  have e1 := fillShaBuffer_layout ksvs count topology hk k1
  have e2 := fillShaBuffer_layout ksvs count topology hk k2
  refine ⟨rfl, ⟨c, r, k, fillShaBuffer ksvs count topology h, rfl⟩, h1, ⟨e1.1, e2.1⟩, h2, fun a ha => ?_⟩
  refine (e2.2 a).trans (Eq.trans ?_ (e1.2 a).symm)
  rw [if_pos ha, if_pos ha]

/-! ## The micro-programs -/

theorem same_cipherWriteField (r : CipherReg) (f : Field) (v : Word) : Keeps (cipherWriteField r f v) := fun n m =>
  (same_cipherRead r n m).bind fun _ => same_cipherWrite r _ n m

theorem same_portSetEnc (b : Bool) : Keeps (portSetEnc b) := fun n m =>
  Same.get_bind (Sim.congr fun _ _ _ _ _ => rfl) fun _ => (same_readPort n m).bind fun _ => same_writePort _ n m

theorem same_pollUntil (r : CipherReg) (test : Word → Bool) (max : Nat) (last : Word) :
    Keeps (pollUntil r test max last) := by
  intro n m
  induction max generalizing last with
  | zero => exact same_pure _ n m
  | succ k ih => exact (same_cipherRead r n m).bind fun v => (same_pure _ n m).ite (ih v)

theorem same_isEnabled : Keeps isEnabled := fun n m =>
  Same.get_bind (Sim.congr fun _ _ _ _ _ => rfl) fun _ =>
    ((same_cipherRead _ n m).bind fun _ => same_pure _ n m).ite (same_pure _ n m)

theorem same_writeMode (k : Nat) : Keeps (writeMode k) := fun n m =>
  Same.get_bind (Sim.congr fun _ _ _ _ _ => rfl) fun _ => same_cipherWriteField _ _ _ n m

theorem same_writeRepeaterPresent (on : Bool) : Keeps (writeRepeaterPresent on) := fun n m =>
  Same.get_bind (Sim.congr fun _ _ _ _ _ => rfl) fun _ => (same_cipherWriteField _ _ _ n m).bind fun _ =>
    (same_cipherRead _ n m).bind fun _ => same_pure _ n m

theorem same_disableWait (k : Nat) : Keeps (disableWait k) := by
  intro n m
  induction k with
  | zero => exact (same_raiseFailure _ n m).bind fun _ => same_pure _ n m
  | succ k ih =>
    exact Same.get_bind (Sim.congr fun _ _ _ _ _ => rfl) fun _ => (same_waitVblank n m).bind fun _ =>
      (same_cipherRead _ n m).bind fun _ =>
        ((same_cipherWrite _ _ n m).bind fun _ => (same_portSetEnc _ n m).bind fun _ =>
          (same_setCtl _ n m).bind fun _ => same_pure _ n m).ite ih

theorem same_disableSequence : Keeps disableSequence := fun n m =>
  (same_setCtl _ n m).bind fun _ => Same.get_bind (Sim.congr fun _ _ _ _ _ => rfl) fun _ =>
    (same_writeMode _ n m).bind fun _ => same_disableWait _ n m

theorem same_failEnable (f : Failure) : Keeps (failEnable f) := fun n m =>
  (same_setCtl _ n m).bind fun _ => (same_raiseFailure _ n m).bind fun _ => same_pure _ n m

theorem same_captureAn : Keeps captureAn := fun n m =>
  Same.get_bind (Sim.congr fun _ _ _ _ _ => rfl) fun _ =>
    (same_rng32 n m).bind fun _ => (same_setSes _ n m).bind fun _ => (same_cipherWrite _ _ n m).bind fun _ =>
    (same_rng32 n m).bind fun _ => (same_setSes _ n m).bind fun _ => (same_cipherWrite _ _ n m).bind fun _ =>
    (same_delayUs _ n m).bind fun _ => (same_writeMode _ n m).bind fun _ => (same_pollUntil _ _ _ _ n m).bind fun _ =>
    ((same_setCtl _ n m).bind fun _ => same_pure _ n m).ite
      ((same_writeMode _ n m).bind fun _ => same_failEnable _ n m)

theorem same_readAnAksv : Keeps readAnAksv := fun n m =>
  (same_cipherRead _ n m).bind fun _ => (same_cipherRead _ n m).bind fun _ => (same_setSes _ n m).bind fun _ =>
    (same_cipherRead _ n m).bind fun _ => (same_cipherRead _ n m).bind fun _ => (same_setSes _ n m).bind fun _ =>
      same_pure _ n m

theorem same_sendAnAksv (an : BitVec 64) (aksv : BitVec 40) : Keeps (sendAnAksv an aksv) := fun n m =>
  (same_serialWrite _ _ n m).bind fun _ =>
    ((same_serialWrite _ _ n m).bind fun _ => (same_pure _ n m).ite (same_failEnable _ n m)).ite
      (same_failEnable _ n m)

theorem same_readBksv : Keeps readBksv := by
  refine fun n m => (same_serialRead _ _ n m).bind fun a => ?_
  cases a with
  | none => exact (same_failEnable _ n m).bind fun _ => same_pure _ n m
  | some bytes =>
    exact (same_setSes _ n m).bind fun _ =>
      (same_pure _ n m).ite ((same_failEnable _ n m).bind fun _ => same_pure _ n m)

theorem same_readBcapsEnable : Keeps readBcapsEnable := by
  refine fun n m => Same.get_bind (Sim.congr fun _ _ _ _ _ => rfl) fun _ =>
    (same_serialRead _ _ n m).bind fun a => ?_
  cases a with
  | none => exact same_failEnable _ n m
  | some bytes =>
    exact (same_setSes _ n m).bind fun _ =>
      ((same_writeRepeaterPresent _ n m).bind fun _ => same_pure _ n m).ite (same_pure _ n m)

theorem same_loadBksv (k : Ksv) : Keeps (loadBksv k) := fun n m =>
  (same_cipherWrite _ _ n m).bind fun _ => (same_cipherWrite _ _ n m).bind fun _ => same_setCtl _ n m

theorem same_startEncryption : Keeps startEncryption := fun n m =>
  Same.get_bind (Sim.congr fun _ _ _ _ _ => rfl) fun _ => (same_portSetEnc _ n m).bind fun _ =>
    (same_writeMode _ n m).bind fun _ => (same_pollUntil _ _ _ _ n m).bind fun _ =>
      (same_pure _ n m).ite (same_failEnable _ n m)

theorem same_compareRi : Keeps compareRi := by
  refine fun n m => (same_serialRead _ _ n m).bind fun a => ?_
  cases a with
  | none => exact same_pure _ n m
  | some bytes =>
    exact (same_setSes _ n m).bind fun _ => (same_cipherWrite _ _ n m).bind fun _ =>
      (same_cipherRead _ n m).bind fun _ => same_pure _ n m

theorem same_checkRi : Keeps checkRi := by
  refine fun n m => Same.get_bind (Sim.congr fun _ _ _ _ _ => rfl) fun _ => (same_compareRi n m).bind fun a => ?_
  cases a with
  | none => exact same_failEnable _ n m
  | some v =>
    exact ((same_setCtl _ n m).bind fun _ => same_pure _ n m).ite ((same_setCtl _ n m).bind fun _ => same_pure _ n m)

theorem same_enableWithBksv (k : Ksv) : Keeps (enableWithBksv k) := fun n m =>
  (same_readBcapsEnable n m).bind fun _ =>
    ((same_loadBksv _ n m).bind fun _ => (same_startEncryption n m).bind fun _ =>
      (same_checkRi n m).ite (same_pure _ n m)).ite (same_pure _ n m)

theorem same_enableSequence : Keeps enableSequence := by
  refine fun n m => (same_captureAn n m).bind fun _ => Same.ite ((same_readAnAksv n m).bind fun _ =>
    (same_sendAnAksv _ _ n m).bind fun _ => Same.ite ((same_readBksv n m).bind fun a => ?_) (same_pure _ n m))
      (same_pure _ n m)
  cases a with
  | none => exact same_pure _ n m
  | some k => exact same_enableWithBksv k n m

theorem same_enableHdcp (on : Bool) : Keeps (enableHdcp on) := fun n m =>
  Same.get_bind (Sim.congr fun _ _ _ _ _ => rfl) fun _ =>
    ((same_enableSequence n m).ite (same_disableSequence n m)).ite (same_pure _ n m)

theorem same_encryptionLevel (on : Bool) : Keeps (encryptionLevel on) := fun n m =>
  (same_enableHdcp on n m).bind fun _ => (same_pure _ n m).ite (same_pure _ n m)

theorem same_rxRead (sub : Byte) (size : Nat) : Keeps (rxRead sub size) := by
  refine fun n m => (same_serialRead _ _ n m).bind fun a => ?_
  cases a with
  | none => exact (same_raiseFailure _ n m).bind fun _ => same_pure _ n m
  | some bytes => exact same_pure _ n m

theorem same_rxReadCommand (sub : Byte) (size : BitVec 10) : Keeps (rxReadCommand sub size) := by
  refine fun n m => Same.ite (same_pure _ n m) (Same.ite (same_pure _ n m) ((same_rxRead _ _ n m).bind fun a => ?_))
  cases a with
  | none => exact same_pure _ n m
  | some bytes => exact (same_setArgs _ n m).bind fun _ => same_pure _ n m

theorem same_rxWriteCommand (sub : Byte) (size : BitVec 10) : Keeps (rxWriteCommand sub size) := fun n m =>
  (same_pure _ n m).ite ((same_pure _ n m).ite (Same.get_bind (Sim.congr fun _ _ _ _ _ => rfl) fun _ =>
    (same_serialWrite _ _ n m).bind fun _ =>
      (same_pure _ n m).ite ((same_raiseFailure _ n m).bind fun _ => same_pure _ n m)))

theorem same_readVBlocks (subs : List Byte) : Keeps (readVBlocks subs) := by
  intro n m
  induction subs with
  | nil => exact same_pure _ n m
  | cons sub subs ih =>
    refine (same_rxRead _ _ n m).bind fun a => ?_
    cases a with
    | none => exact (same_raiseFailure _ n m).bind fun _ => same_pure _ n m
    | some bytes =>
      refine ih.bind fun b => ?_
      cases b <;> exact same_pure _ n m

theorem same_readVPrime : Keeps readVPrime := by
  refine fun n m => (same_readVBlocks _ n m).bind fun a => ?_
  cases a <;> exact same_pure _ n m

theorem same_rxReadVPrimeCommand : Keeps rxReadVPrimeCommand := by
  refine fun n m => (same_readVPrime n m).bind fun a => ?_
  cases a with
  | none => exact same_pure _ n m
  | some v => exact (same_setArgs _ n m).bind fun _ => same_pure _ n m

theorem same_buildShaCommand : Same buildShaCommand 0 0 0 0 := by
  refine Same.get_bind (Sim.congr fun _ _ _ _ _ => rfl) fun s =>
    (same_buildShaBuffer (callerBytes_length _ _ _) _ 0 0).bind fun _ => Same.get_bind (fun t t' h => ?_) fun _ =>
      ((same_setArgs _ _ _).bind fun _ => same_pure _ _ _).weaken (Nat.le_refl _) (Nat.le_refl _) (Nat.zero_le _)
        (Nat.zero_le _)
  show (do setArgs _; return _ : Op Result) = do setArgs _; return _
  rw [readBytes_congr h.2.2.2.2 (by omega)]

theorem same_writeControl (mode : BitVec 3) : Keeps (writeControl mode) := fun n m =>
  Same.get_bind (Sim.congr fun _ _ _ _ _ => rfl) fun _ => same_cipherWriteField _ _ _ n m

theorem same_feed (mode : BitVec 3) (w : Word) : Keeps (feed mode w) := fun n m =>
  Same.get_bind (Sim.congr fun _ _ _ _ _ => rfl) fun _ => (same_writeControl _ n m).bind fun _ =>
    (same_pollUntil _ _ _ _ n m).bind fun _ =>
      ((same_cipherWrite _ _ n m).bind fun _ => same_pure _ n m).ite
        ((same_raiseFailure _ n m).bind fun _ => same_pure _ n m)

theorem same_feedAt (pos : Nat) (mode : BitVec 3) (w : Word) : Keeps (feedAt pos mode w) := fun n m =>
  (same_feed _ _ n m).bind fun _ => ((same_setSes _ n m).bind fun _ => same_pure _ n m).ite (same_pure _ n m)

theorem same_shaChunk {pos n m : Nat} (h : pos + 4 ≤ m) : Same (shaChunk pos) n m n m :=
  Same.get_bind
    (fun s s' hs => by
      show (pure _ : Op Word) = pure _
      rw [readBytes_congr hs.2.2.2.2 h])
    fun _ => same_pure _ n m

theorem same_feedText {k pos n m : Nat} (h : pos + 4 * k ≤ m) : Same (feedText k pos) n m n m := by
  induction k generalizing pos with
  | zero => exact same_pure _ n m
  | succ k ih =>
    exact Same.get_bind (Sim.congr fun _ _ _ _ _ => rfl) fun _ => (same_shaChunk (by omega)).bind fun _ =>
      (same_feedAt _ _ _ n m).bind fun _ => (ih (by omega)).ite (same_pure _ n m)

theorem same_feedPartial {r pos n m : Nat} (h : r ≠ 0 → pos + 4 ≤ m) : Same (feedPartial r pos) n m n m := by
  unfold feedPartial
  split
  · exact same_pure _ n m
  next hr =>
    refine Same.get_bind (fun s s' hs => ?_) fun _ => (same_feedAt _ _ _ n m).bind fun _ =>
      ((same_setSes _ n m).bind fun _ => same_pure _ n m).ite (same_pure _ n m)
    have e := readBytes_congr (a := pos) (n := 4) hs.2.2.2.2 (h hr)
    obtain ⟨⟨c, x, k, l, rfl⟩, -⟩ := hs
    show (do if ← feedAt pos _ (mergeWord s.prm r (Memory.readBytes l pos 4)) then _ else _ : Op Bool) = _
    rw [show Memory.readBytes l pos 4 = s.shabuf.readBytes pos 4 from e]
    rfl

theorem same_feedMo (pos left : Nat) : Keeps (feedMo pos left) := fun n m =>
  Same.get_bind (Sim.congr fun _ _ _ _ _ => rfl) fun _ => (same_feedAt _ _ _ n m).bind fun _ =>
    ((same_setSes _ n m).bind fun _ => same_pure _ n m).ite (same_pure _ n m)

theorem same_feedMoRest {pos left n m : Nat} (h : left ≠ 0 → pos + 4 ≤ m) : Same (feedMoRest pos left) n m n m := by
  refine Same.get_bind (Sim.congr fun _ _ _ _ _ => rfl) fun _ => ?_
  split
  · exact same_pure _ n m
  next hl =>
    exact (same_shaChunk (h hl)).bind fun _ => (same_feedAt _ _ _ n m).bind fun _ =>
      ((same_setSes _ n m).bind fun _ => same_pure _ n m).ite (same_pure _ n m)

theorem same_feedPhases (count n : Nat) : Same (feedPhases count) n (shaLength count) n (shaLength count) := by
  have hb := shaLength_bounds count
  have hT : textBytes count = 5 * count + 2 := rfl
  have hM : moBytes = 8 := rfl
  unfold feedPhases
  rw [hT, hM]
  by_cases hr : (5 * count + 2) % 4 = 0
  · simp only [hr, if_true, show (8 - 4 = 0) = False from by simp, if_false]
    exact (same_feedText (by omega)).bind fun _ => Same.ite ((same_feedPartial (by omega)).bind fun _ =>
      Same.ite ((same_feedMo _ _ _ _).bind fun _ => Same.ite ((same_feedMoRest (by omega)).bind fun _ =>
        Same.ite (same_feedText (by omega)) (same_pure _ _ _)) (same_pure _ _ _)) (same_pure _ _ _)) (same_pure _ _ _)
  · have hl : 8 - (4 - (5 * count + 2) % 4) - 4 ≠ 0 := by omega
    simp only [hr, hl, if_false]
    exact (same_feedText (by omega)).bind fun _ => Same.ite ((same_feedPartial (by omega)).bind fun _ =>
      Same.ite ((same_feedMo _ _ _ _).bind fun _ => Same.ite ((same_feedMoRest (by omega)).bind fun _ =>
        Same.ite (same_feedText (by omega)) (same_pure _ _ _)) (same_pure _ _ _)) (same_pure _ _ _)) (same_pure _ _ _)

theorem same_computeV {ksvs : List Byte} {count : Nat} (hk : ksvs.length = 5 * count) (topology : BitVec 16)
    (n m : Nat) : Same (computeV ksvs count topology) n m n 0 :=
  (same_buildShaBuffer hk topology n m).bind fun _ => (same_setSes _ _ _).bind fun _ =>
    (same_feedPhases count n).weaken (Nat.le_refl _) (Nat.le_refl _) (Nat.le_refl _) (Nat.zero_le _)

theorem same_awaitCompletion (k : Nat) : Keeps (awaitCompletion k) := by
  intro n m
  induction k with
  | zero => exact (same_raiseFailure _ n m).bind fun _ => same_pure _ n m
  | succ k ih =>
    refine Same.get_bind (Sim.congr fun _ _ _ _ _ => rfl) fun s => (same_cipherRead _ n m).bind fun v => ?_
    cases repState s.prm v <;> first | exact same_pure _ n m | exact ih

theorem same_loadVPrime (v : VWords) : Keeps (loadVPrime v) := fun n m =>
  (same_cipherWrite _ _ n m).bind fun _ => (same_cipherWrite _ _ n m).bind fun _ =>
    (same_cipherWrite _ _ n m).bind fun _ => (same_cipherWrite _ _ n m).bind fun _ => same_cipherWrite _ _ n m

theorem same_compareV (v : VWords) : Keeps (compareV v) := fun n m =>
  Same.get_bind (Sim.congr fun _ _ _ _ _ => rfl) fun _ => (same_loadVPrime _ n m).bind fun _ =>
    (same_pollUntil _ _ _ _ n m).bind fun _ =>
      ((same_writeControl _ n m).bind fun _ => same_awaitCompletion _ n m).ite
        ((same_raiseFailure _ n m).bind fun _ => same_pure _ n m)

theorem same_teardown : Keeps teardown := fun n m =>
  Same.get_bind (Sim.congr fun _ _ _ _ _ => rfl) fun _ => (same_cipherWriteField _ _ _ n m).bind fun _ =>
    (same_writeMode _ n m).bind fun _ => same_setCtl _ n m

theorem same_endRevoked : Keeps endRevoked := fun n m =>
  (same_teardown n m).bind fun _ => (same_raiseFailure _ n m).bind fun _ => same_pure _ n m

theorem same_endFailed (revoked : Bool) : Keeps (endFailed revoked) := fun n m =>
  (same_endRevoked n m).ite ((same_teardown n m).bind fun _ => same_pure _ n m)

theorem same_verifyV (count : Nat) (topology : BitVec 16) (revoked : Bool) :
    Same (verifyV count topology revoked) (5 * count) 0 0 0 := by
  refine Same.get_bind (fun s s' hs => ?_) fun s =>
    (same_computeV (Memory.readBytes_length _ _ _) topology _ _).bind fun _ =>
      Same.weaken (n := 0) (m := 0) (n' := 0) (m' := 0) (Same.ite ((same_readVPrime 0 0).bind fun a => ?_)
        (same_endFailed _ 0 0)) (Nat.zero_le _) (Nat.zero_le _) (Nat.le_refl _) (Nat.le_refl _)
  · have e := readBytes_congr (a := 0) (n := ksvBytes * count) hs.2.2.2.1 (by simp [ksvBytes])
    simp only [e]
  · cases a with
    | none => exact same_endFailed _ 0 0
    | some v =>
      exact (same_setSes _ 0 0).bind fun _ => (same_compareV _ 0 0).bind fun _ =>
        (same_endRevoked 0 0).ite ((same_pure _ 0 0).ite (same_endFailed _ 0 0))

theorem ksvEntries_congr {k h : Memory} {count : Nat} (heq : ∀ x < 5 * count, h.read x = k.read x) :
    ksvEntries h count = ksvEntries k count := by
  unfold ksvEntries
  refine List.map_congr_left fun i hi => ?_
  have := List.mem_range.1 hi
  rw [readBytes_congr heq (by simp only [ksvBytes]; omega)]

theorem same_verifyTopology (count : Nat) (topology : BitVec 16) (revocationSet : List Ksv) :
    Same (verifyTopology count topology revocationSet) 0 0 0 0 := by
  refine (same_serialRead _ _ 0 0).bind_of (P := fun a => ∀ bs, a = some bs → bs.length = 5 * count)
    (fun _ _ _ h => serialRead_length h) fun a ha => ?_
  cases a with
  | none => exact (same_teardown 0 0).bind fun _ => (same_raiseFailure _ 0 0).bind fun _ => same_pure _ 0 0
  | some bytes =>
    have hl := ha bytes rfl
    refine (same_setKsvbuf bytes 0 0).bind fun _ => ?_
    rw [hl]
    refine Same.get_bind (fun s s' hs => ?_) fun _ => (same_setSes _ _ _).bind fun _ => same_verifyV _ _ _
    simp only [ksvEntries_congr hs.2.2.2.1]

theorem same_checkTopology (revocationSet : List Ksv) : Same (checkTopology revocationSet) 0 0 0 0 := by
  refine Same.get_bind (Sim.congr fun _ _ _ _ _ => rfl) fun s => (same_serialRead _ _ 0 0).bind fun a => ?_
  cases a with
  | none => exact (same_raiseFailure _ 0 0).bind fun _ => same_pure _ 0 0
  | some bytes =>
    refine (same_setSes _ 0 0).bind fun _ => ?_
    cases topologyViolation (bstatus s.prm (le16 bytes)) with
    | some v => exact (same_raiseFailure _ 0 0).bind fun _ => same_pure _ 0 0
    | none =>
      exact (same_setSes _ 0 0).bind fun _ => (same_pure _ 0 0).ite ((same_writeRepeaterPresent _ 0 0).bind fun _ =>
        (same_verifyTopology _ _ _).ite (same_pure _ 0 0))

theorem same_activate (revocationSet : List Ksv) : Same (activate revocationSet) 0 0 0 0 := by
  refine Same.get_bind (Sim.congr fun _ _ _ _ _ => rfl) fun _ => (same_serialRead _ _ 0 0).bind fun a => ?_
  cases a with
  | none => exact (same_raiseFailure _ 0 0).bind fun _ => same_pure _ 0 0
  | some bytes =>
    exact (same_setSes _ 0 0).bind fun _ => ((same_checkTopology _).ite (same_pure _ 0 0)).ite (same_pure _ 0 0)

theorem same_awaitFrameBoundary (f0 : Word) (k : Nat) : Keeps (awaitFrameBoundary f0 k) := by
  intro n m
  induction k with
  | zero => exact same_pure _ n m
  | succ k ih =>
    exact Same.get_bind (Sim.congr fun _ _ _ _ _ => rfl) fun _ => (same_cipherRead _ n m).bind fun _ =>
      ih.ite (same_pure _ n m)

theorem same_waitFrameBoundary (f0 : Word) : Keeps (waitFrameBoundary f0) := fun n m =>
  Same.get_bind (Sim.congr fun _ _ _ _ _ => rfl) fun _ => (same_setSes _ n m).bind fun _ =>
    same_awaitFrameBoundary _ _ n m

theorem same_linkAttempt (k : Nat) : Keeps (linkAttempt k) := by
  intro n m
  induction k with
  | zero => exact same_pure _ n m
  | succ k ih =>
    refine Same.get_bind (Sim.congr fun _ _ _ _ _ => rfl) fun _ => (same_setSes _ n m).bind fun _ =>
      (same_compareRi n m).bind fun a => ?_
    cases a with
    | none => exact (same_raiseFailure _ n m).bind fun _ => same_pure _ n m
    | some v => exact (same_pure _ n m).ite ((same_waitFrameBoundary _ n m).bind fun _ => ih)

theorem same_linkStatus : Keeps linkStatus := same_linkAttempt _

theorem same_reportRepeater : Keeps reportRepeater := by
  refine fun n m => Same.get_bind (Sim.congr fun _ _ _ _ _ => rfl) fun _ => (same_serialRead _ _ n m).bind fun a => ?_
  cases a with
  | none => exact (same_raiseFailure _ n m).bind fun _ => (same_setParams _ n m).bind fun _ => same_pure _ n m
  | some bytes => exact (same_setSes _ n m).bind fun _ => (same_setParams _ n m).bind fun _ => same_pure _ n m

theorem same_reportLevel : Keeps reportLevel := fun n m =>
  Same.get_bind (Sim.congr fun _ _ _ _ _ => rfl) fun _ => (same_isEnabled n m).bind fun _ =>
    ((same_setParams _ n m).bind fun _ => (same_linkStatus n m).bind fun _ =>
      (same_pure _ n m).ite ((same_setParams _ n m).bind fun _ => (same_encryptionLevel _ n m).bind fun _ =>
        same_pure _ n m)).ite
      ((same_setParams _ n m).bind fun _ => same_pure _ n m)

theorem same_getCpData : Keeps getCpData := fun n m =>
  Same.get_bind (Sim.congr fun _ _ _ _ _ => rfl) fun _ =>
    ((same_reportLevel n m).bind fun _ => (same_reportRepeater n m).bind fun _ =>
      (same_pure _ n m).ite ((same_pure _ n m).ite (same_pure _ n m))).ite (same_pure _ n m)

theorem same_applyCpData : Same applyCpData 0 0 0 0 :=
  Same.get_bind (Sim.congr fun _ _ _ _ _ => rfl) fun _ => (same_activate _).ite (same_encryptionLevel _ 0 0)

theorem same_safetyNet (st : Status) : Keeps (safetyNet st) := fun n m =>
  (same_pure _ n m).ite (Same.get_bind (Sim.congr fun _ _ _ _ _ => rfl) fun _ =>
    (same_setParams _ n m).bind fun _ => (same_encryptionLevel _ n m).bind fun _ => same_pure _ n m)

theorem same_setCpData : Same setCpData 0 0 0 0 :=
  Same.get_bind (Sim.congr fun _ _ _ _ _ => rfl) fun _ =>
    ((same_reportRepeater 0 0).bind fun _ => same_applyCpData.bind fun _ => (same_safetyNet _ 0 0).bind fun _ =>
      same_pure _ 0 0).ite (same_pure _ 0 0)

/-- A micro-program that does the same, with its last moment. -/
theorem same_completed {body : Op Result} (h : Same body 0 0 0 0) : Same (completed body) 0 0 0 0 :=
  h.bind fun _ => (same_moment 0 0).bind fun _ => same_pure _ 0 0

/-- Every operation is one `runOperation` of a micro-program that does the same from states that differ only in the
controller state, the session registers and the buffers. -/
theorem exec_same (i : Instr) : ∃ w body, Same body 0 0 0 0 ∧ ∀ s, exec i s = runOperation i w body s := by
  cases i with
  | hdcpQuery =>
    refine ⟨_, _, ?_, fun _ => rfl⟩
    exact Same.get_bind (Sim.congr fun _ _ _ _ _ => rfl) fun _ => same_pure _ 0 0
  | hdcpIsEnabled =>
    refine ⟨_, _, ?_, fun _ => rfl⟩
    exact (same_isEnabled 0 0).bind fun _ => same_pure _ 0 0
  | hdcpEnable on =>
    refine ⟨_, _, ?_, fun _ => rfl⟩
    exact (same_enableHdcp on 0 0).bind fun _ => same_pure _ 0 0
  | hdcpGetCpData =>
    refine ⟨_, _, ?_, fun _ => rfl⟩
    exact (same_getCpData 0 0).bind fun _ => same_pure _ 0 0
  | hdcpSetCpData =>
    refine ⟨_, _, ?_, fun _ => rfl⟩
    exact same_setCpData.bind fun _ => same_pure _ 0 0
  | hdcpIsValidBksv =>
    refine ⟨_, _, ?_, fun _ => rfl⟩
    exact Same.get_bind (Sim.congr fun _ _ _ _ _ => rfl) fun _ => same_pure _ 0 0
  | setEncryptionLevel on =>
    refine ⟨_, _, ?_, fun _ => rfl⟩
    exact (same_encryptionLevel on 0 0).bind fun _ => same_pure _ 0 0
  | activateRepeater =>
    refine ⟨_, _, ?_, fun _ => rfl⟩
    exact Same.get_bind (Sim.congr fun _ _ _ _ _ => rfl) fun _ => (same_activate _).bind fun _ => same_pure _ 0 0
  | buildSha1Buffer => exact ⟨_, _, same_buildShaCommand, fun _ => rfl⟩
  | computeTransmitterV =>
    refine ⟨_, _, ?_, fun _ => rfl⟩
    exact Same.get_bind (Sim.congr fun _ _ _ _ _ => rfl) fun _ =>
      (same_computeV (callerBytes_length _ _ _) _ 0 0).bind fun _ => same_pure _ 0 0
  | compareVPrime =>
    refine ⟨_, _, ?_, fun _ => rfl⟩
    exact Same.get_bind (Sim.congr fun _ _ _ _ _ => rfl) fun _ => (same_compareV _ 0 0).bind fun _ => same_pure _ 0 0
  | getLinkStatus =>
    refine ⟨_, _, ?_, fun _ => rfl⟩
    exact (same_linkStatus 0 0).bind fun _ => same_pure _ 0 0
  | isRevoked =>
    refine ⟨_, _, ?_, fun _ => rfl⟩
    exact Same.get_bind (Sim.congr fun _ _ _ _ _ => rfl) fun _ => same_pure _ 0 0
  | rxRead sub size => exact ⟨_, _, same_rxReadCommand sub size 0 0, fun _ => rfl⟩
  | rxWrite sub size => exact ⟨_, _, same_rxWriteCommand sub size 0 0, fun _ => rfl⟩
  | rxReadVPrime => exact ⟨_, _, same_rxReadVPrimeCommand 0 0, fun _ => rfl⟩
  | setRepeaterPresent on =>
    refine ⟨_, _, ?_, fun _ => rfl⟩
    exact (same_writeRepeaterPresent on 0 0).bind fun _ => same_pure _ 0 0
  | repeaterTeardown =>
    refine ⟨_, _, ?_, fun _ => rfl⟩
    exact (same_teardown 0 0).bind fun _ => same_pure _ 0 0

end Sys2Proof.Machine
end

