-- ==== Sys2Proof/Laws/Runs.lean ====
section
/-! SUPPORT. From the law of a micro-program to the run of its operation, and what every run shares. -/

namespace Sys2Proof.Machine

open Sys2Proof

/-- The law of an operation's body, as a statement about `exec`. -/
theorem runs_of_gives {i : Instr} {w : Word} {body : Op Result} {s : State} {Q : Result → List Event → State → Prop}
    (he : exec i s = runOperation i w body s) (hr : s.ready = true) (h : Gives body (s.start i) Q) :
    ∃ t r es u, Runs i s t r es ∧ t.visible = (s.visible.replay es).withRegs u.regs ∧
      Answered s.prm (s.cipher, s.port) s.scripts es ∧ Q r es u := by
  obtain ⟨t, r, es, u, h1, h2, h3, h4, h5, h6, h7, h8, h9⟩ := runOperation_gives (i := i) (w := w) hr h
  exact ⟨t, r, es, u, ⟨he.trans h1, h2, h3, h4, h5, h6⟩, h7, h8, h9⟩

/-- An operation has one run from a state. -/
theorem Runs.unique {i : Instr} {s t t' : State} {r r' : Result} {es es' : List Event} (h : Runs i s t r es)
    (h' : Runs i s t' r' es') : t = t' ∧ r = r' ∧ es = es' := by
  obtain ⟨h1, h2, -, -, -, h3⟩ := h
  obtain ⟨g1, g2, -, -, -, g3⟩ := h'
  rw [h1] at g1
  injection g1 with e
  subst e
  rw [h2] at g2
  injection g2 with e
  subst e
  rw [h3] at g3
  exact ⟨rfl, rfl, List.reverse_injective (List.append_cancel_right g3)⟩

/-- A ready block runs the operation's micro-program to its end. -/
theorem exec_ready {i : Instr} {w : Word} {body : Op Result} (he : ∀ s, exec i s = runOperation i w body s) {s : State}
    (h : s.ready = true) : exec i s = .next (endOperation (completed body (s.start i))) := by
  simp only [State.ready, Bool.and_eq_true, Bool.not_eq_true'] at h
  rw [he, runOperation, h.2, h.1]; rfl

/-- A ready block answers a next state and is idle again, whatever lands. -/
theorem exec_next (i : Instr) {s : State} (h : s.ready = true) : ∃ t, exec i s = .next t ∧ t.busy = false := by
  obtain ⟨w, body, -, he⟩ := exec_tame i
  refine ⟨_, exec_ready he h, ?_⟩
  cases completed body (s.start i) <;> rfl

/-- Inputs without a reset, or a first reset with nothing but such inputs before it. -/
theorem noReset_or_reset (l : List HostInput) :
    l.all HostInput.isNoReset = true ∨
      ∃ pre c post, l = pre ++ .initialise c :: post ∧ pre.all HostInput.isNoReset = true := by
  induction l with
  | nil => exact .inl rfl
  | cons a l ih =>
    cases a with
    | initialise b => exact .inr ⟨[], b, l, rfl, rfl⟩
    | command w a =>
      obtain h | ⟨pre, c, post, rfl, h⟩ := ih
      · exact .inl (by simpa [HostInput.isNoReset] using h)
      · exact .inr ⟨.command w a :: pre, c, post, rfl, by simpa [HostInput.isNoReset] using h⟩
    | powerLoss =>
      obtain h | ⟨pre, c, post, rfl, h⟩ := ih
      · exact .inl (by simpa [HostInput.isNoReset] using h)
      · exact .inr ⟨.powerLoss :: pre, c, post, rfl, by simpa [HostInput.isNoReset] using h⟩

/-- Either no reset lands in the first `n` moments, or one lands first in moment `k`. -/
theorem calm_or_reset (L : List (List HostInput)) (n : Nat) :
    Calm L n ∨ ∃ k pre c post, k < n ∧ Calm L k ∧ L[k]? = some (pre ++ .initialise c :: post) ∧
      pre.all HostInput.isNoReset = true := by
  induction n generalizing L with
  | zero => exact .inl (by intro l hl; simp at hl)
  | succ n ih =>
    cases L with
    | nil => exact .inl (by intro l hl; simp at hl)
    | cons l L =>
      obtain h | ⟨pre, c, post, rfl, h⟩ := noReset_or_reset l
      · obtain h2 | ⟨k, pre, c, post, hk, hc, hg, hp⟩ := ih L
        · refine .inl fun x hx => ?_
          rw [List.take_succ_cons, List.mem_cons] at hx
          obtain rfl | hx := hx
          · exact h
          · exact h2 x hx
        · refine .inr ⟨k + 1, pre, c, post, by omega, fun x hx => ?_, hg, hp⟩
          rw [List.take_succ_cons, List.mem_cons] at hx
          obtain rfl | hx := hx
          · exact h
          · exact hc x hx
      · exact .inr ⟨0, pre, c, post, by omega, by intro x hx; simp at hx, rfl, h⟩

/-- Every run of such a piece: it ends as it does with nothing on its way, but for the refusals, or a reset cuts it
short. -/
theorem Lands.outcomes {α : Type} {m : Nat} {x : Op α} (h : Lands m x) (s : State) :
    ∃ (a : α) (t : State) (es : List Event),
    (t.trace = es.reverse ++ s.trace ∧ (t.cipher, t.port) = es.foldl (Event.applyTo s.prm) (s.cipher, s.port) ∧
      t.prm = s.prm ∧ t.hdcpSupported = s.hdcpSupported ∧ t.inbox = s.inbox ∧ t.initialised = s.initialised) ∧
    x (s.withArrivals []) = .ok a (t.ctx s.op s.refusals []) ∧
    ((Calm s.env.arrivals (accesses es + m) ∧
        x s = .ok a (t.ctx s.op (refusalsAfter (s.env.arrivals.take (accesses es + m)).flatten s.refusals)
          (s.env.arrivals.drop (accesses es + m)))) ∨
      ∃ (u : State) (es1 es2 : List Event) (l : List HostInput) (c : Bool), es = es1 ++ es2 ∧ x s = .error ⟨c⟩ u ∧
        u.trace = es1.reverse ++ s.trace ∧
        (u.cipher, u.port) = es1.foldl (Event.applyTo s.prm) (s.cipher, s.port) ∧ u.prm = s.prm ∧
        l ∈ s.env.arrivals ∧ .initialise c ∈ l ∧ ∃ r, u.refusals = refusalsAfter r s.refusals) := by
  obtain ⟨a, t, es, h1, h2, h3⟩ := h s
  refine ⟨a, t, es, h2, ?_, ?_⟩
  · have e := h1 s.op s.refusals [] (by intro l hl; simp at hl)
    refine Eq.trans (show x (s.withArrivals []) = x (s.ctx s.op s.refusals []) from rfl) ?_
    simpa [refusalsAfter] using e
  · obtain hc | ⟨k, pre, c, post, hk, hc, hg, hp⟩ := calm_or_reset s.env.arrivals (accesses es + m)
    · exact .inl ⟨hc, h1 s.op s.refusals s.env.arrivals hc⟩
    · obtain ⟨u, e1, e2, q0, -, q1, q2, q3, q4, -, q5⟩ := h3 s.op s.refusals s.env.arrivals k pre c post hk hc hg hp
      exact .inr ⟨u, e1, e2, _, c, q0, q1, q2, q3, q4, List.mem_of_getElem? hg, by simp, _, q5⟩

end Sys2Proof.Machine
end

