-- ==== Sys2Proof/Tests/Slice0.lean ====
section
/-! SUPPORT. The model's own tests. Expected values come from spec/95_test_vectors.md, whose vector each test names.
Then a witness for the hypotheses of every statement. -/

namespace Sys2Proof.Tests

open Sys2Proof Sys2Proof.Machine

/-! ## Well-formed operations (30_encoding.md R104: a size of 0 is illegal) -/

theorem test_wf_read_size_zero : (Instr.rxRead 0x40 0).wf = false := by decide
theorem test_wf_write_size_zero : (Instr.rxWrite 0x18 0).wf = false := by decide
theorem test_wf_read_largest : (Instr.rxRead 0x43 1023).wf = true := by decide

/-! ## Command words (95 §2.1; the bits are those of 30_encoding.md R100 and R101) -/

theorem test_decode_controller :
    decode 0x00000001 = .ok .hdcpQuery ∧ decode 0x00000002 = .ok .hdcpIsEnabled ∧
      decode 0x00000003 = .ok (.hdcpEnable false) ∧ decode 0x00000103 = .ok (.hdcpEnable true) ∧
      decode 0x00000010 = .ok (.setEncryptionLevel false) ∧ decode 0x00000110 = .ok (.setEncryptionLevel true) ∧
      decode 0x0000001A = .ok (.setRepeaterPresent false) ∧ decode 0x0000011A = .ok (.setRepeaterPresent true) := by
  decide

theorem test_decode_parameters :
    decode 0x00000004 = .ok .hdcpGetCpData ∧ decode 0x00000005 = .ok .hdcpSetCpData := by decide

theorem test_decode_validator :
    decode 0x00000006 = .ok .hdcpIsValidBksv ∧ decode 0x00000016 = .ok .isRevoked := by decide

theorem test_decode_repeater :
    decode 0x00000011 = .ok .activateRepeater ∧ decode 0x00000012 = .ok .buildSha1Buffer ∧
      decode 0x00000013 = .ok .computeTransmitterV ∧ decode 0x00000014 = .ok .compareVPrime ∧
      decode 0x0000001B = .ok .repeaterTeardown := by decide

theorem test_decode_link : decode 0x00000015 = .ok .getLinkStatus := by decide

theorem test_decode_receiver :
    decode 0x00014017 = .ok (.rxRead 0x40 1) ∧ decode 0x00024117 = .ok (.rxRead 0x41 2) ∧
      decode 0x00020817 = .ok (.rxRead 0x08 2) ∧ decode 0x00050017 = .ok (.rxRead 0x00 5) ∧
      decode 0x000A4317 = .ok (.rxRead 0x43 10) ∧ decode 0x027B4317 = .ok (.rxRead 0x43 635) ∧
      decode 0x00081818 = .ok (.rxWrite 0x18 8) ∧ decode 0x00051018 = .ok (.rxWrite 0x10 5) ∧
      decode 0x00000019 = .ok .rxReadVPrime := by decide

theorem test_decode_illegal :
    decode 0x00000000 = .error .unknownOpcode ∧ decode 0x00000007 = .error .unknownOpcode ∧
      decode 0x0000000F = .error .unknownOpcode ∧ decode 0x0000001C = .error .unknownOpcode ∧
      decode 0x000000FF = .error .unknownOpcode ∧ decode 0x00000101 = .error .reservedBits ∧
      decode 0x00000203 = .error .reservedBits ∧ decode 0x80000103 = .error .reservedBits ∧
      decode 0x00004017 = .error .zeroSize ∧ decode 0x04014017 = .error .reservedBits := by decide

theorem test_encode_fifo_read : encode (.rxRead 0x43 635) = 0x027B4317 := by decide
theorem test_table_word_in_full : decodeTableWord 32 0x11A = some (.setRepeaterPresent true) := by decide

/-! ## Small states -/

/-- Whether an operation answered a next state. -/
def answers : Host.Outcome State Fault Refusal → Bool
  | .next _ => true
  | .fault _ => false
  | .refused _ => false

/-- The state an operation leaves. -/
def ran (i : Instr) (s : State) : State :=
  match exec i s with
  | .next t => t
  | .fault _ => s
  | .refused _ => s

/-- A block whose next answers are scripted: cipher reads, serial transactions, port reads, random numbers. -/
def scripted (s : State) (cipher : List Word) (serial : List (Option (List Byte))) (port : List Word := [])
    (rng : List Word := []) : State :=
  { s with env := { cipher := cipher, port := port, serial := serial, rng := rng, arrivals := [] } }

/-- The block of the vectors: the default layout, HDCP supported. -/
def block : State := { State.reset with prm := Params.proposed, hdcpSupported := true }

/-- The answers of the cipher in program P1, access 6 on. -/
def p1Cipher : List Word :=
  [0, 0x00020000, 0x89ABCDEF, 0x01234567, 0xF0F0F0F0, 0xF0, 1, 0x00050000, 0x001D0000]

/-- The answers of the receiver in program P1. -/
def p1Serial : List (Option (List Byte)) :=
  [some [], some [], some [0x0F, 0x0F, 0x0F, 0x0F, 0x0F], some [0], some [0x34, 0x12]]

/-- Program P1 before its command 2. -/
def p1 : State := scripted block p1Cipher p1Serial [0] [0xDEADBEEF, 0x0BADF00D]

/-- The trace of program P1's command 2, its write of the port bit as read and write. -/
def p1Trace : List Event :=
  [.random 0xDEADBEEF, .cipherWrite .init 0xDEADBEEF, .random 0x0BADF00D, .cipherWrite .init 0x0BADF00D, .delayUs 10,
    .cipherRead .config 0, .cipherWrite .config 1, .cipherRead .status 0x00020000, .cipherRead .anLow 0x89ABCDEF,
    .cipherRead .anHi 0x01234567, .cipherRead .aksvLo 0xF0F0F0F0, .cipherRead .aksvHi 0xF0,
    .serialWrite 0x18 [0xEF, 0xCD, 0xAB, 0x89, 0x67, 0x45, 0x23, 0x01] true,
    .serialWrite 0x10 [0xF0, 0xF0, 0xF0, 0xF0, 0xF0] true,
    .serialRead 0x00 5 (some [0x0F, 0x0F, 0x0F, 0x0F, 0x0F]), .serialRead 0x40 1 (some [0]),
    .cipherWrite .bksvLo 0x0F0F0F0F, .cipherWrite .bksvHi 0x0F, .portRead 0, .portWrite 1, .cipherRead .config 1,
    .cipherWrite .config 3, .cipherRead .status 0x00050000, .serialRead 0x08 2 (some [0x34, 0x12]),
    .cipherWrite .ri 0x1234, .cipherRead .status 0x001D0000]

/-- Program P1 before its command 5. -/
def p1On : State :=
  scripted { block with
    ctlState := .encrypting
    cipher := { Cipher.zero with config := 3, configWritten := true, ri := 0x1234 }
    port := 1 } [3, 0] [] [1]

/-- The trace of program P1's command 5. -/
def p1OffTrace : List Event :=
  [.cipherRead .config 3, .cipherWrite .config 0, .vblank, .cipherRead .status 0, .cipherWrite .ri 0, .portRead 1,
    .portWrite 0]

/-- The receiver's V′ of programs P2 and P4. -/
def vAnswers : List (Option (List Byte)) :=
  [some [4, 3, 2, 1], some [8, 7, 6, 5], some [0xC, 0xB, 0xA, 9], some [0x10, 0xF, 0xE, 0xD],
    some [0x14, 0x13, 0x12, 0x11]]

/-- The KSV list of program P2. -/
def twoKsvs : List Byte := [0x11, 0x22, 0x33, 0x44, 0x55, 0xAA, 0xBB, 0xCC, 0xDD, 0xEE]

/-- `n` reads of HDCP_REP with the status Ready. -/
def ready (n : Nat) : List Word := List.replicate n 0x00020000

/-- A block that has set the repeater-present bit. -/
def presentBlock : State :=
  { p1On with cipher := { p1On.cipher with rep := 1, repWritten := true } }

/-- Program P2's verification, as ACTIVATE_REPEATER with no revoked vector (vector A13). -/
def p2 : State :=
  scripted presentBlock ([1, 1] ++ ready 34 ++ [0x000C0000])
    ([some [0x60], some [2, 0], some twoKsvs] ++ vAnswers)

/-- Program P4 before its command 1. -/
def p4 : State :=
  scripted { presentBlock with
    args := { Args.empty with revocationSet := [⟨0x0F, 0x1E, 0x2D, 0x3C, 0x4B⟩, ⟨1, 2, 3, 4, 5⟩] } }
    ([1, 1] ++ ready 34 ++ [0x00040000, 0x00040000, 3])
    ([some [0x60], some [3, 1], some (twoKsvs ++ [1, 2, 3, 4, 5])] ++ vAnswers)

/-- A CPParameters record that requests HDCP. -/
def requested (level step : Word) : CpParams :=
  { CpParams.zero with typeMask := 1, level := level, performSecondStep := step }

/-- A state with an argument record for the parameter exchange. -/
def withParams (c : CpParams) (s : State) : State := { s with args := { Args.empty with params := c } }

/-- P-S2 with HDCP to be turned on. -/
def turnsOn : State := withParams (requested 1 0) (scripted block p1Cipher (some [0] :: p1Serial) [0] [1, 2])

/-- Program P3. -/
def p3 : State :=
  withParams (requested 0 0)
    (scripted { p1On with prm := { Params.proposed with frameWaitMax := 2 } }
      (List.replicate 13 0x00150500 ++ [3, 0]) [some [0, 0], some [0, 0], some [0, 0], some [0, 0], some [0]] [1])

/-- P-S4. -/
def pending : State := withParams (requested 1 1) (scripted p1On [3, 0] [some [0x40], some [0x40]] [1])

/-- The words pushed into the SHA-1 engine, in order. -/
def fed (s : State) : List Word :=
  s.trace.reverse.filterMap fun
    | .cipherWrite .sha1In v => some v
    | _ => none

/-! ## One operation each -/

/-- E1. -/
theorem test_query_unsupported : (ran .hdcpQuery { block with hdcpSupported := false }).result = some (.bool false) := by
  decide

/-- E3. -/
theorem test_is_enabled :
    (ran .hdcpIsEnabled (scripted block [0x00010000] [])).result = some (.bool true) := by decide +kernel

/-- P1, command 2: the trace, the result, the controller state and the session registers. -/
theorem test_enable :
    let t := ran (.hdcpEnable true) p1
    t.trace.reverse = p1Trace ∧ t.result = some (.bool true) ∧ t.ctlState = .encrypting ∧
      t.ses.an = 0x0123456789ABCDEF ∧ t.ses.aksv = 0xF0F0F0F0F0 ∧ t.ses.bksv = ⟨0x0F, 0x0F, 0x0F, 0x0F, 0x0F⟩ ∧
      t.ses.ri = 0x1234 := by decide +kernel

/-- P1, command 5: the trace. E14: after a timeout HDCP_RI and the port are untouched, the controller `Disabling`. -/
theorem test_disable :
    (ran (.hdcpEnable false) p1On).trace.reverse = p1OffTrace ∧
      let t := ran (.hdcpEnable false) (scripted p1On [3, 0x00010000, 0x00010000] [])
      t.result = some (.bool false) ∧ t.ctlState = .disabling ∧ t.cipher.config = 0 ∧ t.cipher.ri = 0x1234 ∧
        t.port = 1 := by decide +kernel

/-- E17. -/
theorem test_level_timeout :
    (ran (.setEncryptionLevel false) (scripted p1On [3, 0x00010000, 0x00010000] [])).result =
      some (.status .unsuccessful) := by decide +kernel

/-- E7: a failed write of An leaves the capture mode. -/
theorem test_level_an_fails :
    let t := ran (.setEncryptionLevel true) (scripted block p1Cipher [none] [0] [1, 2])
    t.result = some (.status .unsuccessful) ∧ t.ctlState = .off ∧ t.cipher.config = 1 ∧
      t.trace.head? = some (.raised (.serialIOFailure 0x18)) := by decide +kernel

/-- E19: the other bits are written back as read. -/
theorem test_set_present :
    let t := ran (.setRepeaterPresent true) (scripted block [0x000C0004, 0x000C0005] [])
    t.result = some (.bool true) ∧
      t.trace.reverse = [.cipherRead .rep 0x000C0004, .cipherWrite .rep 0x000C0005, .cipherRead .rep 0x000C0005] := by
  decide +kernel

/-- S1. -/
theorem test_valid_bksv :
    let result (l : List Byte) (n : Nat) :=
      (ran .hdcpIsValidBksv { block with args := { Args.empty with buffer := l, size := n } }).result
    result [0x0F, 0x0F, 0x0F, 0x0F, 0x0E] 5 = some (.bool false) ∧
      result [0x0F, 0x0F, 0x0F, 0x0F, 0x0F] 5 = some (.bool true) ∧
      result [0x0F, 0x0F, 0x0F, 0x0F, 0x1F] 5 = some (.bool false) ∧
      result [0x0F, 0x0F, 0x0F, 0x0F, 0x0F, 0] 6 = some (.bool false) := by decide +kernel

/-- K2 and K5. -/
theorem test_valid_bksv_order :
    let result (l : List Byte) :=
      (ran .hdcpIsValidBksv { block with args := { Args.empty with buffer := l, size := 5 } }).result
    result [0xFF, 0xFF, 0x0F, 0, 0] = some (.bool true) ∧
      result [0x11, 0x22, 0x33, 0x44, 0x55] = some (.bool false) := by decide +kernel

/-- K9 and K10. -/
theorem test_is_revoked :
    let result (l : List Ksv) :=
      (ran .isRevoked { block with args := { Args.empty with candidate := ⟨1, 2, 3, 4, 5⟩, revocationSet := l } }).result
    result [⟨0xAA, 0xBB, 0xCC, 0xDD, 0xEE⟩, ⟨1, 2, 3, 4, 5⟩] = some (.bool true) ∧
      result [⟨5, 4, 3, 2, 1⟩] = some (.bool false) := by decide +kernel

/-- X1 and X2, with a byte beyond the answer that stays. -/
theorem test_rx_read :
    let s := { block with args := { Args.empty with buffer := [9, 7] } }
    (ran (.rxRead 0x40 1) (scripted s [] [some [0x60]])).args.buffer = [0x60, 7] ∧
      (ran (.rxRead 0x41 2) (scripted s [] [none])).args.buffer = [9, 7] ∧
      (ran (.rxRead 0x41 2) (scripted s [] [none])).result = some (.io false) := by decide +kernel

/-- X3. -/
theorem test_rx_write :
    let bytes : List Byte := [0xEF, 0xCD, 0xAB, 0x89, 0x67, 0x45, 0x23, 0x01]
    let t := ran (.rxWrite 0x18 8) (scripted { block with args := { Args.empty with buffer := bytes } } [] [some []])
    t.trace = [.serialWrite 0x18 bytes true] ∧ t.result = some (.io true) := by decide +kernel

/-- 10_state.md R60: AINFO (0x15) is not written, alone or after Aksv. 42_receiver_io.md R171: every other sub-address
is. -/
theorem test_rx_write_ainfo :
    let run (sub : Byte) (size : BitVec 10) :=
      ran (.rxWrite sub size) (scripted { block with args := { Args.empty with buffer := [1, 2, 3, 4, 5, 6] } } [] [some []])
    (run 0x15 1).trace = [] ∧ (run 0x15 1).result = some (.io false) ∧ (run 0x10 6).trace = [] ∧
      (run 0x10 5).trace = [.serialWrite 0x10 [1, 2, 3, 4, 5] true] ∧
      (run 0x20 4).trace = [.serialWrite 0x20 [1, 2, 3, 4] true] := by decide +kernel

/-- 42_receiver_io.md R170: two regions at once are not read; every other sub-address is, the KSV FIFO at any size. -/
theorem test_rx_read_regions :
    let run (sub : Byte) (size : BitVec 10) := ran (.rxRead sub size) (scripted block [] [none])
    (run 0x40 2).trace = [] ∧ (run 0x40 2).result = some (.io false) ∧ (run 0x10 6).trace = [] ∧
      [run 0x05 1, run 0x15 1, run 0x18 8, run 0x00 8, run 0x44 1023, run 0x43 635].all (accesses ·.trace == 1) = true := by
  decide +kernel

/-- X5. -/
theorem test_read_v_prime :
    (ran .rxReadVPrime (scripted block [] vAnswers)).args.vPrime =
      ⟨0x01020304, 0x05060708, 0x090A0B0C, 0x0D0E0F10, 0x11121314⟩ := by decide +kernel

/-- X6: 0x30 is not read, the caller's words stay. -/
theorem test_read_v_prime_fails :
    let t := ran .rxReadVPrime (scripted block [] (vAnswers.take 3 ++ [none]))
    t.result = some (.io false) ∧ t.args.vPrime = VWords.zero ∧ accesses t.trace = 4 := by decide +kernel

/-- The argument record of BUILD_SHA1_BUFFER and COMPUTE_TRANSMITTER_V. -/
def listArgs (ksvs : List Byte) (count : BitVec 7) (topology : BitVec 16) : Args :=
  { Args.empty with ksvList := ksvs, count := count, topology := topology }

/-- S7: the whole buffer. -/
theorem test_build_buffer :
    (ran .buildSha1Buffer { block with args := listArgs twoKsvs 2 2 }).args.shaBuffer =
      twoKsvs ++ [2, 0] ++ List.replicate 51 0 ++ [0xA0] := by decide +kernel

/-- 95 §2.5.1: the lengths at the ends and around a step. -/
theorem test_sha_lengths :
    [0, 1, 9, 10, 22, 23, 86, 127].map shaLength = [64, 64, 64, 128, 128, 192, 448, 704] := by decide

/-- F3: modes and words of the phases for a remainder of 1. -/
theorem test_compute_v :
    let t := ran .computeTransmitterV
      (scripted { block with args := listArgs (twoKsvs ++ [1, 2, 3, 4, 5]) 3 0x0103 } (ready 32) [])
    t.result = some (.bool true) ∧
      fed t = [0x11223344, 0x55AABBCC, 0xDDEE0102, 0x03040503, 0x00000001] ++ List.replicate 10 0 ++ [0xC8] := by
  decide +kernel

/-- F4 and F5: the merged word, and its other position. -/
theorem test_merge_word :
    mergeWord Params.proposed 2 [4, 1, 0, 0] = 0x00000401 ∧
      mergeWord { Params.proposed with mergeText := .high } 2 [4, 1, 0, 0] = 0x04010000 := by decide

/-- The V′ of vectors V1 to V8. -/
def vWords : VWords := ⟨0x01020304, 0x05060708, 0x090A0B0C, 0x0D0E0F10, 0x11121314⟩

/-- A block that compares `vWords`; `status` are the status codes its reads of HDCP_REP find. -/
def comparing (status : List Nat) : State :=
  scripted { block with args := { Args.empty with vPrime := vWords } }
    (status.map fun c => BitVec.ofNat 32 (c * 2 ^ 16)) []

/-- V1 and V4: the read that carries the control write comes after the ready poll. -/
theorem test_compare_match :
    (ran .compareVPrime (comparing [2, 2, 1, 1, 12])).result = some (.bool true) ∧
      (ran .compareVPrime (comparing [1, 1, 1, 2, 2, 13, 12])).result = some (.bool true) := by decide +kernel

/-- V2 and V3. -/
theorem test_compare_mismatch :
    (ran .compareVPrime (comparing [2, 2, 4])).result = some (.bool false) ∧
      (ran .compareVPrime (comparing [2, 2, 0])).result = some (.bool false) := by decide +kernel

/-- R210 with P4's answers. -/
theorem test_teardown :
    let t := ran .repeaterTeardown (scripted presentBlock [0x00040005, 3] [])
    t.trace.reverse = [.cipherRead .rep 0x00040001, .cipherWrite .rep 0x00040000, .cipherRead .config 3,
        .cipherWrite .config 0] ∧ t.ctlState = .off ∧ t.port = 1 ∧ t.cipher.ri = 0x1234 := by decide +kernel

/-- A13 and the feeds of S7. -/
theorem test_activate_succeeds :
    let t := ran .activateRepeater p2
    t.result = some (.status .success) ∧ accesses t.trace = 3 + 3 + 64 + 5 + 9 ∧ t.ses.bstatus = 2 ∧
      fed t = [0x11223344, 0x55AABBCC, 0xDDEE0200] ++ List.replicate 12 0 ++ [0xA0] := by decide +kernel

/-- P4: the revoked run tears down. -/
theorem test_activate_revoked :
    let t := ran .activateRepeater p4
    t.result = some (.status .revokedHdcpDeviceAttached) ∧ repPresent t.prm t.cipher.rep = false ∧
      t.ctlState = .off ∧ t.cipher.config = 0 ∧ t.port = 1 ∧ t.ses.revoked = true := by decide +kernel

/-- L3: four attempts, sixteen status reads. -/
theorem test_link_broken :
    let t := ran .getLinkStatus (scripted block (List.replicate 16 0x00000500) (List.replicate 4 (some [0, 0])))
    t.result = some (.bool false) ∧ t.trace.countP Event.isSerial = 4 ∧ t.trace.countP Event.isStatusRead = 16 := by
  decide +kernel

/-- L7: the frame counter wraps into another period. -/
theorem test_link_wrap :
    let t := ran .getLinkStatus
      (scripted block [0x0000F000, 0x0000FF00, 0x00000000, 0x00080000] [some [1, 0], some [2, 0]])
    t.result = some (.bool true) ∧ t.trace.countP Event.isStatusRead = 4 ∧ t.cipher.ri = 2 := by decide +kernel

/-- P3. -/
theorem test_get_cp_data_broken :
    let t := ran .hdcpGetCpData p3
    t.result = some (.status .unsuccessful) ∧ t.args.params.level = 0 ∧ t.args.params.isRepeater = false ∧
      t.trace.countP Event.isStatusRead = 14 ∧ t.trace.countP Event.isRiWrite = 5 ∧ t.ctlState = .off := by
  decide +kernel

/-- P-G5. -/
theorem test_get_cp_data_bcaps_fails :
    let t := ran .hdcpGetCpData
      (withParams (requested 0 0) (scripted block [0x00010000, 0x00080000] [some [0x34, 0x12], none]))
    t.result = some (.status .dataError) ∧ t.args.params.level = 1 ∧ t.args.params.isRepeater = false ∧
      t.trace.head? = some (.raised (.serialIOFailure 0x40)) := by
  decide +kernel

/-- P-S4: a verification that is not ready ends in the safety net. -/
theorem test_set_cp_data_pending :
    let t := ran .hdcpSetCpData pending
    t.result = some (.status .pending) ∧ t.args.params.isRepeater = true ∧ t.args.params.level = 0 ∧
      t.ctlState = .off ∧ t.port = 0 := by decide +kernel

/-- P-S2. -/
theorem test_set_cp_data_level :
    let t := ran .hdcpSetCpData
      (withParams (requested 1 0) (scripted block p1Cipher (some [0] :: p1Serial) [0] [1, 2]))
    t.result = some (.status .success) ∧ t.args.params.level = 1 ∧ t.ctlState = .encrypting := by decide +kernel

/-- R293: a reset after the last access, the write of the port bit, abandons the disable; one lands too in an operation
that makes no access. -/
theorem test_reset_at_the_end :
    let t := ran (.hdcpEnable false) (p1On.withArrivals (List.replicate 7 [] ++ [[.initialise false]]))
    t.trace.reverse = p1OffTrace ∧ t.result = none ∧ t.hdcpSupported = false ∧ t.ctlState = .off ∧ t.busy = false ∧
      (ran .hdcpQuery (block.withArrivals [[.command 1 .empty, .initialise true]])).result = none := by decide +kernel

/-! ## Witnesses: the hypotheses of each statement, met together -/

/-- A run, from what evaluation shows of it. -/
theorem runs_of_ran {i : Instr} {s : State} {r : Result} {es : List Event} (h : answers (exec i s) = true)
    (h' : (ran i s).result = some r ∧ (ran i s).busy = false ∧ (ran i s).op = none ∧ (ran i s).stepPos = 0 ∧
      (ran i s).trace = es.reverse ++ s.trace) : Runs i s (ran i s) r es := by
  refine ⟨?_, h'⟩
  unfold ran
  cases he : exec i s with
  | next t => rfl
  | fault f => rw [he] at h; cases h
  | refused f => rw [he] at h; cases h

/-- A run from a state with an empty trace, with the trace it leaves. -/
theorem runs_of_trace {i : Instr} {s : State} {r : Result} (h : answers (exec i s) = true)
    (h' : (ran i s).result = some r ∧ (ran i s).busy = false ∧ (ran i s).op = none ∧ (ran i s).stepPos = 0 ∧
      s.trace = []) : Runs i s (ran i s) r (ran i s).trace.reverse :=
  runs_of_ran h ⟨h'.1, h'.2.1, h'.2.2.1, h'.2.2.2.1, by simp [h'.2.2.2.2]⟩

/-- A next state, from evaluation. -/
theorem exec_ran {i : Instr} {s : State} (h : answers (exec i s) = true) : exec i s = .next (ran i s) := by
  unfold ran
  cases he : exec i s with
  | next t => rfl
  | fault f => rw [he] at h; cases h
  | refused f => rw [he] at h; cases h

/-- A state meets the invariant, from evaluation. -/
theorem inv_of {s : State} (h : s.prm.valid = true ∧ (s.busy = false ∧ s.op = none ∧ s.stepPos = 0) ∧
      (s.ksvbuf.wf = true ∧ s.ksvbuf.within ksvBufBytes = true) ∧
      (s.shabuf.wf = true ∧ s.shabuf.within shaBufBytes = true) ∧
      (s.ses.blen.toNat % 64 = 0 ∧ s.ses.blen.toNat ≤ shaBufBytes) ∧
      (s.ses.pos.toNat % 4 = 0 ∧ s.ses.pos.toNat ≤ shaBufBytes) ∧ s.ses.moLeft.toNat ≤ moBytes ∧
      s.ses.attempt.toNat ≤ linkAttempts ∧ modeIsOwn s.prm s.cipher = true ∧
      (s.cipher.ri.toNat < 2 ^ 16 ∧ s.cipher.bksvHi.toNat < 2 ^ 8) ∧ s.refusals = []) : s.Inv := by
  obtain ⟨h1, h2, h3, h4, h5, h6, h7, h8, h9, h10, h11⟩ := h
  exact ⟨h1, h2, h3, h4, h5, h6, h7, h8, h9, h10, by simp [h11]⟩

/-- A command for a block. -/
def given (w : Word) (s : State) : State := { s with inbox := [.command w .empty] }

theorem p1_inv : p1.Inv := inv_of (by decide +kernel)
theorem p1_runs : Runs (.hdcpEnable true) p1 (ran (.hdcpEnable true) p1) (.bool true) p1Trace :=
  runs_of_ran (by decide +kernel) (by decide +kernel)
theorem p1On_inv : p1On.Inv := inv_of (by decide +kernel)
theorem p1On_runs : Runs (.hdcpEnable false) p1On (ran (.hdcpEnable false) p1On) (.bool true) p1OffTrace :=
  runs_of_ran (by decide +kernel) (by decide +kernel)
theorem p2_inv : p2.Inv := inv_of (by decide +kernel)
theorem p2_runs : ∃ es, Runs .activateRepeater p2 (ran .activateRepeater p2) (.status .success) es :=
  ⟨(ran .activateRepeater p2).trace.reverse, runs_of_ran (by decide +kernel) (by decide +kernel)⟩
theorem p4_inv : p4.Inv := inv_of (by decide +kernel)

theorem witness_DecodeOfEncode : (Instr.rxRead 0x43 635).wf = true ∧ (Instr.rxWrite 0xFF 1023).wf = true := by decide

theorem witness_EncodeOfDecode : decode 0x027B4317 = .ok (.rxRead 0x43 635) := by decide

theorem witness_IllegalWordsAreNotExecuted :
    (given 0x07 block).ready = true ∧ (given 0x07 block).inbox = [.command 0x07 .empty] ∧ IllegalWord 0x07 ∧
      IllegalWord 0x101 ∧ IllegalWord 0x203 ∧ IllegalWord 0x04014017 ∧ IllegalWord 0x4017 :=
  ⟨by decide, by decide, .inl (by decide), .inr (.inl (by decide)), .inr (.inr (.inl (by decide))),
    .inr (.inr (.inr (by decide))), .inr (.inr (.inr (by decide)))⟩

theorem witness_StepRunsDecodedOperation :
    (given 0x103 p1).ready = true ∧ (given 0x103 p1).inbox = [.command 0x103 .empty] ∧
      decode 0x103 = .ok (.hdcpEnable true) := by decide

theorem witness_PlacedCommandRuns : Instr.hdcpQuery.wf = true ∧ (Instr.rxRead 0x40 1).wf = true := by decide

theorem witness_SizeZeroIsRefused : block.ready = true ∧ block.undisturbed = true := by decide

theorem witness_ResultWords : Params.proposed.valid = true := by decide

theorem witness_BusyBlockRefuses :
    { given 0x07 block with busy := true }.busy = true ∧
      { given 0x07 block with busy := true }.inbox = [.command 0x07 .empty] := by decide

theorem witness_ArrivalsDoNotDisturb :
    p1.ready = true ∧ exec (.hdcpEnable true) (p1.withArrivals []) = .next (ran (.hdcpEnable true) p1) ∧
      (ran (.hdcpEnable true) p1).trace = p1Trace.reverse ++ p1.trace ∧
      (∀ l ∈ ([[], [.command 1 .empty], [.powerLoss]] : List (List HostInput)).take (accesses p1Trace + 1),
        l.all HostInput.isNoReset = true) ∧
      { block with inbox := [.powerLoss] }.inbox = [.powerLoss] :=
  ⟨by decide, exec_ran (s := p1.withArrivals []) (by decide +kernel), by decide +kernel, by decide +kernel, rfl⟩

theorem witness_NoCommandBeforeInitialisation :
    let s := { given 0x01 block with initialised := false }
    s.busy = false ∧ s.initialised = false ∧ s.inbox = [.command 0x01 .empty] := by decide

theorem witness_ResetState :
    { block with inbox := [.initialise false] }.inbox = [.initialise false] := by decide

theorem witness_ResetAbandonsAnOperation :
    (∃ t, step { block with inbox := [.initialise false] } = .next t) ∧
      p1.ready = true ∧ exec (.hdcpEnable true) (p1.withArrivals []) = .next (ran (.hdcpEnable true) p1) ∧
      (ran (.hdcpEnable true) p1).trace = p1Trace.reverse ++ p1.trace ∧ 1 ≤ accesses p1Trace ∧
      (∀ l ∈ ([[], [.powerLoss, .initialise true]] : List (List HostInput)).take 1,
        l.all HostInput.isNoReset = true) ∧
      ([[], [.powerLoss, .initialise true]] : List (List HostInput))[1]? = some ([.powerLoss] ++ [.initialise true]) ∧
      ([.powerLoss] : List HostInput).all HostInput.isNoReset = true :=
  ⟨⟨_, rfl⟩, by decide, exec_ran (s := p1.withArrivals []) (by decide +kernel), by decide +kernel, by decide +kernel,
    by decide, rfl, by decide⟩

/-- A reset at the end of an operation that makes no access. -/
theorem witness_ResetAbandonsAnOperation_end :
    block.ready = true ∧ exec .hdcpQuery (block.withArrivals []) = .next (ran .hdcpQuery block) ∧
      (ran .hdcpQuery block).trace = ([] : List Event).reverse ++ block.trace ∧ 0 ≤ accesses [] ∧
      ([[.initialise false]] : List (List HostInput))[0]? = some ([] ++ [.initialise false]) :=
  ⟨by decide, exec_ran (s := block.withArrivals []) (by decide +kernel), by decide +kernel, by decide, rfl⟩

theorem witness_EveryOperationCompletes : p1.ready = true := by decide

theorem witness_OperationsReturnTheirResult :
    (Instr.rxRead 0x43 635).wf = true ∧ p1.ready = true ∧ p1.undisturbed = true := by decide

theorem witness_CollaboratorsHoldTheTracedWrites :
    p1.ready = true ∧ exec (.hdcpEnable true) p1 = .next (ran (.hdcpEnable true) p1) := ⟨by decide, p1_runs.1⟩

theorem witness_AnswersAreTheCollaborators :
    p1.ready = true ∧ p1.undisturbed = true ∧ ∃ t r es, Runs (.hdcpEnable true) p1 t r es :=
  ⟨by decide, by decide, _, _, _, p1_runs⟩

theorem witness_ReadBackLaw_mode :
    p1.prm.valid = true ∧ p1.ready = true ∧ p1.undisturbed = true ∧
      Runs (.hdcpEnable true) p1 (ran (.hdcpEnable true) p1) (.bool true)
        (p1Trace.take 20 ++ .cipherRead .config 1 :: p1Trace.drop 21) ∧
      ((p1Trace.take 20).foldl (Event.applyTo p1.prm) (p1.cipher, p1.port)).1.configWritten = true :=
  ⟨by decide, by decide, by decide, p1_runs, by decide +kernel⟩

theorem witness_ReadBackLaw_rep :
    let s := scripted block [0x000C0004, 0x000C0005] []
    ∃ t r d v, Runs (.setRepeaterPresent true) s t r ([.cipherRead .rep 0x000C0004, .cipherWrite .rep d] ++
        .cipherRead .rep v :: []) ∧
      (([.cipherRead .rep 0x000C0004, .cipherWrite .rep d] : List Event).foldl (Event.applyTo s.prm)
        (s.cipher, s.port)).1.repWritten = true :=
  ⟨_, .bool true, 0x000C0005, 0x000C0005, runs_of_ran (by decide +kernel) (by decide +kernel), by decide +kernel⟩

theorem witness_FieldWritesAreReadModifyWrite :
    31 < 32 ∧ p1On.Inv ∧ p1On.ready = true ∧ p1On.undisturbed = true ∧
      Runs (.hdcpEnable false) p1On (ran (.hdcpEnable false) p1On) (.bool true)
        (p1OffTrace.take 1 ++ .cipherWrite .config 0 :: p1OffTrace.drop 2) ∧
      Runs (.hdcpEnable false) p1On (ran (.hdcpEnable false) p1On) (.bool true)
        (p1OffTrace.take 6 ++ .portWrite 0 :: []) ∧
      p4.Inv ∧ p4.ready = true ∧ p4.undisturbed = true ∧
      ∃ r es1 v es2, Runs .activateRepeater p4 (ran .activateRepeater p4) r (es1 ++ .cipherWrite .rep v :: es2) :=
  ⟨by decide, p1On_inv, by decide, by decide, p1On_runs, p1On_runs, p4_inv, by decide +kernel, by decide +kernel,
    .status .revokedHdcpDeviceAttached, (ran .activateRepeater p4).trace.reverse.take 3, 1,
    (ran .activateRepeater p4).trace.reverse.drop 4, runs_of_ran (by decide +kernel) (by decide +kernel)⟩

theorem witness_ReadyBeforeUse_enable :
    p1.Inv ∧ p1.ready = true ∧ p1.undisturbed = true ∧
      Runs (.hdcpEnable true) p1 (ran (.hdcpEnable true) p1) (.bool true)
        (p1Trace.take 8 ++ .cipherRead .anLow 0x89ABCDEF :: p1Trace.drop 9) ∧
      Runs (.hdcpEnable true) p1 (ran (.hdcpEnable true) p1) (.bool true)
        (p1Trace.take 23 ++ .serialRead 0x08 2 (some [0x34, 0x12]) :: p1Trace.drop 24) :=
  ⟨p1_inv, by decide, by decide, p1_runs, p1_runs⟩

theorem witness_ReadyBeforeUse_feed :
    p2.Inv ∧ p2.ready = true ∧ p2.undisturbed = true ∧
      ∃ r es1 es2, Runs .activateRepeater p2 (ran .activateRepeater p2) r
        (es1 ++ .cipherWrite .sha1In 0x11223344 :: es2) :=
  ⟨p2_inv, by decide +kernel, by decide +kernel, .status .success, (ran .activateRepeater p2).trace.reverse.take 9,
    (ran .activateRepeater p2).trace.reverse.drop 10, runs_of_ran (by decide +kernel) (by decide +kernel)⟩

theorem witness_ReadyBeforeUse_compare :
    (comparing [2, 2, 12]).Inv ∧ (comparing [2, 2, 12]).ready = true ∧ (comparing [2, 2, 12]).undisturbed = true ∧
      ∃ v, Runs .compareVPrime (comparing [2, 2, 12]) (ran .compareVPrime (comparing [2, 2, 12])) (.bool true)
        ((vprimeWrites vWords ++ [.cipherRead .rep 0x00020000, .cipherRead .rep 0x00020000]) ++ .cipherWrite .rep v ::
          [.cipherRead .rep 0x000C0004]) :=
  ⟨inv_of (by decide +kernel), by decide +kernel, by decide +kernel, 0x00020004,
    runs_of_ran (by decide +kernel) (by decide +kernel)⟩

/-- The other two operations that run enable(true). -/
theorem witness_ReadyBeforeUse_level :
    turnsOn.Inv ∧ turnsOn.ready = true ∧ turnsOn.undisturbed = true ∧
      (∃ t r es1 es2, Runs .hdcpSetCpData turnsOn t r
        (es1 ++ .serialRead 0x08 2 (some [0x34, 0x12]) :: es2)) ∧
      ∃ t r es1 es2, Runs (.setEncryptionLevel true) p1 t r
        (es1 ++ .serialRead 0x08 2 (some [0x34, 0x12]) :: es2) :=
  ⟨inv_of (by decide +kernel), by decide, by decide,
    ⟨_, .status .success, (ran .hdcpSetCpData turnsOn).trace.reverse.take 24,
      (ran .hdcpSetCpData turnsOn).trace.reverse.drop 25, runs_of_ran (by decide +kernel) (by decide +kernel)⟩,
    ⟨_, .status .success, p1Trace.take 23, p1Trace.drop 24, runs_of_ran (by decide +kernel) (by decide +kernel)⟩⟩

/-- The complete-SHA-1 code over the one of the last feed. -/
theorem witness_ReadyBeforeUse_complete :
    p2.Inv ∧ p2.ready = true ∧ p2.undisturbed = true ∧
      (∃ r es0 es2, Runs .activateRepeater p2 (ran .activateRepeater p2) r
        ((es0 ++ [.cipherRead .rep 0x00020003]) ++ .cipherWrite .rep 0x00020005 :: es2)) ∧
      getField (controlField p2.prm) 0x00020005 = p2.prm.ctrlCompleteSha1.setWidth 32 ∧
      getField (controlField p2.prm) 0x00020003 ≠ p2.prm.ctrlCompleteSha1.setWidth 32 :=
  ⟨p2_inv, by decide +kernel, by decide +kernel, ⟨.status .success,
    (ran .activateRepeater p2).trace.reverse.take 81, (ran .activateRepeater p2).trace.reverse.drop 83,
    runs_of_ran (by decide +kernel) (by decide +kernel)⟩, by decide, by decide⟩

theorem witness_AccessesAreTheBlocksOwn :
    p1.Inv ∧ p1.ready = true ∧ (∀ sub size, Instr.hdcpEnable true ≠ .rxRead sub size ∧
      Instr.hdcpEnable true ≠ .rxWrite sub size) ∧ exec (.hdcpEnable true) p1 = .next (ran (.hdcpEnable true) p1) ∧
      (ran (.hdcpEnable true) p1).trace = p1Trace.reverse ++ p1.trace :=
  ⟨p1_inv, by decide, by simp, p1_runs.1, p1_runs.2.2.2.2.2⟩

/-- The other operation that writes to the receiver. -/
theorem witness_AccessesAreTheBlocksOwn_write :
    let s := scripted block [] [some []]
    s.Inv ∧ s.ready = true ∧ exec (.rxWrite 0x18 8) s = .next (ran (.rxWrite 0x18 8) s) ∧
      ∃ es, (ran (.rxWrite 0x18 8) s).trace = es.reverse ++ s.trace ∧ es ≠ [] :=
  ⟨inv_of (by decide +kernel), by decide, exec_ran (by decide +kernel), (ran (.rxWrite 0x18 8) _).trace.reverse,
    by rw [List.reverse_reverse]; exact (List.append_nil _).symm, by decide +kernel⟩

/-- A write of HDCP_REP that carries a control code. -/
theorem witness_AccessesAreTheBlocksOwn_rep :
    p2.Inv ∧ p2.ready = true ∧ exec .activateRepeater p2 = .next (ran .activateRepeater p2) ∧
      ∃ es1 es2, (ran .activateRepeater p2).trace =
        (es1 ++ .cipherWrite .rep 0x00020005 :: es2).reverse ++ p2.trace :=
  ⟨p2_inv, by decide +kernel, exec_ran (by decide +kernel), (ran .activateRepeater p2).trace.reverse.take 82,
    (ran .activateRepeater p2).trace.reverse.drop 83, by decide +kernel⟩

theorem witness_AccessBounds :
    p2.Inv ∧ p2.ready = true ∧ p2.undisturbed = true ∧ ∃ t r es, Runs .activateRepeater p2 t r es :=
  ⟨p2_inv, by decide +kernel, by decide +kernel, _, _, p2_runs⟩

theorem witness_FailuresAreThoseOfTheTable :
    let s := scripted block [] [none]
    s.Inv ∧ s.ready = true ∧ s.undisturbed = true ∧ ∃ t r es, Runs (.rxRead 0x40 1) s t r es ∧
      Event.raised (.serialIOFailure 0x40) ∈ es :=
  ⟨inv_of (by decide +kernel), by decide, by decide, _, .io false,
    [.serialRead 0x40 1 none, .raised (.serialIOFailure 0x40)],
    runs_of_ran (by decide +kernel) (by decide +kernel), by decide⟩

theorem witness_EarlierSessionsDoNotMatter :
    p2.ksvbuf.wf = true ∧ p2.shabuf.wf = true ∧ Memory.wf [(3, 1)] = true ∧ Memory.wf [(0, 9), (703, 2)] = true ∧
      p2.ready = true := by decide +kernel

theorem witness_StepKeepsInvariant :
    (given 0x01 block).Inv ∧ ∃ t, step (given 0x01 block) = .next t :=
  ⟨inv_of (by decide +kernel), _, exec_ran (i := .hdcpQuery) (s := { block with args := .empty }) (by decide +kernel)⟩

theorem witness_BufferReadsWhatWasWritten :
    Memory.wf [(3, 1)] = true ∧ (Memory.writeBytes [(3, 1)] 2 [5, 0]).read 3 = 0 ∧
      (Memory.writeBytes [(3, 1)] 2 [5, 0]).read 4 = 0 := by decide

theorem witness_EqualBuffersAreEqualData :
    Memory.wf [(3, 1)] = true ∧ ∀ a, Memory.read [(3, 1)] a = Memory.read [(3, 1)] a := ⟨by decide, fun _ => rfl⟩

theorem witness_QueryReturnsCapability : block.ready = true ∧ block.undisturbed = true := by decide

theorem witness_IsEnabledReadsHdcpOn :
    let s := scripted block [0x00010000] []
    s.ready = true ∧ s.hdcpSupported = true ∧ s.undisturbed = true ∧
      { s with hdcpSupported := false }.ready = true ∧ { s with hdcpSupported := false }.undisturbed = true ∧
      { s with hdcpSupported := false }.hdcpSupported = false := by
  decide

theorem witness_CapabilityGate :
    let s := { block with hdcpSupported := false }
    s.ready = true ∧ s.undisturbed = true ∧ s.hdcpSupported = false := by decide

theorem witness_DisableSequence : p1On.ready = true ∧ p1On.undisturbed = true ∧ p1On.hdcpSupported = true := by decide

theorem witness_DisableSucceedsWhenClear :
    p1On.prm.valid = true ∧ p1On.ready = true ∧ p1On.undisturbed = true ∧ p1On.hdcpSupported = true ∧
      p1On.env.cipher = [3, 0] ∧ disabledNow p1On.prm 0 = true := by decide

theorem witness_DisableTwice :
    let s := scripted p1On [3, 0, 0, 0] [] [1, 0]
    let t := ran (.hdcpEnable false) s
    s.prm.valid = true ∧ s.ready = true ∧ s.undisturbed = true ∧ exec (.hdcpEnable false) s = .next t ∧
      t.result = some (.bool true) ∧ exec (.hdcpEnable false) t = .next (ran (.hdcpEnable false) t) ∧
      (ran (.hdcpEnable false) t).result = some (.bool true) :=
  ⟨by decide, by decide, by decide, exec_ran (by decide +kernel), by decide +kernel, exec_ran (by decide +kernel),
    by decide +kernel⟩

theorem witness_EnableSequence : p1.ready = true ∧ p1.undisturbed = true ∧ p1.hdcpSupported = true := by decide

theorem witness_GoodAnswersEncrypt :
    p1.ready = true ∧ p1.undisturbed = true ∧ p1.hdcpSupported = true ∧ p1.env.cipher = p1Cipher ∧
      p1.env.serial = [some [], some [], some [0x0F, 0x0F, 0x0F, 0x0F, 0x0F], some [0], some [0x34, 0x12]] ∧
      anReady p1.prm 0x00020000 = true ∧ riReady p1.prm 0x00050000 = true ∧ riMatch p1.prm 0x001D0000 = true ∧
      (Ksv.ofBytes [0x0F, 0x0F, 0x0F, 0x0F, 0x0F]).weight = 20 ∧ (bcaps p1.prm 0).isRepeater = false := by
  decide +kernel

theorem witness_SetEncryptionLevelIsEnable : p1.ready = true ∧ p1.undisturbed = true := by decide

theorem witness_SetRepeaterPresent : p1.prm.valid = true ∧ p1.ready = true ∧ p1.undisturbed = true := by decide

theorem witness_ControllerStateTable :
    (∃ t r es, Runs (.hdcpEnable true) p1 t r es) ∧ (∃ t r es, Runs (.hdcpEnable false) p1On t r es) ∧
      (∃ t r es, Runs .activateRepeater p2 t r es) ∧
      (∃ t r es, Runs .repeaterTeardown (scripted presentBlock [1, 3] []) t r es) ∧
      (∃ t r es, Runs .hdcpQuery { block with hdcpSupported := false } t r es) ∧
      p1.Inv ∧ p1On.Inv ∧ p2.Inv ∧ (scripted presentBlock [1, 3] []).Inv ∧
      { block with hdcpSupported := false }.Inv :=
  ⟨⟨_, _, _, p1_runs⟩, ⟨_, _, _, p1On_runs⟩, ⟨_, _, p2_runs⟩,
    ⟨_, .nothing, _, runs_of_trace (by decide +kernel) (by decide +kernel)⟩,
    ⟨_, .bool false, _, runs_of_trace (by decide +kernel) (by decide +kernel)⟩, p1_inv, p1On_inv, p2_inv,
    inv_of (by decide +kernel), inv_of (by decide +kernel)⟩

theorem witness_ControllerStateTable_levels :
    (∃ t es, Runs (.setEncryptionLevel true) p1 t (.status .success) es) ∧
      (∃ t es, Runs (.setEncryptionLevel false) p1On t (.status .success) es) ∧ p1.hdcpSupported = true ∧
      p1On.hdcpSupported = true :=
  ⟨⟨_, _, runs_of_trace (by decide +kernel) (by decide +kernel)⟩,
    ⟨_, _, runs_of_trace (by decide +kernel) (by decide +kernel)⟩, by decide, by decide⟩

theorem witness_ControllerStateTable_unchanged :
    (∃ t r es, Runs (.setRepeaterPresent true) presentBlock t r es) ∧
      (∃ t es, Runs (.rxRead 0x40 1) p2 t (.io true) es) ∧ (∃ t es, Runs (.rxWrite 0x18 8) p2 t (.io true) es) ∧
      presentBlock.Inv ∧ presentBlock.ready = true ∧ presentBlock.undisturbed = true :=
  ⟨⟨_, .bool true, _, runs_of_trace (by decide +kernel) (by decide +kernel)⟩,
    ⟨_, _, runs_of_trace (by decide +kernel) (by decide +kernel)⟩,
    ⟨_, _, runs_of_trace (by decide +kernel) (by decide +kernel)⟩, inv_of (by decide +kernel), by decide, by decide⟩

theorem witness_ControllerStateTable_get :
    p3.Inv ∧ p3.ready = true ∧ p3.undisturbed = true ∧
      (∃ t es, Runs .hdcpGetCpData p3 t (.status .unsuccessful) es) ∧
      ∃ t es, Runs .hdcpGetCpData (withParams .zero block) t (.status .notSupported) es :=
  ⟨inv_of (by decide +kernel), by decide +kernel, by decide +kernel,
    ⟨_, _, runs_of_trace (by decide +kernel) (by decide +kernel)⟩,
    ⟨_, _, runs_of_trace (by decide +kernel) (by decide +kernel)⟩⟩

/-- P-S2 on and off, and P-S4: the three ends of HDCP_SET_CP_DATA behind its gate, and the gate closed. -/
theorem witness_ControllerStateTable_set :
    let off := withParams (requested 0 0) (scripted p1On [3, 0] [some [0]] [1])
    turnsOn.Inv ∧ off.Inv ∧ (∃ t es, Runs .hdcpSetCpData turnsOn t (.status .success) es) ∧
      (∃ t es, Runs .hdcpSetCpData off t (.status .success) es) ∧
      (∃ t es, Runs .hdcpSetCpData pending t (.status .pending) es) ∧
      ∃ t es, Runs .hdcpSetCpData (withParams .zero block) t (.status .notSupported) es :=
  ⟨inv_of (by decide +kernel), inv_of (by decide +kernel),
    ⟨_, _, runs_of_trace (by decide +kernel) (by decide +kernel)⟩,
    ⟨_, _, runs_of_trace (by decide +kernel) (by decide +kernel)⟩,
    ⟨_, _, runs_of_trace (by decide +kernel) (by decide +kernel)⟩,
    ⟨_, _, runs_of_trace (by decide +kernel) (by decide +kernel)⟩⟩

theorem witness_RxReadTransaction :
    (1 : BitVec 10) ≠ 0 ∧ (1023 : BitVec 10) ≠ 0 ∧ block.ready = true ∧ block.undisturbed = true ∧
      CrossesRegions 0x00 9 ∧ CrossesRegions 0x42 2 ∧ ¬ CrossesRegions 0x00 8 ∧ ¬ CrossesRegions 0x15 3 ∧
      ¬ CrossesRegions 0x43 1023 ∧ ¬ CrossesRegions 0x44 1023 := by
  simp only [← crossesRegions_iff, Nat.zero_lt_succ]
  decide

theorem witness_RxWriteTransaction :
    (1 : BitVec 10) ≠ 0 ∧ (1023 : BitVec 10) ≠ 0 ∧ block.ready = true ∧ block.undisturbed = true ∧
      WritesAinfo 0x15 1 ∧ WritesAinfo 0x10 6 ∧ ¬ WritesAinfo 0x10 5 ∧ ¬ WritesAinfo 0x16 1023 := by
  simp only [← touches_ainfo_iff, Nat.zero_lt_succ]
  decide

theorem witness_RxReadVPrimeBlocks : block.ready = true ∧ block.undisturbed = true := by decide

theorem witness_IsValidBksv : block.ready = true ∧ block.undisturbed = true := by decide

theorem witness_IsRevoked : block.ready = true ∧ block.undisturbed = true := by decide

theorem witness_BuildSha1Buffer : block.shabuf.wf = true ∧ block.ready = true ∧ block.undisturbed = true := by decide

theorem witness_ComputeTransmitterV :
    block.shabuf.wf = true ∧ block.ready = true ∧ block.undisturbed = true := by decide

theorem witness_FeedsFollowThePhases :
    127 ≤ 127 ∧ (List.replicate 635 (0 : Byte)).length = 5 * 127 ∧ (5 * 127 + 2) % 4 ≠ 0 ∧
      Params.proposed.mergeText = .low ∧ 0 < (5 * 127 + 2) / 4 ∧ (5 * 127 + 2 + 3) / 4 + 1 < 174 ∧ 174 + 1 < 176 ∧
      ([] : List Byte).length = 5 * 0 ∧ { Params.proposed with mergeText := .high }.mergeText = .high ∧
      (5 * 0 + 2) % 4 ≠ 0 := by decide +kernel

theorem witness_CompareVPrime : block.ready = true ∧ block.undisturbed = true := by decide

theorem witness_RepeaterTeardown : block.ready = true ∧ block.undisturbed = true := by decide

theorem witness_ActivateRepeater :
    p4.ksvbuf.wf = true ∧ p4.shabuf.wf = true ∧ p4.ready = true ∧ p4.undisturbed = true := by decide +kernel

theorem witness_RevokedLeavesNoRepeaterPresent :
    p4.Inv ∧ p4.ready = true ∧ p4.undisturbed = true ∧
      exec .activateRepeater p4 = .next (ran .activateRepeater p4) ∧
      (ran .activateRepeater p4).result = some (.status .revokedHdcpDeviceAttached) :=
  ⟨p4_inv, by decide +kernel, by decide +kernel, exec_ran (by decide +kernel), by decide +kernel⟩

theorem witness_SuccessMeansVerified :
    p2.Inv ∧ p2.ready = true ∧ p2.undisturbed = true ∧
      ∃ es, Runs .activateRepeater p2 (ran .activateRepeater p2) (.status .success) es :=
  ⟨p2_inv, by decide +kernel, by decide +kernel, p2_runs⟩

/-- A7: a repeater with no device behind it. -/
theorem witness_SuccessMeansVerified_noDevice :
    let s := scripted block [] [some [0x60], some [0, 7]]
    s.Inv ∧ s.ready = true ∧ s.undisturbed = true ∧
      Runs .activateRepeater s (ran .activateRepeater s) (.status .success)
        [.serialRead 0x40 1 (some [0x60]), .serialRead 0x41 2 (some [0, 7])] :=
  ⟨inv_of (by decide +kernel), by decide, by decide, runs_of_ran (by decide +kernel) (by decide +kernel)⟩

theorem witness_CipherWriteLaw :
    (CipherReg.vprime 4).isWritten = true ∧ CipherReg.sha1In ≠ .init ∧ CipherReg.akeyLo.isWritten = false ∧
      getField (controlField Params.proposed) 0x00000004 = Params.proposed.ctrlCompleteSha1.setWidth 32 := by
  decide +kernel

theorem witness_SpecialRegistersAfterOperations :
    let computing := scripted { block with args := listArgs (twoKsvs ++ [1, 2, 3, 4, 5]) 3 0x0103 } (ready 32) []
    p1.Inv ∧ (∃ t r es, Runs (.hdcpEnable true) p1 t r es) ∧ p1.hdcpSupported = true ∧ computing.Inv ∧
      computing.ready = true ∧ computing.undisturbed = true ∧
      (∃ t es, Runs .computeTransmitterV computing t (.bool true) es) ∧ (comparing [2, 2, 12]).Inv ∧
      ∃ t es, Runs .compareVPrime (comparing [2, 2, 12]) t (.bool true) es :=
  ⟨p1_inv, ⟨_, _, _, p1_runs⟩, by decide, inv_of (by decide +kernel), by decide +kernel, by decide +kernel,
    ⟨_, _, runs_of_trace (by decide +kernel) (by decide +kernel)⟩, inv_of (by decide +kernel),
    ⟨_, _, runs_of_trace (by decide +kernel) (by decide +kernel)⟩⟩

theorem witness_LinkStatus : block.ready = true ∧ block.undisturbed = true := by decide

/-- L3, at the upper bounds. -/
theorem witness_LinkStatusBounds :
    let s := scripted block (List.replicate 16 0x00000500) (List.replicate 4 (some [0, 0]))
    s.ready = true ∧ s.undisturbed = true ∧ ∃ t r es, Runs .getLinkStatus s t r es :=
  ⟨by decide +kernel, by decide +kernel, _, .bool false, (ran .getLinkStatus (scripted block
    (List.replicate 16 0x00000500) (List.replicate 4 (some [0, 0])))).trace.reverse,
    runs_of_ran (by decide +kernel) (by decide +kernel)⟩

theorem witness_CpGateClosed :
    let s := withParams .zero block
    s.ready = true ∧ s.undisturbed = true ∧ s.args.params.typeMask.getLsbD s.prm.cpTypeHdcp = false ∧
      { block with hdcpSupported := false }.ready = true ∧ { block with hdcpSupported := false }.undisturbed = true ∧
      { block with hdcpSupported := false }.hdcpSupported = false := by
  decide

theorem witness_GetCpData :
    p3.ready = true ∧ p3.undisturbed = true ∧ p3.hdcpSupported = true ∧
      p3.args.params.typeMask.getLsbD p3.prm.cpTypeHdcp = true ∧ (withParams .zero block).ready = true ∧
      (withParams .zero block).undisturbed = true ∧ ((withParams .zero block).hdcpSupported && (withParams .zero block).args.params.typeMask.getLsbD
        (withParams .zero block).prm.cpTypeHdcp) = false := by decide +kernel

theorem witness_SetCpData :
    pending.ksvbuf.wf = true ∧ pending.shabuf.wf = true ∧ pending.ready = true ∧ pending.undisturbed = true ∧
      pending.hdcpSupported = true ∧ pending.args.params.typeMask.getLsbD pending.prm.cpTypeHdcp = true := by decide

/-- `pending` verifies; `turnsOn` sets the level. -/
theorem witness_SetCpData_step :
    pending.args.params.performSecondStep ≠ 0 ∧ turnsOn.ksvbuf.wf = true ∧ turnsOn.shabuf.wf = true ∧
      turnsOn.ready = true ∧ turnsOn.undisturbed = true ∧ turnsOn.hdcpSupported = true ∧
      turnsOn.args.params.typeMask.getLsbD turnsOn.prm.cpTypeHdcp = true ∧
      turnsOn.args.params.performSecondStep = 0 := by decide

/-- The gate closed. -/
theorem witness_SetCpData_closed :
    let s := withParams .zero block
    s.ready = true ∧ s.undisturbed = true ∧
      (s.hdcpSupported && s.args.params.typeMask.getLsbD s.prm.cpTypeHdcp) = false := by decide

theorem witness_SafetyNet :
    pending.Inv ∧ pending.ready = true ∧ pending.undisturbed = true ∧ pending.hdcpSupported = true ∧
      pending.args.params.typeMask.getLsbD pending.prm.cpTypeHdcp = true ∧
      (∃ es, Runs .hdcpSetCpData pending (ran .hdcpSetCpData pending) (.status .pending) es) ∧
      Status.pending ≠ .success :=
  ⟨inv_of (by decide +kernel), by decide, by decide, by decide, by decide,
    ⟨(ran .hdcpSetCpData pending).trace.reverse, runs_of_ran (by decide +kernel) (by decide +kernel)⟩, by decide⟩

end Sys2Proof.Tests
end

section
/-! Every answer of a micro-program is the collaborators' (00_scope.md R6, log 4), whatever the local buffers hold. The
laws of Sys2Proof/Laws say so too; those of the pieces that use the buffers ask for canonical ones, which the answers do
not need, so these pieces are put together here without that. -/

namespace Sys2Proof.Machine

open Sys2Proof

variable {α β : Type}

/-- From every state with no reset on its way, `x` ends normally and the answers it acts on are the environment's. -/
def Answering (x : Op α) : Prop := ∀ s : State, s.undisturbed = true → Gives x s fun _ _ _ => True

/-! ## How micro-programs are put together -/

/-- What a law says of the answers, the accesses and the writes, without the rest. -/
theorem Gives.forget {x : Op α} {s : State} {Q : α → List Event → State → Prop} (h : Gives x s Q) :
    Gives x s fun _ _ _ => True :=
  h.mono fun _ _ _ _ _ => trivial

theorem answering_pure (a : α) : Answering (pure a : Op α) := fun _ hs => gives_pure hs a trivial

theorem Answering.bind {x : Op α} {f : α → Op β} (hx : Answering x) (hf : ∀ a, Answering (f a)) :
    Answering (x >>= f) :=
  fun s hs => (hx s hs).bind fun a _ t ht _ _ _ => hf a t ht

theorem Answering.get_bind {f : State → Op β} (hf : ∀ s, Answering (f s)) : Answering (get >>= f) :=
  fun s hs => Gives.get_bind (hf s s hs)

theorem Answering.ite {c : Prop} [Decidable c] {x y : Op α} (hx : Answering x) (hy : Answering y) :
    Answering (if c then x else y) := by
  split
  · exact hx
  · exact hy

/-! ## Accesses, raises and register writes -/

theorem answering_serialRead (sub : Byte) (size : Nat) : Answering (serialRead sub size) :=
  fun _ hs => (serialRead_gives hs sub size).forget

theorem answering_serialWrite (sub : Byte) (payload : List Byte) : Answering (serialWrite sub payload) :=
  fun _ hs => (serialWrite_gives hs sub payload).forget

theorem answering_raiseFailure (f : Failure) : Answering (raiseFailure f) :=
  fun _ hs => (raiseFailure_gives hs f).forget

theorem answering_setSes (f : Session → Session) : Answering (setSes f) := fun _ hs => (setSes_gives hs f).forget

theorem answering_setKsvbuf (f : Memory → Memory) : Answering (setKsvbuf f) :=
  fun _ hs => (setKsvbuf_gives hs f).forget

theorem answering_setShabuf (f : Memory → Memory) : Answering (setShabuf f) :=
  fun _ hs => (setShabuf_gives hs f).forget

theorem answering_setArgs (f : Args → Args) : Answering (setArgs f) := fun _ hs => (setArgs_gives hs f).forget

theorem answering_setParams (f : CpParams → CpParams) : Answering (setParams f) := answering_setArgs _

/-! ## Controller and receiver -/

theorem answering_encryptionLevel (on : Bool) : Answering (encryptionLevel on) :=
  fun _ hs => (encryptionLevel_gives hs on).forget

theorem answering_writeRepeaterPresent (on : Bool) : Answering (writeRepeaterPresent on) :=
  fun _ hs => (writeRepeaterPresent_gives hs on).forget

theorem answering_linkStatus : Answering linkStatus := fun _ hs => (linkStatus_gives hs).forget

theorem answering_readVPrime : Answering readVPrime := fun _ hs => (readVPrime_gives hs).forget

theorem answering_rxReadCommand (sub : Byte) (size : BitVec 10) : Answering (rxReadCommand sub size) := by
  refine (answering_pure _).ite ((answering_pure _).ite
    (Answering.bind (fun _ hs => (rxRead_gives hs sub size.toNat).forget) fun a => ?_))
  cases a with
  | none => exact answering_pure _
  | some bytes => exact (answering_setArgs _).bind fun _ => answering_pure _

theorem answering_rxWriteCommand (sub : Byte) (size : BitVec 10) : Answering (rxWriteCommand sub size) :=
  (answering_pure _).ite ((answering_pure _).ite (Answering.get_bind fun _ => (answering_serialWrite _ _).bind fun _ =>
    (answering_pure _).ite ((answering_raiseFailure _).bind fun _ => answering_pure _)))

theorem answering_rxReadVPrimeCommand : Answering rxReadVPrimeCommand := by
  refine answering_readVPrime.bind fun a => ?_
  cases a with
  | none => exact answering_pure _
  | some v => exact (answering_setArgs _).bind fun _ => answering_pure _

/-! ## The SHA-1 engine, from any buffer -/

theorem answering_buildShaBuffer (ksvs : List Byte) (count : Nat) (topology : BitVec 16) :
    Answering (buildShaBuffer ksvs count topology) :=
  (answering_setSes _).bind fun _ => answering_setShabuf _

theorem answering_buildShaCommand : Answering buildShaCommand :=
  Answering.get_bind fun _ => (answering_buildShaBuffer _ _ _).bind fun _ => Answering.get_bind fun _ =>
    (answering_setArgs _).bind fun _ => answering_pure _

theorem answering_feedAt (pos : Nat) (mode : BitVec 3) (w : Word) : Answering (feedAt pos mode w) :=
  fun _ hs => (feedAt_gives hs pos mode w).forget

theorem answering_shaChunk (pos : Nat) : Answering (shaChunk pos) := Answering.get_bind fun _ => answering_pure _

theorem answering_feedText (n pos : Nat) : Answering (feedText n pos) := by
  induction n generalizing pos with
  | zero => exact answering_pure _
  | succ n ih =>
    exact Answering.get_bind fun _ => (answering_shaChunk _).bind fun _ => (answering_feedAt _ _ _).bind fun _ =>
      (ih _).ite (answering_pure _)

/-- A feed that, where it succeeds, leaves a session register behind: the shape of phases 2 to 4 (R203 to R205). -/
theorem answering_feedThenSet (pos : Nat) (mode : BitVec 3) (w : Word) (f : Session → Session) :
    Answering (do if ← feedAt pos mode w then setSes f; return true else return false) :=
  (answering_feedAt _ _ _).bind fun _ => ((answering_setSes _).bind fun _ => answering_pure _).ite (answering_pure _)

theorem answering_feedPartial (r pos : Nat) : Answering (feedPartial r pos) :=
  (answering_pure _).ite (Answering.get_bind fun _ => answering_feedThenSet _ _ _ _)

theorem answering_feedMo (pos left : Nat) : Answering (feedMo pos left) :=
  Answering.get_bind fun _ => answering_feedThenSet _ _ _ _

theorem answering_feedMoRest (pos left : Nat) : Answering (feedMoRest pos left) :=
  Answering.get_bind fun _ => (answering_pure _).ite
    ((answering_shaChunk _).bind fun _ => answering_feedThenSet _ _ _ _)

theorem answering_feedPhases (count : Nat) : Answering (feedPhases count) :=
  (answering_feedText _ _).bind fun _ => Answering.ite ((answering_feedPartial _ _).bind fun _ =>
    Answering.ite ((answering_feedMo _ _).bind fun _ => Answering.ite ((answering_feedMoRest _ _).bind fun _ =>
      (answering_feedText _ _).ite (answering_pure _)) (answering_pure _)) (answering_pure _)) (answering_pure _)

theorem answering_computeV (ksvs : List Byte) (count : Nat) (topology : BitVec 16) :
    Answering (computeV ksvs count topology) :=
  (answering_buildShaBuffer _ _ _).bind fun _ => (answering_setSes _).bind fun _ => answering_feedPhases _

/-! ## The repeater verification, from any buffers -/

theorem answering_compareV (v : VWords) : Answering (compareV v) := fun _ hs => (compareV_gives hs v).forget

theorem answering_teardown : Answering teardown := fun _ hs => (teardown_gives hs).forget

theorem answering_endFailed (revoked : Bool) : Answering (endFailed revoked) :=
  fun _ hs => (endFailed_gives hs revoked).forget

/-- A revoked KSV ends a run as a failure does (R211). -/
theorem answering_endRevoked : Answering endRevoked := answering_endFailed true

theorem answering_verifyV (count : Nat) (topology : BitVec 16) (revoked : Bool) :
    Answering (verifyV count topology revoked) := by
  refine Answering.get_bind fun _ => (answering_computeV _ _ _).bind fun _ =>
    Answering.ite (answering_readVPrime.bind fun a => ?_) (answering_endFailed _)
  cases a with
  | none => exact answering_endFailed _
  | some v =>
    exact (answering_setSes _).bind fun _ => (answering_compareV _).bind fun _ =>
      answering_endRevoked.ite ((answering_pure _).ite (answering_endFailed _))

theorem answering_verifyTopology (count : Nat) (topology : BitVec 16) (revocationSet : List Ksv) :
    Answering (verifyTopology count topology revocationSet) := by
  refine (answering_serialRead _ _).bind fun a => ?_
  cases a with
  | none => exact answering_teardown.bind fun _ => (answering_raiseFailure _).bind fun _ => answering_pure _
  | some bytes =>
    exact (answering_setKsvbuf _).bind fun _ => Answering.get_bind fun _ => (answering_setSes _).bind fun _ =>
      answering_verifyV _ _ _

theorem answering_checkTopology (revocationSet : List Ksv) : Answering (checkTopology revocationSet) := by
  refine Answering.get_bind fun s => (answering_serialRead _ _).bind fun a => ?_
  cases a with
  | none => exact (answering_raiseFailure _).bind fun _ => answering_pure _
  | some bytes =>
    refine (answering_setSes _).bind fun _ => ?_
    cases topologyViolation (bstatus s.prm (le16 bytes)) with
    | some v => exact (answering_raiseFailure _).bind fun _ => answering_pure _
    | none =>
      exact (answering_setSes _).bind fun _ => (answering_pure _).ite ((answering_writeRepeaterPresent _).bind fun _ =>
        (answering_verifyTopology _ _ _).ite (answering_pure _))

theorem answering_activate (revocationSet : List Ksv) : Answering (activate revocationSet) := by
  refine Answering.get_bind fun _ => (answering_serialRead _ _).bind fun a => ?_
  cases a with
  | none => exact (answering_raiseFailure _).bind fun _ => answering_pure _
  | some bytes =>
    exact (answering_setSes _).bind fun _ =>
      ((answering_checkTopology _).ite (answering_pure _)).ite (answering_pure _)

/-! ## The exchange of content-protection parameters -/

theorem answering_reportRepeater : Answering reportRepeater := fun _ hs => (reportRepeater_gives hs).forget

theorem answering_isEnabled : Answering isEnabled := fun _ hs => (isEnabled_gives hs).forget

theorem answering_reportLevel : Answering reportLevel :=
  Answering.get_bind fun _ => answering_isEnabled.bind fun _ =>
    Answering.ite
      ((answering_setParams _).bind fun _ => answering_linkStatus.bind fun _ => (answering_pure _).ite
        ((answering_setParams _).bind fun _ => (answering_encryptionLevel _).bind fun _ => answering_pure _))
      ((answering_setParams _).bind fun _ => answering_pure _)

theorem answering_getCpData : Answering getCpData :=
  Answering.get_bind fun _ => Answering.ite
    (answering_reportLevel.bind fun _ => answering_reportRepeater.bind fun _ =>
      (answering_pure _).ite ((answering_pure _).ite (answering_pure _)))
    (answering_pure _)

theorem answering_applyCpData : Answering applyCpData :=
  Answering.get_bind fun _ => (answering_activate _).ite (answering_encryptionLevel _)

theorem answering_safetyNet (st : Status) : Answering (safetyNet st) :=
  (answering_pure _).ite (Answering.get_bind fun _ => (answering_setParams _).bind fun _ =>
    (answering_encryptionLevel _).bind fun _ => answering_pure _)

theorem answering_setCpData : Answering setCpData :=
  Answering.get_bind fun _ => Answering.ite
    (answering_reportRepeater.bind fun _ => answering_applyCpData.bind fun _ => (answering_safetyNet _).bind fun _ =>
      answering_pure _)
    (answering_pure _)

/-! ## Every operation -/

/-- Every operation is one `runOperation` of a micro-program whose answers are the environment's. -/
theorem exec_answering (i : Instr) : ∃ w body, Answering body ∧ ∀ s, exec i s = runOperation i w body s := by
  cases i with
  | hdcpQuery => exact ⟨_, _, Answering.get_bind fun _ => answering_pure _, fun _ => rfl⟩
  | hdcpIsEnabled => exact ⟨_, _, answering_isEnabled.bind fun _ => answering_pure _, fun _ => rfl⟩
  | hdcpEnable on =>
    exact ⟨_, _, Answering.bind (fun _ hs => (enableHdcp_gives hs on).forget) fun _ => answering_pure _, fun _ => rfl⟩
  | hdcpGetCpData => exact ⟨_, _, answering_getCpData.bind fun _ => answering_pure _, fun _ => rfl⟩
  | hdcpSetCpData => exact ⟨_, _, answering_setCpData.bind fun _ => answering_pure _, fun _ => rfl⟩
  | hdcpIsValidBksv => exact ⟨_, _, Answering.get_bind fun _ => answering_pure _, fun _ => rfl⟩
  | setEncryptionLevel on =>
    exact ⟨_, _, (answering_encryptionLevel on).bind fun _ => answering_pure _, fun _ => rfl⟩
  | activateRepeater =>
    exact ⟨_, _, Answering.get_bind fun _ => (answering_activate _).bind fun _ => answering_pure _, fun _ => rfl⟩
  | buildSha1Buffer => exact ⟨_, _, answering_buildShaCommand, fun _ => rfl⟩
  | computeTransmitterV =>
    exact ⟨_, _, Answering.get_bind fun _ => (answering_computeV _ _ _).bind fun _ => answering_pure _, fun _ => rfl⟩
  | compareVPrime =>
    exact ⟨_, _, Answering.get_bind fun _ => (answering_compareV _).bind fun _ => answering_pure _, fun _ => rfl⟩
  | getLinkStatus => exact ⟨_, _, answering_linkStatus.bind fun _ => answering_pure _, fun _ => rfl⟩
  | isRevoked => exact ⟨_, _, Answering.get_bind fun _ => answering_pure _, fun _ => rfl⟩
  | rxRead sub size => exact ⟨_, _, answering_rxReadCommand sub size, fun _ => rfl⟩
  | rxWrite sub size => exact ⟨_, _, answering_rxWriteCommand sub size, fun _ => rfl⟩
  | rxReadVPrime => exact ⟨_, _, answering_rxReadVPrimeCommand, fun _ => rfl⟩
  | setRepeaterPresent on =>
    exact ⟨_, _, (answering_writeRepeaterPresent on).bind fun _ => answering_pure _, fun _ => rfl⟩
  | repeaterTeardown => exact ⟨_, _, answering_teardown.bind fun _ => answering_pure _, fun _ => rfl⟩

/-- Settles O17: the micro-program of the operation is answered by the environment, and the run it has is the only
one. -/
theorem answersAreTheCollaborators : Obligations.AnswersAreTheCollaborators := by
  intro i s t r es hready hs hrun
  obtain ⟨w, body, hbody, he⟩ := exec_answering i
  obtain ⟨t', r', es', u, hrun', -, hanswered, -⟩ := runs_of_gives (he s) hready (hbody (s.start i) hs)
  obtain ⟨-, -, rfl⟩ := hrun.unique hrun'
  exact hanswered

end Sys2Proof.Machine
end

section
/-! What every operation shares, abandoned by a reset or not: its run is the first part of the one it has with nothing
on its way, the collaborators hold its writes, and what an earlier operation left does not matter to it. -/

namespace Sys2Proof.Machine

open Sys2Proof

/-! ## Abandoned runs are the first part of whole ones (70_reset_and_hazards.md R293) -/

/-- The accesses and raises `es` of an operation, abandoned or not, are the first of those the operation makes with no
host input on its way, and the collaborators hold what the writes among `es` made of them. -/
theorem exec_firstPart {i : Instr} {s t : State} (hs : s.ready = true) (h : exec i s = .next t) :
    ∃ u r es rest, Runs i (s.withArrivals []) u r (es ++ rest) ∧ t.trace = es.reverse ++ s.trace ∧ t.prm = s.prm ∧
      (t.cipher, t.port) = es.foldl (Event.applyTo s.prm) (s.cipher, s.port) := by
  obtain ⟨w, body, hbody, he⟩ := exec_tame i
  obtain ⟨r, v, es, ⟨htr, hcp, hprm, -⟩, hwhole, hrun⟩ := hbody.completed.outcomes (s.start i)
  have hexec := exec_ready he (s := s.withArrivals []) hs
  rw [show (s.withArrivals []).start i = (s.start i).withArrivals [] from rfl, hwhole] at hexec
  have hruns : Runs i (s.withArrivals []) _ r es := ⟨hexec, rfl, rfl, rfl, rfl, htr⟩
  rw [exec_ready he hs] at h
  injection h with h
  subst h
  obtain ⟨-, hok⟩ | ⟨u, es1, es2, -, c, rfl, herr, htr', hcp', hprm', -⟩ := hrun
  · rw [hok]
    exact ⟨_, r, es, [], by simpa using hruns, htr, hprm, hcp⟩
  · rw [herr]
    exact ⟨_, r, es1, es2, hruns, htr', hprm', hcp'⟩

/-- Settles O16: the run is the first part of a whole one, which holds its traced writes. -/
theorem collaboratorsHoldTheTracedWrites : Obligations.CollaboratorsHoldTheTracedWrites := by
  intro i s t hs h
  obtain ⟨u, r, es, rest, -, htr, hprm, hcp⟩ := exec_firstPart hs h
  exact ⟨hprm, es, htr, hcp⟩

/-! ## What an earlier operation left (10_state.md R48) -/

/-- Two ends of an operation that are the same but for controller state, session registers and buffers. -/
theorem endOperation_same {x y : EStateM.Result Abandoned State Result} (h : SameResult 0 0 x y) :
    ∃ c r k m, endOperation y = (endOperation x).reg c r k m := by
  cases x with
  | ok a t =>
    cases y with
    | ok b u =>
      obtain ⟨rfl, ⟨c, r, k, m, rfl⟩, -⟩ := h
      exact ⟨c, r, k, m, rfl⟩
    | error e u => exact h.elim
  | error e t =>
    cases y with
    | ok b u => exact h.elim
    | error f u =>
      obtain ⟨rfl, ⟨c, r, k, m, rfl⟩, -⟩ := h
      exact ⟨.off, .zero, [], [], rfl⟩

/-- Settles O24: the micro-programs do the same from both states, and so does their end. -/
theorem earlierSessionsDoNotMatter : Obligations.EarlierSessionsDoNotMatter := by
  intro i s c ses k h hk hh hk' hh' hs
  obtain ⟨w, body, hbody, he⟩ := exec_same i
  have hsim : Sim 0 0 (s.start i) ((s.reg c ses k h).start i) :=
    ⟨⟨c, ses, k, h, rfl⟩, ⟨hk, hk'⟩, ⟨hh, hh'⟩, fun _ ha => absurd ha (Nat.not_lt_zero _),
      fun _ ha => absurd ha (Nat.not_lt_zero _)⟩
  obtain ⟨c', r', k', h', hend⟩ := endOperation_same (same_completed hbody _ _ hsim)
  refine ⟨_, _, exec_ready he hs, exec_ready he (s := s.reg c ses k h) hs, ?_⟩
  rw [hend]
  rfl

end Sys2Proof.Machine
end

section
/-! The values of the state after reset (10_state.md R62), and what a write leaves in the cipher's registers (R51 to
R57). -/

namespace Sys2Proof.Machine

open Sys2Proof

/-! ## The state after reset (10_state.md R62) -/

/-- The platform's record meets the constraints: where it would not, the proposed one, which does, stands for it
(log 5). -/
theorem platform_valid : Config.platform.valid = true := by
  unfold Config.platform
  cases h : Config.platformRecord.valid with
  | true => exact h
  | false => decide

/-- Settles O25: the parameters are the platform's, and every other part is about the values `State.reset` names. -/
theorem invariantAtReset : Obligations.InvariantAtReset where
  params := platform_valid
  idle := ⟨rfl, rfl, rfl⟩
  ksvbuf := ⟨rfl, rfl⟩
  shabuf := ⟨rfl, rfl⟩
  blen := by decide
  pos := by decide
  moLeft := by decide
  attempt := by decide
  mode := rfl
  upperBits := by decide
  refusals := by simp [State.reset]

/-! ## What a write leaves in the cipher's registers (10_state.md R51 to R57) -/

@[simp] theorem VWords.get_set_same (v : VWords) (i : Fin 5) (w : Word) : (v.set i w).get i = w := by
  fin_cases i <;> rfl

theorem VWords.get_set_other (v : VWords) {i j : Fin 5} (h : j ≠ i) (w : Word) : (v.set i w).get j = v.get j := by
  revert h
  fin_cases i <;> fin_cases j <;> simp [VWords.set, VWords.get]

/-- HDCP_VPRIME_H0 to HDCP_VPRIME_H4 hold the five words. -/
theorem Cipher.holds_vprime (c : Cipher) (i : Fin 5) : c.holds (.vprime i) = some (c.vprime.get i) := by
  fin_cases i <;> rfl

theorem Cipher.holds_write_same (p : Params) (c : Cipher) {r : CipherReg} (hr : r.isWritten = true) (v : Word) :
    (c.write p r v).holds r = some v := by
  cases r with
  | vprime i => rw [Cipher.holds_vprime]; exact congrArg some (VWords.get_set_same _ i v)
  | status | akeyLo | akeyMed | akeyHi | aksvLo | aksvHi | anLow | anHi => cases hr
  | config | rep | ri | bksvLo | bksvHi | sha1In | init => rfl

theorem Cipher.holds_write_other (p : Params) (c : Cipher) {r other : CipherReg} (h : other ≠ r) (v : Word) :
    (c.write p r v).holds other = c.holds other := by
  cases r with
  | vprime i =>
    cases other with
    | vprime j =>
      simp only [Cipher.holds_vprime]
      exact congrArg some (VWords.get_set_other _ (fun hj => h (congrArg CipherReg.vprime hj)) v)
    | _ => rfl
  | status | akeyLo | akeyMed | akeyHi | aksvLo | aksvHi | anLow | anHi => rfl
  | config | rep | ri | bksvLo | bksvHi | sha1In | init =>
    revert h
    cases other <;> simp [Cipher.write, Cipher.holds]

theorem Cipher.initOld_write (p : Params) (c : Cipher) (r : CipherReg) (v : Word) :
    (c.write p r v).initOld = if r = .init then c.initNew else c.initOld := by
  cases r <;> rfl

theorem Cipher.sha1Words_write (p : Params) (c : Cipher) (r : CipherReg) (v : Word) :
    (c.write p r v).sha1Words = if r = .sha1In then c.sha1Words ++ [v]
      else if r = .rep ∧ getField (controlField p) v = p.ctrlCompleteSha1.setWidth 32 then [] else c.sha1Words := by
  cases r with
  | rep => simp [Cipher.write]
  | _ => rfl

theorem Cipher.write_of_not_isWritten (p : Params) (c : Cipher) {r : CipherReg} (hr : r.isWritten = false) (v : Word) :
    c.write p r v = c := by
  cases r with
  | status | akeyLo | akeyMed | akeyHi | aksvLo | aksvHi | anLow | anHi => rfl
  | _ => cases hr

/-- Settles O59: the laws of a write, one for each clause. -/
theorem cipherWriteLaw : Obligations.CipherWriteLaw := fun p c r v =>
  ⟨fun hr => c.holds_write_same p hr v, fun _ h => c.holds_write_other p h v, c.initOld_write p r v,
    c.sha1Words_write p r v, fun hr => c.write_of_not_isWritten p hr v⟩

end Sys2Proof.Machine
end

section
/-! What each operation does, said once for every operation that no reset disturbs: its result, its accesses and raises,
and the registers it leaves. The laws of Sys2Proof/Laws say it of the micro-programs; here it is said of the runs. -/

namespace Sys2Proof.Machine

open Sys2Proof

/-- What either sequence of HDCP_ENABLE, behind its capability gate, makes of the registers (41_controller.md R143). -/
def LevelLaw (s : State) (on ok : Bool) (es : List Event) (u : Regs) : Prop :=
  (s.hdcpSupported = false ∧ ok = false ∧ es = [] ∧ u = s.regs) ∨
    (s.hdcpSupported = true ∧ LevelTrace s.prm s.ses on es ok u.ctlState u.ses ∧
      u = { s.regs with ctlState := u.ctlState, ses := u.ses })

/-- What an operation started in `s` does: it returns `r`, makes the accesses and raises `es`, and leaves the registers
`u` (30_encoding.md R100). -/
def OperationLaw (s : State) (r : Result) (es : List Event) (u : Regs) : Instr → Prop
  | .hdcpQuery | .hdcpIsValidBksv | .isRevoked => es = [] ∧ u = s.regs
  | .hdcpIsEnabled => (es = [] ∨ ∃ v, es = [.cipherRead .status v]) ∧ u = s.regs
  | .hdcpEnable on => ∃ ok, r = .bool ok ∧ LevelLaw s on ok es u
  | .setEncryptionLevel on => ∃ ok, r = .status (levelStatus ok) ∧ LevelLaw s on ok es u
  | .hdcpGetCpData =>
    (cpGate s = false ∧ r = .status .notSupported ∧ es = [] ∧ u = s.regs) ∨
      (cpGate s = true ∧ ∃ st level q, r = .status st ∧
        GetTrace s.prm s.ctlState s.ses es st level q u.ctlState u.ses ∧
        u = { s.regs with
          ctlState := u.ctlState, ses := u.ses, args := s.args.answered level (reported s.prm q) })
  | .hdcpSetCpData =>
    (cpGate s = false ∧ r = .status .notSupported ∧ es = [] ∧ u = s.regs) ∨
      (cpGate s = true ∧ ∃ st level q rs, r = .status st ∧
        Supplies s.args.params.ksvList rs s.args.params.ksvListLength ∧
        SetTrace s.prm s.args.params rs s.ctlState s.ses es st level q u.ctlState u.ses ∧
        StepBuffers s.args.params es s.ksvbuf s.shabuf u.ksvbuf u.shabuf ∧
        u.args = s.args.answered level (reported s.prm q))
  | .activateRepeater => ∃ st torn, r = .status st ∧
      ActivateTrace s.prm s.args.revocationSet s.ses es st torn u.ses ∧
      BuffersAfter es s.ksvbuf s.shabuf u.ksvbuf u.shabuf ∧
      u = { s.regs with
        ctlState := ctlAfter torn s.ctlState, ses := u.ses, ksvbuf := u.ksvbuf, shabuf := u.shabuf }
  | .buildSha1Buffer => r = .record ∧ es = [] ∧ u = { s.regs with ses := u.ses, shabuf := u.shabuf, args := u.args }
  | .computeTransmitterV => ∃ ok ksvs, r = .bool ok ∧ Supplies s.args.ksvList ksvs (5 * s.args.count.toNat) ∧
      FeedsTrace s.prm (expectedFeeds s.prm ksvs s.args.count.toNat s.args.topology) es ok ∧
      HoldsShaInput ksvs s.args.count.toNat s.args.topology s.shabuf u.shabuf ∧
      u = { s.regs with ses := s.ses.fed s.args.count.toNat (es.countP Event.isWordFed), shabuf := u.shabuf }
  | .compareVPrime => ∃ ok, r = .bool ok ∧ CompareTrace s.prm s.args.vPrime es ok ∧ u = s.regs
  | .getLinkStatus => ∃ ok, r = .bool ok ∧ LinkTrace s.prm 4 s.ses es ok u.ses ∧ u = { s.regs with ses := u.ses }
  | .rxRead sub size =>
    (es = [] ∨ (0 < size.toNat ∧ ¬ CrossesRegions sub size.toNat ∧
      (es = [.serialRead sub size.toNat none, .raised (.serialIOFailure sub)] ∨
        ∃ bytes, es = [.serialRead sub size.toNat (some bytes)]))) ∧ u = { s.regs with args := u.args }
  | .rxWrite sub size =>
    (es = [] ∨ (0 < size.toNat ∧ ¬ WritesAinfo sub size.toNat ∧ ∃ payload, payload.length = size.toNat ∧
      (es = [.serialWrite sub payload true] ∨
        es = [.serialWrite sub payload false, .raised (.serialIOFailure sub)]))) ∧ u = s.regs
  | .rxReadVPrime => ∃ v, r = .io v.isSome ∧ VPrimeTrace es v ∧ u = { s.regs with args := u.args }
  | .setRepeaterPresent on => ∃ d v, r = .bool (repPresent s.prm v == on) ∧ es = presentWrite s.prm on d v ∧ u = s.regs
  | .repeaterTeardown => ∃ d m, r = .nothing ∧ es = teardownEvents s.prm d m ∧ u = { s.regs with ctlState := .off }

variable {α β : Type}

/-- A micro-program that returns a value made of another's answer. -/
theorem Gives.returns {x : Op α} {s : State} {Q : α → List Event → State → Prop} (h : Gives x s Q)
    {f : α → β} {R : β → List Event → State → Prop} (hR : ∀ a es t, Q a es t → R (f a) es t) :
    Gives (do return f (← x)) s R :=
  h.bind fun a es t ht _ _ hQ => gives_pure ht _ (by simpa using hR a es t hQ)

/-! ## The bodies that the laws of the micro-programs do not state as a whole -/

section

variable {s : State} (hs : s.undisturbed = true)
include hs

theorem enableHdcp_law (on : Bool) : Gives (enableHdcp on) s fun ok es t => LevelLaw s on ok es t.regs :=
  (enableHdcp_gives hs on).mono fun _ _ _ _ h => h.imp (fun ⟨hsup, hok, hes, ht⟩ => ⟨hsup, hok, hes, ht ▸ rfl⟩) id

theorem encryptionLevel_law (on : Bool) :
    Gives (encryptionLevel on) s fun st es t => ∃ ok, st = levelStatus ok ∧ LevelLaw s on ok es t.regs :=
  (encryptionLevel_gives hs on).mono fun _ _ _ _ ⟨ok, hst, h⟩ =>
    ⟨ok, hst, h.imp (fun ⟨hsup, hok, hes, ht⟩ => ⟨hsup, hok, hes, ht ▸ rfl⟩) id⟩

/-- Behind a closed gate the parameter exchange only answers `NotSupported` (46_cp_params.md R244). -/
theorem closedGate_gives (hg : cpGate s = false) {x : Op Status} :
    Gives (do if cpGate (← get) then x else return .notSupported) s fun st es t =>
      st = .notSupported ∧ es = [] ∧ t.regs = s.regs := by
  refine Gives.get_bind ?_
  rw [if_neg (by simp [hg])]
  exact gives_pure hs _ ⟨rfl, rfl, rfl⟩

theorem getCpData_law :
    Gives getCpData s fun st es t => OperationLaw s (.status st) es t.regs .hdcpGetCpData := by
  cases hg : cpGate s with
  | false =>
    exact (closedGate_gives hs hg).mono fun _ _ _ _ ⟨hst, hes, ht⟩ => .inl ⟨hg, congrArg _ hst, hes, ht⟩
  | true =>
    exact (getCpData_gives hs hg).mono fun st _ _ _ ⟨level, q, htrace, ht⟩ =>
      .inr ⟨hg, st, level, q, rfl, htrace, ht⟩

theorem setCpData_law (hk : s.ksvbuf.wf = true) (hw : s.shabuf.wf = true) :
    Gives setCpData s fun st es t => OperationLaw s (.status st) es t.regs .hdcpSetCpData := by
  cases hg : cpGate s with
  | false =>
    exact (closedGate_gives hs hg).mono fun _ _ _ _ ⟨hst, hes, ht⟩ => .inl ⟨hg, congrArg _ hst, hes, ht⟩
  | true =>
    exact (setCpData_gives hs hg hk hw).mono fun st _ _ _ ⟨level, q, rs, hrs, htrace, hbuf, ht⟩ =>
      .inr ⟨hg, st, level, q, rs, rfl, hrs, htrace, hbuf, congrArg Regs.args ht⟩

theorem rxReadCommand_law (sub : Byte) (size : BitVec 10) :
    Gives (rxReadCommand sub size) s fun r es t => OperationLaw s r es t.regs (.rxRead sub size) := by
  unfold rxReadCommand
  by_cases hsize : size = 0
  · rw [if_pos hsize]
    exact gives_pure hs _ ⟨.inl rfl, rfl⟩
  have hpos : 0 < size.toNat := by bv_omega
  rw [if_neg hsize]
  by_cases hcross : crossesRegions sub size.toNat = true
  · rw [if_pos hcross]
    exact gives_pure hs _ ⟨.inl rfl, rfl⟩
  rw [if_neg hcross]
  rw [crossesRegions_iff sub hpos] at hcross
  refine (rxRead_gives hs sub size.toNat).bind fun a es t ht _ _ ⟨hregs, h⟩ => ?_
  obtain ⟨rfl, rfl⟩ | ⟨bytes, rfl, -, rfl⟩ := h
  · exact gives_pure ht _ ⟨.inr ⟨hpos, hcross, .inl rfl⟩, by rw [hregs]⟩
  · refine (setArgs_gives ht _).bind fun _ es u hu _ _ ⟨hes, hregs', _⟩ => gives_pure hu _ ?_
    rw [hregs] at hregs'
    exact ⟨.inr ⟨hpos, hcross, .inr ⟨bytes, by simp [hes]⟩⟩, by rw [hregs']⟩

theorem rxWriteCommand_law (sub : Byte) (size : BitVec 10) :
    Gives (rxWriteCommand sub size) s fun r es t => OperationLaw s r es t.regs (.rxWrite sub size) := by
  unfold rxWriteCommand
  by_cases hsize : size = 0
  · rw [if_pos hsize]
    exact gives_pure hs _ ⟨.inl rfl, rfl⟩
  have hpos : 0 < size.toNat := by bv_omega
  rw [if_neg hsize]
  by_cases hainfo : touches sub size.toNat (ainfoSub.toNat, ainfoSub.toNat) = true
  · rw [if_pos hainfo]
    exact gives_pure hs _ ⟨.inl rfl, rfl⟩
  rw [if_neg hainfo]
  rw [touches_ainfo_iff sub hpos] at hainfo
  refine Gives.get_bind ?_
  refine (serialWrite_gives hs sub _).bind fun ok es t ht _ _ ⟨hes, hregs, _⟩ => ?_
  subst hes
  have hlen := callerBytes_length s.draws s.args.buffer size.toNat
  cases ok with
  | true => exact gives_pure ht _ ⟨.inr ⟨hpos, hainfo, _, hlen, .inl rfl⟩, hregs⟩
  | false =>
    refine (raiseFailure_gives ht _).bind fun _ es u hu _ _ ⟨hes, hregs', _⟩ => gives_pure hu _ ?_
    exact ⟨.inr ⟨hpos, hainfo, _, hlen, .inr (by simp [hes])⟩, hregs'.trans hregs⟩

theorem rxReadVPrimeCommand_law :
    Gives rxReadVPrimeCommand s fun r es t => OperationLaw s r es t.regs .rxReadVPrime := by
  refine (readVPrime_gives hs).bind fun a es t ht _ _ ⟨hregs, htrace⟩ => ?_
  cases a with
  | none => exact gives_pure ht _ ⟨none, rfl, by simpa using htrace, by rw [hregs]⟩
  | some v =>
    refine (setArgs_gives ht _).bind fun _ es u hu _ _ ⟨hes, hregs', _⟩ => gives_pure hu _ ?_
    rw [hregs] at hregs'
    exact ⟨some v, rfl, by simpa [hes] using htrace, by rw [hregs']⟩

theorem buildShaCommand_law (hw : s.shabuf.wf = true) :
    Gives buildShaCommand s fun r es t => OperationLaw s r es t.regs .buildSha1Buffer := by
  refine Gives.get_bind ?_
  refine (buildShaBuffer_gives hs hw (callerBytes_length _ _ _) _).bind fun _ es t ht _ _ ⟨hes, _, hregs⟩ => ?_
  refine Gives.get_bind ?_
  refine (setArgs_gives ht _).bind fun _ es' u hu _ _ ⟨hes', hregs', _⟩ => gives_pure hu _ ?_
  rw [hregs] at hregs'
  exact ⟨rfl, by simp [hes, hes'], by rw [hregs']⟩

end

/-! ## Every operation -/

/-- Every operation is one `runOperation` of a micro-program that does what `OperationLaw` says. -/
theorem exec_law (i : Instr) : ∃ w body, (∀ s, exec i s = runOperation i w body s) ∧
    ∀ s : State, s.undisturbed = true → s.ksvbuf.wf = true → s.shabuf.wf = true →
      Gives body s fun r es t => OperationLaw s r es t.regs i := by
  cases i with
  | hdcpQuery => exact ⟨_, _, fun _ => rfl, fun _ hs _ _ => Gives.get_bind (gives_pure hs _ ⟨rfl, rfl⟩)⟩
  | hdcpIsEnabled =>
    refine ⟨_, _, fun _ => rfl, fun _ hs _ _ => (isEnabled_gives hs).returns fun _ _ _ ⟨hregs, h⟩ => ⟨?_, hregs⟩⟩
    exact h.imp (fun ⟨_, _, hes⟩ => hes) fun ⟨_, v, _, hes⟩ => ⟨v, hes⟩
  | hdcpEnable on =>
    exact ⟨_, _, fun _ => rfl, fun _ hs _ _ => (enableHdcp_law hs on).returns fun ok _ _ h => ⟨ok, rfl, h⟩⟩
  | hdcpGetCpData => exact ⟨_, _, fun _ => rfl, fun _ hs _ _ => (getCpData_law hs).returns fun _ _ _ h => h⟩
  | hdcpSetCpData => exact ⟨_, _, fun _ => rfl, fun _ hs hk hw => (setCpData_law hs hk hw).returns fun _ _ _ h => h⟩
  | hdcpIsValidBksv => exact ⟨_, _, fun _ => rfl, fun _ hs _ _ => Gives.get_bind (gives_pure hs _ ⟨rfl, rfl⟩)⟩
  | setEncryptionLevel on =>
    exact ⟨_, _, fun _ => rfl, fun _ hs _ _ => (encryptionLevel_law hs on).returns fun _ _ _ ⟨ok, hst, h⟩ =>
      ⟨ok, congrArg _ hst, h⟩⟩
  | activateRepeater =>
    exact ⟨_, _, fun _ => rfl, fun _ hs hk hw => Gives.get_bind ((activate_gives hs hk hw _).returns
      fun st _ _ ⟨torn, htrace, hbuf, hregs⟩ => ⟨st, torn, rfl, htrace, hbuf, hregs⟩)⟩
  | buildSha1Buffer => exact ⟨_, _, fun _ => rfl, fun _ hs _ hw => buildShaCommand_law hs hw⟩
  | computeTransmitterV =>
    exact ⟨_, _, fun _ => rfl, fun s hs _ hw => Gives.get_bind
      ((computeV_gives hs hw (callerBytes_length _ _ _) _).returns fun ok _ _ ⟨hfeeds, hbuf, hregs⟩ =>
        ⟨ok, _, rfl, callerBytes_supplies _ _ _, hfeeds, hbuf, hregs⟩)⟩
  | compareVPrime =>
    exact ⟨_, _, fun _ => rfl, fun _ hs _ _ => Gives.get_bind ((compareV_gives hs _).returns
      fun ok _ _ ⟨hregs, htrace⟩ => ⟨ok, rfl, htrace, hregs⟩)⟩
  | getLinkStatus =>
    exact ⟨_, _, fun _ => rfl, fun _ hs _ _ => (linkStatus_gives hs).returns fun ok _ _ ⟨htrace, hregs⟩ =>
      ⟨ok, rfl, htrace, hregs⟩⟩
  | isRevoked => exact ⟨_, _, fun _ => rfl, fun _ hs _ _ => Gives.get_bind (gives_pure hs _ ⟨rfl, rfl⟩)⟩
  | rxRead sub size => exact ⟨_, _, fun _ => rfl, fun _ hs _ _ => rxReadCommand_law hs sub size⟩
  | rxWrite sub size => exact ⟨_, _, fun _ => rfl, fun _ hs _ _ => rxWriteCommand_law hs sub size⟩
  | rxReadVPrime => exact ⟨_, _, fun _ => rfl, fun _ hs _ _ => rxReadVPrimeCommand_law hs⟩
  | setRepeaterPresent on =>
    exact ⟨_, _, fun _ => rfl, fun _ hs _ _ => (writeRepeaterPresent_gives hs on).returns
      fun _ _ _ ⟨hregs, d, v, _, hes, hok, _⟩ => ⟨d, v, congrArg _ hok, hes, hregs⟩⟩
  | repeaterTeardown =>
    exact ⟨_, _, fun _ => rfl, fun _ hs _ _ => (teardown_gives hs).returns fun _ _ _ ⟨d, m, hes, hregs⟩ =>
      ⟨d, m, rfl, hes, hregs⟩⟩

/-- What a run of an operation did, from a state with buffers in canonical form: the operation's law, and the
collaborators hold what its writes made of them. -/
theorem Runs.law {i : Instr} {s t : State} {r : Result} {es : List Event} (hrun : Runs i s t r es)
    (hk : s.ksvbuf.wf = true) (hw : s.shabuf.wf = true) (hready : s.ready = true) (hs : s.undisturbed = true) :
    OperationLaw s r es t.regs i ∧ t.visible = (s.visible.replay es).withRegs t.regs := by
  obtain ⟨w, body, he, hbody⟩ := exec_law i
  obtain ⟨t', r', es', u, hrun', hvis, -, hlaw⟩ := runs_of_gives (he s) hready (hbody (s.start i) hs hk hw)
  obtain ⟨rfl, rfl, rfl⟩ := hrun.unique hrun'
  have hregs : t.regs = u.regs := congrArg (fun v : Visible => Regs.mk v.ctlState v.ses v.ksvbuf v.shabuf v.args) hvis
  rw [hregs]
  refine ⟨?_, hvis⟩
  cases i <;> exact hlaw

/-- After a run the cipher is what the writes among its accesses made of it. -/
theorem Runs.cipher_eq {i : Instr} {s t : State} {r : Result} {es : List Event} (hrun : Runs i s t r es)
    (hready : s.ready = true) : t.cipher = (es.foldl (Event.applyTo s.prm) (s.cipher, s.port)).1 := by
  obtain ⟨hexec, -, -, -, -, htr⟩ := hrun
  obtain ⟨_, _, es', _, -, htr', -, hcp⟩ := exec_firstPart hready hexec
  rw [htr] at htr'
  rw [List.reverse_injective (List.append_cancel_right htr'), ← hcp]

end Sys2Proof.Machine
end

section
/-! What a valid parameter record says of the fields and codes the block writes (00_scope.md R8, 30_encoding.md R120 to
R126), and what a field write leaves in the fields. -/

namespace Sys2Proof.Machine

open Sys2Proof

/-! ## Parts of a valid record -/

section

variable {p : Params} (hp : p.valid = true)
include hp

theorem valid_layouts : p.statusLayoutValid = true ∧ p.repLayoutValid = true := by
  simp only [Params.valid, Bool.and_eq_true] at hp
  obtain ⟨⟨⟨⟨⟨-, hstatus⟩, hrep⟩, -⟩, -⟩, -⟩ := hp
  exact ⟨hstatus, hrep⟩

theorem valid_cfgMode_fits : p.cfgMode.fits 32 = true := by
  have h := (valid_layouts hp).1
  simp only [Params.statusLayoutValid, Bool.and_eq_true] at h
  obtain ⟨⟨⟨⟨⟨⟨hfits, -⟩, -⟩, -⟩, -⟩, -⟩, -⟩ := h
  exact hfits

/-- Each of the three mode codes lies in the mode field. -/
theorem valid_mode_lt {m : Nat} (hm : m ∈ [p.modeOff, p.modeCaptureAn, p.modeAuthEnc]) : m < 2 ^ p.cfgMode.width := by
  have h := (valid_layouts hp).1
  simp only [Params.statusLayoutValid, Bool.and_eq_true] at h
  obtain ⟨⟨⟨⟨⟨⟨-, -⟩, hmodes⟩, -⟩, -⟩, -⟩, -⟩ := h
  exact of_decide_eq_true (List.all_eq_true.1 hmodes m hm)

theorem valid_repFields_fit : (presentField p).fits 32 = true ∧ (controlField p).fits 32 = true := by
  have h := (valid_layouts hp).2
  simp only [Params.repLayoutValid, Bool.and_eq_true] at h
  obtain ⟨⟨⟨⟨⟨⟨⟨⟨hpresent, hcontrol⟩, -⟩, -⟩, -⟩, -⟩, -⟩, -⟩, -⟩ := h
  exact ⟨hpresent, hcontrol⟩

theorem valid_present_apart_control : (presentField p).apart (controlField p) = true := by
  have h := (valid_layouts hp).2
  simp only [Params.repLayoutValid, Bool.and_eq_true] at h
  obtain ⟨⟨⟨⟨⟨⟨⟨⟨-, -⟩, -⟩, hapart⟩, -⟩, -⟩, -⟩, -⟩, -⟩ := h
  exact hapart

/-- The written control codes differ from one another and from `REP_CTRL_IDLE` (log 5). -/
theorem valid_controls_nodup : (p.ctrlIdle :: p.writtenControls).Nodup := by
  have h := (valid_layouts hp).2
  simp only [Params.repLayoutValid, Bool.and_eq_true] at h
  obtain ⟨⟨⟨⟨⟨⟨⟨⟨-, -⟩, -⟩, -⟩, -⟩, -⟩, hnodup⟩, -⟩, -⟩ := h
  exact of_decide_eq_true hnodup

/-- A written control code is neither `REP_CTRL_IDLE` nor 3 (30_encoding.md R126). -/
theorem valid_writtenControl {m : BitVec 3} (hm : m ∈ p.writtenControls) : m ≠ p.ctrlIdle ∧ m ≠ 3 := by
  have h := (valid_layouts hp).2
  simp only [Params.repLayoutValid, Bool.and_eq_true] at h
  obtain ⟨⟨⟨⟨⟨⟨⟨⟨-, -⟩, -⟩, -⟩, -⟩, -⟩, -⟩, hthree⟩, -⟩ := h
  refine ⟨?_, of_decide_eq_true (List.all_eq_true.1 hthree m hm)⟩
  rintro rfl
  exact (List.nodup_cons.1 (valid_controls_nodup hp)).1 hm

end

/-! ## Fields that are read back -/

theorem Field.apart_comm {f g : Field} : f.apart g = g.apart f := Bool.or_comm _ _

/-- A field's value is its own low bits. -/
theorem getField_and_ones (f : Field) (w : Word) : getField f w &&& ones f.width = getField f w := by
  unfold getField
  rw [BitVec.and_assoc, BitVec.and_self]

/-- Putting a field of one word into another moves the field's value. -/
theorem getField_setField_getField {f : Field} (hf : f.fits 32 = true) (w x : Word) :
    getField f (setField f w (getField f x)) = getField f x := by
  rw [getField_setField f hf, getField_and_ones]

section

variable {p : Params} (hp : p.valid = true)
include hp

/-- The mode field after a mode write holds the code written (30_encoding.md R121). -/
theorem getField_cfgMode_setField {m : Nat} (hm : m ∈ [p.modeOff, p.modeCaptureAn, p.modeAuthEnc]) (d : Word) :
    getField p.cfgMode (setField p.cfgMode d (BitVec.ofNat 32 m)) = BitVec.ofNat 32 m := by
  have hfits := valid_cfgMode_fits hp
  have hw : p.cfgMode.width ≤ 32 := by
    simp only [Field.fits, Bool.and_eq_true, decide_eq_true_eq] at hfits; omega
  rw [getField_setField _ hfits, ofNat_and_ones _ _ hw (valid_mode_lt hp hm)]

/-- The control field after a control write holds the code written (30_encoding.md R122). -/
theorem getField_control_setField (m : BitVec 3) (d : Word) :
    getField (controlField p) (setField (controlField p) d (m.setWidth 32)) = m.setWidth 32 := by
  rw [getField_setField _ (valid_repFields_fit hp).2]
  revert m
  change ∀ m : BitVec 3, m.setWidth 32 &&& ones 3 = m.setWidth 32
  decide

/-- A write of `present` keeps the control code (20_memory.md R78). -/
theorem getField_control_setField_present (d x : Word) :
    getField (controlField p) (setField (presentField p) d x) = getField (controlField p) d :=
  getField_setField_apart _ _ (valid_repFields_fit hp).1 (valid_repFields_fit hp).2 (valid_present_apart_control hp) _ _

/-- A write of the control code keeps `present` (20_memory.md R78). -/
theorem getField_present_setField_control (d x : Word) :
    getField (presentField p) (setField (controlField p) d x) = getField (presentField p) d :=
  getField_setField_apart _ _ (valid_repFields_fit hp).2 (valid_repFields_fit hp).1
    (Field.apart_comm.trans (valid_present_apart_control hp)) _ _

end

/-! ## Control codes of a feed (30_encoding.md R122) -/

theorem textMode_mem_writtenControls (p : Params) (n : Nat) : textMode p n ∈ p.writtenControls := by
  unfold textMode Params.writtenControls
  split <;> simp

/-- A feed never carries the complete-SHA-1 code. -/
theorem textMode_ne_completeSha1 {p : Params} (hp : p.valid = true) (n : Nat) : textMode p n ≠ p.ctrlCompleteSha1 := by
  have h := valid_controls_nodup hp
  simp only [Params.writtenControls, List.nodup_cons, List.mem_cons, not_or] at h
  obtain ⟨-, ⟨htext32, -⟩, ⟨htext24, htext16, htext8, hmo32, -⟩, -⟩ := h
  unfold textMode
  split
  · exact htext32
  · exact Ne.symm htext24
  · exact Ne.symm htext16
  · exact Ne.symm htext8
  · exact Ne.symm hmo32

/-- Every feed of a computation carries a text mode (44_repeater.md R202 to R206). -/
theorem expectedFeeds_textMode {p : Params} {ksvs : List Byte} {count : Nat} {topology : BitVec 16}
    {f : BitVec 3 × Word} (hf : f ∈ expectedFeeds p ksvs count topology) : ∃ n, f.1 = textMode p n := by
  obtain ⟨k, -, rfl⟩ := List.mem_map.1 hf
  simp only [expectedFeed]
  split_ifs
  exacts [⟨4, rfl⟩, ⟨_, rfl⟩, ⟨0, rfl⟩, ⟨_, rfl⟩, ⟨4, rfl⟩]

end Sys2Proof.Machine
end

section
/-! What reads of HDCP_CONFIG and HDCP_REP find (10_state.md R58). -/

namespace Sys2Proof.Machine

open Sys2Proof

/-- The read-back law, field by field (10_state.md R58, log 9). -/
theorem readBack_config {p : Params} (hp : p.valid = true) {c : Cipher} (hc : c.configWritten = true) (d : Word) :
    getField p.cfgMode (readBack p c .config d) = getField p.cfgMode c.config := by
  simp only [readBack, hc, if_true]
  exact getField_setField_getField (valid_cfgMode_fits hp) _ _

theorem readBack_rep {p : Params} (hp : p.valid = true) {c : Cipher} (hc : c.repWritten = true) (d : Word) :
    getField (presentField p) (readBack p c .rep d) = getField (presentField p) c.rep ∧
      getField (controlField p) (readBack p c .rep d) = getField (controlField p) c.rep := by
  obtain ⟨hpresent, hcontrol⟩ := valid_repFields_fit hp
  simp only [readBack, hc, if_true]
  exact ⟨by rw [getField_present_setField_control hp, getField_setField_getField hpresent],
    getField_setField_getField hcontrol _ _⟩

/-- The answer of an event in a run is the environment's, with the cipher as the writes before it left it. -/
theorem Answered.at {p : Params} {c : Cipher × Word} {env : Env} {es1 es2 : List Event} {e : Event}
    (h : Answered p c env (es1 ++ e :: es2)) :
    e.answeredBy p (es1.foldl (Event.applyTo p) c).1 (es1.foldl Env.taken env) := by
  induction es1 generalizing c env with
  | nil => exact h.1
  | cons a es1 ih => exact ih h.2

/-- Settles O18: the answers are the collaborators' (O17), whose reads of the two registers obey the law. -/
theorem readBackLaw : Obligations.ReadBackLaw := by
  intro i s t r es1 es2 reg v hp hready hs hrun
  obtain ⟨d, -, rfl⟩ := (answersAreTheCollaborators i s t r _ hready hs hrun).at
  refine ⟨?_, ?_⟩
  · rintro rfl hw
    exact readBack_config hp hw d
  · rintro rfl hw
    exact readBack_rep hp hw d

end Sys2Proof.Machine
end

section
/-! Every operation that no reset disturbs returns a result of its kind (10_state.md R47), whatever the local
buffers hold. -/

namespace Sys2Proof.Machine

open Sys2Proof

/-- From every state with no reset on its way, `x` ends normally with a result of the kind of operation `i`. -/
def Returning (i : Instr) (x : Op Result) : Prop :=
  ∀ s : State, s.undisturbed = true → Gives x s fun r _ _ => mayReturn i r = true

theorem returning_pure {i : Instr} {r : Result} (hr : mayReturn i r = true) : Returning i (pure r) :=
  fun _ hs => gives_pure hs r hr

theorem Answering.bind_returning {α : Type} {i : Instr} {x : Op α} {f : α → Op Result} (hx : Answering x)
    (hf : ∀ a, Returning i (f a)) : Returning i (x >>= f) :=
  fun s hs => (hx s hs).bind fun a _ t ht _ _ _ => hf a t ht

theorem Returning.get_bind {i : Instr} {f : State → Op Result} (hf : ∀ s, Returning i (f s)) :
    Returning i (get >>= f) :=
  fun s hs => Gives.get_bind (hf s s hs)

theorem Returning.ite {i : Instr} {c : Prop} [Decidable c] {x y : Op Result} (hx : c → Returning i x)
    (hy : ¬ c → Returning i y) : Returning i (if c then x else y) := by
  split
  · next h => exact hx h
  · next h => exact hy h

/-- An operation that returns what it makes of an answer. -/
theorem Answering.returning {α : Type} {i : Instr} {x : Op α} (hx : Answering x) {f : α → Result}
    (hf : ∀ a, mayReturn i (f a) = true) : Returning i (do return f (← x)) :=
  hx.bind_returning fun a => returning_pure (hf a)

theorem returning_rxReadCommand (sub : Byte) {size : BitVec 10} (hsize : size ≠ 0) :
    Returning (.rxRead sub size) (rxReadCommand sub size) := by
  refine Returning.ite (fun h => absurd h hsize) fun _ => Returning.ite (fun _ => returning_pure rfl) fun _ =>
    Answering.bind_returning (fun _ hs => (rxRead_gives hs sub size.toNat).forget) fun a => ?_
  cases a with
  | none => exact returning_pure rfl
  | some bytes => exact (answering_setArgs _).bind_returning fun _ => returning_pure rfl

theorem returning_rxWriteCommand (sub : Byte) {size : BitVec 10} (hsize : size ≠ 0) :
    Returning (.rxWrite sub size) (rxWriteCommand sub size) :=
  Returning.ite (fun h => absurd h hsize) fun _ => Returning.ite (fun _ => returning_pure rfl) fun _ =>
    Returning.get_bind fun _ => (answering_serialWrite _ _).bind_returning fun _ =>
      Returning.ite (fun _ => returning_pure rfl) fun _ =>
        (answering_raiseFailure _).bind_returning fun _ => returning_pure rfl

theorem returning_rxReadVPrimeCommand : Returning .rxReadVPrime rxReadVPrimeCommand := by
  refine answering_readVPrime.bind_returning fun a => ?_
  cases a with
  | none => exact returning_pure rfl
  | some v => exact (answering_setArgs _).bind_returning fun _ => returning_pure rfl

theorem returning_buildShaCommand : Returning .buildSha1Buffer buildShaCommand :=
  Returning.get_bind fun _ => (answering_buildShaBuffer _ _ _).bind_returning fun _ => Returning.get_bind fun _ =>
    (answering_setArgs _).bind_returning fun _ => returning_pure rfl

/-- Every well-formed operation is one `runOperation` of a micro-program that returns a result of its kind. -/
theorem exec_returning (i : Instr) (hi : i.wf = true) :
    ∃ w body, Returning i body ∧ ∀ s, exec i s = runOperation i w body s := by
  cases i with
  | hdcpQuery => exact ⟨_, _, Returning.get_bind fun _ => returning_pure rfl, fun _ => rfl⟩
  | hdcpIsEnabled => exact ⟨_, _, answering_isEnabled.returning fun _ => rfl, fun _ => rfl⟩
  | hdcpEnable on =>
    exact ⟨_, _, Answering.returning (fun _ hs => (enableHdcp_gives hs on).forget) fun _ => rfl, fun _ => rfl⟩
  | hdcpGetCpData => exact ⟨_, _, answering_getCpData.returning fun _ => rfl, fun _ => rfl⟩
  | hdcpSetCpData => exact ⟨_, _, answering_setCpData.returning fun _ => rfl, fun _ => rfl⟩
  | hdcpIsValidBksv => exact ⟨_, _, Returning.get_bind fun _ => returning_pure rfl, fun _ => rfl⟩
  | setEncryptionLevel on => exact ⟨_, _, (answering_encryptionLevel on).returning fun _ => rfl, fun _ => rfl⟩
  | activateRepeater =>
    exact ⟨_, _, Returning.get_bind fun _ => (answering_activate _).returning fun _ => rfl, fun _ => rfl⟩
  | buildSha1Buffer => exact ⟨_, _, returning_buildShaCommand, fun _ => rfl⟩
  | computeTransmitterV =>
    exact ⟨_, _, Returning.get_bind fun _ => (answering_computeV _ _ _).returning fun _ => rfl, fun _ => rfl⟩
  | compareVPrime =>
    exact ⟨_, _, Returning.get_bind fun _ => (answering_compareV _).returning fun _ => rfl, fun _ => rfl⟩
  | getLinkStatus => exact ⟨_, _, answering_linkStatus.returning fun _ => rfl, fun _ => rfl⟩
  | isRevoked => exact ⟨_, _, Returning.get_bind fun _ => returning_pure rfl, fun _ => rfl⟩
  | rxRead sub size => exact ⟨_, _, returning_rxReadCommand sub (by simpa [Instr.wf] using hi), fun _ => rfl⟩
  | rxWrite sub size => exact ⟨_, _, returning_rxWriteCommand sub (by simpa [Instr.wf] using hi), fun _ => rfl⟩
  | rxReadVPrime => exact ⟨_, _, returning_rxReadVPrimeCommand, fun _ => rfl⟩
  | setRepeaterPresent on => exact ⟨_, _, (answering_writeRepeaterPresent on).returning fun _ => rfl, fun _ => rfl⟩
  | repeaterTeardown => exact ⟨_, _, answering_teardown.bind_returning fun _ => returning_pure rfl, fun _ => rfl⟩

/-- Settles O15: the micro-program of a well-formed operation runs to a result of the operation's kind. -/
theorem operationsReturnTheirResult : Obligations.OperationsReturnTheirResult := by
  intro i s hi hready hs
  obtain ⟨w, body, hbody, he⟩ := exec_returning i hi
  obtain ⟨t, r, es, u, hrun, -, -, hr⟩ := runs_of_gives (he s) hready (hbody (s.start i) hs)
  exact ⟨t, r, es, hrun, hr⟩

end Sys2Proof.Machine
end

section
/-! The accesses the block's own sequences make (10_state.md R51, R60; 30_encoding.md R110, R122, R126;
42_receiver_io.md R170, R174): each grammar of Sys2Proof/Safety.lean describes only such accesses. -/

namespace Sys2Proof.Machine

open Sys2Proof

/-! ## Own accesses, and writes of HDCP_REP behind their reads -/

/-- A write of HDCP_REP. -/
def Event.isRepWrite : Event → Bool
  | .cipherWrite .rep _ => true
  | _ => false

/-- A write of `v` to HDCP_REP right after a read of `d` keeps the control code or carries one of the six codes the
block writes (30_encoding.md R122, R126). -/
def RepWriteAllowed (p : Params) (d v : Word) : Prop :=
  getField (controlField p) v = getField (controlField p) d ∨
    ∃ m ∈ p.writtenControls, m ≠ p.ctrlIdle ∧ m ≠ 3 ∧ getField (controlField p) v = m.setWidth 32

/-- The cipher registers the block reads (10_state.md R51). -/
def ownReads : List CipherReg := [.config, .status, .rep, .aksvLo, .aksvHi, .anLow, .anHi]

/-- The events are the block's own accesses, and none writes HDCP_REP. -/
def PlainTrace (p : Params) (es : List Event) : Prop := ∀ e ∈ es, e.own p = true ∧ e.isRepWrite = false

/-- The events are the block's own accesses, and each write of HDCP_REP stands right behind a read and is allowed. -/
inductive OwnTrace (p : Params) : List Event → Prop where
  | nil : OwnTrace p []
  | event {e : Event} {es : List Event} : e.own p = true → e.isRepWrite = false → OwnTrace p es → OwnTrace p (e :: es)
  | repWrite {d v : Word} {es : List Event} : RepWriteAllowed p d v → OwnTrace p es →
      OwnTrace p (.cipherRead .rep d :: .cipherWrite .rep v :: es)

section

variable {p : Params} {es es' : List Event}

@[simp] theorem plainTrace_nil : PlainTrace p [] := by simp [PlainTrace]

@[simp] theorem plainTrace_cons {e : Event} :
    PlainTrace p (e :: es) ↔ (e.own p = true ∧ e.isRepWrite = false) ∧ PlainTrace p es :=
  List.forall_mem_cons

@[simp] theorem plainTrace_append : PlainTrace p (es ++ es') ↔ PlainTrace p es ∧ PlainTrace p es' :=
  List.forall_mem_append

/-- Reads of a register the block reads. -/
theorem plainTrace_reads {r : CipherReg} (hr : ownReads.contains r = true)
    (vs : List Word) : PlainTrace p (vs.map (Event.cipherRead r)) := by
  intro e he
  obtain ⟨v, -, rfl⟩ := List.mem_map.1 he
  exact ⟨hr, rfl⟩

theorem PlainTrace.own (h : PlainTrace p es) : OwnTrace p es := by
  induction es with
  | nil => exact .nil
  | cons e es ih =>
    obtain ⟨⟨hown, hrep⟩, hes⟩ := plainTrace_cons.1 h
    exact .event hown hrep (ih hes)

theorem OwnTrace.append (h : OwnTrace p es) (h' : OwnTrace p es') : OwnTrace p (es ++ es') := by
  induction h with
  | nil => exact h'
  | event hown hrep _ ih => exact .event hown hrep ih
  | repWrite hd _ ih => exact .repWrite hd ih

theorem OwnTrace.own (h : OwnTrace p es) : ∀ e ∈ es, e.own p = true := by
  induction h with
  | nil => simp
  | event hown _ _ ih => exact List.forall_mem_cons.2 ⟨hown, ih⟩
  | repWrite _ _ ih => exact List.forall_mem_cons.2 ⟨rfl, List.forall_mem_cons.2 ⟨rfl, ih⟩⟩

/-- A write of HDCP_REP stands right behind a read. -/
theorem OwnTrace.behindRead (h : OwnTrace p es) {es1 es2 : List Event} {v : Word}
    (heq : es = es1 ++ .cipherWrite .rep v :: es2) :
    ∃ es0 d, es1 = es0 ++ [.cipherRead .rep d] ∧ RepWriteAllowed p d v := by
  induction h generalizing es1 with
  | nil => simp at heq
  | event _ hrep _ ih =>
    cases es1 with
    | nil =>
      injection heq with he
      rw [he] at hrep
      cases hrep
    | cons a es1 =>
      injection heq with _ htail
      obtain ⟨es0, d, rfl, hd⟩ := ih htail
      exact ⟨a :: es0, d, rfl, hd⟩
  | @repWrite d w es' hd _ ih =>
    match es1, heq with
    | [a], heq =>
      injection heq with ha htail
      injection htail with hw
      injection hw with _ hw
      exact ⟨[], d, by rw [ha]; rfl, hw ▸ hd⟩
    | a :: b :: es1, heq =>
      injection heq with _ htail
      injection htail with _ htail
      obtain ⟨es0, d', rfl, hd'⟩ := ih htail
      exact ⟨a :: b :: es0, d', rfl, hd'⟩

/-- A read of the block's own sequences stays inside one region of the receiver's map (42_receiver_io.md R170). -/
theorem ownSerialRead_within {sub : Byte} {size : Nat} (h : ownSerialRead sub size = true) :
    ¬ CrossesRegions sub size := by
  simp only [ownSerialRead, Bool.or_eq_true, Bool.and_eq_true, beq_iff_eq] at h
  obtain ((((⟨rfl, rfl⟩ | ⟨rfl, rfl⟩) | ⟨rfl, rfl⟩) | ⟨rfl, rfl⟩) | ⟨hsub, rfl⟩) | ⟨⟨⟨rfl, -⟩, -⟩, -⟩ := h
  case inr => exact fun hcross => hcross.1 rfl
  case inl.inr =>
    rw [← crossesRegions_iff sub (by decide)]
    have hall : ∀ b ∈ vprimeSubs, crossesRegions b 4 ≠ true := by decide
    exact hall sub (by simpa using hsub)
  all_goals
    rw [← crossesRegions_iff _ (by decide)]
    decide

/-- An own access is a permitted one. -/
theorem Event.permitted_of_own {e : Event} (h : e.own p = true) : e.Permitted := by
  cases e with
  | cipherRead r v | cipherWrite r v =>
    refine ⟨?_, ?_, ?_⟩ <;> rintro rfl <;> simp [Event.own] at h
  | serialRead sub size a => exact ownSerialRead_within h
  | serialWrite sub payload ok =>
    simp only [Event.own, Bool.or_eq_true, Bool.and_eq_true, beq_iff_eq] at h
    intro hw
    obtain ⟨rfl, hlen⟩ | ⟨rfl, hlen⟩ := h <;> rw [hlen, ← touches_ainfo_iff _ (by decide)] at hw <;>
      exact absurd hw (by decide)
  | portRead | portWrite | random | delayUs | vblank | raised => trivial

end

/-! ## The shapes accesses are made of -/

/-- A shorter value leaves the upper bits of its word 0. -/
theorem setWidth_toNat_lt {n : Nat} (x : BitVec n) (hn : n ≤ 32) : (x.setWidth 32).toNat < 2 ^ n := by
  rw [BitVec.toNat_setWidth_of_le hn]
  exact x.isLt

section

variable {p : Params} {es : List Event}

theorem PollHit.plain {r : CipherReg} {test : Word → Bool} (h : PollHit r test es)
    (hr : ownReads.contains r = true) : PlainTrace p es := by
  obtain ⟨vs, v, -, -, -, rfl⟩ := h
  exact plainTrace_append.2 ⟨plainTrace_reads hr vs, plainTrace_reads hr [v]⟩

theorem PollMiss.plain {r : CipherReg} {test : Word → Bool} (h : PollMiss r test es)
    (hr : ownReads.contains r = true) : PlainTrace p es := by
  obtain ⟨vs, -, -, rfl⟩ := h
  exact plainTrace_reads hr vs

@[simp] theorem plainTrace_portWrites (b : Bool) (d : Word) : PlainTrace p (portWrites p b d) := by
  simp [portWrites, Event.own, Event.isRepWrite]

@[simp] theorem plainTrace_riComparison (b0 b1 : Byte) (v : Word) : PlainTrace p (riComparison b0 b1 v) := by
  simpa [riComparison, Event.own, Event.isRepWrite, ownSerialRead] using setWidth_toNat_lt (b1 ++ b0) (by decide)

/-- The writes of Bksv into the cipher (41_controller.md R151). -/
def bksvWrites (k : Ksv) : List Event :=
  [.cipherWrite .bksvLo (k.b3 ++ k.b2 ++ k.b1 ++ k.b0), .cipherWrite .bksvHi (k.b4.setWidth 32)]

@[simp] theorem plainTrace_bksvWrites (k : Ksv) : PlainTrace p (bksvWrites k) := by
  simpa [bksvWrites, Event.own, Event.isRepWrite] using setWidth_toNat_lt k.b4 (by decide)

@[simp] theorem plainTrace_vprimeWrites (v : VWords) : PlainTrace p (vprimeWrites v) := by
  simp [vprimeWrites, Event.own, Event.isRepWrite]

@[simp] theorem plainTrace_queryEvents (q : Option Byte) : PlainTrace p (queryEvents q) := by
  cases q <;> simp [queryEvents, Event.own, Event.isRepWrite, ownSerialRead]

theorem ownTrace_raised (f : Failure) : OwnTrace p [.raised f] := .event rfl rfl .nil

theorem LinkTrace.own {n : Nat} {r r' : Session} {ok : Bool} (h : LinkTrace p n r es ok r') : OwnTrace p es := by
  induction h with
  | broken => exact .nil
  | fails => exact .event rfl rfl (ownTrace_raised _)
  | intact n r b0 b1 v => exact (plainTrace_riComparison b0 b1 v).own
  | mismatch n r r' b0 b1 v ws es ok hv hw _ ih =>
    obtain ⟨vs, rfl, -⟩ := hw
    exact ((plainTrace_riComparison b0 b1 v).own.append (plainTrace_reads rfl vs).own).append ih

theorem BlocksTrace.own {subs : List Byte} {ws : Option (List Word)} (h : BlocksTrace subs es ws)
    (hsubs : ∀ sub ∈ subs, sub ∈ vprimeSubs) : OwnTrace p es := by
  have hread : ∀ sub ∈ vprimeSubs, ownSerialRead sub 4 = true := by decide
  induction h with
  | done => exact .nil
  | fails sub subs =>
    exact .event (hread sub (hsubs sub (by simp))) rfl ((ownTrace_raised _).append (ownTrace_raised _))
  | block sub b0 b1 b2 b3 subs es ws _ ih =>
    obtain ⟨hsub, hrest⟩ := List.forall_mem_cons.1 hsubs
    exact .event (hread sub hsub) rfl (ih hrest)

theorem VPrimeTrace.own {v : Option VWords} (h : VPrimeTrace es v) : OwnTrace p es := by
  obtain ⟨ws, hblocks, -⟩ := h
  exact hblocks.own fun _ hsub => hsub

/-- An accepted topology has at most 127 devices (44_repeater.md R193). -/
theorem deviceCount_le_of_accepted {b : BStatus} (h : topologyViolation b = none) : b.deviceCount ≤ 127 := by
  unfold topologyViolation at h
  split_ifs at h with _ _ hcount
  exact Nat.not_lt.1 hcount

/-- The read of the KSV list of 1 to 127 devices is an own one (42_receiver_io.md R174). -/
theorem ownTrace_ksvFifoRead {n : Nat} (h0 : n ≠ 0) (h127 : n ≤ 127) (a : Option (List Byte)) :
    OwnTrace p [.serialRead 0x43 (5 * n) a] := by
  refine .event ?_ rfl .nil
  have hsize : 5 ≤ 5 * n ∧ 5 * n ≤ 635 := by omega
  simp only [Event.own, ownSerialRead, Bool.or_eq_true]
  exact .inr (by simpa using hsize)

end

/-! ## The micro-programs -/

section

variable {p : Params} (hp : p.valid = true) {es : List Event}
include hp

theorem plainTrace_modeWrite {m : Nat} (hm : m ∈ [p.modeOff, p.modeCaptureAn, p.modeAuthEnc]) (d : Word) :
    PlainTrace p (modeWrite p m d) := by
  have hcode : BitVec.ofNat 32 m ∈ [p.modeOff, p.modeCaptureAn, p.modeAuthEnc].map (BitVec.ofNat 32) :=
    List.mem_map_of_mem hm
  simpa [modeWrite, fieldWrite, Event.own, getField_cfgMode_setField hp hm, Event.isRepWrite] using hcode

theorem DisableTrace.plain {ok : Bool} {c : CtlState} (h : DisableTrace p es ok c) : PlainTrace p es := by
  have hmode := plainTrace_modeWrite hp (m := p.modeOff) (by simp)
  cases h <;> simp [hmode, disableCheck, disableEnd, Event.own, Event.isRepWrite]

theorem ownTrace_presentWrite (on : Bool) (d v : Word) : OwnTrace p (presentWrite p on d v) :=
  .repWrite (.inl (getField_control_setField_present hp _ _)) (.event rfl rfl .nil)

theorem ownTrace_controlWrite {m : BitVec 3} (hm : m ∈ p.writtenControls) (d : Word) :
    OwnTrace p (fieldWrite .rep (controlField p) (m.setWidth 32) d) := by
  obtain ⟨hidle, hthree⟩ := valid_writtenControl hp hm
  exact .repWrite (.inr ⟨m, hm, hidle, hthree, getField_control_setField hp _ _⟩) .nil

theorem plainTrace_anSeeds (seed0 seed1 d : Word) : PlainTrace p (anSeeds p seed0 seed1 d) := by
  simp [anSeeds, plainTrace_modeWrite hp (m := p.modeCaptureAn), Event.own, Event.isRepWrite]

theorem KeyTrace.plain {r r' : Session} (h : KeyTrace p r es r') : PlainTrace p es := by
  obtain ⟨seed0, seed1, d, lo, hi, alo, ahi, ps, hps⟩ := h
  simp [plainTrace_anSeeds hp, hps.plain (p := p) rfl, Event.own, Event.isRepWrite]

theorem ExchangeTrace.plain {r r' : Session} {k : Ksv} (h : ExchangeTrace p r k es r') : PlainTrace p es := by
  obtain ⟨es, r', hkey⟩ := h
  simp [hkey.plain hp, sendAn, sendAksv, bksvRead, Event.own, Event.isRepWrite, ownSerialRead]

theorem StartTrace.own {r r' : Session} (h : StartTrace p r es r') : OwnTrace p es := by
  obtain ⟨k, b, d, v, u, m, es, r', hex, -⟩ := h
  have hload : PlainTrace p (bksvWrites k ++ portWrites p true u ++ modeWrite p p.modeAuthEnc m) := by
    simp [plainTrace_modeWrite hp (m := p.modeAuthEnc)]
  have hpresent : OwnTrace p (if (bcaps p b).isRepeater then presentWrite p true d v else []) := by
    split
    · exact ownTrace_presentWrite hp true d v
    · exact .nil
  have hread : OwnTrace p [.serialRead 0x40 1 (some [b])] := .event rfl rfl .nil
  simpa [loadEvents, bksvWrites] using (hex.plain hp).own.append ((hread.append hpresent).append hload.own)

theorem EnableTrace.own {r r' : Session} {ok : Bool} {c : CtlState} (h : EnableTrace p r es ok c r') :
    OwnTrace p es := by
  cases h with
  | captureTimeout seed0 seed1 d d' ps hps =>
    refine PlainTrace.own ?_
    have hmode := plainTrace_modeWrite hp (m := p.modeOff) (by simp)
    simp [plainTrace_anSeeds hp, hps.plain (p := p) rfl, hmode, Event.own, Event.isRepWrite]
  | anFails es r' hkey | aksvFails es r' hkey | bksvFails es r' hkey =>
    refine PlainTrace.own ?_
    simp [hkey.plain hp, sendAn, sendAksv, Event.own, Event.isRepWrite, ownSerialRead]
  | badBksv k es r' hex | bcapsFails k es r' hex =>
    refine PlainTrace.own ?_
    simp [hex.plain hp, Event.own, Event.isRepWrite, ownSerialRead]
  | riTimeout es ps r' hstart hps =>
    exact (hstart.own hp |>.append (hps.plain rfl).own).append (ownTrace_raised _)
  | riFails es ps r' hstart hps =>
    refine (hstart.own hp |>.append (hps.plain rfl).own).append (PlainTrace.own ?_)
    simp [Event.own, Event.isRepWrite, ownSerialRead]
  | mismatch es ps r' b0 b1 v hstart hps | encrypting es ps r' b0 b1 v hstart hps =>
    exact (hstart.own hp |>.append (hps.plain rfl).own).append (plainTrace_riComparison b0 b1 v).own

theorem LevelTrace.own {r r' : Session} {on ok : Bool} {c : CtlState} (h : LevelTrace p r on es ok c r') :
    OwnTrace p es := by
  cases h with
  | disable _ _ _ h => exact (h.plain hp).own
  | enable _ _ _ _ h => exact h.own hp

theorem FeedsTrace.own {fs : List (BitVec 3 × Word)} {ok : Bool} (h : FeedsTrace p fs es ok)
    (hfs : ∀ f ∈ fs, f.1 ∈ p.writtenControls) : OwnTrace p es := by
  induction h with
  | done => exact .nil
  | feed f fs es es' ok hf _ ih =>
    obtain ⟨d, ps, hps, rfl⟩ := hf
    obtain ⟨hmode, hrest⟩ := List.forall_mem_cons.1 hfs
    exact (((ownTrace_controlWrite hp hmode d).append (hps.plain rfl).own).append (.event rfl rfl .nil)).append
      (ih hrest)
  | timeout f fs es hf =>
    obtain ⟨d, ps, hps, rfl⟩ := hf
    exact ((ownTrace_controlWrite hp (hfs f (by simp)) d).append (hps.plain rfl).own).append (ownTrace_raised _)

/-- The feeds of a computation are the block's own accesses: every control code is a text mode. -/
theorem ownTrace_expectedFeeds {ksvs : List Byte} {count : Nat} {topology : BitVec 16} {ok : Bool}
    (h : FeedsTrace p (expectedFeeds p ksvs count topology) es ok) : OwnTrace p es := by
  refine h.own hp fun f hf => ?_
  obtain ⟨n, hn⟩ := expectedFeeds_textMode hf
  exact hn ▸ textMode_mem_writtenControls p n

theorem CompareStart.own {v : VWords} (h : CompareStart p v es) : OwnTrace p es := by
  obtain ⟨d, ps, hps, rfl⟩ := h
  exact ((plainTrace_vprimeWrites v).own.append (hps.plain rfl).own).append
    (ownTrace_controlWrite hp (by simp [Params.writtenControls]) d)

theorem CompareTrace.own {v : VWords} {ok : Bool} (h : CompareTrace p v es ok) : OwnTrace p es := by
  cases h with
  | notReady ps hps => exact ((plainTrace_vprimeWrites v).own.append (hps.plain rfl).own).append (ownTrace_raised _)
  | ends es vs x hstart =>
    exact ((hstart.own hp).append (plainTrace_reads rfl vs).own).append (plainTrace_reads rfl [x]).own
  | timeout es vs hstart => exact ((hstart.own hp).append (plainTrace_reads rfl vs).own).append (ownTrace_raised _)

theorem ownTrace_teardownEvents (d m : Word) : OwnTrace p (teardownEvents p d m) :=
  OwnTrace.append (.repWrite (.inl (getField_control_setField_present hp _ _)) .nil)
    (plainTrace_modeWrite hp (by simp) m).own

theorem ownTrace_failEvents (revoked : Bool) (d m : Word) : OwnTrace p (failEvents p revoked d m) := by
  refine (ownTrace_teardownEvents hp d m).append ?_
  split
  · exact ownTrace_raised _
  · exact .nil

theorem VerifyTrace.own {r r' : Session} {bytes : List Byte} {n : Nat} {topology : BitVec 16} {revoked torn : Bool}
    {st : Status} (h : VerifyTrace p r bytes n topology revoked es st torn r') : OwnTrace p es := by
  cases h with
  | vFails es d m hfeeds => exact (ownTrace_expectedFeeds hp hfeeds).append (ownTrace_failEvents hp revoked d m)
  | vprimeFails es es' d m hfeeds hv =>
    exact ((ownTrace_expectedFeeds hp hfeeds).append hv.own).append (ownTrace_failEvents hp revoked d m)
  | rejected es es' es'' v same d m hfeeds hv hcompare =>
    exact (((ownTrace_expectedFeeds hp hfeeds).append hv.own).append (hcompare.own hp)).append
      (ownTrace_failEvents hp revoked d m)
  | verified es es' es'' v hfeeds hv hcompare =>
    exact ((ownTrace_expectedFeeds hp hfeeds).append hv.own).append (hcompare.own hp)

theorem ActivateTrace.own {rs : List Ksv} {r r' : Session} {st : Status} {torn : Bool}
    (h : ActivateTrace p rs r es st torn r') : OwnTrace p es := by
  have hreads (b t0 t1 : Byte) : OwnTrace p (topologyReads b t0 t1) := .event rfl rfl (.event rfl rfl .nil)
  cases h with
  | bcapsFails => exact .event rfl rfl (ownTrace_raised _)
  | noRepeater | notReady => exact .event rfl rfl .nil
  | bstatusFails => exact .event rfl rfl (.event rfl rfl (ownTrace_raised _))
  | badTopology b t0 t1 => exact (hreads b t0 t1).append (ownTrace_raised _)
  | noDevices b t0 t1 => exact hreads b t0 t1
  | presentFails b t0 t1 d v => exact (hreads b t0 t1).append (ownTrace_presentWrite hp true d v)
  | fifoFails b t0 t1 d v d' m n _ hok hn h0 =>
    have hread := ownTrace_ksvFifoRead (p := p) h0 (hn ▸ deviceCount_le_of_accepted hok)
    exact (((hreads b t0 t1).append (ownTrace_presentWrite hp true d v)).append (hread none)).append
      (ownTrace_teardownEvents hp d' m) |>.append (ownTrace_raised _)
  | listRead b t0 t1 d v n bytes es st torn r' _ hok hn h0 _ _ hverify =>
    have hread := ownTrace_ksvFifoRead (p := p) h0 (hn ▸ deviceCount_le_of_accepted hok)
    exact (((hreads b t0 t1).append (ownTrace_presentWrite hp true d v)).append (hread (some bytes))).append
      (hverify.own hp)

theorem GetTrace.own {c c' : CtlState} {r r' : Session} {st : Status} {level : Word} {q : Option Byte}
    (h : GetTrace p c r es st level q c' r') : OwnTrace p es := by
  cases h with
  | off v => exact .event rfl rfl (plainTrace_queryEvents q).own
  | on v es q r' _ hlink => exact .event rfl rfl (hlink.own.append (plainTrace_queryEvents q).own)
  | broken v es es' q r' ok c' _ hlink hdisable =>
    exact .event rfl rfl ((hlink.own.append (hdisable.plain hp).own).append (plainTrace_queryEvents q).own)

theorem ActionTrace.own {params : CpParams} {rs : List Ksv} {c c' : CtlState} {r r' : Session} {st : Status}
    (h : ActionTrace p params rs c r es st c' r') : OwnTrace p es := by
  cases h with
  | verify _ _ _ _ hactivate => exact hactivate.own hp
  | level _ _ _ _ hlevel => exact hlevel.own hp

theorem SetTrace.own {params : CpParams} {rs : List Ksv} {c c' : CtlState} {r r' : Session} {st : Status}
    {level : Word} {q : Option Byte} (h : SetTrace p params rs c r es st level q c' r') : OwnTrace p es := by
  cases h with
  | done q es c' r' haction => exact (plainTrace_queryEvents q).own.append (haction.own hp)
  | netted q es es' st ok c' c'' r' haction _ hdisable =>
    exact ((plainTrace_queryEvents q).own.append (haction.own hp)).append (hdisable.plain hp).own

end

/-! ## Every operation -/

/-- The block's own sequences make only own accesses: every operation but RX_READ and RX_WRITE. -/
theorem OperationLaw.own {i : Instr} {s : State} (hp : s.prm.valid = true) {r : Result} {es : List Event} {u : Regs}
    (h : OperationLaw s r es u i) (hi : ∀ sub size, i ≠ .rxRead sub size ∧ i ≠ .rxWrite sub size) :
    OwnTrace s.prm es := by
  cases i with
  | hdcpQuery | hdcpIsValidBksv | isRevoked =>
    obtain ⟨rfl, -⟩ := h
    exact .nil
  | hdcpIsEnabled =>
    obtain ⟨rfl | ⟨v, rfl⟩, -⟩ := h
    · exact .nil
    · exact .event rfl rfl .nil
  | hdcpEnable on | setEncryptionLevel on =>
    obtain ⟨ok, -, ⟨-, -, rfl, -⟩ | ⟨-, hlevel, -⟩⟩ := h
    · exact .nil
    · exact hlevel.own hp
  | hdcpGetCpData =>
    obtain ⟨-, -, rfl, -⟩ | ⟨-, st, level, q, -, htrace, -⟩ := h
    · exact .nil
    · exact htrace.own hp
  | hdcpSetCpData =>
    obtain ⟨-, -, rfl, -⟩ | ⟨-, st, level, q, rs, -, -, htrace, -⟩ := h
    · exact .nil
    · exact htrace.own hp
  | activateRepeater =>
    obtain ⟨st, torn, -, htrace, -⟩ := h
    exact htrace.own hp
  | buildSha1Buffer =>
    obtain ⟨-, rfl, -⟩ := h
    exact .nil
  | computeTransmitterV =>
    obtain ⟨ok, ksvs, -, -, hfeeds, -⟩ := h
    exact ownTrace_expectedFeeds hp hfeeds
  | compareVPrime =>
    obtain ⟨ok, -, htrace, -⟩ := h
    exact htrace.own hp
  | getLinkStatus =>
    obtain ⟨ok, -, htrace, -⟩ := h
    exact htrace.own
  | rxRead sub size => exact absurd rfl (hi sub size).1
  | rxWrite sub size => exact absurd rfl (hi sub size).2
  | rxReadVPrime =>
    obtain ⟨v, -, htrace, -⟩ := h
    exact htrace.own
  | setRepeaterPresent on =>
    obtain ⟨d, v, -, rfl, -⟩ := h
    exact ownTrace_presentWrite hp on d v
  | repeaterTeardown =>
    obtain ⟨d, m, -, rfl, -⟩ := h
    exact ownTrace_teardownEvents hp d m

/-- RX_READ and RX_WRITE make permitted accesses, and none is a write of a cipher register (10_state.md R60,
42_receiver_io.md R170). -/
theorem OperationLaw.permitted_of_transaction {i : Instr} {s : State} {r : Result} {es : List Event} {u : Regs}
    (h : OperationLaw s r es u i) {sub : Byte} {size : BitVec 10} (hi : i = .rxRead sub size ∨ i = .rxWrite sub size) :
    ∀ e ∈ es, e.Permitted ∧ e.isRepWrite = false := by
  obtain rfl | rfl := hi
  · obtain ⟨rfl | ⟨-, hcross, rfl | ⟨bytes, rfl⟩⟩, -⟩ := h <;> simp [Event.Permitted, Event.isRepWrite, *]
  · obtain ⟨rfl | ⟨-, hainfo, payload, hlen, rfl | rfl⟩, -⟩ := h <;>
      simp [Event.Permitted, Event.isRepWrite, *]

/-- Settles O21: an abandoned run is the first part of a whole one (`exec_firstPart`), whose accesses are the block's
own. -/
theorem accessesAreTheBlocksOwn : Obligations.AccessesAreTheBlocksOwn := by
  intro i s t es hinv hready hexec htr
  obtain ⟨v, r, es', rest, hrun, htr', -⟩ := exec_firstPart hready hexec
  obtain rfl : es = es' := List.reverse_injective (List.append_cancel_right (htr.symm.trans htr'))
  obtain ⟨hlaw, -⟩ := hrun.law hinv.ksvbuf.1 hinv.shabuf.1 hready rfl
  by_cases hi : ∀ sub size, i ≠ .rxRead sub size ∧ i ≠ .rxWrite sub size
  · have hown := hlaw.own hinv.params hi
    have hmem : ∀ e ∈ es, e.own s.prm = true := fun e he => hown.own e (List.mem_append_left _ he)
    exact ⟨fun e he => Event.permitted_of_own (hmem e he), fun _ => hmem,
      fun es1 v es2 heq => hown.behindRead (es2 := es2 ++ rest) (by simp [heq])⟩
  · have hmem (e : Event) (he : e ∈ es) : e.Permitted ∧ e.isRepWrite = false := by
      push Not at hi
      obtain ⟨sub, size, hi⟩ := hi
      exact hlaw.permitted_of_transaction (or_iff_not_imp_left.2 hi) e (List.mem_append_left _ he)
    refine ⟨fun e he => (hmem e he).1, fun h => absurd h hi, ?_⟩
    rintro es1 v es2 rfl
    obtain ⟨-, hno⟩ := hmem (.cipherWrite .rep v) (by simp)
    cases hno

end Sys2Proof.Machine
end

section
/-! What each operation makes of `s.ctl_state` (10_state.md R34), read off the grammar of its run. -/

namespace Sys2Proof.Machine

open Sys2Proof

/-- `s.ctl_state` after either sequence of HDCP_ENABLE, by its direction and its result (41_controller.md R144,
R145). -/
def levelCtl : Bool → Bool → CtlState
  | true, true => .encrypting
  | true, false => .off
  | false, true => .off
  | false, false => .disabling

section

variable {p : Params} {es : List Event}

theorem DisableTrace.ctlState_eq {ok : Bool} {c : CtlState} (h : DisableTrace p es ok c) : c = levelCtl false ok := by
  cases h <;> rfl

theorem EnableTrace.ctlState_eq {r r' : Session} {ok : Bool} {c : CtlState} (h : EnableTrace p r es ok c r') :
    c = levelCtl true ok := by
  cases h <;> rfl

theorem LevelTrace.ctlState_eq {r r' : Session} {on ok : Bool} {c : CtlState} (h : LevelTrace p r on es ok c r') :
    c = levelCtl on ok := by
  cases h with
  | disable _ _ _ h => exact h.ctlState_eq
  | enable _ _ _ _ h => exact h.ctlState_eq

/-- A disable ends `Off` or, where it timed out, `Disabling` (41_controller.md R144). -/
theorem DisableTrace.off_or_disabling {ok : Bool} {c : CtlState} (h : DisableTrace p es ok c) :
    c = .off ∨ c = .disabling := by
  obtain rfl := h.ctlState_eq
  cases ok
  · exact .inr rfl
  · exact .inl rfl

theorem failStatus_ne_success (revoked : Bool) : failStatus revoked ≠ .success := by
  cases revoked <;> decide

/-- A verification that tore down did not succeed (44_repeater.md R211, R212). -/
theorem ActivateTrace.not_success_of_torn {rs : List Ksv} {r r' : Session} {st : Status} {torn : Bool}
    (h : ActivateTrace p rs r es st torn r') (htorn : torn = true) : st ≠ .success := by
  cases h with
  | fifoFails => decide
  | listRead _ _ _ _ _ _ _ _ _ _ _ _ _ _ _ _ _ hverify =>
    cases hverify with
    | vFails | vprimeFails | rejected => exact failStatus_ne_success _
    | verified => cases htorn
  | _ => cases htorn

/-- After HDCP_GET_CP_DATA behind its gate only the disable of a broken link has changed the state
(46_cp_params.md R240). -/
theorem GetTrace.ctlState_eq {c c' : CtlState} {r r' : Session} {st : Status} {level : Word} {q : Option Byte}
    (h : GetTrace p c r es st level q c' r') :
    if st = .unsuccessful then c' = .off ∨ c' = .disabling else c' = c := by
  cases h with
  | off | on => cases q <;> rfl
  | broken _ _ _ _ _ _ _ _ _ hdisable => exact hdisable.off_or_disabling

/-- After a successful action of HDCP_SET_CP_DATA: a verification changes nothing, a level is reached
(46_cp_params.md R241). -/
theorem ActionTrace.ctlState_of_success {params : CpParams} {rs : List Ksv} {c c' : CtlState} {r r' : Session}
    (h : ActionTrace p params rs c r es .success c' r') :
    c' = if params.performSecondStep ≠ 0 then c else if params.level = p.cpLevelOn then .encrypting else .off := by
  generalize hst : Status.success = st at h
  cases h with
  | verify _ torn _ hstep hactivate =>
    cases torn with
    | true => exact absurd hst.symm (hactivate.not_success_of_torn rfl)
    | false => rw [if_pos hstep]; rfl
  | level ok _ _ hstep hlevel =>
    cases ok with
    | false => cases hst
    | true =>
      rw [if_neg (not_not.2 hstep), hlevel.ctlState_eq]
      split_ifs with hon <;> simp [hon, levelCtl]

/-- After HDCP_SET_CP_DATA behind its gate: as its action left it, or as the safety net's disable did
(46_cp_params.md R241, R242). -/
theorem SetTrace.ctlState_eq {params : CpParams} {rs : List Ksv} {c c' : CtlState} {r r' : Session} {st : Status}
    {level : Word} {q : Option Byte} (h : SetTrace p params rs c r es st level q c' r') :
    if st = .success then
      c' = if params.performSecondStep ≠ 0 then c else if params.level = p.cpLevelOn then .encrypting else .off
    else c' = .off ∨ c' = .disabling := by
  cases h with
  | done _ _ _ _ haction => exact haction.ctlState_of_success
  | netted _ _ _ _ _ _ _ _ _ hne hdisable =>
    rw [if_neg hne]
    exact hdisable.off_or_disabling

end

/-! ## Operations -/

/-- The operation may write `s.ctl_state` (10_state.md R34). -/
def writesCtl : Instr → Bool
  | .hdcpEnable _ | .setEncryptionLevel _ | .hdcpGetCpData | .hdcpSetCpData | .activateRepeater
  | .repeaterTeardown => true
  | .hdcpQuery | .hdcpIsEnabled | .hdcpIsValidBksv | .buildSha1Buffer | .computeTransmitterV | .compareVPrime
  | .getLinkStatus | .isRevoked | .rxRead _ _ | .rxWrite _ _ | .rxReadVPrime | .setRepeaterPresent _ => false

section

variable {s : State} {r : Result} {es : List Event} {u : Regs}

/-- Behind an open capability gate the result decides. -/
theorem LevelLaw.ctlState_eq {on ok : Bool} (h : LevelLaw s on ok es u) (hsup : s.hdcpSupported = true) :
    u.ctlState = levelCtl on ok := by
  obtain ⟨hno, -⟩ | ⟨-, hlevel, -⟩ := h
  · rw [hsup] at hno; cases hno
  · exact hlevel.ctlState_eq

/-- Behind a closed capability gate nothing changes (41_controller.md R143). -/
theorem LevelLaw.ctlState_of_unsupported {on ok : Bool} (h : LevelLaw s on ok es u) (hsup : s.hdcpSupported = false) :
    u.ctlState = s.ctlState := by
  obtain ⟨-, -, -, rfl⟩ | ⟨hyes, -⟩ := h
  · rfl
  · rw [hsup] at hyes; cases hyes

theorem OperationLaw.ctlState_of_not_writesCtl {i : Instr} (h : OperationLaw s r es u i)
    (hi : writesCtl i = false) : u.ctlState = s.ctlState := by
  have hframe : ∀ v : Regs, u = v → v.ctlState = s.ctlState → u.ctlState = s.ctlState := by
    rintro v rfl hv
    exact hv
  cases i with
  | hdcpEnable | setEncryptionLevel | hdcpGetCpData | hdcpSetCpData | activateRepeater | repeaterTeardown => cases hi
  | hdcpQuery | hdcpIsValidBksv | isRevoked | hdcpIsEnabled | rxRead | rxWrite =>
    obtain ⟨-, hu⟩ := h
    exact hframe _ hu rfl
  | buildSha1Buffer =>
    obtain ⟨-, -, hu⟩ := h
    exact hframe _ hu rfl
  | compareVPrime | getLinkStatus | rxReadVPrime =>
    obtain ⟨_, -, -, hu⟩ := h
    exact hframe _ hu rfl
  | computeTransmitterV =>
    obtain ⟨_, _, -, -, -, -, hu⟩ := h
    exact hframe _ hu rfl
  | setRepeaterPresent =>
    obtain ⟨_, _, -, -, hu⟩ := h
    exact hframe _ hu rfl

theorem cpGate_of_unsupported (hsup : s.hdcpSupported = false) : cpGate s = false := by
  simp [cpGate, hsup]

/-- Without the capability only the repeater's own operations write the state (41_controller.md R143,
46_cp_params.md R244). -/
theorem OperationLaw.ctlState_of_unsupported {i : Instr} (h : OperationLaw s r es u i) (hsup : s.hdcpSupported = false)
    (hteardown : i ≠ .repeaterTeardown) (hactivate : i ≠ .activateRepeater) : u.ctlState = s.ctlState := by
  cases hi : writesCtl i with
  | false => exact h.ctlState_of_not_writesCtl hi
  | true =>
    cases i with
    | hdcpEnable | setEncryptionLevel =>
      obtain ⟨ok, -, hlevel⟩ := h
      exact hlevel.ctlState_of_unsupported hsup
    | hdcpGetCpData | hdcpSetCpData =>
      obtain ⟨-, -, -, rfl⟩ | ⟨hopen, -⟩ := h
      · rfl
      · rw [cpGate_of_unsupported hsup] at hopen; cases hopen
    | activateRepeater => exact absurd rfl hactivate
    | repeaterTeardown => exact absurd rfl hteardown
    | _ => cases hi

theorem OperationLaw.ctlState_of_getCpData (h : OperationLaw s r es u .hdcpGetCpData) :
    if r = .status .unsuccessful then u.ctlState = .off ∨ u.ctlState = .disabling else u.ctlState = s.ctlState := by
  obtain ⟨-, rfl, -, rfl⟩ | ⟨-, st, level, q, rfl, htrace, -⟩ := h
  · rfl
  · simpa using htrace.ctlState_eq

theorem OperationLaw.ctlState_of_setCpData_closed (h : OperationLaw s r es u .hdcpSetCpData) (hg : cpGate s = false) :
    u.ctlState = s.ctlState := by
  obtain ⟨-, -, -, rfl⟩ | ⟨hopen, -⟩ := h
  · rfl
  · rw [hg] at hopen; cases hopen

theorem OperationLaw.ctlState_of_setCpData_open (h : OperationLaw s r es u .hdcpSetCpData) (hg : cpGate s = true) :
    if r = .status .success then
      u.ctlState = if s.args.params.performSecondStep ≠ 0 then s.ctlState
        else if s.args.params.level = s.prm.cpLevelOn then .encrypting else .off
    else u.ctlState = .off ∨ u.ctlState = .disabling := by
  obtain ⟨hclosed, -⟩ | ⟨-, st, level, q, rs, rfl, -, htrace, -⟩ := h
  · rw [hg] at hclosed; cases hclosed
  · simpa using htrace.ctlState_eq

theorem OperationLaw.ctlState_of_activateRepeater (h : OperationLaw s r es u .activateRepeater) :
    u.ctlState = s.ctlState ∨ u.ctlState = .off ∧ r ≠ .status .success := by
  obtain ⟨st, torn, rfl, htrace, -, hu⟩ := h
  have hc : u.ctlState = ctlAfter torn s.ctlState := congrArg Regs.ctlState hu
  cases torn with
  | false => exact .inl hc
  | true => exact .inr ⟨hc, fun hr => htrace.not_success_of_torn rfl (Result.status.inj hr)⟩

end

/-- Settles O39, one clause of the table after the other, from the law of the run. -/
theorem controllerStateTable : Obligations.ControllerStateTable := by
  intro i s t r es hinv hready hs hrun
  obtain ⟨hlaw, -⟩ := hrun.law hinv.ksvbuf.1 hinv.shabuf.1 hready hs
  refine ⟨?enable, ?disable, ?levelOn, ?levelOff, ?getCpData, ?setCpData, ?transactions, ?teardown, ?activate,
    fun hsup hteardown hactivate => hlaw.ctlState_of_unsupported hsup hteardown hactivate, ?others⟩
  case enable | disable | levelOn | levelOff =>
    rintro rfl hsup
    obtain ⟨ok, rfl, hlevel⟩ := hlaw
    rw [← State.regs_ctlState, hlevel.ctlState_eq hsup]
    cases ok <;> rfl
  case getCpData =>
    rintro rfl
    exact hlaw.ctlState_of_getCpData
  case setCpData =>
    rintro rfl
    exact ⟨fun hg => hlaw.ctlState_of_setCpData_closed hg,
      fun hsup hreq => hlaw.ctlState_of_setCpData_open (by simp [cpGate, hdcpRequested, hsup, hreq])⟩
  case transactions =>
    rintro on sub size (rfl | rfl | rfl) <;> exact hlaw.ctlState_of_not_writesCtl rfl
  case teardown =>
    rintro rfl
    obtain ⟨d, m, -, -, hu⟩ := hlaw
    exact congrArg Regs.ctlState hu
  case activate =>
    rintro rfl
    exact hlaw.ctlState_of_activateRepeater
  case others =>
    intro hi
    refine hlaw.ctlState_of_not_writesCtl ?_
    cases i with
    | hdcpEnable | setEncryptionLevel | hdcpGetCpData | hdcpSetCpData | activateRepeater | repeaterTeardown =>
      simp at hi
    | _ => rfl

end Sys2Proof.Machine
end

section
/-! What operations leave in the registers of the cipher that the block only writes: HDCP_INIT, HDCP_SHA1_IN and
HDCP_VPRIME (10_state.md R57, R64). -/

namespace Sys2Proof.Machine

open Sys2Proof

/-! ## Events that leave a register alone -/

/-- What no event of a run changes is the same after it. -/
theorem foldl_applyTo_keeps {γ : Type} (f : Cipher → γ) {p : Params} {es : List Event}
    (h : ∀ e ∈ es, ∀ c : Cipher × Word, f (e.applyTo p c).1 = f c.1) (c : Cipher × Word) :
    f (es.foldl (Event.applyTo p) c).1 = f c.1 := by
  induction es generalizing c with
  | nil => rfl
  | cons e es ih =>
    obtain ⟨he, hes⟩ := List.forall_mem_cons.1 h
    exact (ih hes _).trans (he c)

section

variable {p : Params} {es : List Event}

theorem foldl_reads (r : CipherReg) (vs : List Word) (c : Cipher × Word) :
    (vs.map (Event.cipherRead r)).foldl (Event.applyTo p) c = c := by
  induction vs with
  | nil => rfl
  | cons v vs ih => exact ih

theorem PollHit.foldl_eq {r : CipherReg} {test : Word → Bool} (h : PollHit r test es) (c : Cipher × Word) :
    es.foldl (Event.applyTo p) c = c := by
  obtain ⟨vs, v, -, -, -, rfl⟩ := h
  rw [List.foldl_append, foldl_reads]
  rfl

/-- Events without a write of HDCP_INIT leave its two values. -/
theorem foldl_init_eq (h : ∀ v, Event.cipherWrite .init v ∉ es) (c : Cipher × Word) :
    ((es.foldl (Event.applyTo p) c).1.initOld, (es.foldl (Event.applyTo p) c).1.initNew) =
      (c.1.initOld, c.1.initNew) := by
  refine foldl_applyTo_keeps (fun c => (c.initOld, c.initNew)) (fun e he c => ?_) c
  cases e with
  | cipherWrite r v =>
    cases r with
    | init => exact absurd he (h v)
    | _ => rfl
  | _ => rfl

/-- Events without a write of HDCP_VPRIME leave its five words. -/
theorem foldl_vprime_eq (h : ∀ i v, Event.cipherWrite (.vprime i) v ∉ es) (c : Cipher × Word) :
    (es.foldl (Event.applyTo p) c).1.vprime = c.1.vprime := by
  refine foldl_applyTo_keeps _ (fun e he c => ?_) c
  cases e with
  | cipherWrite r v =>
    cases r with
    | vprime i => exact absurd he (h i v)
    | _ => rfl
  | _ => rfl

theorem PollHit.write_not_mem {r : CipherReg} {test : Word → Bool} (h : PollHit r test es) (r' : CipherReg) (v : Word) :
    Event.cipherWrite r' v ∉ es := by
  obtain ⟨vs, x, -, -, -, rfl⟩ := h
  simp

theorem PollMiss.write_not_mem {r : CipherReg} {test : Word → Bool} (h : PollMiss r test es) (r' : CipherReg)
    (v : Word) : Event.cipherWrite r' v ∉ es := by
  obtain ⟨vs, -, -, rfl⟩ := h
  simp

end

/-! ## HDCP_INIT after an enable (41_controller.md R146) -/

/-- The events start with the two seeds of the session registers `r`, and no later one writes HDCP_INIT. -/
def SeededBy (r : Session) (es : List Event) : Prop :=
  ∃ rest, es = [.random r.seed0, .cipherWrite .init r.seed0, .random r.seed1, .cipherWrite .init r.seed1] ++ rest ∧
    ∀ v, Event.cipherWrite .init v ∉ rest

section

variable {p : Params} {es es' : List Event} {r r' : Session}

theorem SeededBy.append (h : SeededBy r es) (h' : ∀ v, Event.cipherWrite .init v ∉ es') : SeededBy r (es ++ es') := by
  obtain ⟨rest, rfl, hrest⟩ := h
  exact ⟨rest ++ es', by simp, fun v hv => (List.mem_append.1 hv).elim (hrest v) (h' v)⟩

theorem SeededBy.init_eq (h : SeededBy r es) (c : Cipher × Word) :
    (es.foldl (Event.applyTo p) c).1.initOld = r.seed0 ∧ (es.foldl (Event.applyTo p) c).1.initNew = r.seed1 := by
  obtain ⟨rest, rfl, hrest⟩ := h
  rw [List.foldl_append]
  exact Prod.mk.inj (foldl_init_eq hrest _)

theorem seededBy_anSeeds (d : Word) : SeededBy r (anSeeds p r.seed0 r.seed1 d) :=
  ⟨_, rfl, by simp [modeWrite, fieldWrite]⟩

theorem KeyTrace.seeded (h : KeyTrace p r es r') : SeededBy r' es := by
  obtain ⟨seed0, seed1, d, lo, hi, alo, ahi, ps, hps⟩ := h
  exact ((seededBy_anSeeds d).append (hps.write_not_mem .init)).append (by simp)

theorem ExchangeTrace.seeded {k : Ksv} (h : ExchangeTrace p r k es r') : SeededBy r' es := by
  obtain ⟨es, r', hkey⟩ := h
  exact hkey.seeded.append (by simp [sendAn, sendAksv, bksvRead])

theorem StartTrace.seeded (h : StartTrace p r es r') : SeededBy r' es := by
  obtain ⟨k, b, d, v, u, m, es, r', hex, -⟩ := h
  refine SeededBy.append (r := r') hex.seeded fun x => ?_
  cases hb : (bcaps p b).isRepeater <;> simp [loadEvents, hb, presentWrite, portWrites, modeWrite, fieldWrite]

theorem EnableTrace.seeded {ok : Bool} {c : CtlState} (h : EnableTrace p r es ok c r') : SeededBy r' es := by
  cases h with
  | captureTimeout seed0 seed1 d d' ps hps =>
    exact (((seededBy_anSeeds d).append (hps.write_not_mem .init)).append (by simp [modeWrite, fieldWrite])).append
      (by simp)
  | anFails es r' hkey | aksvFails es r' hkey | bksvFails es r' hkey =>
    exact hkey.seeded.append (by simp [sendAn, sendAksv])
  | badBksv k es r' hex | bcapsFails k es r' hex => exact hex.seeded.append (by simp)
  | riTimeout es ps r' hstart hps | riFails es ps r' hstart hps =>
    exact (hstart.seeded.append (hps.write_not_mem .init)).append (by simp)
  | mismatch es ps r' b0 b1 v hstart hps | encrypting es ps r' b0 b1 v hstart hps =>
    exact SeededBy.append (r := r') (hstart.seeded.append (hps.write_not_mem .init)) (by simp [riComparison])

end

/-! ## HDCP_SHA1_IN after a computation (44_repeater.md R201, R206) -/

theorem controlCode_setWidth_inj {m k : BitVec 3} (h : m.setWidth 32 = k.setWidth 32) : m = k := by
  have := congrArg (BitVec.setWidth 3) h
  simpa using this

section

variable {p : Params} (hp : p.valid = true)
include hp

/-- A control write pushes no word, and of the six codes only the complete-SHA-1 code empties what was pushed. -/
theorem sha1Words_controlWrite (m : BitVec 3) (d : Word) (c : Cipher × Word) :
    ((fieldWrite .rep (controlField p) (m.setWidth 32) d).foldl (Event.applyTo p) c).1.sha1Words =
      if m = p.ctrlCompleteSha1 then [] else c.1.sha1Words := by
  simp only [fieldWrite, List.foldl_cons, List.foldl_nil, Event.applyTo, Cipher.write, getField_control_setField hp]
  exact if_congr ⟨controlCode_setWidth_inj, congrArg _⟩ rfl rfl

/-- One feed pushes its word (44_repeater.md R201). -/
theorem FeedEvents.sha1_eq {f : BitVec 3 × Word} {es : List Event} (h : FeedEvents p f es)
    (hf : f.1 ≠ p.ctrlCompleteSha1) (c : Cipher × Word) :
    (es.foldl (Event.applyTo p) c).1.sha1Words = c.1.sha1Words ++ [f.2] ∧
      (es.foldl (Event.applyTo p) c).1.sha1In = f.2 := by
  obtain ⟨d, ps, hps, rfl⟩ := h
  rw [List.foldl_append, List.foldl_append, hps.foldl_eq]
  refine ⟨?_, rfl⟩
  have hwords := sha1Words_controlWrite hp f.1 d c
  rw [if_neg hf] at hwords
  exact congrArg (· ++ [f.2]) hwords

/-- Feeds that all succeeded have pushed their words, the last of them last. -/
theorem FeedsTrace.sha1_eq {fs : List (BitVec 3 × Word)} {es : List Event} (h : FeedsTrace p fs es true)
    (hfs : ∀ f ∈ fs, f.1 ≠ p.ctrlCompleteSha1) (c : Cipher × Word) :
    (es.foldl (Event.applyTo p) c).1.sha1Words = c.1.sha1Words ++ fs.map Prod.snd ∧
      ∀ f, fs.getLast? = some f → (es.foldl (Event.applyTo p) c).1.sha1In = f.2 := by
  generalize hok : true = ok at h
  induction h generalizing c with
  | done => simp
  | timeout => cases hok
  | feed f fs es es' ok hfeed hrest ih =>
    obtain ⟨hf, hfs⟩ := List.forall_mem_cons.1 hfs
    obtain ⟨hwords, hlast⟩ := hfeed.sha1_eq hp hf c
    obtain ⟨hwords', hlast'⟩ := ih hfs (es.foldl (Event.applyTo p) c) hok
    rw [List.foldl_append]
    refine ⟨by rw [hwords', hwords]; simp, fun g hg => ?_⟩
    cases fs with
    | nil =>
      subst hok
      cases hrest
      obtain rfl : f = g := by simpa using hg
      exact hlast
    | cons a fs => exact hlast' g (by simpa using hg)

end

/-- The four low digits of a number in base 256, most significant first. -/
def lastDigits (n : Nat) : List Byte := (List.range 4).map fun j => BitVec.ofNat 8 (n / 256 ^ (3 - j))

/-- The four low digits of a number make its low word (00_scope.md R11). -/
theorem beWord_lastDigits (n : Nat) : beWord (lastDigits n) = BitVec.ofNat 32 n := by
  apply BitVec.eq_of_toNat_eq
  simp [lastDigits, List.range_succ, beWord, beNat, leNat]
  omega

/-- The last four bytes of the SHA-1 input are the low digits of the bit length (44_repeater.md R198). -/
theorem layoutBytes_last (ksvs : List Byte) (count : Nat) (topology : BitVec 16) {k : Nat}
    (hk : 4 * k + 4 = shaLength count) :
    ((layoutBytes ksvs count topology (shaLength count)).drop (4 * k)).take 4 = lastDigits ((5 * count + 10) * 8) := by
  obtain ⟨-, hmin, -⟩ := shaLength_bounds count
  have hbyte : ∀ j < 4, layoutByte ksvs count topology (shaLength count) (4 * k + j) =
      BitVec.ofNat 8 ((5 * count + 10) * 8 / 256 ^ (3 - j)) := by
    intro j hj
    unfold layoutByte
    rw [if_neg (by omega), if_neg (by omega), if_neg (by omega), if_neg (by omega),
      show shaLength count - 1 - (4 * k + j) = 3 - j by omega]
  apply List.ext_getElem
  · simp [layoutBytes, lastDigits]
    omega
  · intro j hj hj'
    simpa [layoutBytes, lastDigits] using hbyte j (by simpa [lastDigits] using hj')

/-- The last feed of a computation carries the bit length (44_repeater.md R206). -/
theorem expectedFeeds_getLast (p : Params) (ksvs : List Byte) (count : Nat) (topology : BitVec 16) :
    (expectedFeeds p ksvs count topology).getLast? = some (textMode p 4, BitVec.ofNat 32 ((5 * count + 10) * 8)) := by
  obtain ⟨hdvd, hmin, -⟩ := shaLength_bounds count
  obtain ⟨k, hk⟩ : ∃ k, shaLength count / 4 = k + 1 := ⟨shaLength count / 4 - 1, by omega⟩
  rw [expectedFeeds, hk, List.getLast?_map, List.getLast?_range, if_neg (by omega)]
  simp only [Nat.add_sub_cancel, Option.map_some, expectedFeed]
  rw [if_neg (by omega), if_neg (by omega), if_neg (by omega), if_neg (by omega),
    layoutBytes_last ksvs count topology (by omega), beWord_lastDigits]

/-! ## HDCP_VPRIME and the pushed words after a comparison (44_repeater.md R209) -/

/-- The events start with the five writes of `v`, and no later one writes HDCP_VPRIME. -/
def LoadsVPrime (v : VWords) (es : List Event) : Prop :=
  ∃ rest, es = vprimeWrites v ++ rest ∧ ∀ i x, Event.cipherWrite (.vprime i) x ∉ rest

section

variable {p : Params} {v : VWords} {es es' : List Event}

theorem LoadsVPrime.append (h : LoadsVPrime v es) (h' : ∀ i x, Event.cipherWrite (.vprime i) x ∉ es') :
    LoadsVPrime v (es ++ es') := by
  obtain ⟨rest, rfl, hrest⟩ := h
  exact ⟨rest ++ es', by simp, fun i x hx => (List.mem_append.1 hx).elim (hrest i x) (h' i x)⟩

theorem LoadsVPrime.vprime_eq (h : LoadsVPrime v es) (c : Cipher × Word) :
    (es.foldl (Event.applyTo p) c).1.vprime = v := by
  obtain ⟨rest, rfl, hrest⟩ := h
  rw [List.foldl_append, foldl_vprime_eq hrest]
  rfl

theorem loadsVPrime_vprimeWrites : LoadsVPrime v (vprimeWrites v) := ⟨[], by simp, by simp⟩

theorem CompareStart.loads (h : CompareStart p v es) : LoadsVPrime v es := by
  obtain ⟨d, ps, hps, rfl⟩ := h
  exact (loadsVPrime_vprimeWrites.append fun i => hps.write_not_mem _).append (by simp [fieldWrite])

theorem CompareTrace.loads {ok : Bool} (h : CompareTrace p v es ok) : LoadsVPrime v es := by
  cases h with
  | notReady ps hps => exact (loadsVPrime_vprimeWrites.append fun i => hps.write_not_mem _).append (by simp)
  | ends es vs x hstart | timeout es vs hstart => exact (hstart.loads.append (by simp)).append (by simp)

/-- The complete-SHA-1 write that starts a comparison empties what was pushed (10_state.md R64). -/
theorem CompareStart.sha1Words_eq (hp : p.valid = true) (h : CompareStart p v es) (c : Cipher × Word) :
    (es.foldl (Event.applyTo p) c).1.sha1Words = [] := by
  obtain ⟨d, ps, -, rfl⟩ := h
  rw [List.foldl_append, sha1Words_controlWrite hp, if_pos rfl]

/-- A comparison that matched has made its complete-SHA-1 write, and only reads after it. -/
theorem CompareTrace.sha1Words_eq (hp : p.valid = true) {ok : Bool} (h : CompareTrace p v es ok) (hok : ok = true)
    (c : Cipher × Word) : (es.foldl (Event.applyTo p) c).1.sha1Words = [] := by
  cases h with
  | notReady | timeout => cases hok
  | ends es vs x hstart =>
    rw [List.foldl_append, List.foldl_append, foldl_reads]
    exact hstart.sha1Words_eq hp c

end

/-- Settles O60: the cipher is what the run's writes made of it, and the grammar of the run says which they are. -/
theorem specialRegistersAfterOperations : Obligations.SpecialRegistersAfterOperations := by
  intro i s t r es hinv hready hs hrun
  obtain ⟨hlaw, -⟩ := hrun.law hinv.ksvbuf.1 hinv.shabuf.1 hready hs
  rw [hrun.cipher_eq hready]
  refine ⟨?enable, ?compute, ?compare⟩
  case enable =>
    rintro rfl hsup
    obtain ⟨ok, -, ⟨hno, -⟩ | ⟨-, hlevel, -⟩⟩ := hlaw
    · rw [hsup] at hno; cases hno
    · cases hlevel with
      | enable _ _ _ _ henable => exact henable.seeded.init_eq _
  case compute =>
    rintro rfl rfl
    obtain ⟨ok, ksvs, hok, hsupplies, hfeeds, -⟩ := hlaw
    obtain rfl := Result.bool.inj hok
    obtain ⟨hwords, hlast⟩ := hfeeds.sha1_eq hinv.params (fun f hf => by
      obtain ⟨n, hn⟩ := expectedFeeds_textMode hf
      exact hn ▸ textMode_ne_completeSha1 hinv.params n) (s.cipher, s.port)
    exact ⟨hlast _ (expectedFeeds_getLast _ _ _ _), ksvs, hsupplies, hwords⟩
  case compare =>
    rintro rfl
    obtain ⟨ok, rfl, htrace, -⟩ := hlaw
    exact ⟨htrace.loads.vprime_eq _, fun hr => htrace.sha1Words_eq hinv.params (Result.bool.inj hr) _⟩

end Sys2Proof.Machine
end

section
/-! Local buffers in canonical form (20_memory.md R72, log 12): their data is what they read, and so are their
bounds. -/

namespace Sys2Proof.Machine

open Sys2Proof

section

variable {lo x : Nat} {c : Byte} {m : Memory}

theorem Memory.wfFrom_cons :
    Memory.wfFrom lo ((x, c) :: m) = true ↔ lo ≤ x ∧ c ≠ blankByte ∧ Memory.wfFrom (x + 1) m = true := by
  simp [Memory.wfFrom, and_assoc]

@[simp] theorem Memory.read_cons_self : Memory.read ((x, c) :: m) x = c := if_pos rfl

theorem Memory.read_cons_other {a : Nat} (h : a ≠ x) : Memory.read ((x, c) :: m) a = m.read a := if_neg h

/-- The tails of two canonical buffers with the same first entry read the same where the whole buffers do. -/
theorem Memory.read_tail_eq {m' : Memory} {c' : Byte} (hm : Memory.wfFrom (x + 1) m = true)
    (hm' : Memory.wfFrom (x + 1) m' = true)
    (h : ∀ a, Memory.read ((x, c) :: m) a = Memory.read ((x, c') :: m') a) (a : Nat) : m.read a = m'.read a := by
  by_cases ha : a = x
  · rw [ha, Memory.read_below (Nat.lt_succ_self x) hm, Memory.read_below (Nat.lt_succ_self x) hm']
  · rw [← Memory.read_cons_other (m := m) ha, h, Memory.read_cons_other ha]

/-- A canonical buffer that reads something at `a` lists no first entry above `a`. -/
theorem Memory.first_le_of_read_ne {a : Nat} (hm : Memory.wfFrom lo ((x, c) :: m) = true)
    (h : Memory.read ((x, c) :: m) a ≠ blankByte) : x ≤ a := by
  obtain ⟨-, hc, hm⟩ := Memory.wfFrom_cons.1 hm
  refine Nat.le_of_not_lt fun ha => h ?_
  exact Memory.read_below ha (Memory.wfFrom_cons.2 ⟨Nat.le_refl x, hc, hm⟩)

end

/-- Two canonical buffers that read the same everywhere list the same entries. -/
theorem Memory.eq_of_read_eq {lo : Nat} {m m' : Memory} (hm : m.wfFrom lo = true) (hm' : m'.wfFrom lo = true)
    (h : ∀ a, m.read a = m'.read a) : m = m' := by
  induction m generalizing lo m' with
  | nil =>
    cases m' with
    | nil => rfl
    | cons e m' =>
      obtain ⟨y, d⟩ := e
      obtain ⟨-, hd, -⟩ := Memory.wfFrom_cons.1 hm'
      exact absurd ((h y).trans Memory.read_cons_self).symm hd
  | cons e m ih =>
    obtain ⟨x, c⟩ := e
    obtain ⟨-, hc, hrest⟩ := Memory.wfFrom_cons.1 hm
    cases m' with
    | nil => exact absurd (Memory.read_cons_self.symm.trans (h x)) hc
    | cons e' m' =>
      obtain ⟨y, d⟩ := e'
      obtain ⟨-, hd, hrest'⟩ := Memory.wfFrom_cons.1 hm'
      have hxy : x ≤ y := Memory.first_le_of_read_ne hm (by rw [h, Memory.read_cons_self]; exact hd)
      have hyx : y ≤ x := Memory.first_le_of_read_ne hm' (by rw [← h, Memory.read_cons_self]; exact hc)
      obtain rfl := Nat.le_antisymm hxy hyx
      have hcd : c = d := by simpa using h x
      rw [hcd, ih hrest hrest' (Memory.read_tail_eq hrest hrest' h)]

/-- A canonical buffer lies inside its bounds when every byte outside them is blank. -/
theorem Memory.within_of_read_blank {lo size : Nat} {m : Memory} (hm : m.wfFrom lo = true)
    (h : ∀ a, size ≤ a → m.read a = blankByte) : m.within size = true := by
  induction m generalizing lo with
  | nil => rfl
  | cons e m ih =>
    obtain ⟨x, c⟩ := e
    obtain ⟨-, hc, hrest⟩ := Memory.wfFrom_cons.1 hm
    have hx : x < size := Nat.lt_of_not_le fun hx => hc (Memory.read_cons_self.symm.trans (h x hx))
    have hrest : Memory.within size m = true :=
      ih hrest fun a ha => (Memory.read_cons_other (by omega)).symm.trans (h a ha)
    simpa [Memory.within, hx] using hrest

/-- Outside its bounds a buffer reads blank. -/
theorem Memory.read_outside {size a : Nat} {m : Memory} (hm : m.within size = true) (ha : size ≤ a) :
    m.read a = blankByte := by
  induction m with
  | nil => rfl
  | cons e m ih =>
    obtain ⟨x, c⟩ := e
    simp only [Memory.within, List.all_cons, Bool.and_eq_true, decide_eq_true_eq] at hm
    exact (Memory.read_cons_other (by omega)).trans (ih hm.2)

/-- Settles O27, by the laws of `Memory.writeBytes`. -/
theorem bufferReadsWhatWasWritten : Obligations.BufferReadsWhatWasWritten :=
  fun _ a bs hm => ⟨Memory.writeBytes_wf a bs hm, fun x => Memory.read_writeBytes a x bs hm⟩

/-- Settles O28, by induction along the entries: the first ones are at the same address, the lowest that does not read
blank. -/
theorem equalBuffersAreEqualData : Obligations.EqualBuffersAreEqualData :=
  fun _ _ hm hm' h => Memory.eq_of_read_eq hm hm' h

end Sys2Proof.Machine
end

section
/-! The invariant of the machine (10_state.md R38, R39; 20_memory.md R72; 30_encoding.md R121, R126; 60_exceptions.md
R277): what a step writes to the cipher, the session registers and the buffers stays in range. -/

namespace Sys2Proof.Machine

open Sys2Proof

/-! ## The ranges -/

/-- What the invariant asks of the session registers (10_state.md R38, R39). -/
def Session.InRange (r : Session) : Prop :=
  (r.blen.toNat % 64 = 0 ∧ r.blen.toNat ≤ shaBufBytes) ∧ (r.pos.toNat % 4 = 0 ∧ r.pos.toNat ≤ shaBufBytes) ∧
    r.moLeft.toNat ≤ moBytes ∧ r.attempt.toNat ≤ linkAttempts

/-- What the invariant asks of a local buffer of `size` bytes (20_memory.md R72). -/
def Memory.Fits (size : Nat) (m : Memory) : Prop := m.wf = true ∧ m.within size = true

/-- What the invariant asks of the registers an operation writes through no access. -/
structure Regs.InRange (u : Regs) : Prop where
  ses : u.ses.InRange
  ksvbuf : u.ksvbuf.Fits ksvBufBytes
  shabuf : u.shabuf.Fits shaBufBytes

/-- What the invariant asks of the cipher's registers (30_encoding.md R121, R126). -/
def Cipher.InRange (p : Params) (c : Cipher) : Prop :=
  modeIsOwn p c = true ∧ c.ri.toNat < 2 ^ 16 ∧ c.bksvHi.toNat < 2 ^ 8

/-- Every refused command was answered `InvalidDeviceRequest` (60_exceptions.md R277). -/
def RefusedAsBusy (refusals : List (Word × Status)) : Prop := ∀ x ∈ refusals, x.2 = .invalidDeviceRequest

theorem Session.inRange_zero : Session.zero.InRange := by
  unfold Session.InRange
  decide

/-- Registers whose buffers are those of registers in range. -/
theorem Regs.InRange.sameBuffers {u : Regs} (h : u.InRange) {ses : Session} (hses : ses.InRange) (c : CtlState)
    (args : Args) : Regs.InRange ⟨c, ses, u.ksvbuf, u.shabuf, args⟩ :=
  ⟨hses, h.ksvbuf, h.shabuf⟩

theorem State.Inv.regs_inRange {s : State} (h : s.Inv) : s.regs.InRange :=
  ⟨⟨h.blen, h.pos, h.moLeft, h.attempt⟩, h.ksvbuf, h.shabuf⟩

theorem State.Inv.cipher_inRange {s : State} (h : s.Inv) : s.cipher.InRange s.prm := ⟨h.mode, h.upperBits⟩

/-- The invariant, put together from its ranges. -/
theorem State.inv_of_inRange {s : State} (hprm : s.prm.valid = true)
    (hidle : s.busy = false ∧ s.op = none ∧ s.stepPos = 0) (hregs : s.regs.InRange) (hcipher : s.cipher.InRange s.prm)
    (hrefusals : RefusedAsBusy s.refusals) : s.Inv := by
  obtain ⟨⟨hblen, hpos, hmoLeft, hattempt⟩, hksvbuf, hshabuf⟩ := hregs
  exact ⟨hprm, hidle, hksvbuf, hshabuf, hblen, hpos, hmoLeft, hattempt, hcipher.1, hcipher.2, hrefusals⟩

/-- Inputs that landed and were refused are answered as the rule says. -/
theorem RefusedAsBusy.after {refusals : List (Word × Status)} (h : RefusedAsBusy refusals) (l : List HostInput) :
    RefusedAsBusy (refusalsAfter l refusals) := by
  intro x hx
  obtain hx | hx := List.mem_append.1 hx
  · obtain ⟨a, -, ha⟩ := List.mem_filterMap.1 (List.mem_reverse.1 hx)
    cases a with
    | command w a => exact (Option.some.inj ha) ▸ rfl
    | initialise => cases ha
    | powerLoss => cases ha
  · exact h x hx

/-! ## The cipher's registers after own writes (30_encoding.md R126) -/

/-- The writes of cipher registers among the events are ones the block's own sequences may make. -/
def WritesOwn (p : Params) (es : List Event) : Prop :=
  ∀ r v, Event.cipherWrite r v ∈ es → (Event.cipherWrite r v).own p = true

section

variable {p : Params}

/-- An own write keeps the modes and the upper bits. -/
theorem Cipher.InRange.write {c : Cipher} (h : c.InRange p) {r : CipherReg} {v : Word}
    (hown : (Event.cipherWrite r v).own p = true) : (c.write p r v).InRange p := by
  obtain ⟨hmode, hri, hbksv⟩ := h
  cases r with
  | config => exact ⟨hown, hri, hbksv⟩
  | ri => exact ⟨hmode, of_decide_eq_true hown, hbksv⟩
  | bksvHi => exact ⟨hmode, hri, of_decide_eq_true hown⟩
  | _ => exact ⟨hmode, hri, hbksv⟩

theorem Cipher.InRange.foldl {es : List Event} (hown : WritesOwn p es) {c : Cipher × Word} (h : c.1.InRange p) :
    (es.foldl (Event.applyTo p) c).1.InRange p := by
  induction es generalizing c with
  | nil => exact h
  | cons e es ih =>
    refine ih (fun r v hm => hown r v (List.mem_cons_of_mem e hm)) ?_
    cases e with
    | cipherWrite r v => exact h.write (hown r v (by simp))
    | _ => exact h

end

/-- RX_READ and RX_WRITE write no register of the cipher. -/
theorem OperationLaw.no_cipherWrite_of_transaction {i : Instr} {s : State} {r : Result} {es : List Event} {u : Regs}
    (h : OperationLaw s r es u i) {sub : Byte} {size : BitVec 10} (hi : i = .rxRead sub size ∨ i = .rxWrite sub size)
    (reg : CipherReg) (v : Word) : Event.cipherWrite reg v ∉ es := by
  obtain rfl | rfl := hi
  · obtain ⟨rfl | ⟨-, -, rfl | ⟨bytes, rfl⟩⟩, -⟩ := h <;> simp
  · obtain ⟨rfl | ⟨-, -, payload, -, rfl | rfl⟩, -⟩ := h <;> simp

/-- Every operation, abandoned or not, writes to the cipher only what the block's own sequences may write. -/
theorem exec_writesOwn {i : Instr} {s t : State} {es : List Event} (hinv : s.Inv) (hready : s.ready = true)
    (hexec : exec i s = .next t) (htr : t.trace = es.reverse ++ s.trace) : WritesOwn s.prm es := by
  intro reg v hmem
  by_cases hi : ∀ sub size, i ≠ .rxRead sub size ∧ i ≠ .rxWrite sub size
  · exact (accessesAreTheBlocksOwn i s t es hinv hready hexec htr).2.1 hi _ hmem
  · push Not at hi
    obtain ⟨sub, size, hi⟩ := hi
    obtain ⟨u, r, es', rest, hrun, htr', -⟩ := exec_firstPart hready hexec
    obtain rfl : es = es' := List.reverse_injective (List.append_cancel_right (htr.symm.trans htr'))
    obtain ⟨hlaw, -⟩ := hrun.law hinv.ksvbuf.1 hinv.shabuf.1 hready rfl
    exact absurd (List.mem_append_left rest hmem)
      (hlaw.no_cipherWrite_of_transaction (or_iff_not_imp_left.2 hi) reg v)

/-- What an operation, abandoned or not, leaves in the cipher and the parameters. -/
theorem exec_cipher_inRange {i : Instr} {s t : State} (hinv : s.Inv) (hready : s.ready = true)
    (hexec : exec i s = .next t) : t.prm = s.prm ∧ t.cipher.InRange s.prm := by
  obtain ⟨hprm, es, htr, hcp⟩ := collaboratorsHoldTheTracedWrites i s t hready hexec
  refine ⟨hprm, ?_⟩
  rw [show t.cipher = (es.foldl (Event.applyTo s.prm) (s.cipher, s.port)).1 from congrArg Prod.fst hcp]
  exact Cipher.InRange.foldl (exec_writesOwn hinv hready hexec htr) hinv.cipher_inRange

/-! ## The session registers after each grammar (10_state.md R38, R39) -/

/-- A list of feeds pushes at most one word for each. -/
theorem FeedsTrace.wordFed_le {p : Params} {fs : List (BitVec 3 × Word)} {es : List Event} {ok : Bool}
    (h : FeedsTrace p fs es ok) : es.countP Event.isWordFed ≤ fs.length := by
  induction h with
  | done => exact Nat.le_refl 0
  | feed f fs es es' ok hf _ ih =>
    rw [List.countP_append, hf.wordFed, List.length_cons]
    omega
  | timeout f fs es hf =>
    rw [hf.wordFed]
    exact Nat.zero_le _

section

variable {r r' : Session}

/-- The builder's and feeder's registers are in range after at most as many words as the buffer has chunks
(44_repeater.md R196, R200). -/
theorem Session.InRange.fed (h : r.InRange) {count n : Nat} (hcount : count ≤ 127) (hn : n ≤ shaLength count / 4) :
    (r.fed count n).InRange := by
  obtain ⟨-, -, -, hattempt⟩ := h
  obtain ⟨hmod, -⟩ := shaLength_bounds count
  obtain ⟨-, hmax⟩ := shaLength_le count hcount
  have hblen : (BitVec.ofNat 11 (shaLength count)).toNat = shaLength count := Nat.mod_eq_of_lt (by omega)
  have hpos : (BitVec.ofNat 11 (4 * n)).toNat = 4 * n := Nat.mod_eq_of_lt (by omega)
  have hmo : (BitVec.ofNat 4 (min 8 (5 * count + 2 + 8 - 4 * n))).toNat = min 8 (5 * count + 2 + 8 - 4 * n) :=
    Nat.mod_eq_of_lt (by omega)
  refine ⟨?_, ?_, ?_, hattempt⟩
  · exact hblen.symm ▸ ⟨hmod, hmax⟩
  · exact hpos.symm ▸ ⟨Nat.mul_mod_right 4 n, show 4 * n ≤ 704 by omega⟩
  · exact hmo.symm ▸ Nat.min_le_left _ _

/-- The registers after the feeds of a computation, the last of which may have timed out. -/
theorem Session.InRange.fed_of_feeds (h : r.InRange) {p : Params} {ksvs : List Byte} {count : Nat}
    {topology : BitVec 16} {es : List Event} {ok : Bool} (hcount : count ≤ 127)
    (hfeeds : FeedsTrace p (expectedFeeds p ksvs count topology) es ok) :
    (r.fed count (es.countP Event.isWordFed)).InRange :=
  h.fed hcount (by simpa [expectedFeeds] using hfeeds.wordFed_le)

theorem attempt_le (n : Nat) : (BitVec.ofNat 3 (4 - n)).toNat ≤ linkAttempts :=
  (Nat.mod_le _ _).trans (Nat.sub_le 4 n)

/-- A link attempt puts its number into the registers (45_link_monitor.md R230). -/
theorem Session.InRange.attempt (h : r.InRange) (n : Nat) :
    Session.InRange { r with attempt := BitVec.ofNat 3 (4 - n) } := by
  obtain ⟨hblen, hpos, hmo, -⟩ := h
  exact ⟨hblen, hpos, hmo, attempt_le n⟩

variable {p : Params} {es : List Event}

theorem KeyTrace.inRange (h : KeyTrace p r es r') (hr : r.InRange) : r'.InRange := by
  obtain ⟨⟩ := h
  exact hr

theorem ExchangeTrace.inRange {k : Ksv} (h : ExchangeTrace p r k es r') (hr : r.InRange) : r'.InRange := by
  obtain ⟨_, r', hkey⟩ := h
  exact hkey.inRange hr

theorem StartTrace.inRange (h : StartTrace p r es r') (hr : r.InRange) : r'.InRange := by
  obtain ⟨_, _, _, _, _, _, _, r', hex, -⟩ := h
  exact ExchangeTrace.inRange (r' := r') hex hr

theorem EnableTrace.inRange {ok : Bool} {c : CtlState} (h : EnableTrace p r es ok c r') (hr : r.InRange) :
    r'.InRange := by
  cases h with
  | captureTimeout => exact hr
  | anFails _ _ hkey | aksvFails _ _ hkey | bksvFails _ _ hkey => exact hkey.inRange hr
  | badBksv _ _ _ hex | bcapsFails _ _ _ hex => exact hex.inRange hr
  | riTimeout _ _ _ hstart | riFails _ _ _ hstart => exact hstart.inRange hr
  | mismatch _ _ r' _ _ _ hstart | encrypting _ _ r' _ _ _ hstart => exact StartTrace.inRange (r' := r') hstart hr

theorem LevelTrace.inRange {on ok : Bool} {c : CtlState} (h : LevelTrace p r on es ok c r') (hr : r.InRange) :
    r'.InRange := by
  cases h with
  | disable => exact hr
  | enable _ _ _ _ henable => exact henable.inRange hr

theorem LinkTrace.inRange {n : Nat} {ok : Bool} (h : LinkTrace p n r es ok r') (hr : r.InRange) : r'.InRange := by
  induction h with
  | broken => exact hr
  | fails n => exact hr.attempt n
  | intact n => exact hr.attempt n
  | mismatch n _ _ _ _ _ _ _ _ _ _ _ ih => exact ih (hr.attempt n)

theorem VerifyTrace.inRange {bytes : List Byte} {n : Nat} {topology : BitVec 16} {revoked torn : Bool} {st : Status}
    (h : VerifyTrace p r bytes n topology revoked es st torn r') (hn : n ≤ 127) (hr : r.InRange) : r'.InRange := by
  cases h with
  | vFails _ _ _ hfeeds | vprimeFails _ _ _ _ hfeeds | rejected _ _ _ _ _ _ _ hfeeds | verified _ _ _ _ hfeeds =>
    exact hr.fed_of_feeds hn hfeeds

theorem ActivateTrace.inRange {rs : List Ksv} {st : Status} {torn : Bool} (h : ActivateTrace p rs r es st torn r')
    (hr : r.InRange) : r'.InRange := by
  cases h with
  | listRead _ _ _ _ _ _ _ _ _ _ _ _ hok hn _ _ _ hverify =>
    exact hverify.inRange (hn ▸ deviceCount_le_of_accepted hok) hr
  | _ => exact hr

theorem GetTrace.inRange {c c' : CtlState} {st : Status} {level : Word} {q : Option Byte}
    (h : GetTrace p c r es st level q c' r') (hr : r.InRange) : r'.InRange := by
  cases h with
  | off => exact hr
  | on _ _ _ r' _ hlink | broken _ _ _ _ r' _ _ _ hlink => exact LinkTrace.inRange (r' := r') hlink hr

theorem ActionTrace.inRange {params : CpParams} {rs : List Ksv} {c c' : CtlState} {st : Status}
    (h : ActionTrace p params rs c r es st c' r') (hr : r.InRange) : r'.InRange := by
  cases h with
  | verify _ _ _ _ hactivate => exact hactivate.inRange hr
  | level _ _ _ _ hlevel => exact hlevel.inRange hr

theorem SetTrace.inRange {params : CpParams} {rs : List Ksv} {c c' : CtlState} {st : Status} {level : Word}
    {q : Option Byte} (h : SetTrace p params rs c r es st level q c' r') (hr : r.InRange) : r'.InRange := by
  cases h with
  | done _ _ _ _ haction | netted _ _ _ _ _ _ _ _ haction => exact haction.inRange hr

end

/-! ## The buffers after a verification and a computation (20_memory.md R72) -/

theorem HoldsShaInput.fits {ksvs : List Byte} {count : Nat} {topology : BitVec 16} {m m' : Memory}
    (h : HoldsShaInput ksvs count topology m m') (hcount : count ≤ 127) (hm : m.Fits shaBufBytes) :
    m'.Fits shaBufBytes := by
  obtain ⟨hwf, hread⟩ := h
  refine ⟨hwf, Memory.within_of_read_blank hwf fun a ha => ?_⟩
  have hlen : shaLength count ≤ shaBufBytes := (shaLength_le count hcount).2
  rw [hread a, if_neg (by omega)]
  exact Memory.read_outside hm.2 ha

theorem Memory.Fits.writeBytes {size : Nat} {m : Memory} (hm : m.Fits size) (a : Nat) {bs : List Byte}
    (h : a + bs.length ≤ size) : (m.writeBytes a bs).Fits size :=
  ⟨Memory.writeBytes_wf a bs hm.1, Memory.writeBytes_within a bs h hm.2⟩

/-- A read of a KSV list by the block's own sequences is one of at most 127 vectors (42_receiver_io.md R174). -/
theorem ksvCount_le_of_own {p : Params} {n : Nat} {a : Option (List Byte)}
    (h : (Event.serialRead 0x43 (5 * n) a).own p = true) : n ≤ 127 := by
  have hsize : 5 ≤ 5 * n ∧ 5 * n ≤ 635 := by simpa [Event.own, ownSerialRead, vprimeSubs] using h
  omega

theorem BuffersAfter.fits {p : Params} {es : List Event} {k h k' h' : Memory} (hb : BuffersAfter es k h k' h')
    (hown : ∀ e ∈ es, e.own p = true) (hk : k.Fits ksvBufBytes) (hh : h.Fits shaBufBytes) :
    k'.Fits ksvBufBytes ∧ h'.Fits shaBufBytes := by
  obtain ⟨-, rfl, rfl⟩ | ⟨n, bytes, t0, t1, hlist, -, hlen, rfl, hsha⟩ := hb
  · exact ⟨hk, hh⟩
  · have hn : n ≤ 127 := ksvCount_le_of_own (hown _ hlist)
    exact ⟨hk.writeBytes 0 (show 0 + bytes.length ≤ 635 by omega), hsha.fits hn hh⟩

theorem StepBuffers.fits {p : Params} {c : CpParams} {es : List Event} {k h k' h' : Memory}
    (hb : StepBuffers c es k h k' h') (hown : ∀ e ∈ es, e.own p = true) (hk : k.Fits ksvBufBytes)
    (hh : h.Fits shaBufBytes) : k'.Fits ksvBufBytes ∧ h'.Fits shaBufBytes := by
  obtain ⟨hlevel, hverify⟩ := hb
  by_cases hc : c.performSecondStep = 0
  · obtain ⟨rfl, rfl⟩ := hlevel hc
    exact ⟨hk, hh⟩
  · exact (hverify hc).fits hown hk hh

/-! ## The registers after every operation -/

theorem LevelLaw.inRange {s : State} {on ok : Bool} {es : List Event} {u : Regs} (h : LevelLaw s on ok es u)
    (hs : s.regs.InRange) : u.InRange := by
  obtain ⟨-, -, -, rfl⟩ | ⟨-, hlevel, hu⟩ := h
  · exact hs
  · exact hu ▸ hs.sameBuffers (hlevel.inRange hs.ses) _ _

theorem OperationLaw.inRange {i : Instr} {s : State} {r : Result} {es : List Event} {u : Regs}
    (h : OperationLaw s r es u i) (hp : s.prm.valid = true) (hs : s.regs.InRange) (hi : i ≠ .buildSha1Buffer) :
    u.InRange := by
  cases i with
  | hdcpQuery | hdcpIsValidBksv | isRevoked | hdcpIsEnabled | rxWrite =>
    obtain ⟨-, rfl⟩ := h
    exact hs
  | rxRead =>
    obtain ⟨-, hu⟩ := h
    exact hu ▸ hs.sameBuffers hs.ses _ _
  | hdcpEnable | setEncryptionLevel =>
    obtain ⟨ok, -, hlevel⟩ := h
    exact hlevel.inRange hs
  | hdcpGetCpData =>
    obtain ⟨-, -, -, rfl⟩ | ⟨-, st, level, q, -, htrace, hu⟩ := h
    · exact hs
    · exact hu ▸ hs.sameBuffers (htrace.inRange hs.ses) _ _
  | hdcpSetCpData =>
    obtain ⟨-, -, -, rfl⟩ | ⟨-, st, level, q, rs, -, -, htrace, hbuf, -⟩ := h
    · exact hs
    · obtain ⟨hk, hw⟩ := hbuf.fits (htrace.own hp).own hs.ksvbuf hs.shabuf
      exact ⟨htrace.inRange hs.ses, hk, hw⟩
  | activateRepeater =>
    obtain ⟨st, torn, -, htrace, hbuf, -⟩ := h
    obtain ⟨hk, hw⟩ := hbuf.fits (htrace.own hp).own hs.ksvbuf hs.shabuf
    exact ⟨htrace.inRange hs.ses, hk, hw⟩
  | buildSha1Buffer => exact absurd rfl hi
  | computeTransmitterV =>
    obtain ⟨ok, ksvs, -, -, hfeeds, hsha, hu⟩ := h
    have hcount : s.args.count.toNat ≤ 127 := by omega
    exact hu ▸ ⟨hs.ses.fed_of_feeds hcount hfeeds, hs.ksvbuf, hsha.fits hcount hs.shabuf⟩
  | compareVPrime =>
    obtain ⟨ok, -, -, rfl⟩ := h
    exact hs
  | getLinkStatus =>
    obtain ⟨ok, -, htrace, hu⟩ := h
    exact hu ▸ hs.sameBuffers (htrace.inRange hs.ses) _ _
  | rxReadVPrime =>
    obtain ⟨v, -, -, hu⟩ := h
    exact hu ▸ hs.sameBuffers hs.ses _ _
  | setRepeaterPresent =>
    obtain ⟨d, v, -, -, rfl⟩ := h
    exact hs
  | repeaterTeardown =>
    obtain ⟨d, m, -, -, hu⟩ := h
    exact hu ▸ hs.sameBuffers hs.ses _ _

/-- BUILD_SHA1_BUFFER as a command, whose law says nothing of what it leaves in the buffer and in `s.blen`
(44_repeater.md R196). -/
theorem buildShaCommand_inRange {s : State} (hs : s.undisturbed = true) (h : s.regs.InRange) :
    Gives buildShaCommand s fun _ _ t => t.regs.InRange := by
  have hcount : s.args.count.toNat ≤ 127 := by omega
  refine Gives.get_bind ?_
  refine (buildShaBuffer_gives hs h.shabuf.1 (callerBytes_length _ _ _) _).bind fun _ _ t ht _ _ ⟨_, hsha, hregs⟩ => ?_
  refine Gives.get_bind ?_
  refine (setArgs_gives ht _).bind fun _ _ u hu _ _ ⟨_, hregs', _⟩ => gives_pure hu _ ?_
  rw [hregs] at hregs'
  rw [hregs']
  obtain ⟨-, hpos, hmo, hattempt⟩ := h.ses
  obtain ⟨hblen, -⟩ := h.ses.fed hcount (Nat.zero_le _)
  exact ⟨⟨hblen, hpos, hmo, hattempt⟩, h.ksvbuf, hsha.fits hcount h.shabuf⟩

/-- A whole run from a state that meets the invariant leaves the registers in range. -/
theorem Runs.inRange {i : Instr} {s t : State} {r : Result} {es : List Event} (hrun : Runs i s t r es) (hinv : s.Inv)
    (hready : s.ready = true) (hs : s.undisturbed = true) : t.regs.InRange := by
  by_cases hi : i = .buildSha1Buffer
  · subst hi
    obtain ⟨t', r', es', u, hrun', hvis, -, hu⟩ := runs_of_gives (i := .buildSha1Buffer) rfl hready
      (buildShaCommand_inRange (s := s.start .buildSha1Buffer) hs hinv.regs_inRange)
    obtain ⟨rfl, -, -⟩ := hrun.unique hrun'
    have hregs : t.regs = u.regs :=
      congrArg (fun v : Visible => Regs.mk v.ctlState v.ses v.ksvbuf v.shabuf v.args) hvis
    exact hregs ▸ hu
  · obtain ⟨hlaw, -⟩ := hrun.law hinv.ksvbuf.1 hinv.shabuf.1 hready hs
    exact hlaw.inRange hinv.params hinv.regs_inRange hi

/-! ## Every step -/

/-- How an operation of a ready block ends, whatever lands: idle, with the commands that landed refused, and with the
registers of the run it has with nothing on its way, or, abandoned by a reset, with those after reset
(41_controller.md R140, 70_reset_and_hazards.md R293). -/
theorem exec_ends {i : Instr} {s t : State} (hready : s.ready = true) (hexec : exec i s = .next t) :
    (t.busy = false ∧ t.op = none ∧ t.stepPos = 0) ∧ (∃ l, t.refusals = refusalsAfter l s.refusals) ∧
      ((∃ u r es, Runs i (s.withArrivals []) u r es ∧ t.regs = u.regs) ∨
        ∃ u supported, t = State.initialise supported u) := by
  obtain ⟨w, body, hbody, he⟩ := exec_tame i
  obtain ⟨r, v, es, ⟨htr, -⟩, hwhole, hrun⟩ := hbody.completed.outcomes (s.start i)
  have hexec' := exec_ready he (s := s.withArrivals []) hready
  rw [show (s.withArrivals []).start i = (s.start i).withArrivals [] from rfl, hwhole] at hexec'
  have hruns : Runs i (s.withArrivals []) _ r es := ⟨hexec', rfl, rfl, rfl, rfl, htr⟩
  rw [exec_ready he hready] at hexec
  injection hexec with hexec
  subst hexec
  obtain ⟨-, hok⟩ | ⟨u, -, -, -, c, -, herr, -, -, -, -, -, l, hl⟩ := hrun
  · rw [hok]
    exact ⟨⟨rfl, rfl, rfl⟩, ⟨_, rfl⟩, .inl ⟨_, r, es, hruns, rfl⟩⟩
  · rw [herr]
    exact ⟨⟨rfl, rfl, rfl⟩, ⟨l, hl⟩, .inr ⟨u, c, rfl⟩⟩

/-- The registers after reset are in range (10_state.md R62). -/
theorem State.initialise_inRange (s : State) (supported : Bool) : (s.initialise supported).regs.InRange :=
  ⟨Session.inRange_zero, ⟨rfl, rfl⟩, ⟨rfl, rfl⟩⟩

/-- The invariant does not speak of the waiting inputs, the argument record or the result. -/
theorem State.Inv.frame {s : State} (h : s.Inv) (inbox : List HostInput) (args : Args) (result : Option Result) :
    State.Inv { s with inbox := inbox, args := args, result := result } :=
  State.inv_of_inRange h.params h.idle (h.regs_inRange.sameBuffers h.regs_inRange.ses _ _) h.cipher_inRange h.refusals

theorem State.Inv.initialise {s : State} (h : s.Inv) (supported : Bool) : (s.initialise supported).Inv :=
  State.inv_of_inRange h.params ⟨rfl, rfl, rfl⟩ (s.initialise_inRange supported) h.cipher_inRange h.refusals

/-- Every operation of a ready block, abandoned or not, keeps the invariant. -/
theorem exec_keeps_inv {i : Instr} {s t : State} (hinv : s.Inv) (hready : s.ready = true) (hexec : exec i s = .next t) :
    t.Inv := by
  obtain ⟨hprm, hcipher⟩ := exec_cipher_inRange hinv hready hexec
  obtain ⟨hidle, ⟨l, hl⟩, hends⟩ := exec_ends hready hexec
  have hregs : t.regs.InRange := by
    obtain ⟨u, r, es, hrun, hregs⟩ | ⟨u, supported, rfl⟩ := hends
    · have hquiet : (s.withArrivals []).Inv :=
        State.inv_of_inRange hinv.params hinv.idle hinv.regs_inRange hinv.cipher_inRange hinv.refusals
      exact hregs ▸ hrun.inRange hquiet hready rfl
    · exact u.initialise_inRange supported
  exact State.inv_of_inRange (hprm ▸ hinv.params) hidle hregs (hprm ▸ hcipher)
    (hl ▸ RefusedAsBusy.after hinv.refusals l)

theorem presentCommand_keeps_inv {w : Word} {a : Args} {s t : State} (hinv : s.Inv)
    (h : presentCommand w a s = .next t) : t.Inv := by
  have hrejected : s.rejectCommand.Inv := hinv.frame s.inbox s.args _
  unfold presentCommand at h
  rw [hinv.idle.1, if_neg Bool.false_ne_true] at h
  split at h
  · next hinit =>
    cases hw : decode w with
    | ok i =>
      rw [hw] at h
      refine exec_keeps_inv (hinv.frame s.inbox a s.result) ?_ h
      simp [State.ready, hinit, hinv.idle.1]
    | error e =>
      rw [hw] at h
      injection h with h
      exact h ▸ hrejected
  · injection h with h
    exact h ▸ hrejected

theorem takeInput_keeps_inv {input : HostInput} {s t : State} (hinv : s.Inv) (h : takeInput input s = .next t) :
    t.Inv := by
  cases input with
  | command w a => exact presentCommand_keeps_inv hinv h
  | initialise supported =>
    injection h with h
    exact h ▸ hinv.initialise supported
  | powerLoss =>
    injection h with h
    exact h ▸ hinv

/-- Settles O26: a step takes one input of the host, and each kind of input keeps the invariant. -/
theorem stepKeepsInvariant : Obligations.StepKeepsInvariant := by
  intro s t hinv h
  cases hin : s.inbox with
  | nil =>
    simp only [step, hin] at h
    injection h with h
    exact h ▸ hinv
  | cons input rest =>
    simp only [step, hin] at h
    exact takeInput_keeps_inv (hinv.frame rest s.args s.result) h

end Sys2Proof.Machine
end

section
/-! Field writes (20_memory.md R78, R79): what replacing a field does to every bit, and each grammar of
Sys2Proof/Safety.lean writes HDCP_CONFIG, HDCP_REP and PORT_REG only right after a read of the same register. -/

namespace Sys2Proof.Machine

open Sys2Proof

/-! ## The bits of a word with a field replaced -/

theorem ones_bit_of_lt (n : Nat) {j : Nat} (hj : j < 32) : (ones n).getLsbD j = decide (j < n) := by
  rw [ones, BitVec.getLsbD_ofNat, Nat.testBit_two_pow_sub_one]
  simp [hj]

/-- The law of `setField_bit` for every field, also one that does not lie inside the word. -/
theorem setField_bit_of_lt (f : Field) (w x : Word) {j : Nat} (hj : j < 32) :
    (setField f w x).getLsbD j = if f.lo ≤ j ∧ j < f.lo + f.width then x.getLsbD (j - f.lo) else w.getLsbD j := by
  have hones : (ones f.width).getLsbD (j - f.lo) = decide (j - f.lo < f.width) := ones_bit_of_lt _ (by omega)
  simp only [setField, BitVec.getLsbD_or, BitVec.getLsbD_and, BitVec.getLsbD_not, BitVec.getLsbD_shiftLeft, hones, hj,
    decide_true, Bool.true_and]
  by_cases hlo : j < f.lo
  · rw [if_neg (by omega)]
    simp [hlo]
  by_cases hhi : j < f.lo + f.width
  · rw [if_pos (by omega)]
    simp [hlo, show j - f.lo < f.width by omega]
  · rw [if_neg (by omega)]
    simp [hlo, show ¬ j - f.lo < f.width by omega]

/-! ## Runs whose field writes stand behind their reads -/

/-- A write of a register whose fields the block writes: HDCP_CONFIG, HDCP_REP or PORT_REG (20_memory.md R78, R79). -/
@[simp] def Event.isFieldWrite : Event → Bool
  | .cipherWrite .config _ | .cipherWrite .rep _ | .portWrite _ => true
  | _ => false

/-- A read of a register, and the write that replaces one field of the value read by a value the block writes there
(30_encoding.md R121, R122, R126). -/
inductive FieldUpdate (p : Params) : Event → Event → Prop where
  | mode (d : Word) {m : Nat} : m ∈ [p.modeOff, p.modeCaptureAn, p.modeAuthEnc] →
      FieldUpdate p (.cipherRead .config d) (.cipherWrite .config (setField p.cfgMode d (BitVec.ofNat 32 m)))
  | present (d : Word) (on : Bool) :
      FieldUpdate p (.cipherRead .rep d) (.cipherWrite .rep (setField (presentField p) d (bitWord on)))
  | control (d : Word) {m : BitVec 3} : m ∈ p.writtenControls →
      FieldUpdate p (.cipherRead .rep d) (.cipherWrite .rep (setField (controlField p) d (m.setWidth 32)))
  | portEnc (d : Word) (on : Bool) :
      FieldUpdate p (.portRead d) (.portWrite (setField ⟨p.portEncBit, 1⟩ d (bitWord on)))

/-- Every field write among the events is the second part of a field update. -/
inductive FieldTrace (p : Params) : List Event → Prop where
  | nil : FieldTrace p []
  | event {e : Event} {es : List Event} : e.isFieldWrite = false → FieldTrace p es → FieldTrace p (e :: es)
  | update {d e : Event} {es : List Event} : FieldUpdate p d e → FieldTrace p es → FieldTrace p (d :: e :: es)

section

variable {p : Params} {es es' : List Event}

theorem FieldTrace.append (h : FieldTrace p es) (h' : FieldTrace p es') : FieldTrace p (es ++ es') := by
  induction h with
  | nil => exact h'
  | event he _ ih => exact .event he ih
  | update hu _ ih => exact .update hu ih

theorem fieldTrace_of_no_fieldWrite (h : ∀ e ∈ es, e.isFieldWrite = false) : FieldTrace p es := by
  induction es with
  | nil => exact .nil
  | cons e es ih =>
    obtain ⟨he, hes⟩ := List.forall_mem_cons.1 h
    exact .event he (ih hes)

theorem FieldUpdate.first_is_read {d e : Event} (h : FieldUpdate p d e) : d.isFieldWrite = false := by
  cases h <;> rfl

/-- A field write stands right behind the read of its update. -/
theorem FieldTrace.behindRead (h : FieldTrace p es) {es1 es2 : List Event} {e : Event} (heq : es = es1 ++ e :: es2)
    (he : e.isFieldWrite = true) : ∃ es0 d, es1 = es0 ++ [d] ∧ FieldUpdate p d e := by
  induction h generalizing es1 with
  | nil => simp at heq
  | event hno _ ih =>
    cases es1 with
    | nil =>
      obtain ⟨rfl, -⟩ := List.cons.inj heq
      exact absurd (hno.symm.trans he) Bool.false_ne_true
    | cons a es1 =>
      obtain ⟨es0, d, rfl, hd⟩ := ih (List.cons.inj heq).2
      exact ⟨a :: es0, d, rfl, hd⟩
  | update hu _ ih =>
    match es1, heq with
    | [], heq =>
      obtain ⟨rfl, -⟩ := List.cons.inj heq
      exact absurd (hu.first_is_read.symm.trans he) Bool.false_ne_true
    | [a], heq =>
      obtain ⟨rfl, htail⟩ := List.cons.inj heq
      obtain ⟨rfl, -⟩ := List.cons.inj htail
      exact ⟨[], _, rfl, hu⟩
    | a :: b :: es1, heq =>
      obtain ⟨es0, d, rfl, hd⟩ := ih (List.cons.inj (List.cons.inj heq).2).2
      exact ⟨a :: b :: es0, d, rfl, hd⟩

end

/-! ## The shapes accesses are made of -/

section

variable {p : Params} {es : List Event}

theorem fieldTrace_reads (r : CipherReg) (vs : List Word) : FieldTrace p (vs.map (Event.cipherRead r)) :=
  fieldTrace_of_no_fieldWrite (by simp)

theorem PollHit.fieldTrace {r : CipherReg} {test : Word → Bool} (h : PollHit r test es) : FieldTrace p es := by
  obtain ⟨vs, v, -, -, -, rfl⟩ := h
  exact (fieldTrace_reads r vs).append (fieldTrace_reads r [v])

theorem PollMiss.fieldTrace {r : CipherReg} {test : Word → Bool} (h : PollMiss r test es) : FieldTrace p es := by
  obtain ⟨vs, -, -, rfl⟩ := h
  exact fieldTrace_reads r vs

theorem fieldTrace_raised (f : Failure) : FieldTrace p [.raised f] := .event rfl .nil

theorem fieldTrace_modeWrite {m : Nat} (hm : m ∈ [p.modeOff, p.modeCaptureAn, p.modeAuthEnc]) (d : Word) :
    FieldTrace p (modeWrite p m d) := .update (.mode d hm) .nil

theorem fieldTrace_modeOff (d : Word) : FieldTrace p (modeWrite p p.modeOff d) := fieldTrace_modeWrite (by simp) d

theorem fieldTrace_presentField (on : Bool) (d : Word) :
    FieldTrace p (fieldWrite .rep (presentField p) (bitWord on) d) := .update (.present d on) .nil

theorem fieldTrace_controlField {m : BitVec 3} (hm : m ∈ p.writtenControls) (d : Word) :
    FieldTrace p (fieldWrite .rep (controlField p) (m.setWidth 32) d) := .update (.control d hm) .nil

theorem fieldTrace_portWrites (on : Bool) (d : Word) : FieldTrace p (portWrites p on d) := .update (.portEnc d on) .nil

theorem fieldTrace_presentWrite (on : Bool) (d v : Word) : FieldTrace p (presentWrite p on d v) :=
  (fieldTrace_presentField on d).append (fieldTrace_reads .rep [v])

theorem fieldTrace_riComparison (b0 b1 : Byte) (v : Word) : FieldTrace p (riComparison b0 b1 v) :=
  fieldTrace_of_no_fieldWrite (by simp [riComparison])

theorem fieldTrace_vprimeWrites (v : VWords) : FieldTrace p (vprimeWrites v) :=
  fieldTrace_of_no_fieldWrite (by simp [vprimeWrites])

theorem fieldTrace_queryEvents (q : Option Byte) : FieldTrace p (queryEvents q) :=
  fieldTrace_of_no_fieldWrite (by cases q <;> simp [queryEvents])

/-! ## The micro-programs -/

theorem DisableTrace.fieldTrace {ok : Bool} {c : CtlState} (h : DisableTrace p es ok c) : FieldTrace p es := by
  have hcheck (v : Word) : FieldTrace p (disableCheck v) := .event rfl (.event rfl .nil)
  have hend (u : Word) : FieldTrace p (disableEnd p u) := .event rfl (fieldTrace_portWrites false u)
  cases h with
  | first d v u => exact ((fieldTrace_modeOff d).append (hcheck v)).append (hend u)
  | second d v w u => exact (((fieldTrace_modeOff d).append (hcheck v)).append (hcheck w)).append (hend u)
  | timeout d v w => exact (((fieldTrace_modeOff d).append (hcheck v)).append (hcheck w)).append (fieldTrace_raised _)

theorem fieldTrace_anSeeds (seed0 seed1 d : Word) : FieldTrace p (anSeeds p seed0 seed1 d) :=
  (fieldTrace_of_no_fieldWrite (by simp)).append (fieldTrace_modeWrite (by simp) d)

theorem KeyTrace.fieldTrace {r r' : Session} (h : KeyTrace p r es r') : FieldTrace p es := by
  obtain ⟨seed0, seed1, d, lo, hi, alo, ahi, ps, hps⟩ := h
  exact ((fieldTrace_anSeeds seed0 seed1 d).append hps.fieldTrace).append (fieldTrace_of_no_fieldWrite (by simp))

theorem ExchangeTrace.fieldTrace {r r' : Session} {k : Ksv} (h : ExchangeTrace p r k es r') : FieldTrace p es := by
  obtain ⟨es, r', hkey⟩ := h
  exact hkey.fieldTrace.append (fieldTrace_of_no_fieldWrite (by simp [sendAn, sendAksv, bksvRead]))

theorem fieldTrace_loadEvents (k : Ksv) (b : Byte) (d v u m : Word) : FieldTrace p (loadEvents p k b d v u m) := by
  have hpresent : FieldTrace p (if (bcaps p b).isRepeater then presentWrite p true d v else []) := by
    split
    · exact fieldTrace_presentWrite true d v
    · exact .nil
  have hread : FieldTrace p [.serialRead 0x40 1 (some [b])] := .event rfl .nil
  exact (((hread.append hpresent).append (fieldTrace_of_no_fieldWrite (by simp))).append
    (fieldTrace_portWrites true u)).append (fieldTrace_modeWrite (by simp) m)

theorem StartTrace.fieldTrace {r r' : Session} (h : StartTrace p r es r') : FieldTrace p es := by
  obtain ⟨k, b, d, v, u, m, es, r', hex, -⟩ := h
  exact hex.fieldTrace.append (fieldTrace_loadEvents k b d v u m)

theorem EnableTrace.fieldTrace {r r' : Session} {ok : Bool} {c : CtlState} (h : EnableTrace p r es ok c r') :
    FieldTrace p es := by
  cases h with
  | captureTimeout seed0 seed1 d d' ps hps =>
    exact (((fieldTrace_anSeeds seed0 seed1 d).append hps.fieldTrace).append (fieldTrace_modeOff d')).append
      (fieldTrace_raised _)
  | anFails es r' hkey | aksvFails es r' hkey | bksvFails es r' hkey =>
    exact hkey.fieldTrace.append (fieldTrace_of_no_fieldWrite (by simp [sendAn, sendAksv]))
  | badBksv k es r' hex | bcapsFails k es r' hex =>
    exact hex.fieldTrace.append (fieldTrace_of_no_fieldWrite (by simp))
  | riTimeout es ps r' hstart hps | riFails es ps r' hstart hps =>
    exact (hstart.fieldTrace.append hps.fieldTrace).append (fieldTrace_of_no_fieldWrite (by simp))
  | mismatch es ps r' b0 b1 v hstart hps | encrypting es ps r' b0 b1 v hstart hps =>
    exact (hstart.fieldTrace.append hps.fieldTrace).append (fieldTrace_riComparison b0 b1 v)

theorem LevelTrace.fieldTrace {r r' : Session} {on ok : Bool} {c : CtlState} (h : LevelTrace p r on es ok c r') :
    FieldTrace p es := by
  cases h with
  | disable _ _ _ hdisable => exact hdisable.fieldTrace
  | enable _ _ _ _ henable => exact henable.fieldTrace

theorem LinkTrace.fieldTrace {n : Nat} {r r' : Session} {ok : Bool} (h : LinkTrace p n r es ok r') :
    FieldTrace p es := by
  induction h with
  | broken => exact .nil
  | fails => exact .event rfl (fieldTrace_raised _)
  | intact n r b0 b1 v => exact fieldTrace_riComparison b0 b1 v
  | mismatch n r r' b0 b1 v ws es ok _ hwait _ ih =>
    obtain ⟨vs, rfl, -⟩ := hwait
    exact ((fieldTrace_riComparison b0 b1 v).append (fieldTrace_reads .status vs)).append ih

theorem BlocksTrace.fieldTrace {subs : List Byte} {ws : Option (List Word)} (h : BlocksTrace subs es ws) :
    FieldTrace p es := by
  induction h with
  | done => exact .nil
  | fails => exact fieldTrace_of_no_fieldWrite (by simp)
  | block _ _ _ _ _ _ _ _ _ ih => exact .event rfl ih

theorem VPrimeTrace.fieldTrace {v : Option VWords} (h : VPrimeTrace es v) : FieldTrace p es := by
  obtain ⟨ws, hblocks, -⟩ := h
  exact hblocks.fieldTrace

theorem FeedsTrace.fieldTrace {fs : List (BitVec 3 × Word)} {ok : Bool} (h : FeedsTrace p fs es ok)
    (hfs : ∀ f ∈ fs, f.1 ∈ p.writtenControls) : FieldTrace p es := by
  induction h with
  | done => exact .nil
  | feed f fs es es' ok hfeed _ ih =>
    obtain ⟨d, ps, hps, rfl⟩ := hfeed
    obtain ⟨hmode, hrest⟩ := List.forall_mem_cons.1 hfs
    exact (((fieldTrace_controlField hmode d).append hps.fieldTrace).append (.event rfl .nil)).append (ih hrest)
  | timeout f fs es htimeout =>
    obtain ⟨d, ps, hps, rfl⟩ := htimeout
    exact ((fieldTrace_controlField (hfs f (by simp)) d).append hps.fieldTrace).append (fieldTrace_raised _)

/-- The feeds of a computation: every control code is a text mode. -/
theorem fieldTrace_expectedFeeds {ksvs : List Byte} {count : Nat} {topology : BitVec 16} {ok : Bool}
    (h : FeedsTrace p (expectedFeeds p ksvs count topology) es ok) : FieldTrace p es := by
  refine h.fieldTrace fun f hf => ?_
  obtain ⟨n, hn⟩ := expectedFeeds_textMode hf
  exact hn ▸ textMode_mem_writtenControls p n

theorem CompareStart.fieldTrace {v : VWords} (h : CompareStart p v es) : FieldTrace p es := by
  obtain ⟨d, ps, hps, rfl⟩ := h
  exact ((fieldTrace_vprimeWrites v).append hps.fieldTrace).append
    (fieldTrace_controlField (by simp [Params.writtenControls]) d)

theorem CompareTrace.fieldTrace {v : VWords} {ok : Bool} (h : CompareTrace p v es ok) : FieldTrace p es := by
  cases h with
  | notReady ps hps => exact ((fieldTrace_vprimeWrites v).append hps.fieldTrace).append (fieldTrace_raised _)
  | ends es vs x hstart =>
    exact (hstart.fieldTrace.append (fieldTrace_reads .rep vs)).append (fieldTrace_reads .rep [x])
  | timeout es vs hstart => exact (hstart.fieldTrace.append (fieldTrace_reads .rep vs)).append (fieldTrace_raised _)

theorem fieldTrace_teardownEvents (d m : Word) : FieldTrace p (teardownEvents p d m) :=
  (fieldTrace_presentField false d).append (fieldTrace_modeOff m)

theorem fieldTrace_failEvents (revoked : Bool) (d m : Word) : FieldTrace p (failEvents p revoked d m) := by
  refine (fieldTrace_teardownEvents d m).append ?_
  split
  · exact fieldTrace_raised _
  · exact .nil

theorem VerifyTrace.fieldTrace {r r' : Session} {bytes : List Byte} {n : Nat} {topology : BitVec 16}
    {revoked torn : Bool} {st : Status} (h : VerifyTrace p r bytes n topology revoked es st torn r') :
    FieldTrace p es := by
  cases h with
  | vFails es d m hfeeds => exact (fieldTrace_expectedFeeds hfeeds).append (fieldTrace_failEvents revoked d m)
  | vprimeFails es es' d m hfeeds hv =>
    exact ((fieldTrace_expectedFeeds hfeeds).append hv.fieldTrace).append (fieldTrace_failEvents revoked d m)
  | rejected es es' es'' v same d m hfeeds hv hcompare =>
    exact (((fieldTrace_expectedFeeds hfeeds).append hv.fieldTrace).append hcompare.fieldTrace).append
      (fieldTrace_failEvents revoked d m)
  | verified es es' es'' v hfeeds hv hcompare =>
    exact ((fieldTrace_expectedFeeds hfeeds).append hv.fieldTrace).append hcompare.fieldTrace

theorem ActivateTrace.fieldTrace {rs : List Ksv} {r r' : Session} {st : Status} {torn : Bool}
    (h : ActivateTrace p rs r es st torn r') : FieldTrace p es := by
  have hreads (b t0 t1 : Byte) : FieldTrace p (topologyReads b t0 t1) := .event rfl (.event rfl .nil)
  have hlist (n : Nat) (a : Option (List Byte)) : FieldTrace p [.serialRead 0x43 (5 * n) a] := .event rfl .nil
  cases h with
  | bcapsFails | noRepeater | notReady | bstatusFails => exact fieldTrace_of_no_fieldWrite (by simp)
  | badTopology b t0 t1 => exact (hreads b t0 t1).append (fieldTrace_raised _)
  | noDevices b t0 t1 => exact hreads b t0 t1
  | presentFails b t0 t1 d v => exact (hreads b t0 t1).append (fieldTrace_presentWrite true d v)
  | fifoFails b t0 t1 d v d' m n =>
    exact ((((hreads b t0 t1).append (fieldTrace_presentWrite true d v)).append (hlist n none)).append
      (fieldTrace_teardownEvents d' m)).append (fieldTrace_raised _)
  | listRead b t0 t1 d v n bytes es st torn r' _ _ _ _ _ _ hverify =>
    exact (((hreads b t0 t1).append (fieldTrace_presentWrite true d v)).append (hlist n (some bytes))).append
      hverify.fieldTrace

theorem GetTrace.fieldTrace {c c' : CtlState} {r r' : Session} {st : Status} {level : Word} {q : Option Byte}
    (h : GetTrace p c r es st level q c' r') : FieldTrace p es := by
  cases h with
  | off v => exact .event rfl (fieldTrace_queryEvents q)
  | on v es q r' _ hlink => exact .event rfl (hlink.fieldTrace.append (fieldTrace_queryEvents q))
  | broken v es es' q r' ok c' _ hlink hdisable =>
    exact .event rfl ((hlink.fieldTrace.append hdisable.fieldTrace).append (fieldTrace_queryEvents q))

theorem ActionTrace.fieldTrace {params : CpParams} {rs : List Ksv} {c c' : CtlState} {r r' : Session} {st : Status}
    (h : ActionTrace p params rs c r es st c' r') : FieldTrace p es := by
  cases h with
  | verify _ _ _ _ hactivate => exact hactivate.fieldTrace
  | level _ _ _ _ hlevel => exact hlevel.fieldTrace

theorem SetTrace.fieldTrace {params : CpParams} {rs : List Ksv} {c c' : CtlState} {r r' : Session} {st : Status}
    {level : Word} {q : Option Byte} (h : SetTrace p params rs c r es st level q c' r') : FieldTrace p es := by
  cases h with
  | done q es c' r' haction => exact (fieldTrace_queryEvents q).append haction.fieldTrace
  | netted q es es' st ok c' c'' r' haction _ hdisable =>
    exact ((fieldTrace_queryEvents q).append haction.fieldTrace).append hdisable.fieldTrace

end

/-! ## Every operation -/

theorem LevelLaw.fieldTrace {s : State} {on ok : Bool} {es : List Event} {u : Regs} (h : LevelLaw s on ok es u) :
    FieldTrace s.prm es := by
  obtain ⟨-, -, rfl, -⟩ | ⟨-, hlevel, -⟩ := h
  · exact .nil
  · exact hlevel.fieldTrace

theorem OperationLaw.fieldTrace {i : Instr} {s : State} {r : Result} {es : List Event} {u : Regs}
    (h : OperationLaw s r es u i) : FieldTrace s.prm es := by
  cases i with
  | hdcpQuery | hdcpIsValidBksv | isRevoked =>
    obtain ⟨rfl, -⟩ := h
    exact .nil
  | hdcpIsEnabled =>
    obtain ⟨rfl | ⟨v, rfl⟩, -⟩ := h
    · exact .nil
    · exact .event rfl .nil
  | hdcpEnable | setEncryptionLevel =>
    obtain ⟨ok, -, hlevel⟩ := h
    exact hlevel.fieldTrace
  | hdcpGetCpData =>
    obtain ⟨-, -, rfl, -⟩ | ⟨-, st, level, q, -, htrace, -⟩ := h
    · exact .nil
    · exact htrace.fieldTrace
  | hdcpSetCpData =>
    obtain ⟨-, -, rfl, -⟩ | ⟨-, st, level, q, rs, -, -, htrace, -⟩ := h
    · exact .nil
    · exact htrace.fieldTrace
  | activateRepeater =>
    obtain ⟨st, torn, -, htrace, -⟩ := h
    exact htrace.fieldTrace
  | buildSha1Buffer =>
    obtain ⟨-, rfl, -⟩ := h
    exact .nil
  | computeTransmitterV =>
    obtain ⟨ok, ksvs, -, -, hfeeds, -⟩ := h
    exact fieldTrace_expectedFeeds hfeeds
  | compareVPrime =>
    obtain ⟨ok, -, htrace, -⟩ := h
    exact htrace.fieldTrace
  | getLinkStatus =>
    obtain ⟨ok, -, htrace, -⟩ := h
    exact htrace.fieldTrace
  | rxRead =>
    obtain ⟨rfl | ⟨-, -, rfl | ⟨bytes, rfl⟩⟩, -⟩ := h <;> exact fieldTrace_of_no_fieldWrite (by simp)
  | rxWrite =>
    obtain ⟨rfl | ⟨-, -, payload, -, rfl | rfl⟩, -⟩ := h <;> exact fieldTrace_of_no_fieldWrite (by simp)
  | rxReadVPrime =>
    obtain ⟨v, -, htrace, -⟩ := h
    exact htrace.fieldTrace
  | setRepeaterPresent on =>
    obtain ⟨d, v, -, rfl, -⟩ := h
    exact fieldTrace_presentWrite on d v
  | repeaterTeardown =>
    obtain ⟨d, m, -, rfl, -⟩ := h
    exact fieldTrace_teardownEvents d m

/-- Settles O19: a field write of a run stands right behind the read of its update, and the register it writes says
which update that is. -/
theorem fieldWritesAreReadModifyWrite : Obligations.FieldWritesAreReadModifyWrite := by
  refine ⟨fun f w x j hj => setField_bit_of_lt f w x hj, ?_⟩
  intro i s t r es1 es2 e hinv hready hs hrun
  obtain ⟨hlaw, -⟩ := hrun.law hinv.ksvbuf.1 hinv.shabuf.1 hready hs
  have hbehind (he : e.isFieldWrite = true) : ∃ es0 d, es1 = es0 ++ [d] ∧ FieldUpdate s.prm d e :=
    hlaw.fieldTrace.behindRead rfl he
  refine ⟨?config, ?rep, ?port⟩
  case config =>
    rintro v rfl
    obtain ⟨es0, _, rfl, hupdate⟩ := hbehind rfl
    cases hupdate with
    | mode d hm => exact ⟨es0, d, _, rfl, hm, rfl⟩
  case rep =>
    rintro v rfl
    obtain ⟨es0, _, rfl, hupdate⟩ := hbehind rfl
    cases hupdate with
    | present d on => exact ⟨es0, d, rfl, .inl ⟨on, rfl⟩⟩
    | control d hm => exact ⟨es0, d, rfl, .inr ⟨_, hm, rfl⟩⟩
  case port =>
    rintro v rfl
    obtain ⟨es0, _, rfl, hupdate⟩ := hbehind rfl
    cases hupdate with
    | portEnc d on => exact ⟨es0, d, on, rfl, rfl⟩

end Sys2Proof.Machine
end

section
/-! Command words (30_encoding.md R100, R101, R104, R107): a word is its fields put together, the decoder reads it by
the format of its opcode, and a step of a ready block runs the operation the word names. -/

namespace Sys2Proof.Machine

open Sys2Proof

/-! ## The fields of a word (30_encoding.md R101) -/

section

variable (w : Word)

/-- A word is the fields of format C0 put together. -/
theorem word_eq_fieldsC0 : w = w.extractLsb' 8 24 ++ opcodeField w := by
  unfold opcodeField
  rw [BitVec.extractLsb'_append_extractLsb'_eq_extractLsb' (start₁ := 0) (len₁ := 8) rfl, BitVec.extractLsb'_eq_self]

/-- A word is the fields of format C1 put together. -/
theorem word_eq_fieldsC1 : w = (w.extractLsb' 9 23 ++ BitVec.ofBool (onField w)) ++ opcodeField w := by
  have hon : BitVec.ofBool (onField w) = w.extractLsb' 8 1 := by
    rw [onField, BitVec.getLsbD_eq_extractLsb']
    generalize w.extractLsb' 8 1 = bit
    revert bit
    decide
  rw [hon, BitVec.extractLsb'_append_extractLsb'_eq_extractLsb' (start₁ := 8) (len₁ := 1) rfl]
  exact word_eq_fieldsC0 w

/-- A word is the fields of format C2 put together. -/
theorem word_eq_fieldsC2 : w = (w.extractLsb' 26 6 ++ sizeField w ++ subField w) ++ opcodeField w := by
  unfold sizeField subField
  rw [BitVec.extractLsb'_append_extractLsb'_eq_extractLsb' (start₁ := 16) (len₁ := 10) rfl,
    BitVec.extractLsb'_append_extractLsb'_eq_extractLsb' (start₁ := 8) (len₁ := 8) rfl]
  exact word_eq_fieldsC0 w

/-- The opcode, by arithmetic on the number the word is. -/
theorem opcodeField_eq_ofNat : opcodeField w = BitVec.ofNat 8 w.toNat := by
  rw [BitVec.ofNat_toNat, BitVec.setWidth_eq_extractLsb' (by decide), opcodeField]

variable {w}

theorem opcodeField_of_toNat {n : Nat} (h : (opcodeField w).toNat = n) : opcodeField w = BitVec.ofNat 8 n := by
  rw [← h, BitVec.ofNat_toNat, BitVec.setWidth_eq]

/-- The bits from `lo` up are 0 in the words below `2 ^ lo`. -/
theorem upperBits_eq_zero_iff {lo len : Nat} (h : lo + len = 32) : w.extractLsb' lo len = 0 ↔ w.toNat < 2 ^ lo := by
  have hw : w.toNat / 2 ^ lo < 2 ^ len :=
    Nat.div_lt_of_lt_mul (by rw [← Nat.pow_add, h]; exact w.isLt)
  rw [← BitVec.toNat_inj, BitVec.extractLsb'_toNat, Nat.shiftRight_eq_div_pow, Nat.mod_eq_of_lt hw]
  exact Nat.div_eq_zero_iff_lt (Nat.two_pow_pos lo)

/-- The size, by arithmetic on the number the word is. -/
theorem sizeField_eq_zero_iff : sizeField w = 0 ↔ w.toNat / 2 ^ 16 % 2 ^ 10 = 0 := by
  rw [← BitVec.toNat_inj, sizeField, BitVec.extractLsb'_toNat, Nat.shiftRight_eq_div_pow]
  rfl

end

@[simp] theorem opcodeField_append (bits : BitVec 24) (op : Byte) : opcodeField (bits ++ op) = op :=
  BitVec.extractLsb'_append_eq_right

/-! ## The formats (30_encoding.md R101) -/

theorem decodeC0_append (op : Byte) (i : Instr) : decodeC0 (0#24 ++ op) i = .ok i :=
  if_pos BitVec.extractLsb'_append_eq_left

theorem decodeC1_append (on : Bool) (op : Byte) (i : Bool → Instr) :
    decodeC1 ((0#23 ++ BitVec.ofBool on) ++ op) i = .ok (i on) := by
  have hzero : ((0#23 ++ BitVec.ofBool on) ++ op : Word).extractLsb' 9 23 = 0 := by
    rw [BitVec.extractLsb'_append_eq_of_le (by decide)]
    exact BitVec.extractLsb'_append_eq_left
  have hon : onField ((0#23 ++ BitVec.ofBool on) ++ op : Word) = on := by
    rw [onField, BitVec.getLsbD_append]
    cases on <;> rfl
  rw [decodeC1, if_pos hzero, hon]

theorem decodeC2_append (sub : Byte) {size : BitVec 10} (hsize : size ≠ 0) (op : Byte)
    (i : Byte → BitVec 10 → Instr) : decodeC2 ((0#6 ++ size ++ sub) ++ op) i = .ok (i sub size) := by
  have hzero : ((0#6 ++ size ++ sub) ++ op : Word).extractLsb' 26 6 = 0 := by
    rw [BitVec.extractLsb'_append_eq_of_le (by decide), BitVec.extractLsb'_append_eq_of_le (by decide)]
    exact BitVec.extractLsb'_append_eq_left
  have hsub : subField ((0#6 ++ size ++ sub) ++ op : Word) = sub := by
    rw [subField, BitVec.extractLsb'_append_eq_of_le (by decide)]
    exact BitVec.extractLsb'_append_eq_right
  have hsizeField : sizeField ((0#6 ++ size ++ sub) ++ op : Word) = size := by
    rw [sizeField, BitVec.extractLsb'_append_eq_of_le (by decide), BitVec.extractLsb'_append_eq_of_le (by decide)]
    exact BitVec.extractLsb'_append_eq_right
  rw [decodeC2, if_pos hzero, hsizeField, if_neg hsize, hsub]

theorem decodeC0_eq_ok {w : Word} {i j : Instr} (h : decodeC0 w i = .ok j) : j = i ∧ w = 0#24 ++ opcodeField w := by
  unfold decodeC0 at h
  split at h
  · next hzero =>
    injection h with h
    exact ⟨h.symm, (word_eq_fieldsC0 w).trans (by rw [hzero]; rfl)⟩
  · nomatch h

theorem decodeC1_eq_ok {w : Word} {i : Bool → Instr} {j : Instr} (h : decodeC1 w i = .ok j) :
    j = i (onField w) ∧ w = (0#23 ++ BitVec.ofBool (onField w)) ++ opcodeField w := by
  unfold decodeC1 at h
  split at h
  · next hzero =>
    injection h with h
    exact ⟨h.symm, (word_eq_fieldsC1 w).trans (by rw [hzero]; rfl)⟩
  · nomatch h

theorem decodeC2_eq_ok {w : Word} {i : Byte → BitVec 10 → Instr} {j : Instr} (h : decodeC2 w i = .ok j) :
    j = i (subField w) (sizeField w) ∧ sizeField w ≠ 0 ∧
      w = (0#6 ++ sizeField w ++ subField w) ++ opcodeField w := by
  unfold decodeC2 at h
  split at h
  · next hzero =>
    split at h
    · nomatch h
    · next hsize =>
      injection h with h
      exact ⟨h.symm, hsize, (word_eq_fieldsC2 w).trans (by rw [hzero]; rfl)⟩
  · nomatch h

theorem decodeC0_error_iff {w : Word} {i : Instr} : (∃ e, decodeC0 w i = .error e) ↔ 2 ^ 8 ≤ w.toNat := by
  rw [← Nat.not_lt, ← upperBits_eq_zero_iff (len := 24) rfl, decodeC0]
  split_ifs with hzero
  · exact iff_of_false nofun (not_not_intro hzero)
  · exact iff_of_true ⟨_, rfl⟩ hzero

theorem decodeC1_error_iff {w : Word} {i : Bool → Instr} : (∃ e, decodeC1 w i = .error e) ↔ 2 ^ 9 ≤ w.toNat := by
  rw [← Nat.not_lt, ← upperBits_eq_zero_iff (len := 23) rfl, decodeC1]
  split_ifs with hzero
  · exact iff_of_false nofun (not_not_intro hzero)
  · exact iff_of_true ⟨_, rfl⟩ hzero

theorem decodeC2_error_iff {w : Word} {i : Byte → BitVec 10 → Instr} :
    (∃ e, decodeC2 w i = .error e) ↔ 2 ^ 26 ≤ w.toNat ∨ w.toNat / 2 ^ 16 % 2 ^ 10 = 0 := by
  rw [← Nat.not_lt, ← upperBits_eq_zero_iff (len := 6) rfl, ← sizeField_eq_zero_iff, decodeC2]
  split_ifs with hzero hsize
  · exact iff_of_true ⟨_, rfl⟩ (.inr hsize)
  · exact iff_of_false nofun (not_or_intro (not_not_intro hzero) hsize)
  · exact iff_of_true ⟨_, rfl⟩ (.inl hzero)

/-! ## The decoder (30_encoding.md R100, R107) -/

/-- What decoding the word answers, by the format of its opcode; `hwf` and `hword` say which operations it can name
and what their words are. -/
inductive DecodedByFormat (w : Word) : Except Illegal Instr → Prop
  | c0 (i : Instr) (hop : opcodeField w ∈ opcodesC0) (hwf : i.wf = true) (hword : encode i = 0#24 ++ opcodeField w) :
      DecodedByFormat w (decodeC0 w i)
  | c1 (i : Bool → Instr) (hop : opcodeField w ∈ opcodesC1) (hwf : ∀ on, (i on).wf = true)
      (hword : ∀ on, encode (i on) = (0#23 ++ BitVec.ofBool on) ++ opcodeField w) : DecodedByFormat w (decodeC1 w i)
  | c2 (i : Byte → BitVec 10 → Instr) (hop : opcodeField w ∈ opcodesC2)
      (hwf : ∀ sub size, size ≠ 0 → (i sub size).wf = true)
      (hword : ∀ sub size, encode (i sub size) = (0#6 ++ size ++ sub) ++ opcodeField w) :
      DecodedByFormat w (decodeC2 w i)
  | unlisted (h0 : opcodeField w ∉ opcodesC0) (h1 : opcodeField w ∉ opcodesC1) (h2 : opcodeField w ∉ opcodesC2) :
      DecodedByFormat w (.error .unknownOpcode)

/-- Each row of R100 is decoded by its own format. -/
theorem decode_byFormat (w : Word) : DecodedByFormat w (decode w) := by
  unfold decode
  split
  case h_1 h | h_2 h | h_4 h | h_5 h | h_6 h | h_8 h | h_9 h | h_10 h | h_11 h | h_12 h | h_13 h | h_16 h | h_18 h =>
    have hop := opcodeField_of_toNat h
    exact .c0 _ (by rw [hop]; decide) rfl (by rw [hop]; rfl)
  case h_3 h | h_7 h | h_17 h =>
    have hop := opcodeField_of_toNat h
    exact .c1 _ (by rw [hop]; decide) (fun _ => rfl) (fun _ => by rw [hop]; rfl)
  case h_14 h | h_15 h =>
    have hop := opcodeField_of_toNat h
    exact .c2 _ (by rw [hop]; decide) (fun _ _ hsize => decide_eq_true hsize) (fun _ _ => by rw [hop]; rfl)
  case h_19 =>
    refine .unlisted ?_ ?_ ?_ <;> simp_all [opcodesC0, opcodesC1, opcodesC2, ← BitVec.toNat_inj]

/-- A well-formed operation's word decodes to the operation (30_encoding.md R101). -/
theorem decode_encode {i : Instr} (hwf : i.wf = true) : decode (encode i) = .ok i := by
  unfold decode encode
  rw [opcodeField_append]
  cases i with
  | hdcpEnable on | setEncryptionLevel on | setRepeaterPresent on => exact decodeC1_append on _ _
  | rxRead sub size | rxWrite sub size => exact decodeC2_append sub (of_decide_eq_true hwf) _ _
  | _ => exact decodeC0_append _ _

/-- Settles O2: the decoder finds the opcode in the low byte, and the row's format finds its fields above it. -/
theorem decodeOfEncode : Obligations.DecodeOfEncode := fun _ hwf => decode_encode hwf

/-- Settles O3: the bits the format fixes are 0, so the word is the fields of the operation put together. -/
theorem encodeOfDecode : Obligations.EncodeOfDecode := by
  intro w i hdecode
  have hformat := decode_byFormat w
  rw [hdecode] at hformat
  generalize hr : Except.ok i = r at hformat
  cases hformat with
  | c0 j hop hwf hword =>
    obtain ⟨rfl, hw⟩ := decodeC0_eq_ok hr.symm
    exact ⟨hwf, hword.trans hw.symm⟩
  | c1 j hop hwf hword =>
    obtain ⟨rfl, hw⟩ := decodeC1_eq_ok hr.symm
    exact ⟨hwf _, (hword _).trans hw.symm⟩
  | c2 j hop hwf hword =>
    obtain ⟨rfl, hsize, hw⟩ := decodeC2_eq_ok hr.symm
    exact ⟨hwf _ _ hsize, (hword _ _).trans hw.symm⟩
  | unlisted => nomatch hr

/-! ## Illegal words (30_encoding.md R104) -/

theorem opcodesC0_disjoint : ∀ op ∈ opcodesC0, op ∉ opcodesC1 ∧ op ∉ opcodesC2 := by decide

theorem opcodesC1_disjoint : ∀ op ∈ opcodesC1, op ∉ opcodesC0 ∧ op ∉ opcodesC2 := by decide

theorem opcodesC2_disjoint : ∀ op ∈ opcodesC2, op ∉ opcodesC0 ∧ op ∉ opcodesC1 := by decide

/-- The words the decoder rejects are R104's. -/
theorem decode_error_iff (w : Word) : (∃ e, decode w = .error e) ↔ IllegalWord w := by
  unfold IllegalWord
  rw [← opcodeField_eq_ofNat]
  have hformat := decode_byFormat w
  generalize decode w = r at hformat
  cases hformat with
  | c0 j hop =>
    obtain ⟨h1, h2⟩ := opcodesC0_disjoint _ hop
    rw [decodeC0_error_iff]
    simp [hop, h1, h2]
  | c1 j hop =>
    obtain ⟨h0, h2⟩ := opcodesC1_disjoint _ hop
    rw [decodeC1_error_iff]
    simp [hop, h0, h2]
  | c2 j hop =>
    obtain ⟨h0, h1⟩ := opcodesC2_disjoint _ hop
    rw [decodeC2_error_iff]
    simp [hop, h0, h1]
  | unlisted h0 h1 h2 => simp [h0, h1, h2]

/-! ## Commands presented to a ready block (30_encoding.md R102, R104, R107) -/

section

variable {s : State} {w : Word} {a : Args}

theorem State.ready_iff : s.ready = true ↔ s.initialised = true ∧ s.busy = false := by
  simp [State.ready]

theorem presentCommand_of_legal {i : Instr} (hready : s.ready = true) (hdecode : decode w = .ok i) :
    presentCommand w a s = exec i (s.withArgs a) := by
  obtain ⟨hinit, hidle⟩ := State.ready_iff.1 hready
  simp [presentCommand, hinit, hidle, hdecode]

theorem presentCommand_of_illegal {e : Illegal} (hready : s.ready = true) (hdecode : decode w = .error e) :
    presentCommand w a s = .next s.rejectCommand := by
  obtain ⟨hinit, hidle⟩ := State.ready_iff.1 hready
  simp [presentCommand, hinit, hidle, hdecode]

variable {rest : List HostInput} (hready : s.ready = true) (hinbox : s.inbox = .command w a :: rest)
include hready hinbox

theorem step_of_legal_command {i : Instr} (hdecode : decode w = .ok i) :
    step s = exec i { s with inbox := rest, args := a } := by
  rw [step, hinbox]
  exact presentCommand_of_legal (s := { s with inbox := rest }) hready hdecode

theorem step_of_illegal_command {e : Illegal} (hdecode : decode w = .error e) :
    step s = .next { s with inbox := rest, result := some (.status .invalidDeviceRequest) } := by
  rw [step, hinbox]
  exact presentCommand_of_illegal (s := { s with inbox := rest }) hready hdecode

end

/-- Settles O4: the decoder rejects R104's words, and a step of a ready block given one only answers. -/
theorem illegalWordsAreNotExecuted : Obligations.IllegalWordsAreNotExecuted := by
  refine ⟨decode_error_iff, ?_⟩
  intro s w a rest hready hinbox hillegal
  obtain ⟨e, hdecode⟩ := (decode_error_iff w).2 hillegal
  exact step_of_illegal_command hready hinbox hdecode

/-- Settles O5: a ready block neither refuses nor rejects a legal word. -/
theorem stepRunsDecodedOperation : Obligations.StepRunsDecodedOperation :=
  fun _ _ _ _ _ hready hinbox hdecode => step_of_legal_command hready hinbox hdecode

/-- A table word of 32 bits is placed whole. -/
theorem State.withFetchWord_toNat (s : State) (w : Word) : s.withFetchWord 32 w.toNat = s.withCommandWord w := by
  rw [State.withFetchWord, Nat.mod_eq_of_lt w.isLt, BitVec.ofNat_toNat, BitVec.setWidth_eq]

/-- Settles O6: the placed word is the operation's own, which decodes to it (O2), and the state it is placed in is
ready (O5). -/
theorem placedCommandRuns : Obligations.PlacedCommandRuns := by
  intro s i hwf
  rw [State.withFetchWord_toNat]
  exact step_of_legal_command (s := s.withCommandWord (encode i)) rfl rfl (decode_encode hwf)

/-! ## Result words (30_encoding.md R103, R124) -/

/-- The statuses, in the order of R124. -/
def Status.all : List Status :=
  [.success, .unsuccessful, .notSupported, .invalidDeviceRequest, .revokedHdcpDeviceAttached, .dataError, .pending,
    .invalidParameter]

theorem Status.mem_all (st : Status) : st ∈ Status.all := by cases st <;> decide

/-- A valid record gives each status a code of its own. -/
theorem valid_statusCodes_nodup {p : Params} (hp : p.valid = true) : (Status.all.map (Status.code p)).Nodup := by
  simp only [Params.valid, Params.codesValid, Bool.and_eq_true] at hp
  obtain ⟨⟨-, ⟨hnodup, -⟩, -⟩, -⟩ := hp
  exact of_decide_eq_true hnodup

theorem Status.code_injective {p : Params} (hp : p.valid = true) : Function.Injective (Status.code p) :=
  fun a b h => List.inj_on_of_nodup_map (valid_statusCodes_nodup hp) a.mem_all b.mem_all h

/-- Settles O8: a valid record has distinct codes; the words of the other kinds of result are fixed. -/
theorem resultWords : Obligations.ResultWords := by
  intro p hp
  exact ⟨fun a b h => Status.code_injective hp h, rfl, rfl, fun _ => rfl, fun _ => rfl, fun _ => rfl⟩

/-- Settles O1, word by word. -/
theorem sampleWordsDecode : Obligations.SampleWordsDecode := by
  unfold Obligations.SampleWordsDecode
  decide

end Sys2Proof.Machine
end

section
/-! Scripted answers (00_scope.md R6, log 4): what the accesses of a run find, read by read, where the host's scripts
say it; the laws of the accesses and of the bounded poll. -/

namespace Sys2Proof.Machine

open Sys2Proof

/-- The events `es` are answered from a point of a run on where the answers still to come are `cs` for the cipher and
`ss` for the serial channel. -/
def AnsweredFrom (p : Params) (cs : List Word) (ss : List (Option (List Byte))) (es : List Event) : Prop :=
  ∃ (c : Cipher × Word) (env : Env), env.cipher = cs ∧ env.serial = ss ∧ Answered p c env es

section

variable {p : Params} {cs : List Word} {ss : List (Option (List Byte))} {es : List Event}

/-- Every answer in a run is the environment's, from the start of the run on. -/
theorem answeredFrom_of_answered {s : State} (h : Answered s.prm (s.cipher, s.port) s.scripts es) :
    AnsweredFrom s.prm s.env.cipher s.env.serial es := ⟨_, s.scripts, rfl, rfl, h⟩

/-! ## The accesses -/

/-- An event that takes no answer of the two scripts. -/
theorem AnsweredFrom.skip {e : Event} (h : AnsweredFrom p cs ss (e :: es))
    (he : ∀ env : Env, (env.taken e).cipher = env.cipher ∧ (env.taken e).serial = env.serial) :
    AnsweredFrom p cs ss es := by
  obtain ⟨c, env, hc, hs, -, hrest⟩ := h
  exact ⟨_, _, (he env).1.trans hc, (he env).2.trans hs, hrest⟩

/-- A cipher read finds what the read-back law leaves of the next answer. -/
theorem AnsweredFrom.cipherRead {r : CipherReg} {v x : Word} (h : AnsweredFrom p (x :: cs) ss (.cipherRead r v :: es)) :
    AnsweredFrom p cs ss es ∧ ∃ c, v = readBack p c r x := by
  obtain ⟨c, env, hc, hs, ⟨d, hd, hv⟩, hrest⟩ := h
  obtain rfl := hd x (by rw [hc]; rfl)
  exact ⟨⟨_, { env with cipher := env.cipher.tail }, congrArg List.tail hc, hs, hrest⟩, c.1, hv⟩

/-- A read the read-back law leaves alone finds the next answer (10_state.md R58). -/
theorem AnsweredFrom.drawRead {r : CipherReg} {v x : Word} (h : AnsweredFrom p (x :: cs) ss (.cipherRead r v :: es))
    (hr : ∀ c, readBack p c r x = x) : AnsweredFrom p cs ss es ∧ v = x :=
  h.cipherRead.imp_right fun ⟨c, hv⟩ => hv.trans (hr c)

/-- A serial read succeeds or fails as the next answer does, and finds its bytes where they have the size asked for
(20_memory.md R81). -/
theorem AnsweredFrom.serialRead {sub : Byte} {size : Nat} {a x : Option (List Byte)}
    (h : AnsweredFrom p cs (x :: ss) (.serialRead sub size a :: es)) :
    AnsweredFrom p cs ss es ∧ a.isSome = x.isSome ∧ ∀ bs, x = some bs → bs.length = size → a = some bs := by
  obtain ⟨c, env, hc, hs, ⟨-, ha⟩, hrest⟩ := h
  exact ⟨⟨_, { env with serial := env.serial.tail }, hc, congrArg List.tail hs, hrest⟩, ha x (by rw [hs]; rfl)⟩

/-- A serial write succeeds or fails as the next answer does. -/
theorem AnsweredFrom.serialWrite {sub : Byte} {payload : List Byte} {ok : Bool} {x : Option (List Byte)}
    (h : AnsweredFrom p cs (x :: ss) (.serialWrite sub payload ok :: es)) :
    AnsweredFrom p cs ss es ∧ ok = x.isSome := by
  obtain ⟨c, env, hc, hs, ha, hrest⟩ := h
  exact ⟨⟨_, { env with serial := env.serial.tail }, hc, congrArg List.tail hs, hrest⟩, ha x (by rw [hs]; rfl)⟩

/-! ## The shapes accesses are made of -/

theorem AnsweredFrom.after_fieldWrite {r : CipherReg} {f : Field} {v d x : Word}
    (h : AnsweredFrom p (x :: cs) ss (fieldWrite r f v d ++ es)) : AnsweredFrom p cs ss es :=
  (AnsweredFrom.cipherRead h).1.skip fun _ => ⟨rfl, rfl⟩

theorem AnsweredFrom.after_portWrites {on : Bool} {u : Word} (h : AnsweredFrom p cs ss (portWrites p on u ++ es)) :
    AnsweredFrom p cs ss es :=
  (AnsweredFrom.skip h fun _ => ⟨rfl, rfl⟩).skip fun _ => ⟨rfl, rfl⟩

/-- A poll of HDCP_STATUS whose next answer passes the test makes one read (00_scope.md R13). -/
theorem PollHit.eq_first {test : Word → Bool} {ps : List Event} (hps : PollHit .status test ps) {x : Word}
    (h : AnsweredFrom p (x :: cs) ss (ps ++ es)) (hx : test x = true) :
    ps = [.cipherRead .status x] ∧ AnsweredFrom p cs ss es := by
  obtain ⟨vs, v, -, hmiss, -, rfl⟩ := hps
  cases vs with
  | nil =>
    obtain ⟨hrest, rfl⟩ := h.drawRead fun _ => rfl
    exact ⟨rfl, hrest⟩
  | cons w vs =>
    obtain ⟨-, rfl⟩ := h.drawRead fun _ => rfl
    simp [hmiss w (by simp)] at hx

/-- A poll of HDCP_STATUS that ran out found the test fail at its next answer. -/
theorem PollMiss.test_first {test : Word → Bool} {ps : List Event} (hps : PollMiss .status test ps) {x : Word}
    (h : AnsweredFrom p (x :: cs) ss (ps ++ es)) : test x = false := by
  obtain ⟨vs, hlen, hmiss, rfl⟩ := hps
  cases vs with
  | nil => cases hlen
  | cons w vs =>
    obtain ⟨-, rfl⟩ := h.drawRead fun _ => rfl
    exact hmiss w (by simp)

end

end Sys2Proof.Machine
end

section
/-! The operations of the controller (41_controller.md R140 to R157): from the laws of their micro-programs to their
runs, with the answers the collaborators gave, and what they leave in the cipher and the port register. -/

namespace Sys2Proof.Machine

open Sys2Proof

variable {α : Type}

/-! ## Runs of operations -/

/-- The run of an operation that makes its result of a micro-program's answer: the micro-program's law, and the
registers it ends with. -/
theorem runs_of_returns {i : Instr} {w : Word} {x : Op α} {f : α → Result}
    (he : ∀ s, exec i s = runOperation i w (do return f (← x)) s) {s : State} (hready : s.ready = true)
    {Q : α → List Event → State → Prop} (h : Gives x (s.start i) Q) :
    ∃ t a es u, Runs i s t (f a) es ∧ t.visible = (s.visible.replay es).withRegs t.regs ∧
      Answered s.prm (s.cipher, s.port) s.scripts es ∧ t.regs = u.regs ∧ Q a es u := by
  have hbody : Gives (do return f (← x)) (s.start i) fun r es u => ∃ a, r = f a ∧ Q a es u :=
    h.returns fun a _ _ hQ => ⟨a, rfl, hQ⟩
  obtain ⟨t, r, es, u, hrun, hvis, hans, a, rfl, hQ⟩ := runs_of_gives (he s) hready hbody
  have hregs : t.regs = u.regs := congrArg (fun v : Visible => Regs.mk v.ctlState v.ses v.ksvbuf v.shabuf v.args) hvis
  exact ⟨t, a, es, u, hrun, hregs ▸ hvis, hans, hregs, hQ⟩

/-- A run without events that keeps the registers only returns. -/
theorem Runs.onlyReturns {i : Instr} {s t : State} {r : Result} (hrun : Runs i s t r [])
    (hvis : t.visible = (s.visible.replay []).withRegs t.regs) (hregs : t.regs = s.regs) : OnlyReturns i s r :=
  ⟨t, hrun, by rw [hvis, hregs]; rfl⟩

/-- An operation of a ready block that no reset disturbs leaves it so. -/
theorem exec_keeps_ready {i : Instr} {s t : State} (hready : s.ready = true) (hs : s.undisturbed = true)
    (h : exec i s = .next t) : t.ready = true ∧ t.undisturbed = true := by
  obtain ⟨w, body, hbody, he⟩ := exec_tame i
  obtain ⟨r, v, es, ⟨-, -, -, -, -, hinit⟩, -, hrun⟩ := hbody.completed.outcomes (s.start i)
  rw [exec_ready he hready] at h
  injection h with h
  subst h
  obtain ⟨-, hok⟩ | ⟨u, -, -, l, c, -, -, -, -, -, hl, hc, -⟩ := hrun
  · rw [hok]
    refine ⟨State.ready_iff.2 ⟨hinit.trans (State.ready_iff.1 hready).1, rfl⟩, List.all_eq_true.2 fun l hl => ?_⟩
    exact List.all_eq_true.1 hs l (List.mem_of_mem_drop hl)
  · cases List.all_eq_true.1 (List.all_eq_true.1 hs l hl) _ hc

/-! ## Queries (41_controller.md R141, R142) -/

/-- Settles O29: the body reads the state and returns. -/
theorem queryReturnsCapability : Obligations.QueryReturnsCapability := by
  intro s hready hs
  have hs' : (s.start .hdcpQuery).undisturbed = true := hs
  obtain ⟨t, _, es, u, hrun, hvis, -, hregs, rfl, rfl, rfl⟩ := runs_of_returns (i := .hdcpQuery) (fun _ => rfl) hready
    (gives_get hs' (Q := fun a es u => a = s.start .hdcpQuery ∧ es = [] ∧ u = s.start .hdcpQuery) ⟨rfl, rfl, rfl⟩)
  exact hrun.onlyReturns hvis hregs

/-- Settles O30: the law of the body, on either side of the capability. -/
theorem isEnabledReadsHdcpOn : Obligations.IsEnabledReadsHdcpOn := by
  intro s hready hs
  have hs' : (s.start .hdcpIsEnabled).undisturbed = true := hs
  obtain ⟨t, b, es, u, hrun, hvis, -, hregs, hu, hlaw⟩ := runs_of_returns (i := .hdcpIsEnabled) (fun _ => rfl) hready
    (isEnabled_gives hs')
  rw [hu] at hregs
  obtain ⟨hsup, rfl, rfl⟩ | ⟨hsup, v, rfl, rfl⟩ := hlaw
  · exact ⟨fun _ => hrun.onlyReturns hvis hregs, fun hyes => absurd (hsup.symm.trans hyes) Bool.false_ne_true⟩
  · exact ⟨fun hno => absurd (hno.symm.trans hsup) Bool.false_ne_true, fun _ => ⟨t, v, hrun, by rw [hvis, hregs]; rfl⟩⟩

/-! ## HDCP_ENABLE behind its capability gate (41_controller.md R143) -/

section

variable {s : State} {u : Regs} {on ok : Bool} {es : List Event}

theorem LevelLaw.of_unsupported (h : LevelLaw s on ok es u) (hsup : s.hdcpSupported = false) :
    ok = false ∧ es = [] ∧ u = s.regs := by
  obtain ⟨-, h⟩ | ⟨hyes, -⟩ := h
  · exact h
  · simp [hsup] at hyes

theorem LevelLaw.of_supported (h : LevelLaw s on ok es u) (hsup : s.hdcpSupported = true) :
    LevelTrace s.prm s.ses on es ok u.ctlState u.ses ∧ u = { s.regs with ctlState := u.ctlState, ses := u.ses } := by
  obtain ⟨hno, -⟩ | ⟨-, h⟩ := h
  · simp [hsup] at hno
  · exact h

end

section

variable {p : Params} {r r' : Session} {es : List Event} {ok : Bool} {c : CtlState}

theorem LevelTrace.of_disable (h : LevelTrace p r false es ok c r') : DisableTrace p es ok c ∧ r' = r := by
  cases h with
  | disable _ _ _ htrace => exact ⟨htrace, rfl⟩

theorem LevelTrace.of_enable (h : LevelTrace p r true es ok c r') : EnableTrace p r es ok c r' := by
  cases h with
  | enable _ _ _ _ htrace => exact htrace

end

/-- HDCP_ENABLE in a ready block that no reset disturbs. -/
theorem hdcpEnable_runs {s : State} (hready : s.ready = true) (hs : s.undisturbed = true) (on : Bool) :
    ∃ t ok es, Runs (.hdcpEnable on) s t (.bool ok) es ∧ t.visible = (s.visible.replay es).withRegs t.regs ∧
      Answered s.prm (s.cipher, s.port) s.scripts es ∧ LevelLaw s on ok es t.regs := by
  have hs' : (s.start (.hdcpEnable on)).undisturbed = true := hs
  obtain ⟨t, ok, es, u, hrun, hvis, hans, hregs, hlaw⟩ := runs_of_returns (i := .hdcpEnable on) (fun _ => rfl) hready
    (enableHdcp_law hs' on)
  exact ⟨t, ok, es, hrun, hvis, hans, hregs ▸ hlaw⟩

/-- Settles O32: behind the open gate the law of HDCP_ENABLE is the grammar of a disable. -/
theorem disableSequence_holds : Obligations.DisableSequence := by
  intro s hready hs hsup
  obtain ⟨t, ok, es, hrun, hvis, -, hlaw⟩ := hdcpEnable_runs hready hs false
  obtain ⟨hlevel, hregs⟩ := hlaw.of_supported hsup
  obtain ⟨htrace, hses⟩ := hlevel.of_disable
  rw [hses] at hregs
  exact ⟨t, es, ok, _, htrace, hrun, by rw [hvis, hregs]; rfl⟩

/-- Settles O35: behind the open gate the law of HDCP_ENABLE is the grammar of an enable. -/
theorem enableSequence_holds : Obligations.EnableSequence := by
  intro s hready hs hsup
  obtain ⟨t, ok, es, hrun, hvis, -, hlaw⟩ := hdcpEnable_runs hready hs true
  obtain ⟨hlevel, hregs⟩ := hlaw.of_supported hsup
  exact ⟨t, es, ok, _, _, hlevel.of_enable, hrun, by rw [hvis, hregs]; rfl⟩

/-! ## SET_ENCRYPTION_LEVEL (41_controller.md R153) -/

/-- The whole of an undisturbed operation does not depend on the operation recorded. -/
theorem completed_of_tame {x : Op α} (hx : Tame x) {s : State} (hs : s.undisturbed = true) :
    ∃ (a : α) (u : State) (refusals : List (Word × Status)) (arrivals : List (List HostInput)),
      ∀ (i : Instr) (f : α → Result),
        completed (do return f (← x)) (s.start i) = .ok (f a) (u.ctx (some i) refusals arrivals) := by
  have hcalm (n : Nat) : Calm s.env.arrivals n := fun l hl => List.all_eq_true.1 hs l (List.mem_of_mem_take hl)
  obtain ⟨a, u, es, hrun, -⟩ := hx (s.start .hdcpQuery)
  have hbody (i : Instr) (f : α → Result) : (do return f (← x) : Op Result) (s.start i) = _ :=
    bind_ok (hrun (some i) s.refusals s.env.arrivals (hcalm _)) _
  have hend (i : Instr) (f : α → Result) : completed (do return f (← x)) (s.start i) = _ :=
    (bind_ok (hbody i f) _).trans (bind_ok (moment_ctx u (some i) _ (hcalm (accesses es + 1)).right) _)
  exact ⟨a, u, _, _, hend⟩

/-- Operations that make their results of the answer of one micro-program do the same and end alike, but for the
result. -/
theorem exec_returns {x : Op α} (hx : Tame x) {s : State} (hready : s.ready = true) (hs : s.undisturbed = true) :
    ∃ (a : α) (t : State), ∀ (i : Instr) (w : Word) (f : α → Result),
      (∀ s, exec i s = runOperation i w (do return f (← x)) s) →
        exec i s = .next { t with result := some (f a) } := by
  obtain ⟨a, u, refusals, arrivals, hend⟩ := completed_of_tame hx hs
  refine ⟨a, endOperation (.ok .nothing (u.ctx none refusals arrivals)), fun i w f he => ?_⟩
  rw [exec_ready he hready, hend i f]
  rfl

theorem encryptionLevel_eq (on : Bool) : encryptionLevel on = do return levelStatus (← enableHdcp on) := by
  refine bind_congr fun ok => ?_
  cases ok <;> rfl

/-- Settles O37: the two operations run one micro-program, and the result is made of its answer. -/
theorem setEncryptionLevelIsEnable : Obligations.SetEncryptionLevelIsEnable := by
  intro s on hready hs
  obtain ⟨t, ok, es, hrun, -⟩ := hdcpEnable_runs hready hs on
  obtain ⟨a, u, hexec⟩ := exec_returns (tame_enableHdcp on) hready hs
  have henable := hexec (.hdcpEnable on) _ .bool fun _ => rfl
  have hlevel := hexec (.setEncryptionLevel on) _ (fun ok => .status (levelStatus ok)) fun s => by
    change runOperation _ _ (do return .status (← encryptionLevel on)) s = _
    rw [encryptionLevel_eq, bind_assoc]
    rfl
  refine ⟨t, ok, es, hrun, ?_⟩
  obtain ⟨hexec, hresult, hbusy, hop, hpos, htrace⟩ := hrun
  obtain rfl : _ = t := Host.Outcome.next.inj (henable.symm.trans hexec)
  obtain rfl : a = ok := by injection hresult with h; injection h
  exact ⟨hlevel, rfl, hbusy, hop, hpos, htrace⟩

/-- Settles O31: the closed gate of HDCP_ENABLE, whose answer SET_ENCRYPTION_LEVEL maps (O37). -/
theorem capabilityGate : Obligations.CapabilityGate := by
  intro s on hready hs hsup
  obtain ⟨t, ok, es, hrun, hvis, -, hlaw⟩ := hdcpEnable_runs hready hs on
  obtain ⟨t', ok', es', hrun', hlevel⟩ := setEncryptionLevelIsEnable s on hready hs
  obtain ⟨rfl, hok, rfl⟩ := hrun.unique hrun'
  obtain rfl := Result.bool.inj hok
  obtain ⟨rfl, rfl, hregs⟩ := hlaw.of_unsupported hsup
  exact ⟨hrun.onlyReturns hvis hregs, hlevel.onlyReturns hvis hregs⟩

/-! ## SET_REPEATER_PRESENT (41_controller.md R154) -/

/-- A bit that is written as a field of its own reads back as written (20_memory.md R78). -/
theorem setField_oneBit (w : Word) {k : Nat} (hk : k < 32) (on : Bool) :
    (setField ⟨k, 1⟩ w (bitWord on)).getLsbD k = on := by
  rw [setField_bit_of_lt _ _ _ hk, if_pos (by simp)]
  cases on <;> simp [bitWord]

section

variable {p : Params} (hp : p.valid = true)
include hp

theorem valid_repPresent_lt : p.repPresent < 32 := by
  have h : (presentField p).lo + (presentField p).width ≤ 32 := by
    have hfits := (valid_repFields_fit hp).1
    simp only [Field.fits, Bool.and_eq_true, decide_eq_true_eq] at hfits
    exact hfits.2
  exact h

/-- `present` is the bit of its field. -/
theorem repPresent_eq_getField (v : Word) : repPresent p v = (getField (presentField p) v).getLsbD 0 := by
  rw [getField_bit _ (valid_repFields_fit hp).1]
  rfl

/-- A read of HDCP_REP after a write of `present` shows the bit written (10_state.md R58). -/
theorem repPresent_readBack_write (c : Cipher) (d w : Word) (on : Bool) :
    repPresent p (readBack p (c.write p .rep (setField (presentField p) d (bitWord on))) .rep w) = on := by
  have hread := (readBack_rep hp (c := c.write p .rep (setField (presentField p) d (bitWord on))) rfl w).1
  rw [repPresent_eq_getField hp, hread, ← repPresent_eq_getField hp]
  exact setField_oneBit d (valid_repPresent_lt hp) on

end

/-- SET_REPEATER_PRESENT in a ready block that no reset disturbs: the field write, and a read that finds what the
read-back law leaves of a draw. -/
theorem setRepeaterPresent_runs {s : State} (hready : s.ready = true) (hs : s.undisturbed = true) (on : Bool) :
    ∃ t d v w, Runs (.setRepeaterPresent on) s t (.bool (repPresent s.prm v == on)) (presentWrite s.prm on d v) ∧
      t.visible = s.visible.replay (presentWrite s.prm on d v) ∧
      v = readBack s.prm (s.cipher.write s.prm .rep (setField (presentField s.prm) d (bitWord on))) .rep w := by
  have hs' : (s.start (.setRepeaterPresent on)).undisturbed = true := hs
  obtain ⟨t, _, _, u, hrun, hvis, -, hregs, hu, d, v, w, rfl, rfl, hv⟩ :=
    runs_of_returns (i := .setRepeaterPresent on) (fun _ => rfl) hready (writeRepeaterPresent_gives hs' on)
  exact ⟨t, d, v, w, hrun, by rw [hvis, hregs, hu]; rfl, hv⟩

/-- Settles O38: the read-back law makes the read after the field write show the bit. -/
theorem setRepeaterPresent : Obligations.SetRepeaterPresent := by
  intro s on hp hready hs
  obtain ⟨t, d, v, w, hrun, hvis, hv⟩ := setRepeaterPresent_runs hready hs on
  have hread : repPresent s.prm v = on := hv ▸ repPresent_readBack_write hp s.cipher d w on
  have hcipher : t.cipher.rep = setField (presentField s.prm) d (bitWord on) :=
    congrArg (fun x : Visible => x.cipher.rep) hvis
  refine ⟨t, d, v, ?_, hread, ?_, hvis⟩
  · simpa [hread] using hrun
  · rw [hcipher]
    exact setField_oneBit d (valid_repPresent_lt hp) on

/-! ## Disables that succeed (41_controller.md R144, R156) -/

/-- What a disable that succeeded leaves in the cipher and the port register. -/
structure Cleared (p : Params) (c : Cipher × Word) : Prop where
  mode : getField p.cfgMode c.1.config = BitVec.ofNat 32 p.modeOff
  ri : c.1.ri = 0
  port : c.2.getLsbD p.portEncBit = false

section

variable {p : Params} {es : List Event}

theorem valid_portEncBit_lt (hp : p.valid = true) : p.portEncBit < 32 := by
  simp only [Params.valid, Params.addressesValid, Bool.and_eq_true] at hp
  obtain ⟨⟨⟨⟨⟨⟨-, hbit⟩, -⟩, -⟩, -⟩, -⟩, -⟩ := hp
  exact of_decide_eq_true hbit

/-- The mode write and the last three accesses of a disable clear what it has to clear, whatever reads lie between
them. -/
theorem DisableTrace.cleared (hp : p.valid = true) {c : CtlState} (h : DisableTrace p es true c) (x : Cipher × Word) :
    Cleared p (es.foldl (Event.applyTo p) x) := by
  cases h with
  | first d v u | second d v w u =>
    exact ⟨getField_cfgMode_setField hp (by simp) d, rfl, setField_oneBit u (valid_portEncBit_lt hp) false⟩

/-- The first check of a disable reads the answer after that of the mode write. -/
theorem DisableTrace.first_of_answered {d x : Word} {cs : List Word} {ss : List (Option (List Byte))} {ok : Bool}
    {c : CtlState} (h : DisableTrace p es ok c) (hA : AnsweredFrom p (d :: x :: cs) ss es)
    (hx : disabledNow p x = true) : ok = true ∧ accesses es = 7 := by
  have hfirst {d' v : Word} {rest : List Event}
      (hA : AnsweredFrom p (d :: x :: cs) ss (modeWrite p p.modeOff d' ++ (disableCheck v ++ rest))) : v = x :=
    (AnsweredFrom.drawRead (hA.after_fieldWrite.skip fun _ => ⟨rfl, rfl⟩) fun _ => rfl).2
  cases h with
  | first d' v u => exact ⟨rfl, rfl⟩
  | second d' v w u hv | timeout d' v w hv =>
    simp only [List.append_assoc] at hA
    simp [hfirst hA, hx] at hv

end

/-- What a disable of a ready block that returned true leaves (41_controller.md R144). -/
theorem hdcpDisable_cleared {s t : State} (hp : s.prm.valid = true) (hready : s.ready = true)
    (hs : s.undisturbed = true) (hexec : exec (.hdcpEnable false) s = .next t)
    (hresult : t.result = some (.bool true)) :
    t.prm = s.prm ∧ Cleared s.prm (t.cipher, t.port) ∧ t.ctlState = .off := by
  obtain ⟨t', ok, es, ⟨hexec', hresult', -⟩, hvis, -, hlaw⟩ := hdcpEnable_runs hready hs false
  obtain rfl : t' = t := Host.Outcome.next.inj (hexec'.symm.trans hexec)
  obtain rfl : ok = true := Result.bool.inj (Option.some.inj (hresult'.symm.trans hresult))
  have hsup : s.hdcpSupported = true := by
    by_contra hno
    obtain ⟨hok, -⟩ := hlaw.of_unsupported (by simpa using hno)
    cases hok
  have hcollab : (t'.cipher, t'.port) = es.foldl (Event.applyTo s.prm) (s.cipher, s.port) :=
    congrArg (fun v : Visible => (v.cipher, v.port)) hvis
  obtain ⟨hlevel, -⟩ := hlaw.of_supported hsup
  obtain ⟨htrace, -⟩ := hlevel.of_disable
  exact ⟨congrArg Visible.prm hvis, hcollab ▸ htrace.cleared hp _, hlaw.ctlState_eq hsup⟩

/-- Settles O33: the first check reads the scripted answer, so the disable ends there. -/
theorem disableSucceedsWhenClear : Obligations.DisableSucceedsWhenClear := by
  intro s d v rest hp hready hs hsup hscript hclear
  obtain ⟨t, ok, es, hrun, -, hans, hlaw⟩ := hdcpEnable_runs hready hs false
  have hA := answeredFrom_of_answered hans
  rw [hscript] at hA
  obtain ⟨hlevel, -⟩ := hlaw.of_supported hsup
  obtain ⟨htrace, -⟩ := hlevel.of_disable
  obtain ⟨rfl, hcount⟩ := htrace.first_of_answered hA hclear
  have ⟨hexec, hresult, _⟩ := hrun
  obtain ⟨-, ⟨hmode, hri, hport⟩, hctl⟩ := hdcpDisable_cleared hp hready hs hexec hresult
  exact ⟨t, es, hrun, hctl, hri, hport, hmode, hcount⟩

/-- Settles O34: each of the two ends as a disable that succeeds does, the second from the ready block the first
leaves. -/
theorem disableTwice : Obligations.DisableTwice := by
  intro s t u hp hready hs hexec hresult hexec' hresult' x hx
  obtain ⟨hready', hs'⟩ := exec_keeps_ready hready hs hexec
  obtain ⟨hprm, hcleared, hctl⟩ := hdcpDisable_cleared hp hready hs hexec hresult
  have hsecond := hdcpDisable_cleared (hprm ▸ hp) hready' hs' hexec' hresult'
  rw [hprm] at hsecond
  obtain ⟨-, hcleared', hctl'⟩ := hsecond
  obtain rfl | rfl := hx
  · exact ⟨hcleared.mode, hcleared.ri, hcleared.port, hctl⟩
  · exact ⟨hcleared'.mode, hcleared'.ri, hcleared'.port, hctl'⟩

end Sys2Proof.Machine
end

section
/-! An enable whose answers are all good (41_controller.md R145, its example): the scripts that say so, and the one end
of the enable sequence they leave. -/

namespace Sys2Proof.Machine

open Sys2Proof

/-- The answers of an enable that reaches its last read with each poll ended at its first: what its cipher reads, of a
receiver that is no repeater, and its five transactions find. -/
structure EnableScript where
  (captureMode an anLow anHi aksvLo aksvHi encryptMode ri final : Word)
  (anSent aksvSent bksv : List Byte)
  (bcaps ri0 ri1 : Byte)

/-- The cipher's answers, then others. -/
def EnableScript.cipher (g : EnableScript) (rest : List Word) : List Word :=
  g.captureMode :: g.an :: g.anLow :: g.anHi :: g.aksvLo :: g.aksvHi :: g.encryptMode :: g.ri :: g.final :: rest

/-- The serial channel's answers, then others. -/
def EnableScript.serial (g : EnableScript) (rest : List (Option (List Byte))) : List (Option (List Byte)) :=
  some g.anSent :: some g.aksvSent :: some g.bksv :: some [g.bcaps] :: some [g.ri0, g.ri1] :: rest

/-- The answers are good: each passes its check. -/
structure EnableScript.Good (p : Params) (g : EnableScript) : Prop where
  an : anReady p g.an = true
  ri : riReady p g.ri = true
  final : riMatch p g.final = true
  length : g.bksv.length = 5
  weight : (Ksv.ofBytes g.bksv).weight = ksvWeight
  receiver : (Machine.bcaps p g.bcaps).isRepeater = false

/-- The session registers hold An and Aksv as read (41_controller.md R147). -/
def EnableScript.Keys (g : EnableScript) (r : Session) : Prop :=
  r.an = g.anHi ++ g.anLow ∧ r.aksv = g.aksvHi.setWidth 8 ++ g.aksvLo

/-- The accesses after the read of Bksv, `d`, `v`, `u` and `m` being values no script fixes (41_controller.md R150 to
R152, R155). -/
def EnableScript.lastEvents (p : Params) (g : EnableScript) (d v u m : Word) : List Event :=
  loadEvents p (Ksv.ofBytes g.bksv) g.bcaps d v u m ++ [.cipherRead .status g.ri] ++ riComparison g.ri0 g.ri1 g.final

/-- The first word of Bksv (41_controller.md R151). -/
theorem leWord_take_four {bs : List Byte} (h : bs.length = 5) :
    leWord (bs.take 4) = (Ksv.ofBytes bs).b3 ++ (Ksv.ofBytes bs).b2 ++ (Ksv.ofBytes bs).b1 ++ (Ksv.ofBytes bs).b0 := by
  match bs, h with
  | [b0, b1, b2, b3, _], _ => exact leWord_four b0 b1 b2 b3

section

variable {p : Params} {r r' : Session} {es es' : List Event} {cs : List Word} {ss : List (Option (List Byte))}

theorem AnsweredFrom.after_anSeeds {x seed0 seed1 d : Word}
    (h : AnsweredFrom p (x :: cs) ss (anSeeds p seed0 seed1 d ++ es)) : AnsweredFrom p cs ss es :=
  AnsweredFrom.after_fieldWrite (((((AnsweredFrom.skip h fun _ => ⟨rfl, rfl⟩).skip fun _ => ⟨rfl, rfl⟩).skip
    fun _ => ⟨rfl, rfl⟩).skip fun _ => ⟨rfl, rfl⟩).skip fun _ => ⟨rfl, rfl⟩)

variable {g : EnableScript}

/-- An Ri comparison finds the answers (41_controller.md R155). -/
theorem AnsweredFrom.riComparison_eq {b0 b1 : Byte} {v : Word}
    (h : AnsweredFrom p (g.final :: cs) (some [g.ri0, g.ri1] :: ss) (riComparison b0 b1 v)) :
    b0 = g.ri0 ∧ b1 = g.ri1 ∧ v = g.final := by
  obtain ⟨hrest, -, hbytes⟩ := AnsweredFrom.serialRead h
  obtain ⟨-, hv⟩ := AnsweredFrom.drawRead (AnsweredFrom.skip hrest fun _ => ⟨rfl, rfl⟩) fun _ => rfl
  obtain ⟨h0, h1⟩ : b0 = g.ri0 ∧ b1 = g.ri1 := by simpa using hbytes [g.ri0, g.ri1] rfl rfl
  exact ⟨h0, h1, hv⟩

variable (hg : g.Good p)
include hg

/-- A receiver that is no repeater: BCaps, Bksv into the cipher, encryption on. -/
theorem AnsweredFrom.after_loadEvents {x : Word} {k : Ksv} {b : Byte} {d v u m : Word}
    (h : AnsweredFrom p (x :: cs) (some [g.bcaps] :: ss) (loadEvents p k b d v u m ++ es)) :
    AnsweredFrom p cs ss es ∧ b = g.bcaps := by
  simp only [loadEvents, List.append_assoc, List.cons_append, List.nil_append] at h
  obtain ⟨hrest, -, hbyte⟩ := h.serialRead
  have hb : b = g.bcaps := by simpa using hbyte [g.bcaps] rfl rfl
  rw [hb, if_neg (by simp [hg.receiver])] at hrest
  exact ⟨((AnsweredFrom.skip hrest fun _ => ⟨rfl, rfl⟩).skip fun _ => ⟨rfl, rfl⟩).after_portWrites.after_fieldWrite, hb⟩

/-- An and Aksv are the answers after that of the An poll (41_controller.md R146, R147). -/
theorem KeyTrace.answers (h : KeyTrace p r es r') (hA : AnsweredFrom p (g.cipher cs) ss (es ++ es')) :
    AnsweredFrom p (g.encryptMode :: g.ri :: g.final :: cs) ss es' ∧ g.Keys r' := by
  obtain ⟨seed0, seed1, d, lo, hi, alo, ahi, ps, hps⟩ := h
  simp only [List.append_assoc, List.cons_append, List.nil_append] at hA
  obtain ⟨-, hA⟩ := hps.eq_first hA.after_anSeeds hg.an
  obtain ⟨hA, hlo⟩ := hA.drawRead fun _ => rfl
  obtain ⟨hA, hhi⟩ := hA.drawRead fun _ => rfl
  obtain ⟨hA, halo⟩ := hA.drawRead fun _ => rfl
  obtain ⟨hA, hahi⟩ := hA.drawRead fun _ => rfl
  exact ⟨hA, by rw [hlo, hhi], by rw [halo, hahi]⟩

/-- Bksv is the answer of the third transaction (41_controller.md R148, R149). -/
theorem ExchangeTrace.answers {k : Ksv} (h : ExchangeTrace p r k es r')
    (hA : AnsweredFrom p (g.cipher cs) (g.serial ss) (es ++ es')) :
    AnsweredFrom p (g.encryptMode :: g.ri :: g.final :: cs) (some [g.bcaps] :: some [g.ri0, g.ri1] :: ss) es' ∧
      k = Ksv.ofBytes g.bksv ∧ g.Keys r' := by
  obtain ⟨es, r', hkey⟩ := h
  rw [List.append_assoc] at hA
  obtain ⟨hA, hkeys⟩ := hkey.answers hg hA
  obtain ⟨hA, -⟩ := AnsweredFrom.serialWrite hA
  obtain ⟨hA, -⟩ := AnsweredFrom.serialWrite hA
  obtain ⟨hA, -, hbytes⟩ := AnsweredFrom.serialRead hA
  have hk : k.bytes = g.bksv := Option.some.inj (hbytes _ rfl hg.length)
  exact ⟨hA, hk ▸ rfl, hkeys⟩

/-- The run up to the Ri-ready poll. -/
theorem StartTrace.answers (h : StartTrace p r es r') (hA : AnsweredFrom p (g.cipher cs) (g.serial ss) (es ++ es')) :
    AnsweredFrom p (g.ri :: g.final :: cs) (some [g.ri0, g.ri1] :: ss) es' ∧ g.Keys r' ∧
      ∃ es0 d v u m, es = es0 ++ loadEvents p (Ksv.ofBytes g.bksv) g.bcaps d v u m := by
  obtain ⟨k, b, d, v, u, m, es, r', hex, -⟩ := h
  rw [List.append_assoc] at hA
  obtain ⟨hA, hk, hkeys⟩ := hex.answers hg hA
  obtain ⟨hA, hb⟩ := hA.after_loadEvents hg
  exact ⟨hA, hkeys, es, d, v, u, m, by rw [hk, hb]⟩

/-- The run up to the end of the Ri-ready poll, which the first read ends. -/
theorem StartTrace.answers_poll {ps : List Event} (h : StartTrace p r es r') (hps : PollHit .status (riReady p) ps)
    (hA : AnsweredFrom p (g.cipher cs) (g.serial ss) (es ++ ps ++ es')) :
    AnsweredFrom p (g.final :: cs) (some [g.ri0, g.ri1] :: ss) es' ∧ g.Keys r' ∧ ∃ es0 d v u m,
      es ++ ps = es0 ++ loadEvents p (Ksv.ofBytes g.bksv) g.bcaps d v u m ++ [.cipherRead .status g.ri] := by
  rw [List.append_assoc] at hA
  obtain ⟨hA, hkeys, es0, d, v, u, m, hes⟩ := h.answers hg hA
  obtain ⟨hps, hA⟩ := hps.eq_first hA hg.ri
  exact ⟨hA, hkeys, es0, d, v, u, m, by rw [hes, hps]⟩

/-- Good answers leave one end of the enable sequence, the last. -/
theorem EnableTrace.answers {ok : Bool} {c : CtlState} (h : EnableTrace p r es ok c r')
    (hA : AnsweredFrom p (g.cipher cs) (g.serial ss) es) :
    ok = true ∧ g.Keys r' ∧ ∃ es0 d v u m, es = es0 ++ g.lastEvents p d v u m := by
  cases h with
  | captureTimeout seed0 seed1 d d' ps hps =>
    simp only [List.append_assoc] at hA
    simpa [hg.an] using hps.test_first hA.after_anSeeds
  | anFails es r' hkey =>
    obtain ⟨hA, -⟩ := hkey.answers hg hA
    obtain ⟨-, hok⟩ := hA.serialWrite
    cases hok
  | aksvFails es r' hkey =>
    obtain ⟨hA, -⟩ := hkey.answers hg hA
    obtain ⟨hA, -⟩ := hA.serialWrite
    obtain ⟨-, hok⟩ := hA.serialWrite
    cases hok
  | bksvFails es r' hkey =>
    obtain ⟨hA, -⟩ := hkey.answers hg hA
    obtain ⟨hA, -⟩ := hA.serialWrite
    obtain ⟨hA, -⟩ := hA.serialWrite
    obtain ⟨-, hsome, -⟩ := hA.serialRead
    cases hsome
  | badBksv k es r' hex hk =>
    obtain ⟨-, rfl, -⟩ := hex.answers hg hA
    exact absurd hg.weight hk
  | bcapsFails k es r' hex =>
    obtain ⟨hA, -⟩ := hex.answers hg hA
    obtain ⟨-, hsome, -⟩ := hA.serialRead
    cases hsome
  | riTimeout es ps r' hstart hps =>
    rw [List.append_assoc] at hA
    obtain ⟨hA, -⟩ := hstart.answers hg hA
    simpa [hg.ri] using hps.test_first hA
  | riFails es ps r' hstart hps =>
    obtain ⟨hA, -⟩ := hstart.answers_poll hg hps hA
    obtain ⟨-, hsome, -⟩ := hA.serialRead
    cases hsome
  | mismatch es ps r' b0 b1 v hstart hps hv =>
    obtain ⟨hA, -⟩ := hstart.answers_poll hg hps hA
    obtain ⟨-, -, rfl⟩ := hA.riComparison_eq
    simp [hg.final] at hv
  | encrypting es ps r' b0 b1 v hstart hps =>
    obtain ⟨hA, hkeys, es0, d, x, u, m, hes⟩ := hstart.answers_poll hg hps hA
    obtain ⟨rfl, rfl, rfl⟩ := hA.riComparison_eq
    exact ⟨rfl, hkeys, es0, d, x, u, m, by simp only [hes, EnableScript.lastEvents, List.append_assoc]⟩

/-- The last accesses leave Bksv and Ri′, as read, in the cipher (41_controller.md R151, R155). -/
theorem cipher_after_lastEvents (d v u m : Word) (x : Cipher × Word) :
    let c := ((g.lastEvents p d v u m).foldl (Event.applyTo p) x).1
    c.bksvLo = leWord (g.bksv.take 4) ∧ c.bksvHi = (g.bksv.getD 4 0).setWidth 32 ∧
      c.ri = (g.ri1 ++ g.ri0).setWidth 32 := by
  rw [EnableScript.lastEvents, loadEvents, if_neg (by simp [hg.receiver])]
  exact ⟨(leWord_take_four hg.length).symm, rfl, rfl⟩

end

/-- Settles O36: the accesses of an enable with good answers (O35), and what its last writes leave. -/
theorem goodAnswersEncrypt : Obligations.GoodAnswersEncrypt := by
  intro s d a lo hi alo ahi m y f rest w0 w1 kb b b0 b1 rest' hready hs hsup hcipher hserial ha hy hf hkb hweight hb
  have hg : EnableScript.Good s.prm ⟨d, a, lo, hi, alo, ahi, m, y, f, w0, w1, kb, b, b0, b1⟩ :=
    ⟨ha, hy, hf, hkb, hweight, hb⟩
  obtain ⟨t, ok, es, hrun, hvis, hans, hlaw⟩ := hdcpEnable_runs hready hs true
  have hA := answeredFrom_of_answered hans
  rw [hcipher, hserial] at hA
  obtain ⟨hlevel, -⟩ := hlaw.of_supported hsup
  obtain ⟨rfl, ⟨han, haksv⟩, es0, d', v, u, m', rfl⟩ := hlevel.of_enable.answers hg hA
  have hc : t.cipher = (List.foldl (Event.applyTo s.prm) _ _).1 := congrArg Visible.cipher hvis
  rw [List.foldl_append] at hc
  obtain ⟨hlo, hhi, hri⟩ := hc ▸ cipher_after_lastEvents hg d' v u m' _
  exact ⟨t, _, hrun, hlaw.ctlState_eq hsup, hlo, hhi, hri, han, haksv, by simp [EnableScript.lastEvents, riComparison]⟩

end Sys2Proof.Machine
end

section
/-! The receiver I/O operations (42_receiver_io.md R170 to R174): what each of their micro-programs does on either side
of its checks, with the registers it leaves, and the runs that follow. -/

namespace Sys2Proof.Machine

open Sys2Proof

/-! ## What the micro-programs do -/

section

variable {sub : Byte} {size : BitVec 10} {s : State}

theorem rxReadCommand_zero (sub : Byte) : rxReadCommand sub 0 = pure (.status .invalidDeviceRequest) := if_pos rfl

theorem rxWriteCommand_zero (sub : Byte) : rxWriteCommand sub 0 = pure (.status .invalidDeviceRequest) := if_pos rfl

theorem toNat_pos_of_size_ne_zero (hsize : size ≠ 0) : 0 < size.toNat := by bv_omega

theorem rxReadCommand_of_crosses (hsize : size ≠ 0) (hcross : CrossesRegions sub size.toNat) :
    rxReadCommand sub size = pure (.io false) :=
  (if_neg hsize).trans (if_pos ((crossesRegions_iff sub (toNat_pos_of_size_ne_zero hsize)).2 hcross))

theorem rxWriteCommand_of_writesAinfo (hsize : size ≠ 0) (hainfo : WritesAinfo sub size.toNat) :
    rxWriteCommand sub size = pure (.io false) :=
  (if_neg hsize).trans (if_pos ((touches_ainfo_iff sub (toNat_pos_of_size_ne_zero hsize)).2 hainfo))

/-- A read that goes across no two regions either puts its bytes over the start of the caller's buffer or fails, raised
once (42_receiver_io.md R170, R172). -/
theorem rxReadCommand_gives (hs : s.undisturbed = true) (hsize : size ≠ 0) (hcross : ¬ CrossesRegions sub size.toNat) :
    Gives (rxReadCommand sub size) s fun r es t =>
      (∃ bytes, bytes.length = size.toNat ∧ r = .io true ∧ es = [.serialRead sub size.toNat (some bytes)] ∧
          t.regs = { s.regs with args := { s.args with buffer := bytes ++ s.args.buffer.drop size.toNat } }) ∨
        (r = .io false ∧ es = [.serialRead sub size.toNat none, .raised (.serialIOFailure sub)] ∧
          t.regs = s.regs) := by
  rw [← crossesRegions_iff sub (toNat_pos_of_size_ne_zero hsize)] at hcross
  rw [rxReadCommand, if_neg hsize, if_neg hcross]
  refine (rxRead_gives hs sub size.toNat).bind fun a es t ht _ _ ⟨hregs, h⟩ => ?_
  obtain ⟨rfl, rfl⟩ | ⟨bytes, rfl, hlen, rfl⟩ := h
  · exact gives_pure ht _ (.inr ⟨rfl, rfl, hregs⟩)
  · refine (setArgs_gives ht _).bind fun _ es u hu _ _ ⟨hes, hargs, _⟩ => gives_pure hu _ (.inl ⟨bytes, hlen, rfl, ?_⟩)
    rw [hargs, hregs, hes, overwrite, hlen]
    exact ⟨rfl, rfl⟩

/-- A write that leaves AINFO alone sends the caller's bytes once, and its failure is raised once (42_receiver_io.md
R171). -/
theorem rxWriteCommand_gives (hs : s.undisturbed = true) (hsize : size ≠ 0) (hainfo : ¬ WritesAinfo sub size.toNat) :
    Gives (rxWriteCommand sub size) s fun r es t => t.regs = s.regs ∧
      ∃ payload, Supplies s.args.buffer payload size.toNat ∧
        ((r = .io true ∧ es = [.serialWrite sub payload true]) ∨
          (r = .io false ∧ es = [.serialWrite sub payload false, .raised (.serialIOFailure sub)])) := by
  rw [← touches_ainfo_iff sub (toNat_pos_of_size_ne_zero hsize)] at hainfo
  rw [rxWriteCommand, if_neg hsize, if_neg hainfo]
  have hpayload := callerBytes_supplies s.draws s.args.buffer size.toNat
  refine Gives.get_bind ((serialWrite_gives hs sub _).bind fun ok es t ht _ _ ⟨hes, hregs, _⟩ => ?_)
  subst hes
  cases ok with
  | true => exact gives_pure ht _ ⟨hregs, _, hpayload, .inl ⟨rfl, rfl⟩⟩
  | false =>
    refine (raiseFailure_gives ht _).bind fun _ es u hu _ _ ⟨hes, hregs', _⟩ => gives_pure hu _ ?_
    subst hes
    exact ⟨hregs'.trans hregs, _, hpayload, .inr ⟨rfl, rfl⟩⟩

/-- The caller's V′ words are replaced when all blocks were read, and are kept otherwise (42_receiver_io.md R173). -/
theorem rxReadVPrimeCommand_gives (hs : s.undisturbed = true) :
    Gives rxReadVPrimeCommand s fun r es t => ∃ v, VPrimeTrace es v ∧ r = .io v.isSome ∧
      t.regs = { s.regs with args := { s.args with vPrime := v.getD s.args.vPrime } } := by
  refine (readVPrime_gives hs).bind fun v es t ht _ _ ⟨hregs, htrace⟩ => ?_
  cases v with
  | none => exact gives_pure ht _ ⟨none, by simpa using htrace, rfl, hregs⟩
  | some v =>
    refine (setArgs_gives ht _).bind fun _ es' u hu _ _ ⟨hes, hargs, _⟩ => gives_pure hu _ ?_
    rw [hregs] at hargs
    exact ⟨some v, by simpa [hes] using htrace, rfl, hargs⟩

/-- Reads of V′ blocks write no collaborator. -/
theorem BlocksTrace.replay_eq {subs : List Byte} {es : List Event} {ws : Option (List Word)}
    (h : BlocksTrace subs es ws) (v : Visible) : v.replay es = v := by
  induction h with
  | done | fails => rfl
  | block _ _ _ _ _ _ _ _ _ ih => exact ih

end

/-! ## The runs -/

/-- An operation whose micro-program is an answer at once only returns it. -/
theorem onlyReturns_of_eq_pure {i : Instr} {w : Word} {body : Op Result} {r : Result}
    (he : ∀ s, exec i s = runOperation i w body s) (hbody : body = pure r) {s : State} (hready : s.ready = true)
    (hs : s.undisturbed = true) : OnlyReturns i s r := by
  obtain ⟨t, _, _, u, hrun, hvis, -, rfl, rfl, rfl⟩ := runs_of_gives (he s) hready (hbody ▸ gives_pure
    (s := s.start i) hs r (Q := fun a es u => a = r ∧ es = [] ∧ u = s.start i) ⟨rfl, rfl, rfl⟩)
  exact ⟨t, hrun, hvis⟩

/-- Settles O7: both micro-programs end at their check of the size. -/
theorem sizeZeroIsRefused : Obligations.SizeZeroIsRefused := fun _ sub hready hs =>
  ⟨onlyReturns_of_eq_pure (fun _ => rfl) (rxReadCommand_zero sub) hready hs,
    onlyReturns_of_eq_pure (fun _ => rfl) (rxWriteCommand_zero sub) hready hs⟩

/-- Settles O40: the check of the regions, and behind it the two ends of the one transaction. -/
theorem rxReadTransaction : Obligations.RxReadTransaction := by
  intro s sub size hsize hready hs
  refine ⟨fun hcross => onlyReturns_of_eq_pure (fun _ => rfl) (rxReadCommand_of_crosses hsize hcross) hready hs,
    fun hcross => ?_⟩
  obtain ⟨t, _, _, u, hrun, hvis, -, h⟩ := runs_of_gives (i := .rxRead sub size) rfl hready
    (rxReadCommand_gives (s := s.start _) hs hsize hcross)
  obtain ⟨bytes, hlen, rfl, rfl, hregs⟩ | ⟨rfl, rfl, hregs⟩ := h
  · exact ⟨t, .inl ⟨bytes, hlen, hrun, by rw [hvis, hregs]; rfl⟩⟩
  · exact ⟨t, .inr ⟨hrun, by rw [hvis, hregs]; rfl⟩⟩

/-- Settles O41: the check of AINFO, and behind it the two ends of the one transaction. -/
theorem rxWriteTransaction : Obligations.RxWriteTransaction := by
  intro s sub size hsize hready hs
  refine ⟨fun hainfo => onlyReturns_of_eq_pure (fun _ => rfl) (rxWriteCommand_of_writesAinfo hsize hainfo) hready hs,
    fun hainfo => ?_⟩
  obtain ⟨t, _, _, u, hrun, hvis, -, hregs, payload, hpayload, h⟩ := runs_of_gives (i := .rxWrite sub size) rfl hready
    (rxWriteCommand_gives (s := s.start _) hs hsize hainfo)
  obtain ⟨rfl, rfl⟩ | ⟨rfl, rfl⟩ := h
  · exact ⟨t, payload, hpayload, by rw [hvis, hregs]; rfl, .inl hrun⟩
  · exact ⟨t, payload, hpayload, by rw [hvis, hregs]; rfl, .inr hrun⟩

/-- Settles O42: the reads of the blocks change nothing, and the command writes the words of a full set. -/
theorem rxReadVPrimeBlocks : Obligations.RxReadVPrimeBlocks := by
  intro s hready hs
  obtain ⟨t, _, es, u, hrun, hvis, -, v, htrace, rfl, hregs⟩ := runs_of_gives (i := .rxReadVPrime) rfl hready
    (rxReadVPrimeCommand_gives (s := s.start _) hs)
  have ⟨ws, hblocks, _⟩ := htrace
  exact ⟨t, es, v, htrace, hrun, by rw [hvis, hblocks.replay_eq, hregs]; rfl⟩

end Sys2Proof.Machine
end

section
/-! The key-selection-vector check and the revocation test (43_validator.md R180 to R184): each reads the state once and
returns a function of it. -/

namespace Sys2Proof.Machine

open Sys2Proof

/-- An operation that answers a function of the state it starts in, and does no more, only returns it. -/
theorem onlyReturns_of_get {i : Instr} {w : Word} (f : State → Result)
    (he : ∀ s, exec i s = runOperation i w (do return f (← get)) s) {s : State} (hready : s.ready = true)
    (hs : s.undisturbed = true) : OnlyReturns i s (f (s.start i)) := by
  have hs' : (s.start i).undisturbed = true := hs
  obtain ⟨t, _, es, u, hrun, hvis, -, hregs, rfl, rfl, rfl⟩ := runs_of_returns he hready
    (gives_get hs' (Q := fun a es u => a = s.start i ∧ es = [] ∧ u = s.start i) ⟨rfl, rfl, rfl⟩)
  exact hrun.onlyReturns hvis hregs

/-- The weight of five bytes is the sum of their bit counts (43_validator.md R184). -/
theorem Ksv.weight_ofBytes (bs : List Byte) :
    (Ksv.ofBytes bs).weight = ((List.range 5).map fun k => popcount (bs.getD k 0)).sum := by
  have hrange : List.range 5 = [0, 1, 2, 3, 4] := rfl
  simp only [Ksv.weight, Ksv.ofBytes, hrange, List.map_cons, List.map_nil, List.sum_cons, List.sum_nil]
  omega

/-- The check of five bytes is their count and their number of 1 bits (43_validator.md R180). -/
theorem validBksv_ofBytes (bs : List Byte) (size : Nat) :
    validBksv (Ksv.ofBytes bs) size =
      decide (size = 5 ∧ ((List.range 5).map fun k => popcount (bs.getD k 0)).sum = 20) := by
  rw [validBksv, Ksv.weight_ofBytes, Bool.decide_and]

/-- The scan of the revocation set answers membership (43_validator.md R181). -/
theorem revokedBy_eq_decide_mem (k : Ksv) (es : List Ksv) : revokedBy k es = decide (k ∈ es) := by
  rw [Bool.eq_iff_iff, revokedBy_eq, List.any_eq_true, decide_eq_true_iff]
  simp

/-- Settles O43: the bytes are the first five of the caller's buffer, and the body answers the check of them. -/
theorem isValidBksv : Obligations.IsValidBksv := by
  intro s hready hs
  have hrun := onlyReturns_of_get (i := .hdcpIsValidBksv)
    (fun s => .bool (validBksv (Ksv.ofBytes (callerBytes s.draws s.args.buffer ksvBytes)) s.args.size))
    (fun _ => rfl) hready hs
  rw [validBksv_ofBytes] at hrun
  exact ⟨_, callerBytes_supplies _ _ _, hrun⟩

/-- Settles O44: the body answers the scan of the caller's set. -/
theorem isRevoked : Obligations.IsRevoked := by
  intro s hready hs
  have hrun := onlyReturns_of_get (i := .isRevoked)
    (fun s => .bool (revokedBy s.args.candidate s.args.revocationSet)) (fun _ => rfl) hready hs
  rwa [revokedBy_eq_decide_mem] at hrun

end Sys2Proof.Machine
end

section
/-! The SHA-1 input of a repeater verification (44_repeater.md R196 to R207): its bytes are the text, zeros, and the bit
length; what each chunk of it holds; the feed that each chunk gets. -/

namespace Sys2Proof.Machine

open Sys2Proof

theorem shaLength_eq (count : Nat) : shaLength count = (5 * count + 18 + 63) / 64 * 64 := rfl

/-! ## The bytes (44_repeater.md R197, R198) -/

/-- The text of the SHA-1 input: the KSV list, then the topology, least significant byte first (44_repeater.md R197). -/
def shaText (ksvs : List Byte) (topology : BitVec 16) : List Byte :=
  ksvs ++ [topology.extractLsb' 0 8, topology.extractLsb' 8 8]

/-- Between the text and the last word every byte is 0: Mo's place, the padding, and the high word of a bit length that
fits the low one. -/
theorem layoutByte_of_padding (ksvs : List Byte) {count : Nat} (hcount : count ≤ 127) (topology : BitVec 16) {j : Nat}
    (hlo : 5 * count + 2 ≤ j) (hhi : j + 4 < shaLength count) :
    layoutByte ksvs count topology (shaLength count) j = 0 := by
  unfold layoutByte
  rw [if_neg (by omega), if_neg (by omega), if_neg (by omega)]
  split
  · rfl
  · have hpow : 256 ^ 4 ≤ 256 ^ (shaLength count - 1 - j) := Nat.pow_le_pow_right (by decide) (by omega)
    rw [Nat.div_eq_of_lt (by omega)]
    rfl

section

variable {ksvs : List Byte} {count : Nat} (hk : ksvs.length = 5 * count) (topology : BitVec 16)
include hk

theorem shaText_length : (shaText ksvs topology).length = 5 * count + 2 := by simp [shaText, hk]

theorem layoutByte_of_text (B : Nat) {j : Nat} (hj : j < (shaText ksvs topology).length) :
    layoutByte ksvs count topology B j = (shaText ksvs topology)[j] := by
  have hlen := shaText_length hk topology
  simp only [shaText] at hj hlen ⊢
  unfold layoutByte
  by_cases hlist : j < 5 * count
  · rw [if_pos hlist, List.getElem_append_left (by omega), List.getD_eq_getElem _ _ (by omega)]
  · rw [if_neg hlist, List.getElem_append_right (by omega)]
    obtain rfl | rfl : j = 5 * count ∨ j = 5 * count + 1 := by omega
    · simp [hk, BitVec.extractLsb']
    · simp [hk, BitVec.extractLsb', Nat.shiftRight_eq_div_pow]

theorem layoutBytes_front (hcount : count ≤ 127) :
    (layoutBytes ksvs count topology (shaLength count)).take (shaLength count - 4) =
      shaText ksvs topology ++ List.replicate (shaLength count - 4 - (5 * count + 2)) 0 := by
  have hlen := shaText_length hk topology
  obtain ⟨-, hmin, -⟩ := shaLength_bounds count
  apply List.ext_getElem
  · simp only [layoutBytes, List.length_take, List.length_map, List.length_range, List.length_append, hlen,
      List.length_replicate]
    omega
  · intro j hj _
    have hj : j < shaLength count - 4 := lt_of_lt_of_le hj (List.length_take_le _ _)
    simp only [layoutBytes, List.getElem_take, List.getElem_map, List.getElem_range]
    by_cases htext : j < (shaText ksvs topology).length
    · rw [List.getElem_append_left htext, layoutByte_of_text hk topology _ htext]
    · rw [List.getElem_append_right (by omega), List.getElem_replicate,
        layoutByte_of_padding ksvs hcount topology (by omega) (by omega)]

/-! ## The chunks (44_repeater.md R202 to R206) -/

/-- A chunk in front of the last word is cut from the text and the zeros behind it. -/
theorem chunk_eq_of_front (hcount : count ≤ 127) {k : Nat} (hfront : 4 * k + 8 ≤ shaLength count) :
    ((layoutBytes ksvs count topology (shaLength count)).drop (4 * k)).take 4 =
      ((shaText ksvs topology).drop (4 * k) ++ List.replicate 4 0).take 4 := by
  have hlen := shaText_length hk topology
  have hcut : ((layoutBytes ksvs count topology (shaLength count)).drop (4 * k)).take 4 =
      (((layoutBytes ksvs count topology (shaLength count)).take (shaLength count - 4)).drop (4 * k)).take 4 := by
    rw [List.drop_take, List.take_take, Nat.min_eq_left (by omega)]
  rw [hcut, layoutBytes_front hk topology hcount, List.drop_append, List.take_append, List.take_append,
    List.drop_replicate, List.take_replicate, List.take_replicate, List.length_drop, hlen]
  congr 2
  omega

theorem chunk_of_text (hcount : count ≤ 127) {k : Nat} (htext : 4 * k + 4 ≤ 5 * count + 2) :
    ((layoutBytes ksvs count topology (shaLength count)).drop (4 * k)).take 4 =
      ((shaText ksvs topology).drop (4 * k)).take 4 := by
  have hlen := shaText_length hk topology
  obtain ⟨-, hmin, -⟩ := shaLength_bounds count
  rw [chunk_eq_of_front hk topology hcount (by omega),
    List.take_append_of_le_length (by rw [List.length_drop]; omega)]

/-- The chunk in which the text ends is filled with zeros. -/
theorem chunk_of_mergedText (hcount : count ≤ 127) {k : Nat} (hlo : 4 * k < 5 * count + 2)
    (hhi : 5 * count + 2 ≤ 4 * k + 4) :
    ((layoutBytes ksvs count topology (shaLength count)).drop (4 * k)).take 4 =
      (shaText ksvs topology).drop (4 * k) ++ List.replicate (4 * k + 4 - (5 * count + 2)) 0 := by
  have hlen := shaText_length hk topology
  obtain ⟨-, hmin, -⟩ := shaLength_bounds count
  rw [chunk_eq_of_front hk topology hcount (by omega), List.take_append,
    List.take_of_length_le (by rw [List.length_drop]; omega), List.take_replicate, List.length_drop, hlen]
  congr 2
  omega

theorem chunk_of_padding (hcount : count ≤ 127) {k : Nat} (hlo : 5 * count + 2 ≤ 4 * k)
    (hhi : 4 * k + 8 ≤ shaLength count) :
    ((layoutBytes ksvs count topology (shaLength count)).drop (4 * k)).take 4 = List.replicate 4 0 := by
  have hlen := shaText_length hk topology
  rw [chunk_eq_of_front hk topology hcount hhi, List.drop_of_length_le (by omega)]
  rfl

end

/-! ## The feeds (44_repeater.md R202 to R207) -/

theorem expectedFeeds_length (p : Params) (ksvs : List Byte) (count : Nat) (topology : BitVec 16) :
    (expectedFeeds p ksvs count topology).length = shaLength count / 4 := by simp [expectedFeeds]

theorem expectedFeeds_getElem? (p : Params) (ksvs : List Byte) (topology : BitVec 16) {count k : Nat}
    (hk : 4 * k + 4 ≤ shaLength count) :
    (expectedFeeds p ksvs count topology)[k]? =
      some (expectedFeed p (layoutBytes ksvs count topology (shaLength count)) (5 * count + 2) k) := by
  rw [expectedFeeds, List.getElem?_map, List.getElem?_range (by omega)]
  rfl

section

variable {p : Params} (buf : List Byte) {T k : Nat}

theorem expectedFeed_of_text (h : 4 * k + 4 ≤ T) :
    expectedFeed p buf T k = (p.ctrlText32, beWord ((buf.drop (4 * k)).take 4)) := if_pos h

theorem expectedFeed_of_mergedText (hlo : 4 * k < T) (hhi : T < 4 * k + 4) :
    expectedFeed p buf T k =
      (textMode p (T - 4 * k), mergeWord p (T - 4 * k) ((buf.drop (4 * k)).take 4)) := by
  simp only [expectedFeed]
  rw [if_neg (by omega), if_pos hlo]

theorem expectedFeed_of_mo (hlo : T ≤ 4 * k) (hhi : 4 * k + 4 ≤ T + 8) :
    expectedFeed p buf T k = (p.ctrlMo32, 0) := by
  simp only [expectedFeed]
  rw [if_neg (by omega), if_neg (by omega), if_pos hhi]
  rfl

theorem expectedFeed_of_mergedMo (hlo : 4 * k < T + 8) (hhi : T + 8 < 4 * k + 4) :
    expectedFeed p buf T k = (textMode p (4 * k + 4 - (T + 8)), beWord ((buf.drop (4 * k)).take 4)) := by
  simp only [expectedFeed]
  rw [if_neg (by omega), if_neg (by omega), if_neg (by omega), if_pos hlo]

theorem expectedFeed_of_padding (h : T + 8 ≤ 4 * k) :
    expectedFeed p buf T k = (p.ctrlText32, beWord ((buf.drop (4 * k)).take 4)) := by
  simp only [expectedFeed]
  rw [if_neg (by omega), if_neg (by omega), if_neg (by omega), if_neg (by omega)]
  rfl

end

/-- Settles O47: in each phase the index says which feed the chunk gets and what the chunk holds. -/
theorem feedsFollowThePhases : Obligations.FeedsFollowThePhases := by
  intro p ksvs count topology hcount hk fs T text third
  obtain ⟨hdvd, hmin, -⟩ := shaLength_bounds count
  have hT : T = 5 * count + 2 := rfl
  have hthird : third = (T + 3) / 4 := rfl
  have hlen : fs.length = shaLength count / 4 := expectedFeeds_length ..
  have hfeed {k : Nat} (hk : 4 * k + 4 ≤ shaLength count) := expectedFeeds_getElem? p ksvs topology hk
  have hstart : T / 4 * 4 = 4 * (T / 4) := Nat.mul_comm ..
  have hrest : 5 * count + 2 - 4 * (T / 4) = T % 4 := by omega
  have hfill : 4 * (T / 4) + 4 - (5 * count + 2) = 4 - T % 4 := by omega
  refine ⟨?count, fun k hword => ?textWords, fun hrem hlow => ?mergedLow, fun hrem hhigh => ?mergedHigh, ?mo, ?mergedMo,
    fun k hlo hhi => ?padding, expectedFeeds_getLast ..⟩
  case count =>
    rw [hlen, shaLength_eq]
    omega
  case textWords =>
    rw [hfeed (by omega), expectedFeed_of_text _ (by omega), chunk_of_text hk topology hcount (by omega)]
    rfl
  case mergedLow =>
    rw [hfeed (by omega), expectedFeed_of_mergedText _ (by omega) (by omega),
      chunk_of_mergedText hk topology hcount (by omega) (by omega), mergeWord, hlow,
      List.take_left' (by rw [List.length_drop, shaText_length hk]), hrest, hstart]
    rfl
  case mergedHigh =>
    rw [hfeed (by omega), expectedFeed_of_mergedText _ (by omega) (by omega),
      chunk_of_mergedText hk topology hcount (by omega) (by omega), mergeWord, hhigh, hrest, hfill, hstart]
    rfl
  case mo => rw [hfeed (by omega), expectedFeed_of_mo _ (by omega) (by omega)]
  case mergedMo =>
    rw [hfeed (by omega)]
    by_cases hrem : T % 4 = 0
    · rw [if_pos hrem, expectedFeed_of_mo _ (by omega) (by omega)]
      rfl
    · rw [if_neg hrem, expectedFeed_of_mergedMo _ (by omega) (by omega),
        chunk_of_padding hk topology hcount (by omega) (by omega), beWord_zeros]
      congr 3
      omega
  case padding =>
    rw [hfeed (by omega), expectedFeed_of_padding _ (by omega),
      chunk_of_padding hk topology hcount (by omega) (by omega), beWord_zeros]

end Sys2Proof.Machine
end

section
/-! The operations of the repeater verifier (44_repeater.md R190 to R212): from the laws of their micro-programs to their
runs, and how the runs of ACTIVATE_REPEATER end that found a revoked vector or succeeded. -/

namespace Sys2Proof.Machine

open Sys2Proof

/-! ## The SHA-1 input and its feeds (44_repeater.md R196 to R208) -/

/-- BUILD_SHA1_BUFFER as a command: the buffer is made, and it and its length go to the caller's record
(44_repeater.md R196, R199; 30_encoding.md R103). -/
theorem buildShaCommand_gives {s : State} (hs : s.undisturbed = true) (hw : s.shabuf.wf = true) :
    Gives buildShaCommand s fun r es t => ∃ ksvs, Supplies s.args.ksvList ksvs (5 * s.args.count.toNat) ∧
      r = .record ∧ es = [] ∧ HoldsShaInput ksvs s.args.count.toNat s.args.topology s.shabuf t.shabuf ∧
      t.regs = { s.regs with
        ses := { s.ses with blen := BitVec.ofNat 11 (shaLength s.args.count.toNat) }
        shabuf := t.shabuf
        args := { s.args with
          shaBuffer := layoutBytes ksvs s.args.count.toNat s.args.topology (shaLength s.args.count.toNat)
          shaLength := shaLength s.args.count.toNat } } := by
  have hksvs := callerBytes_supplies s.draws s.args.ksvList (5 * s.args.count.toNat)
  refine Gives.get_bind ?_
  refine (buildShaBuffer_gives hs hw hksvs.1 s.args.topology).bind fun _ es t ht _ _ ⟨hes, hin, hregs⟩ => ?_
  refine Gives.get_bind ?_
  refine (setArgs_gives ht _).bind fun _ es' u hu _ _ ⟨hes', hregs', _⟩ => gives_pure hu _ ?_
  have hbuf : u.shabuf = t.shabuf := congrArg Regs.shabuf hregs'
  rw [readBytes_layout _ _ _ (fun j hj => (hin.2 j).trans (if_pos hj)) 0 _ (by omega), List.drop_zero,
    List.take_of_length_le (by simp [layoutBytes]), hregs] at hregs'
  refine ⟨_, hksvs, rfl, by simp [hes, hes'], hbuf ▸ hin, ?_⟩
  rw [hregs', hbuf]
  rfl

/-- Settles O45: the law of the command, with the returned length written out. -/
theorem buildSha1Buffer : Obligations.BuildSha1Buffer := by
  intro s hw hready hs
  obtain ⟨t, _, _, u, hrun, hvis, -, ksvs, hksvs, rfl, rfl, hin, hregs⟩ := runs_of_gives (i := .buildSha1Buffer) rfl
    hready (buildShaCommand_gives (s := s.start _) hs hw)
  have hbuf : t.shabuf = u.shabuf := congrArg Visible.shabuf hvis
  have hargs : t.args = u.args := congrArg Visible.args hvis
  have hlen : t.args.shaLength = shaLength s.args.count.toNat :=
    congrArg Args.shaLength (hargs.trans (congrArg Regs.args hregs))
  refine ⟨t, ksvs, hksvs, hrun, hbuf ▸ hin, hlen.trans (shaLength_eq _), ?_⟩
  rw [hlen, hvis, hregs, hbuf]
  rfl

/-- Settles O46: the law of the body, with the bytes it reads of the caller's list. -/
theorem computeTransmitterV : Obligations.ComputeTransmitterV := by
  intro s hw hready hs
  obtain ⟨t, _, es, u, hrun, hvis, -, ok, ksvs, rfl, hksvs, hfeeds, hin, hregs⟩ := runs_of_gives
    (i := .computeTransmitterV) rfl hready
    (Q := fun r es u => OperationLaw (s.start .computeTransmitterV) r es u.regs .computeTransmitterV)
    (Gives.get_bind ((computeV_gives (s := s.start _) hs hw (callerBytes_length _ _ _) _).returns
      fun ok _ _ ⟨hfeeds, hin, hregs⟩ => ⟨ok, _, rfl, callerBytes_supplies _ _ _, hfeeds, hin, hregs⟩))
  have hbuf : t.shabuf = u.shabuf := congrArg Visible.shabuf hvis
  refine ⟨t, ksvs, es, ok, hksvs, hfeeds, hrun, hbuf ▸ hin, ?_⟩
  rw [hvis, hregs, hbuf]
  rfl

/-! ## The comparison and the teardown (44_repeater.md R209, R210) -/

/-- Settles O48: the law of the body, which writes no register. -/
theorem compareVPrime : Obligations.CompareVPrime := by
  intro s hready hs
  obtain ⟨t, ok, es, u, hrun, hvis, -, hregs, hu, htrace⟩ := runs_of_returns (i := .compareVPrime) (fun _ => rfl) hready
    (Gives.get_bind (f := fun s : State => compareV s.args.vPrime) (compareV_gives (s := s.start _) hs _))
  exact ⟨t, es, ok, htrace, hrun, by rw [hvis, hregs, hu]; rfl⟩

/-- Settles O49: the law of the body, which writes the controller state and no other register. -/
theorem repeaterTeardown : Obligations.RepeaterTeardown := by
  intro s hready hs
  obtain ⟨t, _, _, u, hrun, hvis, -, hregs, d, m, rfl, hu⟩ := runs_of_returns (i := .repeaterTeardown)
    (f := fun _ => .nothing) (fun _ => rfl) hready (teardown_gives (s := s.start _) hs)
  exact ⟨t, d, m, hrun, by rw [hvis, hregs, hu]; rfl⟩

/-! ## How a verification ends (44_repeater.md R211, R212) -/

theorem failStatus_revoked_iff {revoked : Bool} :
    failStatus revoked = .revokedHdcpDeviceAttached ↔ revoked = true := by
  cases revoked <;> decide

/-- Where no vector of a list is in the revocation set, each of them is outside it (43_validator.md R182). -/
theorem not_mem_of_anyIn {ks rs : List Ksv} (h : anyIn ks rs = false) {k : Ksv} (hk : k ∈ ks) : k ∉ rs := by
  intro hmem
  simp only [anyIn, List.any_eq_false] at h
  exact h k hk (List.any_eq_true.2 ⟨k, hmem, by simp⟩)

section

variable {p : Params} {es : List Event}

/-- The end of a verification that tears down clears `present` and the mode (44_repeater.md R210). -/
theorem failEvents_clear (hp : p.valid = true) (revoked : Bool) (d m : Word) (c : Cipher × Word) :
    repPresent p ((failEvents p revoked d m).foldl (Event.applyTo p) c).1.rep = false ∧
      getField p.cfgMode ((failEvents p revoked d m).foldl (Event.applyTo p) c).1.config =
        BitVec.ofNat 32 p.modeOff := by
  have hpresent := setField_oneBit d (valid_repPresent_lt hp) false
  have hmode := getField_cfgMode_setField hp (m := p.modeOff) (by simp) m
  cases revoked <;> exact ⟨hpresent, hmode⟩

theorem CompareTrace.endsInMatch {v : VWords} {ok : Bool} (h : CompareTrace p v es ok) (hok : ok = true) :
    ∃ x, es.getLast? = some (.cipherRead .rep x) ∧ repState p x = .completeMatch := by
  cases h with
  | notReady | timeout => cases hok
  | ends _ _ x => exact ⟨x, by simp, by simpa using hok⟩

variable {r r' : Session} {st : Status} {torn : Bool}

section

variable {bytes : List Byte} {n : Nat} {topology : BitVec 16} {revoked : Bool}

theorem VerifyTrace.endsInTeardown (h : VerifyTrace p r bytes n topology revoked es st torn r')
    (hst : st = .revokedHdcpDeviceAttached) : torn = true ∧ ∃ pre d m, es = pre ++ failEvents p true d m := by
  cases h with
  | vFails _ d m | vprimeFails _ _ d m | rejected _ _ _ _ _ d m =>
    rw [failStatus_revoked_iff.1 hst]
    exact ⟨rfl, _, d, m, rfl⟩
  | verified => cases hst

theorem VerifyTrace.endsInMatch (h : VerifyTrace p r bytes n topology revoked es st torn r') (hst : st = .success) :
    revoked = false ∧ ∃ x, es.getLast? = some (.cipherRead .rep x) ∧ repState p x = .completeMatch := by
  cases h with
  | vFails | vprimeFails | rejected => exact absurd hst (failStatus_ne_success _)
  | verified _ _ _ _ _ _ hcompare hrevoked =>
    obtain ⟨x, hlast, hmatch⟩ := hcompare.endsInMatch rfl
    exact ⟨hrevoked, x, by rw [List.getLast?_append, hlast]; rfl, hmatch⟩

end

variable {rs : List Ksv}

/-- Only a verification that found a revoked vector answers so, and it ends in the teardown (44_repeater.md R211). -/
theorem ActivateTrace.endsInTeardown (h : ActivateTrace p rs r es st torn r')
    (hst : st = .revokedHdcpDeviceAttached) : torn = true ∧ ∃ pre d m, es = pre ++ failEvents p true d m := by
  cases h with
  | listRead _ _ _ _ _ _ _ _ _ _ _ _ _ _ _ _ _ hverify =>
    obtain ⟨htorn, pre, d, m, rfl⟩ := hverify.endsInTeardown hst
    exact ⟨htorn, _ ++ pre, d, m, (List.append_assoc ..).symm⟩
  | _ => cases hst

/-- The two rows of the table that succeed (44_repeater.md R212). -/
theorem ActivateTrace.of_success (h : ActivateTrace p rs r es st torn r') (hst : st = .success) :
    (∃ b t0 t1, es = topologyReads b t0 t1 ∧ (bstatus p (t1 ++ t0)).deviceCount = 0) ∨
      ∃ n bytes x, Event.serialRead 0x43 (5 * n) (some bytes) ∈ es ∧ (∀ k ∈ ksvsOf bytes n, k ∉ rs) ∧
        es.getLast? = some (.cipherRead .rep x) ∧ repState p x = .completeMatch := by
  cases h with
  | noDevices b t0 t1 _ _ hcount => exact .inl ⟨b, t0, t1, rfl, hcount⟩
  | listRead _ _ _ _ _ n bytes _ _ _ _ _ _ _ _ _ _ hverify =>
    obtain ⟨hrevoked, x, hlast, hmatch⟩ := hverify.endsInMatch hst
    exact .inr ⟨n, bytes, x, by simp, fun k => not_mem_of_anyIn hrevoked,
      by rw [List.getLast?_append, hlast]; rfl, hmatch⟩
  | _ => cases hst

end

/-! ## ACTIVATE_REPEATER (44_repeater.md R190 to R195, R211, R212) -/

/-- Settles O50: an operation that no reset disturbs has a run, and the law of this one is the grammar of R212. -/
theorem activateRepeater : Obligations.ActivateRepeater := by
  intro s hk hw hready hs
  obtain ⟨t, r, es, hrun, -⟩ := operationsReturnTheirResult .activateRepeater s rfl hready hs
  obtain ⟨⟨st, torn, rfl, htrace, hbuf, hregs⟩, hvis⟩ := hrun.law hk hw hready hs
  exact ⟨t, es, st, torn, _, htrace, hrun, hbuf, by rw [hvis, hregs]; rfl⟩

/-- Settles O51: a revoked result comes after a teardown, whose writes of HDCP_REP and HDCP_CONFIG are the last. -/
theorem revokedLeavesNoRepeaterPresent : Obligations.RevokedLeavesNoRepeaterPresent := by
  intro s t hinv hready hs hexec hresult
  obtain ⟨t', r, es, hrun, -⟩ := operationsReturnTheirResult .activateRepeater s rfl hready hs
  have ⟨hexec', hresult', _⟩ := hrun
  obtain rfl : t' = t := Host.Outcome.next.inj (hexec'.symm.trans hexec)
  obtain ⟨⟨st, torn, rfl, htrace, -, hregs⟩, -⟩ := hrun.law hinv.ksvbuf.1 hinv.shabuf.1 hready hs
  have hst : st = .revokedHdcpDeviceAttached := Result.status.inj (Option.some.inj (hresult'.symm.trans hresult))
  obtain ⟨rfl, pre, d, m, rfl⟩ := htrace.endsInTeardown hst
  rw [hrun.cipher_eq hready, List.foldl_append]
  obtain ⟨hpresent, hmode⟩ := failEvents_clear hinv.params true d m _
  exact ⟨hpresent, hmode, congrArg Regs.ctlState hregs⟩

/-- Settles O52: the two rows of the table that succeed. -/
theorem successMeansVerified : Obligations.SuccessMeansVerified := by
  intro s t es hinv hready hs hrun
  obtain ⟨⟨st, torn, hst, htrace, -⟩, -⟩ := hrun.law hinv.ksvbuf.1 hinv.shabuf.1 hready hs
  refine (htrace.of_success (Result.status.inj hst).symm).imp id ?_
  rintro ⟨n, bytes, x, hread, hfree, hlast, hmatch⟩
  exact ⟨n, bytes, x, hread, fun k hk => hfree _ (List.mem_map_of_mem (List.mem_range.2 hk)), hlast, hmatch⟩

end Sys2Proof.Machine
end

section
/-! GET_LINK_STATUS (45_link_monitor.md R230 to R234): from the grammar of its attempts to its runs and to the bounds
on their accesses. -/

namespace Sys2Proof.Machine

open Sys2Proof

/-- Settles O53: the law of the body is the grammar of its attempts, and of the registers it changes only the session's. -/
theorem linkStatus_holds : Obligations.LinkStatus := by
  intro s hready hs
  obtain ⟨t, ok, es, u, hrun, hvis, -, hregs, htrace, hu⟩ := runs_of_returns (i := .getLinkStatus) (fun _ => rfl) hready
    (linkStatus_gives (s := s.start _) hs)
  exact ⟨t, es, ok, _, htrace, hrun, by rw [hvis, hregs, hu]; rfl⟩

/-! ## The bounds on the accesses (45_link_monitor.md R234) -/

section

variable {p : Params} {es : List Event}

/-- At most `n` serial transactions, `n` writes of HDCP_RI and `k` reads of HDCP_STATUS, and no port access. -/
structure LinkBounds (n k : Nat) (es : List Event) : Prop where
  serial : es.countP Event.isSerial ≤ n
  riWrite : es.countP Event.isRiWrite ≤ n
  statusRead : es.countP Event.isStatusRead ≤ k
  port : ∀ e ∈ es, e.isPort = false

theorem LinkBounds.append {n k n' k' : Nat} {es' : List Event} (h : LinkBounds n k es) (h' : LinkBounds n' k' es') :
    LinkBounds (n + n') (k + k') (es ++ es') where
  serial := by rw [List.countP_append]; exact Nat.add_le_add h.serial h'.serial
  riWrite := by rw [List.countP_append]; exact Nat.add_le_add h.riWrite h'.riWrite
  statusRead := by rw [List.countP_append]; exact Nat.add_le_add h.statusRead h'.statusRead
  port := List.forall_mem_append.2 ⟨h.port, h'.port⟩

theorem LinkBounds.mono {n k n' k' : Nat} (h : LinkBounds n k es) (hn : n ≤ n') (hk : k ≤ k') : LinkBounds n' k' es :=
  ⟨h.serial.trans hn, h.riWrite.trans hn, h.statusRead.trans hk, h.port⟩

theorem linkBounds_riComparison (b0 b1 : Byte) (v : Word) : LinkBounds 1 1 (riComparison b0 b1 v) :=
  ⟨le_rfl, le_rfl, le_rfl, by simp [riComparison, Event.isPort]⟩

theorem linkBounds_statusReads (vs : List Word) : LinkBounds 0 vs.length (vs.map (Event.cipherRead .status)) where
  serial := by simp [List.countP_map, Function.comp_def, Event.isSerial]
  riWrite := by simp [List.countP_map, Function.comp_def, Event.isRiWrite]
  statusRead := List.countP_le_length.trans (List.length_map _).le
  port := by simp [Event.isPort]

theorem WaitEvents.linkBounds {f0 : Word} (h : WaitEvents p f0 es) : LinkBounds 0 p.frameWaitMax es := by
  obtain ⟨vs, rfl, hlen, -⟩ := h
  exact (linkBounds_statusReads vs).mono le_rfl hlen

/-- Each attempt makes at most one serial read, one HDCP_RI write and one HDCP_STATUS read of its own, and waits for at
most one frame boundary. -/
theorem LinkTrace.linkBounds {n : Nat} {r r' : Session} {ok : Bool} (h : LinkTrace p n r es ok r') :
    LinkBounds n (n * (1 + p.frameWaitMax)) es := by
  induction h with
  | broken => exact ⟨le_rfl, le_rfl, Nat.zero_le _, by simp⟩
  | fails n => exact ⟨Nat.le_add_left 1 n, Nat.zero_le _, Nat.zero_le _, by simp [Event.isPort]⟩
  | intact n _ b0 b1 v =>
    exact (linkBounds_riComparison b0 b1 v).mono (Nat.le_add_left 1 n) (by rw [Nat.succ_mul]; omega)
  | mismatch n _ _ b0 b1 v _ _ _ _ hwait _ ih =>
    exact (((linkBounds_riComparison b0 b1 v).append hwait.linkBounds).append ih).mono (by omega)
      (by rw [Nat.succ_mul]; omega)

/-- Every attempt begins with a serial read. -/
theorem LinkTrace.head_isSerial {n : Nat} {r r' : Session} {ok : Bool} (h : LinkTrace p (n + 1) r es ok r') :
    ∃ e es', es = e :: es' ∧ e.isSerial = true := by
  cases h <;> exact ⟨_, _, rfl, rfl⟩

end

/-- Settles O54: the run is the one of O53, and the bounds are those of its four attempts. -/
theorem linkStatusBounds : Obligations.LinkStatusBounds := by
  intro s t r es hready hs hrun
  obtain ⟨_, _, _, _, htrace, hrun', -⟩ := linkStatus_holds s hready hs
  obtain ⟨rfl, rfl, rfl⟩ := hrun.unique hrun'
  obtain ⟨hserial, hri, hstatus, hport⟩ := htrace.linkBounds
  obtain ⟨e, es', rfl, he⟩ := htrace.head_isSerial
  exact ⟨List.countP_pos_iff.2 ⟨e, by simp, he⟩, hserial, hri, hstatus, hport⟩

end Sys2Proof.Machine
end

section
/-! The exchange of content-protection parameters (46_cp_params.md R240 to R245): from the laws of its micro-programs to
the runs of its two operations, on either side of their gate, and what the safety net leaves. -/

namespace Sys2Proof.Machine

open Sys2Proof

/-! ## The gate (46_cp_params.md R244) -/

theorem cpGate_eq (s : State) : cpGate s = (s.hdcpSupported && s.args.params.typeMask.getLsbD s.prm.cpTypeHdcp) := rfl

theorem cpGate_open {s : State} (hsup : s.hdcpSupported = true)
    (hreq : s.args.params.typeMask.getLsbD s.prm.cpTypeHdcp = true) : cpGate s = true := by
  rw [cpGate_eq, hsup, hreq]; rfl

/-- An operation whose micro-program begins with the gate only answers `NotSupported` behind a closed one. -/
theorem onlyReturns_of_closedGate {i : Instr} {w : Word} {x : Op Status} {s : State}
    (he : ∀ s, exec i s = runOperation i w
      (do return .status (← (do if cpGate (← get) then x else return .notSupported : Op Status))) s)
    (hready : s.ready = true) (hs : s.undisturbed = true) (hg : cpGate s = false) :
    OnlyReturns i s (.status .notSupported) := by
  obtain ⟨t, _, _, u, hrun, hvis, -, hregs, rfl, rfl, hu⟩ :=
    runs_of_returns he hready (closedGate_gives (s := s.start i) hs hg (x := x))
  exact hrun.onlyReturns hvis (hregs.trans hu)

theorem hdcpGetCpData_closed {s : State} (hready : s.ready = true) (hs : s.undisturbed = true)
    (hg : cpGate s = false) : OnlyReturns .hdcpGetCpData s (.status .notSupported) :=
  onlyReturns_of_closedGate (fun _ => rfl) hready hs hg

theorem hdcpSetCpData_closed {s : State} (hready : s.ready = true) (hs : s.undisturbed = true)
    (hg : cpGate s = false) : OnlyReturns .hdcpSetCpData s (.status .notSupported) :=
  onlyReturns_of_closedGate (fun _ => rfl) hready hs hg

/-- Settles O55: either ground closes the gate both micro-programs begin with. -/
theorem cpGateClosed : Obligations.CpGateClosed := by
  intro s hready hs hground
  have hg : cpGate s = false := by
    rw [cpGate_eq, Bool.and_eq_false_iff]
    exact hground
  exact ⟨hdcpGetCpData_closed hready hs hg, hdcpSetCpData_closed hready hs hg⟩

/-! ## Behind the gate (46_cp_params.md R240, R241) -/

/-- Settles O56: behind the open gate the law of the body is the grammar of R240. -/
theorem getCpData_holds : Obligations.GetCpData := by
  intro s hready hs
  refine ⟨hdcpGetCpData_closed hready hs, fun hsup hreq => ?_⟩
  obtain ⟨t, st, es, u, hrun, hvis, -, hregs, level, q, htrace, hu⟩ := runs_of_returns (i := .hdcpGetCpData)
    (fun _ => rfl) hready (getCpData_gives (s := s.start _) hs (cpGate_open hsup hreq))
  exact ⟨t, es, st, level, q, _, _, htrace, hrun, by rw [hvis, hregs, hu]; rfl⟩

/-- Settles O57: behind the open gate the law of the body is the grammar of R241 and R242. -/
theorem setCpData_holds : Obligations.SetCpData := by
  intro s hready hs
  refine ⟨hdcpSetCpData_closed hready hs, fun hk hw hsup hreq => ?_⟩
  obtain ⟨t, st, es, u, hrun, hvis, -, hregs, level, q, rs, hrs, htrace, ⟨hlevel, hverify⟩, hu⟩ :=
    runs_of_returns (i := .hdcpSetCpData) (fun _ => rfl) hready
      (setCpData_gives (s := s.start _) hs (cpGate_open hsup hreq) hk hw)
  have hksv : t.ksvbuf = u.ksvbuf := congrArg Regs.ksvbuf hregs
  have hsha : t.shabuf = u.shabuf := congrArg Regs.shabuf hregs
  rw [← hksv, ← hsha] at hlevel hverify hu
  exact ⟨t, es, st, level, q, rs, _, _, hrs, htrace, hrun, hlevel, hverify, by rw [hvis, hregs, hu]; rfl⟩

/-! ## The safety net (46_cp_params.md R242) -/

section

variable {p : Params} {es : List Event}

/-- The mode write of a disable is the last write of HDCP_CONFIG, whether the disable succeeds or not
(41_controller.md R144). -/
theorem DisableTrace.clearsMode (hp : p.valid = true) {ok : Bool} {c : CtlState} (h : DisableTrace p es ok c)
    (x : Cipher × Word) :
    getField p.cfgMode (es.foldl (Event.applyTo p) x).1.config = BitVec.ofNat 32 p.modeOff := by
  cases h with
  | first d | second d | timeout d => exact getField_cfgMode_setField hp (by simp) d

/-- Any Status but `Success` comes with the level Off, after a whole disable. -/
theorem SetTrace.endsInDisable {params : CpParams} {rs : List Ksv} {c c' : CtlState} {r r' : Session} {st : Status}
    {level : Word} {q : Option Byte} (h : SetTrace p params rs c r es st level q c' r') (hst : st ≠ .success) :
    level = p.cpLevelOff ∧ ∃ es1 es2 ok, es = es1 ++ es2 ∧ DisableTrace p es2 ok c' := by
  cases h with
  | done => exact absurd rfl hst
  | netted _ _ es2 _ ok _ _ _ _ _ hdisable => exact ⟨rfl, _, es2, ok, rfl, hdisable⟩

end

/-- Settles O58: the run ends in the safety net's disable (O57), whose writes are the last. -/
theorem safetyNet_holds : Obligations.SafetyNet := by
  intro s t st es hinv hready hs hsup hreq hrun hst
  obtain ⟨hlaw, hvis⟩ := hrun.law hinv.ksvbuf.1 hinv.shabuf.1 hready hs
  obtain ⟨hclosed, -⟩ | ⟨-, st', level, q, rs, hstatus, -, htrace, -, hargs⟩ := hlaw
  · cases hclosed.symm.trans (cpGate_open hsup hreq)
  obtain rfl := Result.status.inj hstatus
  obtain ⟨rfl, es1, es2, ok, rfl, hdisable⟩ := htrace.endsInDisable hst
  obtain ⟨x, hcollab⟩ : ∃ x, (t.cipher, t.port) = es2.foldl (Event.applyTo s.prm) x :=
    ⟨_, (congrArg (fun v : Visible => (v.cipher, v.port)) hvis).trans (List.foldl_append ..)⟩
  have hmode := hdisable.clearsMode hinv.params x
  rw [← hcollab] at hmode
  refine ⟨congrArg (fun a : Args => a.params.level) hargs, hmode, es1, es2, ok, rfl, hdisable, ?_⟩
  rintro rfl
  obtain ⟨-, hri, hport⟩ := hcollab ▸ hdisable.cleared hinv.params x
  exact ⟨hdisable.ctlState_eq, hri, hport⟩

end Sys2Proof.Machine
end

section
/-! Commands presented to a busy block, host inputs that land during an operation, how every operation ends, and the
failures raised in it (60_exceptions.md R260 to R277; 70_reset_and_hazards.md R296). -/

namespace Sys2Proof.Machine

open Sys2Proof

/-! ## Commands presented to a busy block (60_exceptions.md R277) -/

/-- Every operation is one `runOperation` that presents the operation's own command word. -/
theorem exec_eq_runOperation (i : Instr) : ∃ body, ∀ s, exec i s = runOperation i (encode i) body s := by
  cases i <;> exact ⟨_, fun _ => rfl⟩

section

variable {s : State} (hbusy : s.busy = true)
include hbusy

theorem runOperation_of_busy (i : Instr) (w : Word) (body : Op Result) :
    runOperation i w body s = .next (s.refuseBusy w) := if_pos hbusy

theorem presentCommand_of_busy (w : Word) (a : Args) : presentCommand w a s = .next (s.refuseBusy w) := if_pos hbusy

theorem exec_of_busy (i : Instr) : exec i s = .next (s.refuseBusy (encode i)) := by
  obtain ⟨body, he⟩ := exec_eq_runOperation i
  rw [he, runOperation_of_busy hbusy]

theorem step_of_busy {w : Word} {a : Args} {rest : List HostInput} (hinbox : s.inbox = .command w a :: rest) :
    step s = .next (State.refuseBusy w { s with inbox := rest }) := by
  rw [step, hinbox]
  exact presentCommand_of_busy (s := { s with inbox := rest }) hbusy w a

end

/-- Settles O9: an operation and a command word of the inbox meet the same refusal, before anything else is looked
at. -/
theorem busyBlockRefuses : Obligations.BusyBlockRefuses :=
  fun _ hbusy => ⟨exec_of_busy hbusy, fun _ _ _ hinbox => step_of_busy hbusy hinbox⟩

/-! ## Every operation completes (60_exceptions.md R264, 70_reset_and_hazards.md R312) -/

/-- An operation whose micro-program keeps `initialised` where it is not abandoned ends with the block ready: its end
makes the block idle, and so does the reset that abandons it. -/
theorem ready_of_endOperation {x : EStateM.Result Abandoned State Result}
    (hinit : ∀ r u, x = .ok r u → u.initialised = true) : (endOperation x).ready = true := by
  cases x with
  | ok r u => exact State.ready_iff.2 ⟨hinit r u rfl, rfl⟩
  | error a u => exact State.ready_iff.2 ⟨rfl, rfl⟩

/-- Settles O14: every micro-program comes to its end or to its abandonment. -/
theorem everyOperationCompletes : Obligations.EveryOperationCompletes := by
  intro i s hready
  obtain ⟨w, body, hbody, he⟩ := exec_tame i
  refine ⟨_, exec_ready he hready, ready_of_endOperation fun r u hok => ?_⟩
  obtain ⟨r', v, es, ⟨-, -, -, -, -, hinit⟩, -, ⟨-, hrun⟩ | ⟨_, _, _, _, _, -, herror, -⟩⟩ :=
    hbody.completed.outcomes (s.start i)
  · obtain ⟨-, rfl⟩ := EStateM.Result.ok.inj (hok.symm.trans hrun)
    exact hinit.trans (State.ready_iff.1 hready).1
  · cases hok.symm.trans herror

/-! ## Inputs that land and are no reset (60_exceptions.md R277, 70_reset_and_hazards.md R296) -/

/-- The end of an operation hands on the refusals and the inputs on their way, and does not depend on them. -/
theorem endOperation_ctx (r : Result) (u : State) (o : Option Instr) (q q' : List (Word × Status))
    (L L' : List (List HostInput)) :
    endOperation (.ok r (u.ctx o q' L')) =
      { endOperation (.ok r (u.ctx o q L)) with
        refusals := q'
        env := { (endOperation (.ok r (u.ctx o q L))).env with arrivals := L' } } := rfl

/-- The runs of an operation of a ready block, one for each list `L` of inputs on their way without a reset in its
moments: one result `r`, one state `u` and the same events, whatever lands. -/
theorem exec_withArrivals {i : Instr} {s : State} (hready : s.ready = true) :
    ∃ (r : Result) (u : State) (es : List Event), u.trace = es.reverse ++ s.trace ∧
      ∀ L, Calm L (accesses es + 1) →
        exec i (s.withArrivals L) = .next (endOperation (.ok r (u.ctx (some i)
          (refusalsAfter (L.take (accesses es + 1)).flatten s.refusals) (L.drop (accesses es + 1))))) := by
  obtain ⟨w, body, hbody, he⟩ := exec_tame i
  obtain ⟨r, u, es, hrun, ⟨htr, -⟩, -⟩ := hbody.completed (s.start i)
  refine ⟨r, u, es, htr, fun L hcalm => ?_⟩
  rw [exec_ready he (s := s.withArrivals L) hready, ← hrun (some i) s.refusals L hcalm]
  rfl

/-- A loss of the power reference taken between operations changes nothing (70_reset_and_hazards.md R296). -/
theorem step_of_powerLoss {s : State} {rest : List HostInput} (hinbox : s.inbox = .powerLoss :: rest) :
    step s = .next { s with inbox := rest } := by
  rw [step, hinbox]; rfl

/-- Settles O10: the run with nothing on its way and the run with `L` are two of one family (`exec_withArrivals`), whose
members differ in the refusals and the rest of the arrivals. -/
theorem arrivalsDoNotDisturb : Obligations.ArrivalsDoNotDisturb := by
  refine ⟨fun i s t es L hready hexec htr hcalm => ?_, fun s rest => step_of_powerLoss⟩
  obtain ⟨r, u, es', htr', hends⟩ := exec_withArrivals (i := i) hready
  have hquiet := hends [] fun l hl => by simp at hl
  rw [hexec] at hquiet
  obtain rfl := Host.Outcome.next.inj hquiet
  obtain rfl : es = es' := List.reverse_injective (List.append_cancel_right (htr.symm.trans htr'))
  refine ⟨by simp [endOperation, State.ctx, refusalsAfter], ?_⟩
  rw [hends L hcalm, endOperation_ctx]

/-! ## Failures raised (60_exceptions.md R265) -/

section

variable {p : Params} {es : List Event} {f : Failure}

theorem DisableTrace.eq_of_raised {ok : Bool} {c : CtlState} (h : DisableTrace p es ok c) (hf : .raised f ∈ es) :
    f = .hardwareTimeout .disable := by
  cases h with
  | first | second => simp [modeWrite, fieldWrite, disableCheck, disableEnd, portWrites] at hf
  | timeout => simpa [modeWrite, fieldWrite, disableCheck] using hf

theorem LinkTrace.eq_of_raised {n : Nat} {r r' : Session} {ok : Bool} (h : LinkTrace p n r es ok r')
    (hf : .raised f ∈ es) : f = .serialIOFailure 0x08 := by
  induction h with
  | broken => simp at hf
  | fails => simpa using hf
  | intact => simp [riComparison] at hf
  | mismatch n r r' b0 b1 v ws es ok _ hwait _ ih =>
    obtain ⟨vs, rfl, -⟩ := hwait
    exact ih (by simpa [riComparison] using hf)

theorem BlocksTrace.serial_of_raised {subs : List Byte} {ws : Option (List Word)} (h : BlocksTrace subs es ws)
    (hf : .raised f ∈ es) : ∃ sub, f = .serialIOFailure sub := by
  induction h with
  | done => simp at hf
  | fails sub => exact ⟨sub, by simpa using hf⟩
  | block _ _ _ _ _ _ _ _ _ ih => exact ih (by simpa using hf)

theorem queryEvents_eq_of_raised {q : Option Byte} (hf : .raised f ∈ queryEvents q) : f = .serialIOFailure 0x40 := by
  cases q with
  | none => simpa [queryEvents] using hf
  | some => simp [queryEvents] at hf

theorem PollHit.not_raised {reg : CipherReg} {test : Word → Bool} (h : PollHit reg test es) : .raised f ∉ es := by
  obtain ⟨vs, v, -, -, -, rfl⟩ := h
  simp

theorem PollMiss.not_raised {reg : CipherReg} {test : Word → Bool} (h : PollMiss reg test es) : .raised f ∉ es := by
  obtain ⟨vs, -, -, rfl⟩ := h
  simp

theorem FeedsTrace.eq_of_raised {fs : List (BitVec 3 × Word)} {ok : Bool} (h : FeedsTrace p fs es ok)
    (hf : .raised f ∈ es) : f = .hardwareTimeout .sha1Ready := by
  induction h with
  | done => simp at hf
  | feed _ _ _ _ _ hfeed _ ih =>
    obtain ⟨d, ps, hps, rfl⟩ := hfeed
    exact ih (by simpa [fieldWrite, hps.not_raised] using hf)
  | timeout _ _ _ hfeed =>
    obtain ⟨d, ps, hps, rfl⟩ := hfeed
    simpa [fieldWrite, hps.not_raised] using hf

theorem CompareStart.not_raised {v : VWords} (h : CompareStart p v es) : .raised f ∉ es := by
  obtain ⟨d, ps, hps, rfl⟩ := h
  simp [vprimeWrites, fieldWrite, hps.not_raised]

theorem CompareTrace.timeout_of_raised {v : VWords} {ok : Bool} (h : CompareTrace p v es ok) (hf : .raised f ∈ es) :
    ∃ point, f = .hardwareTimeout point := by
  cases h with
  | notReady ps hps => exact ⟨.repeaterReady, by simpa [vprimeWrites, hps.not_raised] using hf⟩
  | ends es vs x hstart => simp [hstart.not_raised] at hf
  | timeout es vs hstart => exact ⟨.repeaterComplete, by simpa [hstart.not_raised] using hf⟩

/-- HDCP_GET_CP_DATA raises what its link check, its disable and its BCaps read raise (46_cp_params.md R240). -/
theorem GetTrace.mayRaise {c c' : CtlState} {r r' : Session} {st : Status} {level : Word} {q : Option Byte}
    (h : GetTrace p c r es st level q c' r') (hf : .raised f ∈ es) : mayRaise .hdcpGetCpData f = true := by
  cases h with
  | off =>
    obtain rfl := queryEvents_eq_of_raised (by simpa using hf)
    rfl
  | on v es q r' _ hlink =>
    obtain hf | hf : .raised f ∈ es ∨ .raised f ∈ queryEvents q := by simpa using hf
    · obtain rfl := hlink.eq_of_raised hf
      rfl
    · obtain rfl := queryEvents_eq_of_raised hf
      rfl
  | broken v es es' q r' ok c' _ hlink hdisable =>
    obtain hf | hf | hf : .raised f ∈ es ∨ .raised f ∈ es' ∨ .raised f ∈ queryEvents q := by simpa using hf
    · obtain rfl := hlink.eq_of_raised hf
      rfl
    · obtain rfl := hdisable.eq_of_raised hf
      rfl
    · obtain rfl := queryEvents_eq_of_raised hf
      rfl

end

theorem OperationLaw.mayRaise {i : Instr} {s : State} {r : Result} {es : List Event} {u : Regs}
    (h : OperationLaw s r es u i) {f : Failure} (hf : .raised f ∈ es) : mayRaise i f = true := by
  cases i with
  | hdcpEnable | setEncryptionLevel | activateRepeater | hdcpSetCpData => rfl
  | hdcpQuery | hdcpIsValidBksv | isRevoked =>
    obtain ⟨rfl, -⟩ := h
    simp at hf
  | hdcpIsEnabled => obtain ⟨rfl | ⟨v, rfl⟩, -⟩ := h <;> simp at hf
  | hdcpGetCpData =>
    obtain ⟨-, -, rfl, -⟩ | ⟨-, st, level, q, -, htrace, -⟩ := h
    · simp at hf
    · exact htrace.mayRaise hf
  | buildSha1Buffer =>
    obtain ⟨-, rfl, -⟩ := h
    simp at hf
  | computeTransmitterV =>
    obtain ⟨ok, ksvs, -, -, hfeeds, -⟩ := h
    obtain rfl := hfeeds.eq_of_raised hf
    rfl
  | compareVPrime =>
    obtain ⟨ok, -, htrace, -⟩ := h
    obtain ⟨point, rfl⟩ := htrace.timeout_of_raised hf
    rfl
  | getLinkStatus =>
    obtain ⟨ok, -, htrace, -⟩ := h
    obtain rfl := htrace.eq_of_raised hf
    rfl
  | rxRead sub size =>
    obtain ⟨rfl | ⟨-, -, rfl | ⟨bytes, rfl⟩⟩, -⟩ := h
    · simp at hf
    · obtain rfl : f = .serialIOFailure sub := by simpa using hf
      rfl
    · simp at hf
  | rxWrite sub size =>
    obtain ⟨rfl | ⟨-, -, payload, -, rfl | rfl⟩, -⟩ := h
    · simp at hf
    · simp at hf
    · obtain rfl : f = .serialIOFailure sub := by simpa using hf
      rfl
  | rxReadVPrime =>
    obtain ⟨v, -, ⟨ws, hblocks, -⟩, -⟩ := h
    obtain ⟨sub, rfl⟩ := hblocks.serial_of_raised hf
    rfl
  | setRepeaterPresent =>
    obtain ⟨d, v, -, rfl, -⟩ := h
    simp [presentWrite, fieldWrite] at hf
  | repeaterTeardown =>
    obtain ⟨d, m, -, rfl, -⟩ := h
    simp [teardownEvents, modeWrite, fieldWrite] at hf

/-- Settles O23: the failures in a run are those of the grammar its operation's law gives. -/
theorem failuresAreThoseOfTheTable : Obligations.FailuresAreThoseOfTheTable := by
  intro i s t r es hinv hready hs hrun f hf
  obtain ⟨hlaw, -⟩ := hrun.law hinv.ksvbuf.1 hinv.shabuf.1 hready hs
  exact hlaw.mayRaise hf

end Sys2Proof.Machine
end

section
/-! Reset and initialisation: commands before it, the state it leaves, and the operations it abandons
(70_reset_and_hazards.md R290 to R295). -/

namespace Sys2Proof.Machine

open Sys2Proof

/-! ## Before initialisation (70_reset_and_hazards.md R295) -/

section

variable {s : State} (hidle : s.busy = false) (hinit : s.initialised = false)
include hidle hinit

theorem exec_of_not_initialised (i : Instr) : exec i s = .next s.rejectCommand := by
  obtain ⟨body, he⟩ := exec_eq_runOperation i
  simp [he, runOperation, hidle, hinit]

theorem presentCommand_of_not_initialised (w : Word) (a : Args) : presentCommand w a s = .next s.rejectCommand := by
  simp [presentCommand, hidle, hinit]

end

/-- Settles O11: an operation and a command word of the inbox meet the same rejection, the word before it is decoded. -/
theorem noCommandBeforeInitialisation : Obligations.NoCommandBeforeInitialisation := by
  refine fun s hidle hinit => ⟨exec_of_not_initialised hidle hinit, fun w a rest hinbox => ?_⟩
  rw [step, hinbox]
  exact presentCommand_of_not_initialised (s := { s with inbox := rest }) hidle hinit w a

/-! ## Reset and initialisation between operations (70_reset_and_hazards.md R290) -/

theorem step_of_initialise {s : State} {supported : Bool} {rest : List HostInput}
    (hinbox : s.inbox = .initialise supported :: rest) :
    step s = .next (State.initialise supported { s with inbox := rest }) := by
  rw [step, hinbox]; rfl

theorem step_of_no_input {s : State} (hinbox : s.inbox = []) : step s = .next s := by
  rw [step, hinbox]

/-- Settles O12: the reset state and the one an initialisation makes have the values of R290 by definition. -/
theorem resetState : Obligations.ResetState :=
  ⟨⟨rfl, rfl, rfl, rfl, rfl, step_of_no_input rfl⟩, fun _ _ _ hinbox =>
    ⟨_, step_of_initialise hinbox, rfl, rfl, rfl, rfl, rfl, rfl, rfl, rfl, rfl, rfl, rfl⟩⟩

/-! ## The capability (70_reset_and_hazards.md R292) -/

/-- An operation ends with the capability it started with, or with that of a reset that landed in it. -/
theorem exec_capability {i : Instr} {s t : State} (hready : s.ready = true) (hexec : exec i s = .next t) :
    t.hdcpSupported = s.hdcpSupported ∨ ∃ l ∈ s.env.arrivals, .initialise t.hdcpSupported ∈ l := by
  obtain ⟨w, body, hbody, he⟩ := exec_tame i
  obtain ⟨r, u, es, ⟨-, -, -, hcap, -⟩, -, hends⟩ := hbody.completed.outcomes (s.start i)
  obtain rfl := Host.Outcome.next.inj ((exec_ready he hready).symm.trans hexec)
  obtain ⟨-, hok⟩ | ⟨v, es1, es2, l, c, -, herror, -, -, -, hl, hmem, -⟩ := hends
  · rw [hok]
    exact .inl hcap
  · rw [herror]
    exact .inr ⟨l, hl, hmem⟩

/-- A command changes the capability only by a reset that lands in its operation. -/
theorem presentCommand_capability {w : Word} {a : Args} {s t : State} (h : presentCommand w a s = .next t) :
    t.hdcpSupported = s.hdcpSupported ∨ ∃ l ∈ s.env.arrivals, .initialise t.hdcpSupported ∈ l := by
  cases hbusy : s.busy with
  | true =>
    obtain rfl := Host.Outcome.next.inj ((presentCommand_of_busy hbusy w a).symm.trans h)
    exact .inl rfl
  | false =>
    cases hinit : s.initialised with
    | false =>
      obtain rfl := Host.Outcome.next.inj ((presentCommand_of_not_initialised hbusy hinit w a).symm.trans h)
      exact .inl rfl
    | true =>
      have hready : s.ready = true := State.ready_iff.2 ⟨hinit, hbusy⟩
      cases hdecode : decode w with
      | ok i =>
        rw [presentCommand_of_legal hready hdecode] at h
        exact exec_capability (s := s.withArgs a) hready h
      | error e =>
        obtain rfl := Host.Outcome.next.inj ((presentCommand_of_illegal hready hdecode).symm.trans h)
        exact .inl rfl

/-- A step changes the capability only where an initialisation is taken or lands, and to its input. -/
theorem step_capability {s t : State} (h : step s = .next t) :
    t.hdcpSupported = s.hdcpSupported ∨ (∃ rest, s.inbox = .initialise t.hdcpSupported :: rest) ∨
      ∃ l ∈ s.env.arrivals, .initialise t.hdcpSupported ∈ l := by
  cases hinbox : s.inbox with
  | nil =>
    obtain rfl := Host.Outcome.next.inj ((step_of_no_input hinbox).symm.trans h)
    exact .inl rfl
  | cons input rest =>
    cases input with
    | command w a =>
      rw [step, hinbox] at h
      exact (presentCommand_capability h).imp_right .inr
    | initialise supported =>
      obtain rfl := Host.Outcome.next.inj ((step_of_initialise hinbox).symm.trans h)
      exact .inr (.inl ⟨rest, rfl⟩)
    | powerLoss =>
      obtain rfl := Host.Outcome.next.inj ((step_of_powerLoss hinbox).symm.trans h)
      exact .inl rfl

/-! ## Abandoned operations (70_reset_and_hazards.md R293) -/

/-- Settles O13: the whole run and the run with `L` on its way are both that of the operation's micro-program, which
the reset in moment `k` cuts off after the first `k` accesses; the end is the initialisation. -/
theorem resetAbandonsAnOperation : Obligations.ResetAbandonsAnOperation := by
  refine ⟨fun _ _ => step_capability, ?_⟩
  intro i s t es L k pre post supported hready hexec htr hk hcalm hlands hpre
  obtain ⟨w, body, hbody, he⟩ := exec_tame i
  obtain ⟨r, v, es', hwhole, ⟨htr', -⟩, hreset⟩ := hbody.completed (s.start i)
  rw [exec_ready he (s := s.withArrivals []) hready] at hexec
  obtain rfl := Host.Outcome.next.inj hexec
  have hquiet := hwhole (some i) s.refusals [] fun l hl => by simp at hl
  rw [show (s.withArrivals []).start i = (s.start i).ctx (some i) s.refusals [] from rfl, hquiet] at htr
  obtain rfl : es = es' := List.reverse_injective (List.append_cancel_right (htr.symm.trans htr'))
  obtain ⟨u, es1, es2, hes, hacc, herror, htrace, hcoll, hprm, hinbox, hrefusals⟩ :=
    hreset (some i) s.refusals L k pre supported post (Nat.lt_succ_of_le hk) hcalm hlands hpre
  refine ⟨u.initialise supported, es1, es2, hes, hacc, ?_, htrace, hcoll, hprm, rfl, rfl, rfl, rfl, rfl, rfl, hinbox,
    hrefusals⟩
  rw [exec_ready he (s := s.withArrivals L) hready]
  exact congrArg (fun x => Host.Outcome.next (endOperation x)) herror

end Sys2Proof.Machine
end

section
/-! The bounds on the accesses of each operation (70_reset_and_hazards.md R313), from those of the shapes and grammars
its run is made of. -/

namespace Sys2Proof.Machine

open Sys2Proof

/-! ## Counts of a concatenation -/

/-- Kind by kind, the sum. -/
def AccessCount.add (a b : AccessCount) : AccessCount :=
  ⟨a.cipher + b.cipher, a.port + b.port, a.serial + b.serial, a.vblank + b.vblank, a.random + b.random,
    a.delay + b.delay⟩

theorem accessCount_append (es es' : List Event) :
    accessCount (es ++ es') = (accessCount es).add (accessCount es') := by
  simp [accessCount, AccessCount.add, List.countP_append]

/-- No kind of access more often in `es` than in `b`. -/
def Within (b : AccessCount) (es : List Event) : Prop := (accessCount es).atMost b

theorem AccessCount.atMost_refl (a : AccessCount) : a.atMost a :=
  ⟨Nat.le_refl _, Nat.le_refl _, Nat.le_refl _, Nat.le_refl _, Nat.le_refl _, Nat.le_refl _⟩

theorem within_of_count {b : AccessCount} {es : List Event} (h : accessCount es = b) : Within b es :=
  h ▸ AccessCount.atMost_refl _

section

variable {a b : AccessCount} {es es' : List Event}

/-- A greater bound. Where both are sums of numbers, the comparison is arithmetic. -/
theorem Within.mono (h : Within a es)
    (hab : a.atMost b := by simp only [AccessCount.atMost, AccessCount.add, accessBound] <;> omega) : Within b es := by
  unfold Within AccessCount.atMost at *
  omega

theorem Within.append (h : Within a es) (h' : Within b es') : Within (a.add b) (es ++ es') := by
  unfold Within AccessCount.atMost at *
  simp only [accessCount_append, AccessCount.add]
  omega

theorem within_nil (b : AccessCount) : Within b [] :=
  ⟨Nat.zero_le _, Nat.zero_le _, Nat.zero_le _, Nat.zero_le _, Nat.zero_le _, Nat.zero_le _⟩

end

/-! ## The shapes accesses are made of -/

section

variable {p : Params} {es : List Event}

theorem within_reads (r : CipherReg) (vs : List Word) :
    Within ⟨vs.length, 0, 0, 0, 0, 0⟩ (vs.map (Event.cipherRead r)) := by
  induction vs with
  | nil => exact within_nil _
  | cons v vs ih =>
    have hread : Within ⟨1, 0, 0, 0, 0, 0⟩ [.cipherRead r v] := within_of_count rfl
    exact (hread.append ih).mono (by simp only [AccessCount.atMost, AccessCount.add, List.length_cons]; omega)

theorem PollHit.within {r : CipherReg} {test : Word → Bool} (h : PollHit r test es) :
    Within ⟨1500, 0, 0, 0, 0, 0⟩ es := by
  obtain ⟨vs, v, hlen, -, -, rfl⟩ := h
  have hlt : vs.length < 1500 := hlen
  have hlast : Within ⟨1, 0, 0, 0, 0, 0⟩ [.cipherRead r v] := within_of_count rfl
  exact ((within_reads r vs).append hlast).mono

theorem PollMiss.within {r : CipherReg} {test : Word → Bool} (h : PollMiss r test es) :
    Within ⟨1500, 0, 0, 0, 0, 0⟩ es := by
  obtain ⟨vs, hlen, -, rfl⟩ := h
  have hle : vs.length ≤ 1500 := hlen.le
  exact (within_reads r vs).mono

theorem within_raised (f : Failure) : Within ⟨0, 0, 0, 0, 0, 0⟩ [.raised f] := within_of_count rfl

theorem within_fieldWrite (r : CipherReg) (f : Field) (v d : Word) : Within ⟨2, 0, 0, 0, 0, 0⟩ (fieldWrite r f v d) :=
  within_of_count rfl

theorem within_presentWrite (on : Bool) (d v : Word) : Within ⟨3, 0, 0, 0, 0, 0⟩ (presentWrite p on d v) :=
  within_of_count rfl

theorem within_portWrites (on : Bool) (d : Word) : Within ⟨0, 2, 0, 0, 0, 0⟩ (portWrites p on d) :=
  within_of_count rfl

theorem within_riComparison (b0 b1 : Byte) (v : Word) : Within ⟨2, 0, 1, 0, 0, 0⟩ (riComparison b0 b1 v) :=
  within_of_count rfl

theorem within_vprimeWrites (v : VWords) : Within ⟨5, 0, 0, 0, 0, 0⟩ (vprimeWrites v) := within_of_count rfl

theorem within_teardownEvents (d m : Word) : Within ⟨4, 0, 0, 0, 0, 0⟩ (teardownEvents p d m) := within_of_count rfl

theorem within_failEvents (revoked : Bool) (d m : Word) : Within ⟨4, 0, 0, 0, 0, 0⟩ (failEvents p revoked d m) := by
  cases revoked <;> exact within_of_count rfl

theorem within_topologyReads (b t0 t1 : Byte) : Within ⟨0, 0, 2, 0, 0, 0⟩ (topologyReads b t0 t1) :=
  within_of_count rfl

theorem within_serialRead (sub : Byte) (n : Nat) (a : Option (List Byte)) :
    Within ⟨0, 0, 1, 0, 0, 0⟩ [.serialRead sub n a] := within_of_count rfl

theorem within_queryEvents (q : Option Byte) : Within ⟨0, 0, 1, 0, 0, 0⟩ (queryEvents q) := by
  cases q <;> exact within_of_count rfl

theorem WaitEvents.within {f0 : Word} (h : WaitEvents p f0 es) : Within ⟨p.frameWaitMax, 0, 0, 0, 0, 0⟩ es := by
  obtain ⟨vs, rfl, hlen, -⟩ := h
  exact (within_reads .status vs).mono

/-! ## The micro-programs -/

/-- DISABLE_SEQUENCE: five cipher accesses, one port write with its read, two checks. -/
theorem DisableTrace.within {ok : Bool} {c : CtlState} (h : DisableTrace p es ok c) :
    Within ⟨5, 2, 0, 2, 0, 0⟩ es := by
  cases h with
  | first d v u =>
    have hcount : Within ⟨4, 2, 0, 1, 0, 0⟩ (modeWrite p p.modeOff d ++ disableCheck v ++ disableEnd p u) :=
      within_of_count rfl
    exact hcount.mono
  | second d v w u => exact within_of_count rfl
  | timeout d v w =>
    have hcount : Within ⟨4, 0, 0, 2, 0, 0⟩ (modeWrite p p.modeOff d ++ disableCheck v ++ disableCheck w ++
      [.raised (.hardwareTimeout .disable)]) := within_of_count rfl
    exact hcount.mono

theorem within_anSeeds (seed0 seed1 d : Word) : Within ⟨4, 0, 0, 0, 2, 1⟩ (anSeeds p seed0 seed1 d) :=
  within_of_count rfl

theorem KeyTrace.within {r r' : Session} (h : KeyTrace p r es r') : Within ⟨1508, 0, 0, 0, 2, 1⟩ es := by
  obtain ⟨seed0, seed1, d, lo, hi, alo, ahi, ps, hps⟩ := h
  have hreads : Within ⟨4, 0, 0, 0, 0, 0⟩
    [.cipherRead .anLow lo, .cipherRead .anHi hi, .cipherRead .aksvLo alo, .cipherRead .aksvHi ahi] :=
      within_of_count rfl
  exact (((within_anSeeds seed0 seed1 d).append hps.within).append hreads).mono

theorem ExchangeTrace.within {r r' : Session} {k : Ksv} (h : ExchangeTrace p r k es r') :
    Within ⟨1508, 0, 3, 0, 2, 1⟩ es := by
  obtain ⟨es, r', hkey⟩ := h
  have hsent : Within ⟨0, 0, 3, 0, 0, 0⟩ [sendAn r' true, sendAksv r' true, bksvRead k] := within_of_count rfl
  exact (hkey.within.append hsent).mono

theorem within_loadEvents (k : Ksv) (b : Byte) (d v u m : Word) :
    Within ⟨7, 2, 1, 0, 0, 0⟩ (loadEvents p k b d v u m) := by
  have hpresent : Within ⟨3, 0, 0, 0, 0, 0⟩ (if (bcaps p b).isRepeater then presentWrite p true d v else []) := by
    split
    · exact within_presentWrite true d v
    · exact within_nil _
  have hbksv : Within ⟨2, 0, 0, 0, 0, 0⟩
    [.cipherWrite .bksvLo (k.b3 ++ k.b2 ++ k.b1 ++ k.b0), .cipherWrite .bksvHi (k.b4.setWidth 32)] :=
      within_of_count rfl
  exact (((((within_serialRead 0x40 1 (some [b])).append hpresent).append hbksv).append
    (within_portWrites true u)).append (within_fieldWrite .config _ _ m)).mono

theorem StartTrace.within {r r' : Session} (h : StartTrace p r es r') : Within ⟨1515, 2, 4, 0, 2, 1⟩ es := by
  obtain ⟨k, b, d, v, u, m, es, r', hex, -⟩ := h
  exact (hex.within.append (within_loadEvents k b d v u m)).mono

/-- ENABLE_SEQUENCE: two polls, seven accesses of the start, four of An and Aksv, six of BCaps to Ri. -/
theorem EnableTrace.within {r r' : Session} {ok : Bool} {c : CtlState} (h : EnableTrace p r es ok c r') :
    Within ⟨3017, 2, 5, 0, 2, 1⟩ es := by
  cases h with
  | captureTimeout seed0 seed1 d d' ps hps =>
    exact ((((within_anSeeds seed0 seed1 d).append hps.within).append (within_fieldWrite .config _ _ d')).append
      (within_raised _)).mono
  | anFails es r' hkey =>
    have hsent : Within ⟨0, 0, 1, 0, 0, 0⟩ [sendAn r' false, .raised (.serialIOFailure 0x18)] := within_of_count rfl
    exact (hkey.within.append hsent).mono
  | aksvFails es r' hkey =>
    have hsent : Within ⟨0, 0, 2, 0, 0, 0⟩ [sendAn r' true, sendAksv r' false, .raised (.serialIOFailure 0x10)] :=
      within_of_count rfl
    exact (hkey.within.append hsent).mono
  | bksvFails es r' hkey =>
    have hsent : Within ⟨0, 0, 3, 0, 0, 0⟩
      [sendAn r' true, sendAksv r' true, .serialRead 0x00 5 none, .raised (.serialIOFailure 0x00)] :=
        within_of_count rfl
    exact (hkey.within.append hsent).mono
  | badBksv k es r' hex => exact (hex.within.append (within_raised _)).mono
  | bcapsFails k es r' hex =>
    exact (hex.within.append ((within_serialRead 0x40 1 none).append (within_raised _))).mono
  | riTimeout es ps r' hstart hps => exact ((hstart.within.append hps.within).append (within_raised _)).mono
  | riFails es ps r' hstart hps =>
    exact ((hstart.within.append hps.within).append ((within_serialRead 0x08 2 none).append (within_raised _))).mono
  | mismatch es ps r' b0 b1 v hstart hps | encrypting es ps r' b0 b1 v hstart hps =>
    exact ((hstart.within.append hps.within).append (within_riComparison b0 b1 v)).mono

theorem LevelTrace.within {r r' : Session} {on ok : Bool} {c : CtlState} (h : LevelTrace p r on es ok c r')
    (fw w : Nat) : Within (accessBound fw w (.hdcpEnable on)) es := by
  cases h with
  | disable _ _ _ hdisable => exact hdisable.within
  | enable _ _ _ _ henable => exact henable.within

/-- GET_LINK_STATUS: an attempt compares once and waits at most `FRAME_WAIT_MAX` reads. -/
theorem LinkTrace.within {n : Nat} {r r' : Session} {ok : Bool} (h : LinkTrace p n r es ok r') :
    Within ⟨n * (2 + p.frameWaitMax), 0, n, 0, 0, 0⟩ es := by
  induction h with
  | broken => exact within_nil _
  | fails n r =>
    exact ((within_serialRead 0x08 2 none).append (within_raised _)).mono
  | intact n r b0 b1 v =>
    refine (within_riComparison b0 b1 v).mono ?_
    simp only [AccessCount.atMost, Nat.succ_mul]
    omega
  | mismatch n r r' b0 b1 v ws es ok _ hwait _ ih =>
    refine (((within_riComparison b0 b1 v).append hwait.within).append ih).mono ?_
    simp only [AccessCount.atMost, AccessCount.add, Nat.succ_mul]
    omega

theorem BlocksTrace.within {subs : List Byte} {ws : Option (List Word)} (h : BlocksTrace subs es ws) :
    Within ⟨0, 0, subs.length, 0, 0, 0⟩ es := by
  induction h with
  | done => exact within_nil _
  | fails sub subs =>
    exact ((within_serialRead sub 4 none).append ((within_raised _).append (within_raised _))).mono
      (by simp only [AccessCount.atMost, AccessCount.add, List.length_cons]; omega)
  | block sub b0 b1 b2 b3 subs es ws _ ih =>
    exact ((within_serialRead sub 4 _).append ih).mono
      (by simp only [AccessCount.atMost, AccessCount.add, List.length_cons]; omega)

theorem VPrimeTrace.within {v : Option VWords} (h : VPrimeTrace es v) : Within ⟨0, 0, 5, 0, 0, 0⟩ es := by
  obtain ⟨ws, hblocks, -⟩ := h
  exact hblocks.within

/-- A feed polls once, with the two accesses of the control write before and the data write behind. -/
theorem FeedsTrace.within {fs : List (BitVec 3 × Word)} {ok : Bool} (h : FeedsTrace p fs es ok) :
    Within ⟨1503 * fs.length, 0, 0, 0, 0, 0⟩ es := by
  induction h with
  | done => exact within_nil _
  | feed f fs es es' ok hfeed _ ih =>
    obtain ⟨d, ps, hps, rfl⟩ := hfeed
    have hword : Within ⟨1, 0, 0, 0, 0, 0⟩ [.cipherWrite .sha1In f.2] := within_of_count rfl
    exact ((((within_fieldWrite .rep _ _ d).append hps.within).append hword).append ih).mono
      (by simp only [AccessCount.atMost, AccessCount.add, List.length_cons]; omega)
  | timeout f fs es htimeout =>
    obtain ⟨d, ps, hps, rfl⟩ := htimeout
    exact (((within_fieldWrite .rep _ _ d).append hps.within).append (within_raised _)).mono
      (by simp only [AccessCount.atMost, AccessCount.add, List.length_cons]; omega)

/-- The feeds of a computation: one for each word of the buffer, whose length the session registers keep. -/
theorem within_expectedFeeds {ksvs : List Byte} {count : Nat} {topology : BitVec 16} {ok : Bool} (hcount : count ≤ 127)
    (h : FeedsTrace p (expectedFeeds p ksvs count topology) es ok) (r : Session) :
    Within ⟨1503 * ((r.fed count (es.countP Event.isWordFed)).blen.toNat / 4), 0, 0, 0, 0, 0⟩ es := by
  obtain ⟨-, hmax⟩ := shaLength_le count hcount
  have hblen : (r.fed count (es.countP Event.isWordFed)).blen.toNat = shaLength count :=
    Nat.mod_eq_of_lt (show shaLength count < 2 ^ 11 by omega)
  rw [hblen, ← expectedFeeds_length p ksvs count topology]
  exact h.within

theorem CompareStart.within {v : VWords} (h : CompareStart p v es) : Within ⟨1507, 0, 0, 0, 0, 0⟩ es := by
  obtain ⟨d, ps, hps, rfl⟩ := h
  exact (((within_vprimeWrites v).append hps.within).append (within_fieldWrite .rep _ _ d)).mono

/-- COMPARE_V_PRIME: two polls, with five V′ writes before the first and a control write between them. -/
theorem CompareTrace.within {v : VWords} {ok : Bool} (h : CompareTrace p v es ok) :
    Within ⟨3007, 0, 0, 0, 0, 0⟩ es := by
  cases h with
  | notReady ps hps => exact (((within_vprimeWrites v).append hps.within).append (within_raised _)).mono
  | ends es vs x hstart hlen =>
    have hlt : vs.length < 1500 := hlen
    have hlast : Within ⟨1, 0, 0, 0, 0, 0⟩ [.cipherRead .rep x] := within_of_count rfl
    exact ((hstart.within.append (within_reads .rep vs)).append hlast).mono
  | timeout es vs hstart hlen =>
    have hle : vs.length ≤ 1500 := hlen.le
    exact ((hstart.within.append (within_reads .rep vs)).append (within_raised _)).mono

/-- Steps 8 to 10 of ACTIVATE_REPEATER. -/
theorem VerifyTrace.within {r r' : Session} {bytes : List Byte} {n : Nat} {topology : BitVec 16}
    {revoked torn : Bool} {st : Status} (h : VerifyTrace p r bytes n topology revoked es st torn r') (hn : n ≤ 127) :
    Within ⟨1503 * (r'.blen.toNat / 4) + 3007 + 4, 0, 5, 0, 0, 0⟩ es := by
  cases h with
  | vFails es d m hfeeds => exact ((within_expectedFeeds hn hfeeds r).append (within_failEvents revoked d m)).mono
  | vprimeFails es es' d m hfeeds hv =>
    exact (((within_expectedFeeds hn hfeeds r).append hv.within).append (within_failEvents revoked d m)).mono
  | rejected es es' es'' v same d m hfeeds hv hcompare =>
    exact ((((within_expectedFeeds hn hfeeds r).append hv.within).append hcompare.within).append
      (within_failEvents revoked d m)).mono
  | verified es es' es'' v hfeeds hv hcompare =>
    exact (((within_expectedFeeds hn hfeeds r).append hv.within).append hcompare.within).mono

theorem ActivateTrace.within {rs : List Ksv} {r r' : Session} {st : Status} {torn : Bool}
    (h : ActivateTrace p rs r es st torn r') (fw : Nat) :
    Within (accessBound fw (r'.blen.toNat / 4) .activateRepeater) es := by
  cases h with
  | bcapsFails => exact ((within_serialRead 0x40 1 none).append (within_raised _)).mono
  | noRepeater b | notReady b => exact (within_serialRead 0x40 1 (some [b])).mono
  | bstatusFails b =>
    exact ((within_serialRead 0x40 1 (some [b])).append
      ((within_serialRead 0x41 2 none).append (within_raised _))).mono
  | badTopology b t0 t1 => exact ((within_topologyReads b t0 t1).append (within_raised _)).mono
  | noDevices b t0 t1 => exact (within_topologyReads b t0 t1).mono
  | presentFails b t0 t1 d v => exact ((within_topologyReads b t0 t1).append (within_presentWrite true d v)).mono
  | fifoFails b t0 t1 d v d' m n =>
    exact (((((within_topologyReads b t0 t1).append (within_presentWrite true d v)).append
      (within_serialRead 0x43 _ none)).append (within_teardownEvents d' m)).append (within_raised _)).mono
  | listRead b t0 t1 d v n bytes es st torn r' _ haccepted hn _ _ _ hverify =>
    exact ((((within_topologyReads b t0 t1).append (within_presentWrite true d v)).append
      (within_serialRead 0x43 _ (some bytes))).append
        (hverify.within (hn ▸ deviceCount_le_of_accepted haccepted))).mono

theorem GetTrace.within {c c' : CtlState} {r r' : Session} {st : Status} {level : Word} {q : Option Byte}
    (h : GetTrace p c r es st level q c' r') (w : Nat) : Within (accessBound p.frameWaitMax w .hdcpGetCpData) es := by
  have hstatus (v : Word) : Within ⟨1, 0, 0, 0, 0, 0⟩ [.cipherRead .status v] := within_of_count rfl
  cases h with
  | off v => exact ((hstatus v).append (within_queryEvents q)).mono
  | on v es q r' _ hlink => exact ((hstatus v).append (hlink.within.append (within_queryEvents q))).mono
  | broken v es es' q r' ok c' _ hlink hdisable =>
    exact ((hstatus v).append ((hlink.within.append hdisable.within).append (within_queryEvents q))).mono

/-- The action of HDCP_SET_CP_DATA: a verification or a level. -/
theorem ActionTrace.within {params : CpParams} {rs : List Ksv} {c c' : CtlState} {r r' : Session} {st : Status}
    (h : ActionTrace p params rs c r es st c' r') :
    Within ⟨max (3 + 1503 * (r'.blen.toNat / 4) + 3007 + 4) 3017, 2, 8, 2, 2, 1⟩ es := by
  cases h with
  | verify _ _ _ _ hactivate => exact (hactivate.within 0).mono
  | level _ _ _ _ hlevel =>
    generalize decide (params.level = p.cpLevelOn) = on at hlevel
    cases on <;> exact (hlevel.within 0 0).mono

theorem SetTrace.within {params : CpParams} {rs : List Ksv} {c c' : CtlState} {r r' : Session} {st : Status}
    {level : Word} {q : Option Byte} (h : SetTrace p params rs c r es st level q c' r') (fw : Nat) :
    Within (accessBound fw (r'.blen.toNat / 4) .hdcpSetCpData) es := by
  cases h with
  | done q es c' r' haction => exact ((within_queryEvents q).append haction.within).mono
  | netted q es es' st ok c' c'' r' haction _ hdisable =>
    exact (((within_queryEvents q).append haction.within).append hdisable.within).mono

end

/-! ## Every operation -/

theorem LevelLaw.within {s : State} {on ok : Bool} {es : List Event} {u : Regs} (h : LevelLaw s on ok es u)
    (fw w : Nat) : Within (accessBound fw w (.hdcpEnable on)) es := by
  obtain ⟨-, -, rfl, -⟩ | ⟨-, hlevel, -⟩ := h
  · exact within_nil _
  · exact hlevel.within fw w

theorem OperationLaw.within {i : Instr} {s : State} {r : Result} {es : List Event} {u : Regs}
    (h : OperationLaw s r es u i) : Within (accessBound s.prm.frameWaitMax (u.ses.blen.toNat / 4) i) es := by
  cases i with
  | hdcpQuery | hdcpIsValidBksv | isRevoked =>
    obtain ⟨rfl, -⟩ := h
    exact within_nil _
  | hdcpIsEnabled =>
    obtain ⟨rfl | ⟨v, rfl⟩, -⟩ := h
    · exact within_nil _
    · exact within_of_count rfl
  | hdcpEnable on =>
    obtain ⟨ok, -, hlevel⟩ := h
    exact hlevel.within _ _
  | setEncryptionLevel on =>
    obtain ⟨ok, -, hlevel⟩ := h
    cases on <;> exact hlevel.within s.prm.frameWaitMax 0
  | hdcpGetCpData =>
    obtain ⟨-, -, rfl, -⟩ | ⟨-, st, level, q, -, htrace, -⟩ := h
    · exact within_nil _
    · exact htrace.within _
  | hdcpSetCpData =>
    obtain ⟨-, -, rfl, -⟩ | ⟨-, st, level, q, rs, -, -, htrace, -⟩ := h
    · exact within_nil _
    · exact htrace.within _
  | activateRepeater =>
    obtain ⟨st, torn, -, htrace, -⟩ := h
    exact htrace.within _
  | buildSha1Buffer =>
    obtain ⟨-, rfl, -⟩ := h
    exact within_nil _
  | computeTransmitterV =>
    obtain ⟨ok, ksvs, -, -, hfeeds, -, hu⟩ := h
    have hcount : s.args.count.toNat ≤ 127 := by omega
    exact hu ▸ within_expectedFeeds hcount hfeeds s.ses
  | compareVPrime =>
    obtain ⟨ok, -, htrace, -⟩ := h
    exact htrace.within
  | getLinkStatus =>
    obtain ⟨ok, -, htrace, -⟩ := h
    exact htrace.within
  | rxRead =>
    obtain ⟨rfl | ⟨-, -, rfl | ⟨bytes, rfl⟩⟩, -⟩ := h
    · exact within_nil _
    · exact within_of_count rfl
    · exact within_of_count rfl
  | rxWrite =>
    obtain ⟨rfl | ⟨-, -, payload, -, rfl | rfl⟩, -⟩ := h
    · exact within_nil _
    · exact within_of_count rfl
    · exact within_of_count rfl
  | rxReadVPrime =>
    obtain ⟨v, -, htrace, -⟩ := h
    exact htrace.within
  | setRepeaterPresent on =>
    obtain ⟨d, v, -, rfl, -⟩ := h
    exact within_presentWrite on d v
  | repeaterTeardown =>
    obtain ⟨d, m, -, rfl, -⟩ := h
    exact within_teardownEvents d m

/-- Settles O22: the bound follows the grammar of the operation's law; `s.blen` is in range after the run. -/
theorem accessBounds : Obligations.AccessBounds := by
  intro i s t r es hinv hready hs hrun
  obtain ⟨hlaw, -⟩ := hrun.law hinv.ksvbuf.1 hinv.shabuf.1 hready hs
  obtain ⟨⟨-, hblen⟩, -⟩ := (hrun.inRange hinv hready hs).ses
  have hmax : t.ses.blen.toNat ≤ 704 := hblen
  exact ⟨hlaw.within, by omega⟩

end Sys2Proof.Machine
end

section
/-! The order of accesses that keeps the hazards (70_reset_and_hazards.md R299, R302): what has to come before an access
that uses An, Ri′ or the SHA-1 engine, and that it does in every run. -/

namespace Sys2Proof.Machine

open Sys2Proof

/-! ## What has to come before -/

/-- An and Aksv need an earlier status read that showed `an_ready` (41_controller.md R146). -/
def SeenAnReady (p : Params) (es : List Event) : Prop :=
  ∃ x, Event.cipherRead .status x ∈ es ∧ anReady p x = true

/-- Ri′ needs such a read of `ri_ready` right before it (41_controller.md R155). -/
def EndsInRiReady (p : Params) (es : List Event) : Prop :=
  ∃ x, es.getLast? = some (.cipherRead .status x) ∧ riReady p x = true

/-- A SHA-1 word needs a read that showed `ReadyForNextData` right before it (44_repeater.md R201). -/
def EndsInShaReady (p : Params) (es : List Event) : Prop :=
  ∃ x, es.getLast? = some (.cipherRead .rep x) ∧ shaReady p x = true

/-- V′ is loaded and the engine was found ready, as the complete-SHA-1 code needs it (44_repeater.md R209). -/
def EndsInLoadedVPrime (p : Params) (es : List Event) : Prop :=
  ∃ (es3 : List Event) (w : VWords) (xs : List Word) (x : Word),
    es = es3 ++ vprimeWrites w ++ xs.map (Event.cipherRead .rep) ++ [.cipherRead .rep x] ∧ shaReady p x = true

/-- The write of `v` to HDCP_REP is that of an update; it brings the complete-SHA-1 code in only where V′ is loaded. -/
def EndsInRepRead (p : Params) (v : Word) (es : List Event) : Prop :=
  ∃ es0 d, es = es0 ++ [.cipherRead .rep d] ∧
    (getField (controlField p) v = p.ctrlCompleteSha1.setWidth 32 →
      getField (controlField p) d ≠ p.ctrlCompleteSha1.setWidth 32 → EndsInLoadedVPrime p es0)

/-- What has to stand in `es`, the accesses before it, for an access; `enabling` where Ri′ is read for an enable. -/
def ReadyAt (p : Params) (enabling : Bool) (es : List Event) : Event → Prop
  | .cipherRead r _ => [CipherReg.anLow, .anHi, .aksvLo, .aksvHi].contains r = true → SeenAnReady p es
  | .serialRead sub size _ => enabling = true → sub = 0x08 → size = 2 → EndsInRiReady p es
  | .cipherWrite .sha1In _ => EndsInShaReady p es
  | .cipherWrite .rep v => EndsInRepRead p v es
  | _ => True

/-- Each access has before it what it needs. -/
def ReadyTrace (p : Params) (enabling : Bool) (es : List Event) : Prop :=
  ∀ es1 e es2, es = es1 ++ e :: es2 → ReadyAt p enabling es1 e

/-- The access needs nothing before it. -/
def Event.isFree : Event → Bool
  | .cipherRead r _ => !([CipherReg.anLow, .anHi, .aksvLo, .aksvHi].contains r)
  | .serialRead sub size _ => !(size == 2 && sub == 0x08)
  | .cipherWrite .sha1In _ | .cipherWrite .rep _ => false
  | _ => true

section

variable {p : Params} {b : Bool} {es es' : List Event} {e : Event}

theorem readyAt_of_isFree (h : e.isFree = true) : ReadyAt p b es e := by
  cases e with
  | cipherRead r v =>
    intro hr
    simp only [Event.isFree, hr, Bool.not_true, Bool.false_eq_true] at h
  | serialRead sub size answer =>
    rintro - rfl rfl
    cases h
  | cipherWrite r v =>
    cases r with
    | sha1In | rep => cases h
    | _ => trivial
  | _ => trivial

/-- What an access needs is a last part of what comes before it, or a member. -/
theorem ReadyAt.prepend (h : ReadyAt p b es' e) (es : List Event) : ReadyAt p b (es ++ es') e := by
  unfold ReadyAt at *
  split at h
  · intro hr
    obtain ⟨x, hx, hready⟩ := h hr
    exact ⟨x, List.mem_append_right es hx, hready⟩
  · intro hb hsub hsize
    obtain ⟨x, hx, hready⟩ := h hb hsub hsize
    exact ⟨x, by simp [List.getLast?_append, hx], hready⟩
  · obtain ⟨x, hx, hready⟩ := h
    exact ⟨x, by simp [List.getLast?_append, hx], hready⟩
  · obtain ⟨es0, d, rfl, hcomplete⟩ := h
    refine ⟨es ++ es0, d, (List.append_assoc ..).symm, fun hv hd => ?_⟩
    obtain ⟨es3, w, xs, x, rfl, hready⟩ := hcomplete hv hd
    exact ⟨es ++ es3, w, xs, x, by simp only [List.append_assoc], hready⟩
  · trivial

theorem readyTrace_nil : ReadyTrace p b [] := fun _ _ _ h => by simp at h

/-- Accesses behind a trace, each ready with the trace before it. -/
theorem ReadyTrace.append_of (h : ReadyTrace p b es)
    (h' : ∀ es1 e es2, es' = es1 ++ e :: es2 → ReadyAt p b (es ++ es1) e) : ReadyTrace p b (es ++ es') := by
  intro es1 e es2 heq
  obtain ⟨a, rfl, ha⟩ | ⟨a, rfl, ha⟩ := List.append_eq_append_iff.1 heq
  · exact h' a e es2 ha
  · cases a with
    | nil => simpa using h' [] e es2 ha.symm
    | cons c a =>
      obtain ⟨rfl, -⟩ := List.cons.inj ha
      exact h es1 _ a rfl

theorem ReadyTrace.append (h : ReadyTrace p b es) (h' : ReadyTrace p b es') : ReadyTrace p b (es ++ es') :=
  h.append_of fun es1 e es2 heq => (h' es1 e es2 heq).prepend es

theorem readyTrace_of_isFree (h : es.all Event.isFree = true) : ReadyTrace p b es := by
  rintro es1 e es2 rfl
  exact readyAt_of_isFree (List.all_eq_true.1 h e (by simp))

/-- One access behind a trace, and a trace behind it. -/
theorem ReadyTrace.step (h : ReadyTrace p b es) (he : ReadyAt p b es e) (h' : ReadyTrace p b es') :
    ReadyTrace p b (es ++ e :: es') := by
  refine h.append_of fun es1 e' es2 heq => ?_
  cases es1 with
  | nil =>
    obtain ⟨rfl, -⟩ := List.cons.inj heq
    simpa using he
  | cons c es1 =>
    obtain ⟨rfl, htail⟩ := List.cons.inj heq
    simpa using (h' es1 e' es2 htail).prepend (es ++ [e])

/-- What is not read for an enable may read Ri′ at any time (45_link_monitor.md R230). -/
theorem readyTrace_serialRead (sub : Byte) (n : Nat) (a : Option (List Byte)) (h : ReadyTrace p false es) :
    ReadyTrace p false (.serialRead sub n a :: es) :=
  readyTrace_nil.step (fun hb => absurd hb Bool.false_ne_true) h

end

/-! ## Polls -/

section

variable {p : Params} {b : Bool} {es : List Event} {r : CipherReg} {test : Word → Bool}

theorem readyTrace_reads (hr : ∀ v, (Event.cipherRead r v).isFree = true) (vs : List Word) :
    ReadyTrace p b (vs.map (Event.cipherRead r)) :=
  readyTrace_of_isFree (by simp [hr])

theorem PollMiss.readyTrace (h : PollMiss r test es) (hr : ∀ v, (Event.cipherRead r v).isFree = true) :
    ReadyTrace p b es := by
  obtain ⟨vs, -, -, rfl⟩ := h
  exact readyTrace_reads hr vs

theorem PollHit.readyTrace (h : PollHit r test es) (hr : ∀ v, (Event.cipherRead r v).isFree = true) :
    ReadyTrace p b es := by
  obtain ⟨vs, v, -, -, -, rfl⟩ := h
  exact (readyTrace_reads hr vs).append (readyTrace_reads hr [v])

/-- What comes before an access right behind a poll ends in the read that passed. -/
theorem PollHit.getLast?_append (h : PollHit r test es) (before : List Event) :
    ∃ x, (before ++ es).getLast? = some (.cipherRead r x) ∧ test x = true := by
  obtain ⟨vs, v, -, -, htest, rfl⟩ := h
  exact ⟨v, by simp [← List.append_assoc], htest⟩

/-- What comes after a poll has the read that passed before it. -/
theorem PollHit.exists_mem (h : PollHit r test es) : ∃ x, Event.cipherRead r x ∈ es ∧ test x = true := by
  obtain ⟨vs, v, -, -, htest, rfl⟩ := h
  exact ⟨v, by simp, htest⟩

end

/-! ## Writes of HDCP_REP -/

section

variable {p : Params} (hp : p.valid = true) {b : Bool}
include hp

/-- A write of `present` keeps the control code it read. -/
theorem readyTrace_presentField (x d : Word) : ReadyTrace p b (fieldWrite .rep (presentField p) x d) :=
  (readyTrace_of_isFree (es := [.cipherRead .rep d]) rfl).step
    ⟨[], d, rfl, fun hv hd => absurd ((getField_control_setField_present hp d x).symm.trans hv) hd⟩ readyTrace_nil

/-- A write of another code brings the complete-SHA-1 code in nowhere. -/
theorem readyTrace_controlField {m : BitVec 3} (hm : m ≠ p.ctrlCompleteSha1) (d : Word) :
    ReadyTrace p b (fieldWrite .rep (controlField p) (m.setWidth 32) d) :=
  (readyTrace_of_isFree (es := [.cipherRead .rep d]) rfl).step
    ⟨[], d, rfl, fun hv => absurd (controlCode_setWidth_inj ((getField_control_setField hp m d).symm.trans hv)) hm⟩
    readyTrace_nil

theorem readyTrace_presentWrite (on : Bool) (d v : Word) : ReadyTrace p b (presentWrite p on d v) :=
  (readyTrace_presentField hp _ d).append (readyTrace_of_isFree rfl)

theorem readyTrace_teardownEvents (d m : Word) : ReadyTrace p b (teardownEvents p d m) :=
  (readyTrace_presentField hp _ d).append (readyTrace_of_isFree rfl)

theorem readyTrace_failEvents (revoked : Bool) (d m : Word) : ReadyTrace p b (failEvents p revoked d m) := by
  refine (readyTrace_teardownEvents hp d m).append ?_
  cases revoked <;> exact readyTrace_of_isFree rfl

end

/-! ## The micro-programs -/

section

variable {p : Params} {b : Bool} {es : List Event}

theorem DisableTrace.readyTrace {ok : Bool} {c : CtlState} (h : DisableTrace p es ok c) : ReadyTrace p b es := by
  cases h <;> exact readyTrace_of_isFree rfl

/-- An and Aksv are read behind the poll for `an_ready` (41_controller.md R146, R147). -/
theorem KeyTrace.readyTrace {r r' : Session} (h : KeyTrace p r es r') : ReadyTrace p b es := by
  obtain ⟨seed0, seed1, d, lo, hi, alo, ahi, ps, hps⟩ := h
  obtain ⟨x, hx, hready⟩ := hps.exists_mem
  refine ((readyTrace_of_isFree rfl).append (hps.readyTrace fun _ => rfl)).append_of fun es1 e es2 heq => ?_
  have hseen : SeenAnReady p (anSeeds p seed0 seed1 d ++ ps ++ es1) := ⟨x, by simp [hx], hready⟩
  have hmem : e ∈ [Event.cipherRead .anLow lo, .cipherRead .anHi hi, .cipherRead .aksvLo alo,
    .cipherRead .aksvHi ahi] := by simp [heq]
  obtain rfl | rfl | rfl | rfl : _ ∨ _ ∨ _ ∨ _ := by simpa using hmem
  all_goals exact fun _ => hseen

theorem ExchangeTrace.readyTrace {r r' : Session} {k : Ksv} (h : ExchangeTrace p r k es r') : ReadyTrace p b es := by
  obtain ⟨es, r', hkey⟩ := h
  exact hkey.readyTrace.append (readyTrace_of_isFree rfl)

theorem readyTrace_loadEvents (hp : p.valid = true) (k : Ksv) (c : Byte) (d v u m : Word) :
    ReadyTrace p b (loadEvents p k c d v u m) := by
  have hpresent : ReadyTrace p b (if (bcaps p c).isRepeater then presentWrite p true d v else []) := by
    split
    · exact readyTrace_presentWrite hp true d v
    · exact readyTrace_nil
  have hread : ReadyTrace p b [.serialRead 0x40 1 (some [c])] := readyTrace_of_isFree rfl
  exact (((hread.append hpresent).append (readyTrace_of_isFree rfl)).append (readyTrace_of_isFree rfl)).append
    (readyTrace_of_isFree rfl)

theorem StartTrace.readyTrace (hp : p.valid = true) {r r' : Session} (h : StartTrace p r es r') :
    ReadyTrace p b es := by
  obtain ⟨k, c, d, v, u, m, es, r', hex, -⟩ := h
  exact hex.readyTrace.append (readyTrace_loadEvents hp k c d v u m)

/-- Ri′ is read right behind the poll for `ri_ready` (41_controller.md R155). -/
theorem EnableTrace.readyTrace (hp : p.valid = true) {r r' : Session} {ok : Bool} {c : CtlState}
    (h : EnableTrace p r es ok c r') : ReadyTrace p b es := by
  cases h with
  | captureTimeout seed0 seed1 d d' ps hps =>
    exact (((readyTrace_of_isFree rfl).append (hps.readyTrace fun _ => rfl)).append (readyTrace_of_isFree rfl)).append
      (readyTrace_of_isFree rfl)
  | anFails es r' hkey | aksvFails es r' hkey | bksvFails es r' hkey =>
    exact hkey.readyTrace.append (readyTrace_of_isFree rfl)
  | badBksv k es r' hex | bcapsFails k es r' hex => exact hex.readyTrace.append (readyTrace_of_isFree rfl)
  | riTimeout es ps r' hstart hps =>
    exact ((hstart.readyTrace hp).append (hps.readyTrace fun _ => rfl)).append (readyTrace_of_isFree rfl)
  | riFails es ps r' hstart hps | mismatch es ps r' b0 b1 v hstart hps | encrypting es ps r' b0 b1 v hstart hps =>
    exact ((hstart.readyTrace hp).append (hps.readyTrace fun _ => rfl)).step
      (fun _ _ _ => hps.getLast?_append es) (readyTrace_of_isFree rfl)

theorem LevelTrace.readyTrace (hp : p.valid = true) {r r' : Session} {on ok : Bool} {c : CtlState}
    (h : LevelTrace p r on es ok c r') : ReadyTrace p b es := by
  cases h with
  | disable _ _ _ hdisable => exact hdisable.readyTrace
  | enable _ _ _ _ henable => exact henable.readyTrace hp

/-- GET_LINK_STATUS reads Ri′ of a running encryption (45_link_monitor.md R230). -/
theorem LinkTrace.readyTrace {n : Nat} {r r' : Session} {ok : Bool} (h : LinkTrace p n r es ok r') :
    ReadyTrace p false es := by
  induction h with
  | broken => exact readyTrace_nil
  | fails | intact => exact readyTrace_serialRead _ _ _ (readyTrace_of_isFree rfl)
  | mismatch n r r' b0 b1 v ws es ok _ hwait _ ih =>
    obtain ⟨vs, rfl, -⟩ := hwait
    exact ((readyTrace_serialRead _ _ _ (readyTrace_of_isFree rfl)).append
      (readyTrace_reads (fun _ => rfl) vs)).append ih

theorem BlocksTrace.readyTrace {subs : List Byte} {ws : Option (List Word)} (h : BlocksTrace subs es ws) :
    ReadyTrace p b es := by
  induction h with
  | done => exact readyTrace_nil
  | fails => exact readyTrace_of_isFree rfl
  | block sub b0 b1 b2 b3 _ _ _ _ ih =>
    exact (readyTrace_of_isFree (es := [.serialRead sub 4 (some [b0, b1, b2, b3])]) rfl).append ih

theorem VPrimeTrace.readyTrace {v : Option VWords} (h : VPrimeTrace es v) : ReadyTrace p b es := by
  obtain ⟨ws, hblocks, -⟩ := h
  exact hblocks.readyTrace

/-- A SHA-1 word is written right behind the poll for `ReadyForNextData` (44_repeater.md R201). -/
theorem FeedsTrace.readyTrace (hp : p.valid = true) {fs : List (BitVec 3 × Word)} {ok : Bool}
    (h : FeedsTrace p fs es ok) (hfs : ∀ f ∈ fs, f.1 ≠ p.ctrlCompleteSha1) : ReadyTrace p b es := by
  induction h with
  | done => exact readyTrace_nil
  | feed f fs es es' ok hfeed _ ih =>
    obtain ⟨d, ps, hps, rfl⟩ := hfeed
    obtain ⟨hmode, hrest⟩ := List.forall_mem_cons.1 hfs
    exact (((readyTrace_controlField hp hmode d).append (hps.readyTrace fun _ => rfl)).step
      (e := .cipherWrite .sha1In f.2) (hps.getLast?_append _) readyTrace_nil).append (ih hrest)
  | timeout f fs es htimeout =>
    obtain ⟨d, ps, hps, rfl⟩ := htimeout
    exact ((readyTrace_controlField hp (hfs f (by simp)) d).append (hps.readyTrace fun _ => rfl)).append
      (readyTrace_of_isFree rfl)

theorem readyTrace_expectedFeeds (hp : p.valid = true) {ksvs : List Byte} {count : Nat} {topology : BitVec 16}
    {ok : Bool} (h : FeedsTrace p (expectedFeeds p ksvs count topology) es ok) : ReadyTrace p b es := by
  refine h.readyTrace hp fun f hf => ?_
  obtain ⟨n, hn⟩ := expectedFeeds_textMode hf
  exact hn ▸ textMode_ne_completeSha1 hp n

/-- The complete-SHA-1 code is written behind the V′ words and the poll for `ReadyForNextData` (44_repeater.md
R209). -/
theorem CompareStart.readyTrace {v : VWords} (h : CompareStart p v es) : ReadyTrace p b es := by
  obtain ⟨d, ps, hps, rfl⟩ := h
  have hloaded : EndsInLoadedVPrime p (vprimeWrites v ++ ps) := by
    obtain ⟨xs, x, -, -, hready, rfl⟩ := hps
    exact ⟨[], v, xs, x, by simp, hready⟩
  have hread : ReadyTrace p b (vprimeWrites v ++ ps ++ [.cipherRead .rep d]) :=
    ((readyTrace_of_isFree rfl).append (hps.readyTrace fun _ => rfl)).append (readyTrace_of_isFree rfl)
  simpa [fieldWrite] using
    hread.step (e := .cipherWrite .rep _) ⟨_, d, rfl, fun _ _ => hloaded⟩ readyTrace_nil

theorem CompareTrace.readyTrace {v : VWords} {ok : Bool} (h : CompareTrace p v es ok) : ReadyTrace p b es := by
  cases h with
  | notReady ps hps =>
    exact ((readyTrace_of_isFree rfl).append (hps.readyTrace fun _ => rfl)).append (readyTrace_of_isFree rfl)
  | ends es vs x hstart | timeout es vs hstart =>
    exact (hstart.readyTrace.append (readyTrace_reads (fun _ => rfl) vs)).append (readyTrace_of_isFree rfl)

theorem VerifyTrace.readyTrace (hp : p.valid = true) {r r' : Session} {bytes : List Byte} {n : Nat}
    {topology : BitVec 16} {revoked torn : Bool} {st : Status}
    (h : VerifyTrace p r bytes n topology revoked es st torn r') : ReadyTrace p b es := by
  cases h with
  | vFails es d m hfeeds => exact (readyTrace_expectedFeeds hp hfeeds).append (readyTrace_failEvents hp revoked d m)
  | vprimeFails es es' d m hfeeds hv =>
    exact ((readyTrace_expectedFeeds hp hfeeds).append hv.readyTrace).append (readyTrace_failEvents hp revoked d m)
  | rejected es es' es'' v same d m hfeeds hv hcompare =>
    exact (((readyTrace_expectedFeeds hp hfeeds).append hv.readyTrace).append hcompare.readyTrace).append
      (readyTrace_failEvents hp revoked d m)
  | verified es es' es'' v hfeeds hv hcompare =>
    exact ((readyTrace_expectedFeeds hp hfeeds).append hv.readyTrace).append hcompare.readyTrace

theorem ActivateTrace.readyTrace (hp : p.valid = true) {rs : List Ksv} {r r' : Session} {st : Status} {torn : Bool}
    (h : ActivateTrace p rs r es st torn r') : ReadyTrace p b es := by
  have hreads (c t0 t1 : Byte) : ReadyTrace p b (topologyReads c t0 t1) := readyTrace_of_isFree rfl
  have hlist (n : Nat) (a : Option (List Byte)) : ReadyTrace p b [.serialRead 0x43 (5 * n) a] :=
    readyTrace_of_isFree (by simp [Event.isFree])
  cases h with
  | bcapsFails | noRepeater | notReady | bstatusFails => exact readyTrace_of_isFree rfl
  | badTopology c t0 t1 => exact (hreads c t0 t1).append (readyTrace_of_isFree rfl)
  | noDevices c t0 t1 => exact hreads c t0 t1
  | presentFails c t0 t1 d v => exact (hreads c t0 t1).append (readyTrace_presentWrite hp true d v)
  | fifoFails c t0 t1 d v d' m n =>
    exact ((((hreads c t0 t1).append (readyTrace_presentWrite hp true d v)).append (hlist n none)).append
      (readyTrace_teardownEvents hp d' m)).append (readyTrace_of_isFree rfl)
  | listRead c t0 t1 d v n bytes es st torn r' _ _ _ _ _ _ hverify =>
    exact (((hreads c t0 t1).append (readyTrace_presentWrite hp true d v)).append (hlist n (some bytes))).append
      (hverify.readyTrace hp)

theorem readyTrace_queryEvents (q : Option Byte) : ReadyTrace p b (queryEvents q) := by
  cases q <;> exact readyTrace_of_isFree rfl

theorem GetTrace.readyTrace {c c' : CtlState} {r r' : Session} {st : Status} {level : Word} {q : Option Byte}
    (h : GetTrace p c r es st level q c' r') : ReadyTrace p false es := by
  have hstatus (v : Word) : ReadyTrace p false [.cipherRead .status v] := readyTrace_of_isFree rfl
  cases h with
  | off v => exact (hstatus v).append (readyTrace_queryEvents q)
  | on v es q r' _ hlink => exact (hstatus v).append (hlink.readyTrace.append (readyTrace_queryEvents q))
  | broken v es es' q r' ok c' _ hlink hdisable =>
    exact (hstatus v).append ((hlink.readyTrace.append hdisable.readyTrace).append (readyTrace_queryEvents q))

theorem ActionTrace.readyTrace (hp : p.valid = true) {params : CpParams} {rs : List Ksv} {c c' : CtlState}
    {r r' : Session} {st : Status} (h : ActionTrace p params rs c r es st c' r') : ReadyTrace p b es := by
  cases h with
  | verify _ _ _ _ hactivate => exact hactivate.readyTrace hp
  | level _ _ _ _ hlevel => exact hlevel.readyTrace hp

theorem SetTrace.readyTrace (hp : p.valid = true) {params : CpParams} {rs : List Ksv} {c c' : CtlState}
    {r r' : Session} {st : Status} {level : Word} {q : Option Byte}
    (h : SetTrace p params rs c r es st level q c' r') : ReadyTrace p b es := by
  cases h with
  | done q es c' r' haction => exact (readyTrace_queryEvents q).append (haction.readyTrace hp)
  | netted q es es' st ok c' c'' r' haction _ hdisable =>
    exact ((readyTrace_queryEvents q).append (haction.readyTrace hp)).append hdisable.readyTrace

end

/-! ## Every operation -/

theorem LevelLaw.readyTrace {s : State} (hp : s.prm.valid = true) {b on ok : Bool} {es : List Event} {u : Regs}
    (h : LevelLaw s on ok es u) : ReadyTrace s.prm b es := by
  obtain ⟨-, -, rfl, -⟩ | ⟨-, hlevel, -⟩ := h
  · exact readyTrace_nil
  · exact hlevel.readyTrace hp

/-- The operations that run enable(true). -/
def runsEnable (i : Instr) : Bool := [Instr.hdcpEnable true, .setEncryptionLevel true, .hdcpSetCpData].contains i

theorem OperationLaw.readyTrace {i : Instr} {s : State} (hp : s.prm.valid = true) {r : Result} {es : List Event}
    {u : Regs} (h : OperationLaw s r es u i) : ReadyTrace s.prm (runsEnable i) es := by
  cases i with
  | hdcpQuery | hdcpIsValidBksv | isRevoked =>
    obtain ⟨rfl, -⟩ := h
    exact readyTrace_nil
  | hdcpIsEnabled =>
    obtain ⟨rfl | ⟨v, rfl⟩, -⟩ := h
    · exact readyTrace_nil
    · exact readyTrace_of_isFree rfl
  | hdcpEnable | setEncryptionLevel =>
    obtain ⟨ok, -, hlevel⟩ := h
    exact hlevel.readyTrace hp
  | hdcpGetCpData =>
    obtain ⟨-, -, rfl, -⟩ | ⟨-, st, level, q, -, htrace, -⟩ := h
    · exact readyTrace_nil
    · exact htrace.readyTrace
  | hdcpSetCpData =>
    obtain ⟨-, -, rfl, -⟩ | ⟨-, st, level, q, rs, -, -, htrace, -⟩ := h
    · exact readyTrace_nil
    · exact htrace.readyTrace hp
  | activateRepeater =>
    obtain ⟨st, torn, -, htrace, -⟩ := h
    exact htrace.readyTrace hp
  | buildSha1Buffer =>
    obtain ⟨-, rfl, -⟩ := h
    exact readyTrace_nil
  | computeTransmitterV =>
    obtain ⟨ok, ksvs, -, -, hfeeds, -⟩ := h
    exact readyTrace_expectedFeeds hp hfeeds
  | compareVPrime =>
    obtain ⟨ok, -, htrace, -⟩ := h
    exact htrace.readyTrace
  | getLinkStatus =>
    obtain ⟨ok, -, htrace, -⟩ := h
    exact htrace.readyTrace
  | rxRead =>
    obtain ⟨rfl | ⟨-, -, rfl | ⟨bytes, rfl⟩⟩, -⟩ := h
    · exact readyTrace_nil
    · exact readyTrace_serialRead _ _ _ (readyTrace_of_isFree rfl)
    · exact readyTrace_serialRead _ _ _ readyTrace_nil
  | rxWrite =>
    obtain ⟨rfl | ⟨-, -, payload, -, rfl | rfl⟩, -⟩ := h
    · exact readyTrace_nil
    · exact readyTrace_of_isFree rfl
    · exact readyTrace_of_isFree rfl
  | rxReadVPrime =>
    obtain ⟨v, -, htrace, -⟩ := h
    exact htrace.readyTrace
  | setRepeaterPresent on =>
    obtain ⟨d, v, -, rfl, -⟩ := h
    exact readyTrace_presentWrite hp on d v
  | repeaterTeardown =>
    obtain ⟨d, m, -, rfl, -⟩ := h
    exact readyTrace_teardownEvents hp d m

/-! ## The writes of HDCP_REP in a comparison (44_repeater.md R209) -/

/-- The write of a comparison's start is its only one of HDCP_REP. -/
theorem CompareStart.before_repWrite {p : Params} {v : VWords} {es rest es1 es2 : List Event} {x : Word}
    (h : CompareStart p v es) (hrest : .cipherWrite .rep x ∉ rest)
    (heq : es ++ rest = es1 ++ .cipherWrite .rep x :: es2) :
    ∃ (xs : List Word) (y d : Word), es1 = vprimeWrites v ++ xs.map (Event.cipherRead .rep) ++
      [.cipherRead .rep y, .cipherRead .rep d] ∧ shaReady p y = true := by
  obtain ⟨d, ps, hps, rfl⟩ := h
  have hnot : Event.cipherWrite .rep x ∉ vprimeWrites v ++ ps ++ [.cipherRead .rep d] := by
    simp [vprimeWrites, hps.write_not_mem]
  have hsplit : vprimeWrites v ++ ps ++ [.cipherRead .rep d] ++
      .cipherWrite .rep (setField (controlField p) d (p.ctrlCompleteSha1.setWidth 32)) :: rest =
        es1 ++ .cipherWrite .rep x :: es2 := by simpa [fieldWrite] using heq
  obtain ⟨rfl, -⟩ := (List.append_cons_inj_of_notMem hnot hrest).1 hsplit
  obtain ⟨xs, y, -, -, hready, rfl⟩ := hps
  exact ⟨xs, y, d, by simp, hready⟩

theorem CompareTrace.before_repWrite {p : Params} {v : VWords} {es es1 es2 : List Event} {ok : Bool} {x : Word}
    (h : CompareTrace p v es ok) (heq : es = es1 ++ .cipherWrite .rep x :: es2) :
    ∃ (xs : List Word) (y d : Word), es1 = vprimeWrites v ++ xs.map (Event.cipherRead .rep) ++
      [.cipherRead .rep y, .cipherRead .rep d] ∧ shaReady p y = true := by
  cases h with
  | notReady ps hps =>
    have hnot : Event.cipherWrite .rep x ∉ vprimeWrites v ++ ps ++ [.raised (.hardwareTimeout .repeaterReady)] := by
      simp [vprimeWrites, hps.write_not_mem]
    exact absurd (heq ▸ by simp) hnot
  | ends es vs y hstart | timeout es vs hstart =>
    rw [List.append_assoc] at heq
    exact hstart.before_repWrite (by simp) heq

/-- Settles O20: an access of a run has before it what `ReadyAt` asks for, whose cases are the clauses; a comparison's
write of HDCP_REP is that of its start. -/
theorem readyBeforeUse : Obligations.ReadyBeforeUse := by
  intro i s t r es1 es2 e hinv hready hs hrun
  obtain ⟨hlaw, -⟩ := hrun.law hinv.ksvbuf.1 hinv.shabuf.1 hready hs
  have hat : ReadyAt s.prm (runsEnable i) es1 e := hlaw.readyTrace hinv.params es1 e es2 rfl
  refine ⟨?an, ?ri, ?sha, ?compare, ?complete⟩
  case an =>
    rintro reg v rfl
    exact hat
  case ri =>
    rintro hruns a rfl
    exact hat hruns rfl rfl
  case sha =>
    rintro v rfl
    exact hat
  case compare =>
    rintro rfl v rfl
    obtain ⟨ok, -, htrace, -⟩ := hlaw
    exact htrace.before_repWrite rfl
  case complete =>
    rintro es0 d v rfl rfl hv hd
    obtain ⟨es0', d', heq, hcomplete⟩ := hat
    obtain ⟨rfl, hlast⟩ := List.append_inj' heq rfl
    obtain rfl : d = d' := by simpa using hlast
    exact hcomplete hv hd

end Sys2Proof.Machine
end
